-- ==== Sys2Proof/Word.lean ====
section
/-! DEFINITION. The word types of the block (rules R5, R8, R12): 32-bit words, bytes, 16-bit
values, and the identifiers of chips, lanes and taps. -/

namespace Sys2Proof

/-- A 32-bit word: command words, interface words, counters (`WORD_BITS`, rule R5). -/
abbrev Word := BitVec 32

/-- An unsigned byte: register addresses, samples, pattern bytes, masks (rule R5). -/
abbrev Byte := BitVec 8

/-- A 16-bit value: ADC register values, lengths, iteration counts (rule R5). -/
abbrev Half := BitVec 16

/-- A delay tap, 5 bits (`TAP_BITS`, rule R5). -/
abbrev Tap := BitVec 5

/-- A chip position of the widest board, 0..7 (ChipId, rules R5 and R104). -/
abbrev ChipId := Fin 8

/-- A lane index `li = 4*lane + ch` of one chip, 0..7 (rule R12). -/
abbrev LaneId := Fin 8

/-- One value per lane of a chip (`NLI = 8`, rule R5). -/
abbrev Lanes (α : Type) := Vector α 8

/-- One value per chip position (the widest board has 8, rule R5). -/
abbrev Chips (α : Type) := Vector α 8

end Sys2Proof
end

