-- ==== Sys2Proof/Config.lean ====
section
/-! DEFINITION. What an instance of the block fixes (rules R5, R6, R64, R66) and the free values:
opaque constants, about which nothing can be proved, for everything the spec leaves open. -/

namespace Sys2Proof

/-- `CS_POLARITY` (rules R5, R64). -/
inductive Polarity where
  | activeLow
  | activeHigh
deriving DecidableEq, Repr, Inhabited

/-- The strobe word `w` and bit `b` of one lane: `strobeBit(c, li) = (w, b)` (rule R64). -/
structure StrobeBit where
  word : Nat
  bit : Nat
deriving DecidableEq, Repr, Inhabited

/-- `LAYOUT`, the board-layout descriptor (rule R64). `strobeBit` holds a row for each of 8 chip
positions; the rows at or above NCHIPS are not used. -/
structure Layout where
  sclkBit : Nat
  sdataBit : Nat
  csLsb : Nat
  primaryLockBit : Nat
  secondaryLockBit : Nat
  chipCountLsb : Nat
  chipCountWidth : Nat
  revisionLsb : Nat
  revisionWidth : Nat
  tapLsb : Nat
  slipLsb : Nat
  strobeWords : List Nat
  strobeBit : Chips (Lanes StrobeBit)
  csPolarity : Polarity
deriving DecidableEq, Repr, Inhabited

/-- One ADC register write: an 8-bit address and a 16-bit value (rule R66). -/
structure RegWrite where
  addr : Byte
  value : Half
deriving DecidableEq, Repr, Inhabited

/-- `CHIPREGS` (rule R66). `customPattern` is the map `customPatternWrites(slot, byte)` written as
a table: row `slot`, column `byte`. -/
structure ChipRegs where
  resetWrites : List RegWrite
  powerReg : Byte
  powerDownValue : Half
  powerUpValue : Half
  normalWrites : List RegWrite
  deskewWrites : List RegWrite
  syncWrites : List RegWrite
  customWrites : List RegWrite
  customPattern : List (List (List RegWrite))
deriving DecidableEq, Repr, Inhabited

/-- The parameters of one instance of the block (rule R5). -/
structure Instance where
  nchips : Nat
  snapDepth : Nat
  wrapSpan : Nat
  syncRetries : Nat
  ncustom : Nat
  rwiWords : Nat
  layout : Layout
  chipRegs : ChipRegs
deriving DecidableEq, Repr, Inhabited

namespace Config

/-- `ADDR_VALID_MAX` (rule R5): INITIALIZE skips overrides above it (rule R161). -/
def addrValidMax : Nat := 0x56

/-- `DEFAULT_DESKEW` (rule R5). -/
def defaultDeskew : Byte := 0x2A

/-- `DEFAULT_SYNC` (rule R5). -/
def defaultSync : Byte := 0x70

/-- `SECONDARY_LOCK_MIN_CHIPS` (rules R5, R252). -/
def secondaryLockMinChips : Nat := 5

/-! ## Free values -/

/-- The answer of the `n`-th draw when it is an `IsProgrammed()` query that the run's parameters do
not script (I8; log 4). -/
opaque freeProgrammed : Nat → Bool

/-- The answer of the `n`-th draw when it is an unscripted `MemRead(0, 4)` (I9, I9b; log 4). -/
opaque freeWord0 : Nat → Word

/-- Whether the `n`-th draw, an unscripted `Capture(c, len)`, fails (I7; log 4). -/
opaque freeCaptureFails : Nat → ChipId → Nat → Bool

/-- The byte of channel `ch` and index `k` in the capture that is the `n`-th draw, where the run's
parameters do not script it: `freeSample n ch k` (I7; log 4, log 5). -/
opaque freeSample : Nat → Nat → Nat → Byte

/-- What word `w` of the Register Word Interface holds before the block first writes it (I11, rule
R312; log 8). -/
opaque powerOnWord : Nat → Word

/-- The ADC registers of chip `c` at power-on: `powerOnChipRegs` (I11, rule R312; log 9). -/
opaque powerOnChipRegs : Chips (Vector Half 256)

/-- How many bits the serial receiver of chip `c` has clocked at power-on (I11, rules R80, R312;
log 9). -/
opaque powerOnCount : ChipId → Nat

/-- The shift register of the serial receiver of chip `c` at power-on (I11, rules R80, R312; log 9). -/
opaque powerOnShift : ChipId → BitVec 24

/-- The delay taps at power-on (rule R82 "Reset value: unspecified"; log 9). -/
opaque powerOnTaps : Chips (Lanes Tap)

/-- The deserializer alignment of each chip at power-on (rule R83; log 25). -/
opaque powerOnAlignment : ChipId → Nat

/-- `DESER_BITS`, the number of distinct alignments (rule R83, I6; log 25). -/
opaque deserBits : Nat

/-- The ADC registers of a chip whose serial selection did not clock exactly 24 bits, as of the
`n`-th word write (I12; log 10). -/
opaque freeChipRegs : Nat → ChipId → Vector Half 256

/-- Register `r` of chip `c` after the `n`-th word write stored a reset or power value in another of
the chip's registers (I13, rules R150, R331; log 12). -/
opaque freeChipReg : Nat → ChipId → Byte → Half

/-- The value of working register number `r` between commands, at the `n`-th draw: "their values
between commands are unspecified" (rule R22, I10; log 7). -/
opaque freeWorkReg : Nat → Nat → Word

end Config
end Sys2Proof
end

