-- ==== Sys2Proof/Syntax.lean ====
section
/-! DEFINITION. The commands of the block: one constructor per row of spec/opcode_table.json
(rules R101, R102). -/

namespace Sys2Proof

/-- One command with its operand fields as the command word holds them (rules R101, R102). -/
inductive Instr where
  /-- ILLEGAL: a word (command or payload word) that spells no command (rules R116, R282). -/
  | illegal (word : Word)
  /-- WRITE_REG addr, value (format FWR, rule R135). -/
  | writeReg (addr : Byte) (value : Half)
  /-- SET_CS_MASK mask (format FM, rule R140). -/
  | setCsMask (mask : Byte)
  /-- SET_DELAY_TAP chip, tap, lm (format FTAP, rule R175). -/
  | setDelayTap (chip : BitVec 3) (tap : Byte) (lm : Byte)
  /-- BITSLIP mask (format FM, rule R180). -/
  | bitslip (mask : Byte)
  /-- CHIP_RESET (format FN, rule R150). -/
  | chipReset
  /-- POWER_CYCLE (format FN, rule R152). -/
  | powerCycle
  /-- SELECT_PATTERN kind (format FPAT, rule R154). -/
  | selectPattern (kind : BitVec 4)
  /-- SET_CUSTOM_PATTERN slot, byte (format FCUST, rule R156). -/
  | setCustomPattern (slot : BitVec 4) (byte : Byte)
  /-- INITIALIZE with its override pairs (formats FINIT and FPAY, rules R112, R160). -/
  | initializeChips (overrides : List RegWrite)
  /-- CAPTURE chip, len (format FCAP, rule R200). -/
  | capture (chip : BitVec 3) (len : Half)
  /-- TAP_CAL chip (format FC, rule R210). -/
  | tapCal (chip : BitVec 3)
  /-- SYNC_VERIFY mask (format FM, rule R245). -/
  | syncVerify (mask : Byte)
  /-- CALIBRATE mask (format FM, rule R250). -/
  | calibrate (mask : Byte)
  /-- READ_STATUS sel, idx (format FSTAT, rule R260). -/
  | readStatus (sel : Byte) (idx : Byte)
  /-- SET_CONFIG field, value (format FCFG, rule R265). -/
  | setConfig (field : BitVec 4) (value : Half)
deriving DecidableEq, Repr

end Sys2Proof
end

