-- ==== Sys2Proof/WellFormed.lean ====
section
/-! DEFINITION. Which terms of `Instr` are instructions: those that some sequence of command words
spells. Every operand field has exactly the width of its encoding, so the only condition is the
payload count of INITIALIZE (rule R112: "n = cmd[15:0] (0..65535)"). The named checks of an
instance (rules R6, R65) are in Machine/InstanceChecks.lean. -/

namespace Sys2Proof

/-- INITIALIZE carries at most 65535 override pairs (rule R112). -/
abbrev payloadFits (overrides : List RegWrite) : Prop := overrides.length < 65536

/-- `i` is spelled by some sequence of command words (rules R101, R112). -/
def WellFormed (i : Instr) : Prop :=
  match i with
  | .illegal _ => True
  | .writeReg _ _ => True
  | .setCsMask _ => True
  | .setDelayTap _ _ _ => True
  | .bitslip _ => True
  | .chipReset => True
  | .powerCycle => True
  | .selectPattern _ => True
  | .setCustomPattern _ _ => True
  | .initializeChips overrides => payloadFits overrides
  | .capture _ _ => True
  | .tapCal _ => True
  | .syncVerify _ => True
  | .calibrate _ => True
  | .readStatus _ _ => True
  | .setConfig _ _ => True

/-- `WellFormed` as a check that runs. -/
def wellFormed (i : Instr) : Bool :=
  match i with
  | .initializeChips overrides => decide (payloadFits overrides)
  | .illegal _ | .writeReg _ _ | .setCsMask _ | .setDelayTap _ _ _ | .bitslip _ | .chipReset
  | .powerCycle | .selectPattern _ | .setCustomPattern _ _ | .capture _ _ | .tapCal _
  | .syncVerify _ | .calibrate _ | .readStatus _ _ | .setConfig _ _ => true

theorem wellFormed_iff (i : Instr) : wellFormed i = true ↔ WellFormed i := by
  cases i <;> simp [wellFormed, WellFormed]

end Sys2Proof
end

