-- ==== Sys2Proof/Decode.lean ====
section
/-! DEFINITION. The decoder, total on every list of words (rules R100, R112, R116, R119), and after
it the encoder (rules R101, R102). A word that spells no command is decoded too: to
`Instr.illegal` with the offending word, whose meaning raises ILLEGAL_COMMAND (rule R116;
log 23). -/

namespace Sys2Proof

/-- Why a list of presented words holds no whole command yet (rules R100, R112). -/
inductive DecodeError where
  /-- No word is presented. -/
  | noCommand
  /-- INITIALIZE: `missing` payload words have not been presented. -/
  | payloadIncomplete (missing : Nat)
deriving DecidableEq, Repr

/-- The opcode `cmd[31:28]` (rule R100). -/
def opcode (w : Word) : BitVec 4 := w.extractLsb' 28 4

/-- How many payload words follow the command word: `cmd[15:0]` when the opcode is 0x9, else none
(rule R100). It is so whether or not the word's reserved bits are 0 (log 13). -/
def payloadCount (w : Word) : Nat :=
  if opcode w = 0x9 then (w.extractLsb' 0 16).toNat else 0

/-- A payload word of INITIALIZE is legal when its bits 31:24 are 0 (rule R112, format FPAY). -/
def payloadLegal (p : Word) : Bool := p.extractLsb' 24 8 = 0

/-- The override pair of a payload word (format FPAY, rule R101). -/
def payloadPair (p : Word) : RegWrite :=
  { addr := p.extractLsb' 16 8, value := p.extractLsb' 0 16 }

/-- INITIALIZE from its payload words: the first illegal payload word makes the whole command
illegal (rules R112, R116, R288). -/
def buildInit (ps : List Word) : Instr :=
  match ps.find? (fun p => !payloadLegal p) with
  | some bad => .illegal bad
  | none => .initializeChips (ps.map payloadPair)

/-- One row of the opcode map (rule R102): mnemonic, match, mask, and the command built from the
fields of the word (rule R101). -/
structure OpcodeRow where
  mnemonic : String
  bits : Word
  mask : Word
  build : Word → List Word → Instr

/-- The opcode map of rule R102, in its order. -/
def opcodeMap : List OpcodeRow := [
  ⟨"ILLEGAL", 0x00000000, 0xF0000000, fun w _ => .illegal w⟩,
  ⟨"WRITE_REG", 0x10000000, 0xFF000000,
    fun w _ => .writeReg (w.extractLsb' 16 8) (w.extractLsb' 0 16)⟩,
  ⟨"SET_CS_MASK", 0x20000000, 0xFFFFFF00, fun w _ => .setCsMask (w.extractLsb' 0 8)⟩,
  ⟨"SET_DELAY_TAP", 0x30000000, 0xF8FF0000,
    fun w _ => .setDelayTap (w.extractLsb' 24 3) (w.extractLsb' 8 8) (w.extractLsb' 0 8)⟩,
  ⟨"BITSLIP", 0x40000000, 0xFFFFFF00, fun w _ => .bitslip (w.extractLsb' 0 8)⟩,
  ⟨"CHIP_RESET", 0x50000000, 0xFFFFFFFF, fun _ _ => .chipReset⟩,
  ⟨"POWER_CYCLE", 0x60000000, 0xFFFFFFFF, fun _ _ => .powerCycle⟩,
  ⟨"SELECT_PATTERN", 0x70000000, 0xFFFFFFF0, fun w _ => .selectPattern (w.extractLsb' 0 4)⟩,
  ⟨"SET_CUSTOM_PATTERN", 0x80000000, 0xFFFFF000,
    fun w _ => .setCustomPattern (w.extractLsb' 8 4) (w.extractLsb' 0 8)⟩,
  ⟨"INITIALIZE", 0x90000000, 0xFFFF0000, fun _ ps => buildInit ps⟩,
  ⟨"CAPTURE", 0xA0000000, 0xF8FF0000,
    fun w _ => .capture (w.extractLsb' 24 3) (w.extractLsb' 0 16)⟩,
  ⟨"TAP_CAL", 0xB0000000, 0xF8FFFFFF, fun w _ => .tapCal (w.extractLsb' 24 3)⟩,
  ⟨"SYNC_VERIFY", 0xC0000000, 0xFFFFFF00, fun w _ => .syncVerify (w.extractLsb' 0 8)⟩,
  ⟨"CALIBRATE", 0xD0000000, 0xFFFFFF00, fun w _ => .calibrate (w.extractLsb' 0 8)⟩,
  ⟨"READ_STATUS", 0xE0000000, 0xFFFF0000,
    fun w _ => .readStatus (w.extractLsb' 8 8) (w.extractLsb' 0 8)⟩,
  ⟨"SET_CONFIG", 0xF0000000, 0xF0FF0000,
    fun w _ => .setConfig (w.extractLsb' 24 4) (w.extractLsb' 0 16)⟩]

/-- Decoding of one whole command, its payload words in `ps` (rule R119). -/
def decodeCommand (w : Word) (ps : List Word) : Instr :=
  match opcodeMap.find? (fun r => opcode r.bits = opcode w) with
  | none => .illegal w
  | some r => if w &&& r.mask = r.bits then r.build w ps else .illegal w

/-- Takes the first whole command from the presented words: the command and the words after it
(rules R100, R112, R119). -/
def decode : List Word → Except DecodeError (Instr × List Word)
  | [] => .error .noCommand
  | w :: rest =>
    let n := payloadCount w
    if rest.length < n then .error (.payloadIncomplete (n - rest.length))
    else .ok (decodeCommand w (rest.take n), rest.drop n)

/-! ## The encoder -/

/-- A payload word (format FPAY, rule R101). -/
def encodePair (p : RegWrite) : Word := 0#8 ++ p.addr ++ p.value

/-- The words of an illegal command whose offending word is `w`: `w` itself, with as many payload
words as its length asks for, where `w` spells no command; else INITIALIZE with `w` as its one
payload word, whose bits 31:24 are not 0 because `w` has a nonzero opcode (rules R100, R116). -/
def encodeIllegal (w : Word) : List Word :=
  if decodeCommand w [] = .illegal w then w :: List.replicate (payloadCount w) 0
  else [0x90000001, w]

/-- The words of a command, from the formats of rule R101 and the opcodes of rule R102. -/
def encode : Instr → List Word
  | .illegal w => encodeIllegal w
  | .writeReg a v => [0x10#8 ++ a ++ v]
  | .setCsMask m => [0x200000#24 ++ m]
  | .setDelayTap c t lm => [0x06#5 ++ c ++ 0#8 ++ t ++ lm]
  | .bitslip m => [0x400000#24 ++ m]
  | .chipReset => [0x50000000]
  | .powerCycle => [0x60000000]
  | .selectPattern k => [0x7000000#28 ++ k]
  | .setCustomPattern n b => [0x80000#20 ++ n ++ b]
  | .initializeChips ps => (0x9000#16 ++ BitVec.ofNat 16 ps.length) :: ps.map encodePair
  | .capture c n => [0x14#5 ++ c ++ 0#8 ++ n]
  | .tapCal c => [0x16#5 ++ c ++ 0#24]
  | .syncVerify m => [0xC00000#24 ++ m]
  | .calibrate m => [0xD00000#24 ++ m]
  | .readStatus sel idx => [0xE000#16 ++ sel ++ idx]
  | .setConfig f v => [0xF#4 ++ f ++ 0#8 ++ v]

/-- The command word of a command: the information word of an ILLEGAL_COMMAND by value
(rule R117). -/
def commandWord (i : Instr) : Word := (encode i).headD 0

/-! ## Words numbered as the opcode table numbers them -/

/-- The words of the instruction whose bits are the low `nbits` bits of `w`: the first word is bits
31:0, payload word `j` is bits `32*(j+1)+31 : 32*(j+1)`, and every bit above `nbits` is 0. -/
def tableWords (nbits w : Nat) : List Word :=
  let v := w % 2 ^ nbits
  let first := BitVec.ofNat 32 v
  first :: (List.range (payloadCount first)).map (fun j => BitVec.ofNat 32 (v >>> (32 * (j + 1))))

/-- The instruction the decoder reads from an instruction whose bits are `w`, numbered as
spec/opcode_table.json numbers them. -/
def decodeTableWord (nbits w : Nat) : Option Instr :=
  match decode (tableWords nbits w) with
  | .ok (i, _) => some i
  | .error _ => none

end Sys2Proof
end

