-- ==== Sys2Proof/Machine/Bits.lean ====
section
/-! DEFINITION. The bit and value notation of rule R8, and tables with one entry per lane or per
chip. -/

namespace Sys2Proof.Machine

/-- `ones(n)` as an 8-bit mask, for n ≤ 8 (rule R8). -/
def onesMask (n : Nat) : Byte := BitVec.ofNat 8 (2 ^ n - 1)

/-- `sext_8(b)`: b if b < 128, else b - 256 (rule R8). -/
def sext8 (b : Byte) : Int := if b.toNat < 128 then (b.toNat : Int) else (b.toNat : Int) - 256

/-- The field `w[lsb+width-1 : lsb]`, zero-extended to 32 bits (rule R8). -/
def wordField (w : Word) (lsb width : Nat) : Word := (w.extractLsb' lsb width).setWidth 32

/-- A 1-bit value at bit `b` of a word, every other bit 0 (rule R8). -/
def bitAt (b : Nat) (v : Bool) : Word := if v then 1#32 <<< b else 0

/-- `w` with bit `b` replaced by `v` (rule R9, `REG[i] <- v`). -/
def writeBit (w : Word) (b : Nat) (v : Bool) : Word :=
  if v then w ||| (1#32 <<< b) else w &&& ~~~(1#32 <<< b)

/-- `m` with bit `c` replaced by `v`, for the per-chip masks (rule R9). -/
def writeMaskBit (m : Byte) (c : ChipId) (v : Bool) : Byte :=
  if v then m ||| (1#8 <<< c.val) else m &&& ~~~(1#8 <<< c.val)

/-- The table whose lane (or chip) `i` is `f i`. -/
def tabulate {α : Type} (f : Fin 8 → α) : Vector α 8 :=
  #v[f 0, f 1, f 2, f 3, f 4, f 5, f 6, f 7]

/-- The eight lane indices, ascending (rule R12). -/
def allLanes : List LaneId := [0, 1, 2, 3, 4, 5, 6, 7]

/-- The eight chip positions of the widest board, ascending (rule R105). -/
def allChips : List ChipId := [0, 1, 2, 3, 4, 5, 6, 7]

/-- The channel of a lane: `li = 4*lane + ch` (rule R12). -/
def laneChannel (li : LaneId) : Fin 4 := ⟨li.val % 4, Nat.mod_lt _ (by decide)⟩

/-- The parity of a lane, 0 = even and 1 = odd: `li = 4*lane + ch` (rule R12). -/
def laneParity (li : LaneId) : Nat := li.val / 4

/-- A ChipId from the 3-bit chip field of a command (rule R104). -/
def chipOfBits (b : BitVec 3) : ChipId := b.toFin

/-- A ChipId as the 3-bit value of CURCHIP and LAST_SWEEP.CHIP (rules R22, R34). -/
def chipBits (c : ChipId) : BitVec 3 := BitVec.ofNat 3 c.val

end Sys2Proof.Machine
end

