-- ==== Sys2Proof/Machine/State.lean ====
section
/-! DEFINITION. The state of the machine as plain data: the block's registers (10_state.md), the
command port and the response (rules R38, R300), the event trace (rule R70), the answers of the
environment (93, I7 to I9), and the board behind the Register Word Interface (rules R60, R80 to
R83). INVENTORY.md lists every field with its rule and its reset value. -/

namespace Sys2Proof.Machine

/-! ## Sequencer -/

/-- The phase register `fsm`, 4 bits (rule R21). The values 13..15 are never entered. -/
inductive Fsm where
  | idle
  | exec
  | calPattern
  | calProbe
  | calSlip
  | calSweep
  | calDecide
  | calApply
  | calDone
  | syncPattern
  | syncRound
  | syncRecheck
  | precheck
deriving DecidableEq, Repr

/-- The working registers of the sequencer (rule R22). -/
structure Work where
  curChip : BitVec 3
  tapCnt : BitVec 6
  iterCnt : Half
  retry : BitVec 5
  liCnt : BitVec 4
  bitCnt : BitVec 5
  acc : Lanes Word
  acc0 : Lanes Word
  acc31 : Lanes Word
deriving DecidableEq, Repr

/-! ## Control registers -/

/-- The host-visible control registers (rules R23 to R27). `csMask` is NCHIPS bits wide; its bits
at or above NCHIPS are 0 (log 27). -/
structure Control where
  csMask : Byte
  cfgDeskew : Byte
  cfgSync : Byte
  cfgIter : Half
  cfgSnapLen : Half
deriving DecidableEq, Repr

/-! ## Status registers -/

/-- The error codes of `STATUS.LAST_ERR` (rule R281). The codes 6..15 are never written. -/
inductive ErrCode where
  | ok
  | illegalCommand
  | invalidChipSpecifier
  | notProgrammed
  | clockNotLocked
  | captureFailed
deriving DecidableEq, Repr

/-- `STATUS` without its FSM field, which is the register `fsm`, and `ERR_INFO` (rules R28, R29). -/
structure Status where
  lastErr : ErrCode
  warnSec : Bool
  errInfo : Word
deriving DecidableEq, Repr

/-! ## Result tables -/

/-- The SyncStatus of one chip (rule R30). The value 3 is never written. -/
inductive SyncStatus where
  | notAttempted
  | synced
  | unsynced
deriving DecidableEq, Repr

/-- The CalibrationResult of one lane (rule R31). -/
inductive CalResult where
  | none
  | tap (t : Tap)
  | indEmpty
  | indWrapped
deriving DecidableEq, Repr

/-- `LAST_SWEEP` (rule R34). -/
structure LastSweep where
  valid : Bool
  chip : BitVec 3
deriving DecidableEq, Repr

/-- The result tables (rules R30 to R35). Chip positions at or above NCHIPS do not exist; they hold
their reset values (log 27). -/
structure Tables where
  syncStatus : Chips SyncStatus
  calResult : Chips (Lanes CalResult)
  goodMap : Chips (Lanes Word)
  errCount : Vector (Lanes Word) 32
  lastSweep : LastSweep
  heurSlip : Byte
deriving DecidableEq, Repr

/-! ## Response -/

/-- The data of a response (rule R38). -/
inductive ResponseData where
  /-- No data: an abort, and the commands that return none. -/
  | none
  /-- CAPTURE: four channels of signed samples (rule R200). -/
  | samples (channels : List (List Int))
  /-- TAP_CAL: the eight `CAL_RESULT[c][li]` bytes (rule R224). -/
  | calResults (bytes : List Byte)
  /-- SYNC_VERIFY and CALIBRATE: `SYNC_STATUS` (rules R245, R250). -/
  | syncStatus (value : Half)
  /-- READ_STATUS: the register value (rule R260). -/
  | value (d : Word)
deriving DecidableEq, Repr

/-- The response of a command (rule R38). -/
structure Response where
  code : ErrCode
  info : Word
  data : ResponseData
deriving DecidableEq, Repr

/-! ## Bus events and the trace -/

/-- The bus events of the block (rule R10). -/
inductive Event where
  | memWrite (w : Nat) (v : Word)
  | memRead (w : Nat)
  | capture (c : ChipId) (n : Nat)
  | isProgrammed
  | settle
deriving DecidableEq, Repr

/-- One entry of the trace: the event, with every register of the block as it was when the event was
issued, which rule R21 makes visible "to a model that observes the block between bus events". From
them Machine/AtomicStep.lean gives the states between the events (rule R7; log 2, log 29). -/
structure TraceEntry where
  event : Event
  fsm : Fsm
  work : Work
  ctl : Control
  status : Status
  tables : Tables
deriving DecidableEq, Repr

/-! ## Environment -/

/-- The sample bytes of the four channels: `S[ch][k]` (rule R190). -/
abbrev Samples := Vector (List Byte) 4

/-- An answer of the Snapshot Sampler: `Fail`, or `Ok(S)` (rule R190). -/
inductive CaptureAnswer where
  | fail
  | ok (samples : Samples)
deriving DecidableEq, Repr

/-- The answers the environment is going to give, in order, and the number of values drawn so far.
An answer that is not scripted is a free value of Config (log 4). -/
structure Env where
  programmed : List Bool
  word0 : List Word
  captures : List CaptureAnswer
  draws : Nat
deriving DecidableEq, Repr

/-! ## Board -/

/-- The words of the Register Word Interface as last written, by word index (rules R60, R71). The
list is in one canonical form: see `WordMem.wf` in Machine/Board.lean. -/
abbrev WordMem := List (Nat × Word)

/-- The serial receiver of one ADC chip: bits shifted in since it was selected, and the shift
register (rule R81). -/
structure Receiver where
  count : Nat
  shift : BitVec 24
deriving DecidableEq, Repr

/-- A reset or power cycle of an ADC chip, whose effect on the chip's other registers is "any value"
(I13, rules R150, R331): the number of the word write that stored it, and the registers stored with
a value since, itself included. Every other register of the chip is a free value (log 12). -/
structure Upset where
  stamp : Nat
  stored : List Byte
deriving DecidableEq, Repr

/-- The board behind the Register Word Interface (rules R60, R80 to R83). `sentRegs` is the reference
model of rule R81 alone: the value each ADC register was last sent. What a register holds, after
the resets and power cycles of its chip too, is `Board.chipReg` of Machine/Board.lean. -/
structure Board where
  rwi : WordMem
  writes : Nat
  receivers : Chips Receiver
  sentRegs : Chips (Vector Half 256)
  upsets : Chips (Option Upset)
  taps : Chips (Lanes Tap)
  slips : Chips Nat
deriving DecidableEq, Repr

/-- The state of the machine. `response` is that of the last command that ended, none before the first;
how long it stays is the model's choice (DESIGN CHOICE, log 30). -/
structure State where
  inst : Instance
  fsm : Fsm
  work : Work
  ctl : Control
  status : Status
  tables : Tables
  response : Option Response
  port : List Word
  trace : List TraceEntry
  env : Env
  board : Board
deriving DecidableEq, Repr

/-- Faults: what stops the machine. The spec has none: every command "ends in exactly one of two
ways", completion or abort, after both of which the block goes on (rule R280), and "A bus write or
read never fails" (rule R287). So this type has no constructor, and no step answers a fault
(safe; log 28). -/
inductive Fault where
deriving DecidableEq, Repr

/-- The named checks of an instance (rules R5, R6, R60, R64, R65, R66). -/
inductive InstanceCheck where
  /-- `NCHIPS ∈ {4, 8}` (rule R6). -/
  | nchips
  /-- `2 ≤ SNAP_DEPTH ≤ 65535` (rule R6). -/
  | snapDepth
  /-- `0 ≤ WRAP_SPAN ≤ 31` (rule R6). -/
  | wrapSpan
  /-- `SYNC_RETRIES` fits the 5-bit register RETRY, which counts 0..SYNC_RETRIES (rule R22;
  log 16). -/
  | syncRetries
  /-- `1 ≤ NCUSTOM ≤ 16` (rule R6). -/
  | ncustom
  /-- The bit positions of the layout lie in the ranges of rule R64. -/
  | ranges
  /-- `L1_word0_disjoint` (rule R65). -/
  | word0Disjoint
  /-- `L2_word1_disjoint` (rule R65). -/
  | word1Disjoint
  /-- `L3_strobe_words` (rule R65), and the list is not empty (rule R64). -/
  | strobeWords
  /-- `L4_strobe_injective` (rule R65). -/
  | strobeInjective
  /-- `L5_strobe_in_words` (rule R65). -/
  | strobeInWords
  /-- Every word index the block uses is below RWI_WORDS (rule R60). -/
  | rwiWords
  /-- The CHIPREGS addresses lie in 0x00..0x56 and the custom-pattern table has a row per slot and a
  column per byte (rule R66). -/
  | chipRegs
deriving DecidableEq, Repr

/-- Refusals: situations the model does not run. -/
inductive Refusal where
  /-- An instruction that has no meaning in the model yet; raised by no arm of `exec` (safe). -/
  | notModelled (mnemonic : String)
  /-- The instance fails a named check: "A model must refuse an instance that fails any of these
  checks; it must not run it" (rules R6, R65). Raised by `step` before it takes a command (safe). -/
  | illFormedInstance (failed : InstanceCheck)
  /-- A command is presented while `fsm ≠ IDLE`: "refuse: outside the spec" (I14, rule R300). Raised
  by `step`; no step from an idle state leads to such a state (safe). -/
  | commandWhileBusy
deriving DecidableEq, Repr

/-! ## Reset -/

/-- The same value in every lane. -/
def everyLane {α : Type} (a : α) : Lanes α := Vector.replicate 8 a

/-- The same value for every chip position. -/
def everyChip {α : Type} (a : α) : Chips α := Vector.replicate 8 a

/-- The working registers after reset: unspecified in the spec (rule R311), zero here
(DESIGN CHOICE, log 6). -/
def Work.reset : Work where
  curChip := 0
  tapCnt := 0
  iterCnt := 0
  retry := 0
  liCnt := 0
  bitCnt := 0
  acc := everyLane 0
  acc0 := everyLane 0
  acc31 := everyLane 0

/-- The control registers after reset (rules R23 to R27, R311). -/
def Control.reset (I : Instance) : Control where
  csMask := onesMask I.nchips
  cfgDeskew := Config.defaultDeskew
  cfgSync := Config.defaultSync
  cfgIter := 1
  cfgSnapLen := BitVec.ofNat 16 I.snapDepth

/-- `STATUS` and `ERR_INFO` after reset (rule R311). -/
def Status.reset : Status := { lastErr := .ok, warnSec := false, errInfo := 0 }

/-- The result tables after reset (rule R311). -/
def Tables.reset : Tables where
  syncStatus := everyChip .notAttempted
  calResult := everyChip (everyLane .none)
  goodMap := everyChip (everyLane 0)
  errCount := Vector.replicate 32 (everyLane 0)
  lastSweep := { valid := false, chip := 0 }
  heurSlip := 0

/-- No answer of the environment is scripted: every draw is a free value (log 4). -/
def Env.reset : Env := { programmed := [], word0 := [], captures := [], draws := 0 }

/-- The board when the block is reset: "unspecified until the block first writes them" (rule R312).
Registers, taps and receivers are free values, and no word is listed, which leaves its content a free
value too (log 8, log 9). -/
def Board.reset : Board where
  rwi := []
  writes := 0
  receivers := tabulate (fun c => { count := Config.powerOnCount c, shift := Config.powerOnShift c })
  sentRegs := Config.powerOnChipRegs
  upsets := everyChip none
  taps := Config.powerOnTaps
  slips := everyChip 0

/-- The machine right after block reset, for any instance (rules R310, R311, R312). -/
def State.resetOf (I : Instance) : State where
  inst := I
  fsm := .idle
  work := Work.reset
  ctl := Control.reset I
  status := Status.reset
  tables := Tables.reset
  response := .none
  port := []
  trace := []
  env := Env.reset
  board := Board.reset

/-- The example layout `EX8` (rule R67) with the default strobe map (rule R68). -/
def exampleLayout : Layout where
  sclkBit := 9
  sdataBit := 8
  csLsb := 0
  primaryLockBit := 24
  secondaryLockBit := 25
  chipCountLsb := 16
  chipCountWidth := 4
  revisionLsb := 20
  revisionWidth := 4
  tapLsb := 0
  slipLsb := 8
  strobeWords := [2, 3]
  strobeBit :=
    let row (c : Nat) : Lanes StrobeBit :=
      #v[⟨2, 4 * c⟩, ⟨2, 4 * c + 1⟩, ⟨2, 4 * c + 2⟩, ⟨2, 4 * c + 3⟩,
         ⟨3, 4 * c⟩, ⟨3, 4 * c + 1⟩, ⟨3, 4 * c + 2⟩, ⟨3, 4 * c + 3⟩]
    #v[row 0, row 1, row 2, row 3, row 4, row 5, row 6, row 7]
  csPolarity := .activeLow

/-- The example chip-register table `EXR` (rule R69). -/
def exampleChipRegs : ChipRegs where
  resetWrites := [⟨0x00, 0x0001⟩]
  powerReg := 0x0F
  powerDownValue := 0x0200
  powerUpValue := 0x0000
  normalWrites := [⟨0x25, 0x0000⟩, ⟨0x45, 0x0000⟩]
  deskewWrites := [⟨0x25, 0x0000⟩, ⟨0x45, 0x0001⟩]
  syncWrites := [⟨0x25, 0x0000⟩, ⟨0x45, 0x0002⟩]
  customWrites := [⟨0x25, 0x0010⟩, ⟨0x45, 0x0000⟩]
  customPattern :=
    let row (a : Byte) : List (List RegWrite) :=
      (List.range 256).map (fun b => [⟨a, BitVec.ofNat 16 (b * 256)⟩])
    [row 0x26, row 0x27]

/-- The instance of the spec's own test vectors: NCHIPS = 8, SNAP_DEPTH = 1024, WRAP_SPAN = 16,
SYNC_RETRIES = 8, EX8, EXR (95_test_vectors.md, opening), with RWI_WORDS = 4
(DESIGN CHOICE, log 1). -/
def exampleInstance : Instance where
  nchips := 8
  snapDepth := 1024
  wrapSpan := 16
  syncRetries := 8
  ncustom := 2
  rwiWords := 4
  layout := exampleLayout
  chipRegs := exampleChipRegs

/-- The machine right after block reset. The OPEN parameters are those of the spec's test vectors
(DESIGN CHOICE, log 1); `State.resetOf` is the same state for any instance. -/
def State.reset : State := State.resetOf exampleInstance

end Sys2Proof.Machine
end

