-- ==== Sys2Proof/Machine/Board.lean ====
section
/-! DEFINITION. The words of the Register Word Interface and the reference models of the devices
behind it (rules R60, R71, R73, R80 to R83). The devices act only when the block writes a word. -/

namespace Sys2Proof.Machine

/-! ## Words as last written -/

/-- The canonical form: word indices strictly rising. An unlisted word reads as nothing, which no entry
can equal. The unit is the 32-bit word (rules R71, R74; log 20). -/
abbrev WordMem.wf (m : WordMem) : Prop := m.Pairwise (fun a b => a.1 < b.1)

/-- The value word `w` was last written with; nothing when the block has not written it
(rules R71, R312; log 8). -/
def WordMem.read : WordMem → Nat → Option Word
  | [], _ => none
  | (a, v) :: rest, w => if a = w then some v else WordMem.read rest w

/-- The list with word `w` entered before the first higher index, or in place of its old value. -/
def WordMem.write : WordMem → Nat → Word → WordMem
  | [], w, v => [(w, v)]
  | (a, u) :: rest, w, v =>
    if w < a then (w, v) :: (a, u) :: rest
    else if w = a then (w, v) :: rest
    else (a, u) :: WordMem.write rest w v

/-- What word `w` holds on its lines: its last written value, and before the first write a free value
(rules R71, R312; log 8). Only the devices see it; the block never reads a word back. -/
def Board.held (b : Board) (w : Nat) : Word := (b.rwi.read w).getD (Config.powerOnWord w)

/-! ## Devices -/

/-- Chip `c` is on the board. -/
abbrev chipPresent (I : Instance) (c : ChipId) : Bool := decide (c.val < I.nchips)

/-- The CS line of chip `c` in word 0 is at its asserted level (rule R81). -/
def chipSelected (L : Layout) (w0 : Word) (c : ChipId) : Bool :=
  match L.csPolarity with
  | .activeLow => !w0.getLsbD (L.csLsb + c.val)
  | .activeHigh => w0.getLsbD (L.csLsb + c.val)

/-- A write of a word that changes bit `b` from 0 to 1. -/
def rises (b : Nat) (old new : Word) : Bool := new.getLsbD b && !old.getLsbD b

/-- A receiver with one more bit, the SDATA of the write (rule R81). -/
def Receiver.shiftIn (L : Layout) (new : Word) (r : Receiver) : Receiver where
  count := r.count + 1
  shift := (r.shift <<< 1) ||| (BitVec.ofBool (new.getLsbD L.sdataBit)).setWidth 24

/-- The receiver with the bits of the selection a write of word 0 finds it in: none when the chip is not
selected before the write, since they are counted from where the chip becomes selected (rule R81). -/
def Receiver.current (L : Layout) (old : Word) (c : ChipId) (r : Receiver) : Receiver :=
  if chipSelected L old c then r else { r with count := 0 }

/-- What a write of word 0, `old` to `new`, does to the serial receiver of one chip: its receiver
state (rule R81). The select line is taken at its new level (log 11). -/
def Receiver.step (L : Layout) (old new : Word) (c : ChipId) (r : Receiver) : Receiver :=
  if chipSelected L new c then
    if rises L.sclkBit old new then (r.current L old c).shiftIn L new else r.current L old c
  else { r with count := 0 }

/-- The register write that a receiver holds: the address in its upper 8 bits, the value in its lower
16 (rule R81). -/
def Receiver.regWrite (r : Receiver) : RegWrite where
  addr := r.shift.extractLsb' 16 8
  value := r.shift.extractLsb' 0 16

/-- The register write that a write of word 0 completes: it clocks the 24th bit of a selection
(rule R81). -/
def Receiver.completes (L : Layout) (old new : Word) (c : ChipId) (r : Receiver) : Option RegWrite :=
  let next := (r.current L old c).shiftIn L new
  if chipSelected L new c && rises L.sclkBit old new && decide (next.count = 24)
  then some next.regWrite else none

/-- Whether the chip is in a selection that is malformed if it ends now: in it another number of bits than
24 was clocked, none at all among them (rule R81, I12). -/
def Receiver.endsMalformed (L : Layout) (old : Word) (c : ChipId) (r : Receiver) : Bool :=
  chipSelected L old c && decide (r.count ≠ 24)

/-- Whether a write of word 0 makes the selection malformed: it ends it with fewer bits than 24, or
clocks a bit past the 24th (rule R81, I12). -/
def Receiver.malformed (L : Layout) (old new : Word) (c : ChipId) (r : Receiver) : Bool :=
  if chipSelected L new c then
    rises L.sclkBit old new && decide (24 ≤ (r.current L old c).count)
  else r.endsMalformed L old c

/-- What a write of word 0 does to the registers of one chip under rule R81 alone: the 24th bit of a
selection stores the value; a malformed selection leaves them unspecified, a free value (I12;
log 10). -/
def Receiver.stepRegs (L : Layout) (n : Nat) (old new : Word) (c : ChipId) (r : Receiver)
    (regs : Vector Half 256) : Vector Half 256 :=
  if r.malformed L old new c then Config.freeChipRegs n c
  else
    match r.completes L old new c with
    | none => regs
    | some p => regs.set p.addr.toNat p.value p.addr.isLt

/-- A register write that resets or power-cycles the chip that takes it: one of those CHIP_RESET and
POWER_CYCLE send (rules R66, R150, R152). A chip cannot tell which command sent it (log 12). -/
def chipUpset (R : ChipRegs) (p : RegWrite) : Bool :=
  decide (p ∈ R.resetWrites ∨
    p.addr = R.powerReg ∧ (p.value = R.powerDownValue ∨ p.value = R.powerUpValue))

/-- What a register write, the `n`-th word write, does to the registers of the chip beside the one it
stores: a reset or a power cycle leaves them unspecified (I13, rules R150, R331; log 12). -/
def upsetAfter (R : ChipRegs) (n : Nat) (p : RegWrite) (u : Option Upset) : Option Upset :=
  if chipUpset R p then some { stamp := n, stored := [p.addr] }
  else u.map (fun x => { x with stored := x.stored.insert p.addr })

/-- What a write of word 0 does to the record of a chip's last reset or power cycle: a register write
that completes is taken into account; a malformed selection ends the record, since it leaves all
registers of the chip unspecified, those it was reset to among them (I12, I13; log 10, log 12). -/
def Receiver.stepUpset (L : Layout) (R : ChipRegs) (n : Nat) (old new : Word) (c : ChipId)
    (r : Receiver) (u : Option Upset) : Option Upset :=
  if r.malformed L old new c then none
  else
    match r.completes L old new c with
    | none => u
    | some p => upsetAfter R n p u

/-- What register `r` of chip `c` holds: the value it was last sent (rule R81), or, when the chip was
reset or power-cycled since, a free value (I13; log 12). -/
def Board.chipReg (b : Board) (c : ChipId) (r : Byte) : Half :=
  match b.upsets[c] with
  | none => b.sentRegs[c][r.toNat]'r.isLt
  | some u =>
    if r ∈ u.stored then b.sentRegs[c][r.toNat]'r.isLt else Config.freeChipReg u.stamp c r

/-- A write of word `w` with value `v` acts on the serial receivers (word 0, rule R81), on the
delay elements (strobe words, rule R82) and on the deserializers (word 1, rule R83), and is then
the word's last written value (rule R71). -/
def Board.write (I : Instance) (w : Nat) (v : Word) (b : Board) : Board :=
  let L := I.layout
  let old := b.held w
  { rwi := b.rwi.write w v
    writes := b.writes + 1
    receivers :=
      if w = 0 then
        tabulate (fun c =>
          if chipPresent I c then b.receivers[c].step L old v c else b.receivers[c])
      else b.receivers
    sentRegs :=
      if w = 0 then
        tabulate (fun c =>
          if chipPresent I c then b.receivers[c].stepRegs L b.writes old v c b.sentRegs[c]
          else b.sentRegs[c])
      else b.sentRegs
    upsets :=
      if w = 0 then
        tabulate (fun c =>
          if chipPresent I c then
            b.receivers[c].stepUpset L I.chipRegs b.writes old v c b.upsets[c]
          else b.upsets[c])
      else b.upsets
    taps :=
      if w ∈ L.strobeWords then
        tabulate (fun c => tabulate (fun li =>
          if chipPresent I c && decide (L.strobeBit[c][li].word = w)
              && v.getLsbD L.strobeBit[c][li].bit then
            (b.held 1).extractLsb' L.tapLsb 5
          else b.taps[c][li]))
      else b.taps
    slips :=
      if w = 1 then
        tabulate (fun c =>
          if chipPresent I c && rises (L.slipLsb + c.val) old v then b.slips[c] + 1 else b.slips[c])
      else b.slips }

/-- The word-framing alignment of chip `c` (rule R83): its alignment at power-on advanced by the
pulses since then, among `DESER_BITS` alignments (log 25). -/
def Board.alignment (b : Board) (c : ChipId) : Nat :=
  (Config.powerOnAlignment c + b.slips[c]) % Config.deserBits

end Sys2Proof.Machine
end

