-- ==== Sys2Proof/Machine/Operands.lean ====
section
/-! DEFINITION. Operand forms: chip fields and masks (rules R104, R105), field values that are
illegal (rules R108 to R111, R117), the values of the words the block writes (rules R130, R131,
R170, R171, R177), the register writes of CHIPREGS (rule R66) and the fields of word 0 (rule
R262). -/

namespace Sys2Proof.Machine

/-! ## Chips and masks -/

/-- A chip field names a chip of the board (rule R104). -/
abbrev chipValid (I : Instance) (chip : BitVec 3) : Prop := chip.toNat < I.nchips

/-- No bit of a chip mask lies at or above NCHIPS: `mask[7:NCHIPS] = 0` (rule R105). -/
abbrev maskValid (I : Instance) (mask : Byte) : Prop := mask &&& ~~~(onesMask I.nchips) = 0

/-- The chips of a mask, in ascending order (rule R105). -/
def chipsOf (I : Instance) (mask : Byte) : List ChipId :=
  allChips.filter (fun c => decide (c.val < I.nchips) && mask.getLsbD c.val)

/-! ## Word values -/

/-- `csActive(m)` (rule R130). -/
def csActive (I : Instance) (m : Byte) : Byte :=
  match I.layout.csPolarity with
  | .activeLow => ~~~m &&& onesMask I.nchips
  | .activeHigh => m

/-- `csIdle` (rule R130). -/
def csIdle (I : Instance) : Byte :=
  match I.layout.csPolarity with
  | .activeLow => onesMask I.nchips
  | .activeHigh => 0

/-- `frame(s, d, cs)`: every bit of word 0 outside the three serial fields is 0 (rule R130). -/
def frame (L : Layout) (s d : Bool) (cs : Byte) : Word :=
  bitAt L.sclkBit s ||| bitAt L.sdataBit d ||| (cs.setWidth 32 <<< L.csLsb)

/-- The idle frame: clock high, data low, every chip de-selected (rule R131). -/
def idleFrame (I : Instance) : Word := frame I.layout true false (csIdle I)

/-- The j-th bit transmitted by `WriteRegister(a, v)`: the address, then the value, both most
significant bit first (rules R132, R133). -/
def serialBit (a : Byte) (v : Half) (j : Nat) : Bool :=
  if j < 8 then a.getLsbD (7 - j) else v.getLsbD (23 - j)

/-- `tapWord(t)` (rule R171); the 8-bit tap operand is masked to 5 bits (rule R106). -/
def tapWord (L : Layout) (t : Byte) : Word := ((t &&& 0x1F).setWidth 32) <<< L.tapLsb

/-- `strobeValue(w, c, lm)` (rule R170). -/
def strobeValue (L : Layout) (w : Nat) (c : ChipId) (lm : Byte) : Word :=
  allLanes.foldl
    (fun acc li =>
      if lm.getLsbD li.val && decide (L.strobeBit[c][li].word = w)
      then acc ||| bitAt L.strobeBit[c][li].bit true else acc) 0

/-- The word-1 value with only chip `c`'s bitslip bit set (rule R177). -/
def slipWord (L : Layout) (c : ChipId) : Word := bitAt (L.slipLsb + c.val) true

/-! ## Patterns -/

/-- The pattern kinds (rule R108). -/
inductive PatternKind where
  | normal
  | deskew
  | sync
  | custom
deriving DecidableEq, Repr

/-- The pattern kind of a `kind` field; values 4..15 are illegal (rules R108, R117). -/
def patternKind (kind : BitVec 4) : Option PatternKind :=
  match kind.toNat with
  | 0 => some .normal
  | 1 => some .deskew
  | 2 => some .sync
  | 3 => some .custom
  | _ => none

/-- `CHIPREGS.patternWrites(kind)` (rule R66). -/
def patternWrites (R : ChipRegs) : PatternKind → List RegWrite
  | .normal => R.normalWrites
  | .deskew => R.deskewWrites
  | .sync => R.syncWrites
  | .custom => R.customWrites

/-- `CHIPREGS.customPatternWrites(slot, byte)` (rule R66). -/
def customPatternWrites (R : ChipRegs) (slot : BitVec 4) (byte : Byte) : List RegWrite :=
  (R.customPattern.getD slot.toNat []).getD byte.toNat []

/-- A custom-pattern slot of the instance (rules R109, R117). -/
abbrev slotLegal (I : Instance) (slot : BitVec 4) : Prop := slot.toNat < I.ncustom

/-- An override that INITIALIZE writes: its address is in 0x00..0x56 (rules R160, R161). -/
abbrev overrideKept (p : RegWrite) : Bool := decide (p.addr.toNat ≤ Config.addrValidMax)

/-! ## Lengths, register map, configuration fields -/

/-- A legal CAPTURE length (rules R110, R117). -/
abbrev lenLegal (I : Instance) (len : Half) : Prop := len.toNat ≠ 0 ∧ len.toNat ≤ I.snapDepth

/-- `inMap(sel, idx)` (rule R261). -/
def inMap (I : Instance) (sel idx : Byte) : Bool :=
  match sel.toNat with
  | 0 => decide (idx.toNat ≤ 1)
  | 1 => decide (idx.toNat = 0)
  | 2 => decide (idx.toNat ≤ 3)
  | 3 => decide (idx.toNat = 0)
  | 4 => decide (idx.toNat < 8 * I.nchips)
  | 5 => decide (idx.toNat < 8 * I.nchips)
  | 6 => true
  | 7 => decide (idx.toNat ≤ 3)
  | 8 => decide (idx.toNat = 0)
  | 9 => decide (idx.toNat = 0)
  | _ => false

/-- `idx div 8` of a chip-and-lane index below 64 (rule R260). -/
def idxChip (idx : Byte) : ChipId := (idx.extractLsb' 3 3).toFin

/-- `idx div 8` of a tap-and-lane index (rule R260). -/
def idxTap (idx : Byte) : Fin 32 := (idx.extractLsb' 3 5).toFin

/-- `idx mod 8` (rule R260). -/
def idxLane (idx : Byte) : LaneId := (idx.extractLsb' 0 3).toFin

/-- A legal (field, value) pair of SET_CONFIG (rules R111, R265). -/
def configLegal (I : Instance) (field : BitVec 4) (value : Half) : Bool :=
  match field.toNat with
  | 0 => decide (value.toNat ≤ 0xFF)
  | 1 => decide (value.toNat ≤ 0xFF)
  | 2 => decide (value.toNat ≠ 0)
  | 3 => decide (2 ≤ value.toNat ∧ value.toNat ≤ I.snapDepth)
  | _ => false

/-! ## Status fields of word 0 -/

/-- The primary clock-lock bit of a word-0 value (rule R262). -/
def primaryLock (L : Layout) (w : Word) : Bool := w.getLsbD L.primaryLockBit

/-- The secondary clock-lock bit of a word-0 value (rule R262). -/
def secondaryLock (L : Layout) (w : Word) : Bool := w.getLsbD L.secondaryLockBit

/-- `chipCount(w)`: the compiled-chip-count field, not capped (rule R262). -/
def chipCount (L : Layout) (w : Word) : Word := wordField w L.chipCountLsb L.chipCountWidth

/-- `board(w, j)` for j in 0..3 (rule R262). -/
def boardField (L : Layout) (w : Word) (j : Nat) : Word :=
  match j with
  | 0 => (BitVec.ofBool (primaryLock L w)).setWidth 32
  | 1 => (BitVec.ofBool (secondaryLock L w)).setWidth 32
  | 2 => chipCount L w
  | _ => wordField w L.revisionLsb L.revisionWidth

/-- The chips CALIBRATE works on: `n = min(chipCount(w0), NCHIPS)` (rule R253). -/
def calibrateCount (I : Instance) (w0 : Word) : Nat :=
  min (chipCount I.layout w0).toNat I.nchips

end Sys2Proof.Machine
end

