-- ==== Sys2Proof/Machine/Flags.lean ====
section
/-! DEFINITION. The status register and the other packed values: STATUS (rule R28), the error codes
and information words (rules R281, R285), SYNC_STATUS (rule R30), CAL_RESULT bytes (rule R31),
LAST_SWEEP (rule R34). These registers are held by field and packed when they are read (log 22). -/

namespace Sys2Proof.Machine

/-- The encoding of `fsm` (rule R21). -/
def Fsm.code : Fsm → BitVec 4
  | .idle => 0
  | .exec => 1
  | .calPattern => 2
  | .calProbe => 3
  | .calSlip => 4
  | .calSweep => 5
  | .calDecide => 6
  | .calApply => 7
  | .calDone => 8
  | .syncPattern => 9
  | .syncRound => 10
  | .syncRecheck => 11
  | .precheck => 12

/-- The error codes (rule R281). -/
def ErrCode.code : ErrCode → BitVec 4
  | .ok => 0
  | .illegalCommand => 1
  | .invalidChipSpecifier => 2
  | .notProgrammed => 3
  | .clockNotLocked => 4
  | .captureFailed => 5

/-- The 32-bit value of STATUS: LAST_ERR in 3:0, WARN_SEC in 4, FSM in 11:8, every other bit 0
(rule R28). -/
def statusWord (st : Status) (f : Fsm) : Word :=
  0#20 ++ f.code ++ 0#3 ++ BitVec.ofBool st.warnSec ++ st.lastErr.code

/-- The 2-bit encoding of a SyncStatus (rule R30). -/
def SyncStatus.code : SyncStatus → BitVec 2
  | .notAttempted => 0
  | .synced => 1
  | .unsynced => 2

/-- `SYNC_STATUS`: chip c at bits 2c+1 : 2c (rule R30). -/
def syncStatusWord (v : Chips SyncStatus) : Half :=
  v[7].code ++ v[6].code ++ v[5].code ++ v[4].code ++ v[3].code ++ v[2].code ++ v[1].code
    ++ v[0].code

/-- The 8-bit encoding of a CalibrationResult: KIND in 7:6, bit 5 zero, TAP in 4:0 (rule R31). -/
def CalResult.byte : CalResult → Byte
  | .none => 0x00
  | .tap t => 1#2 ++ 0#1 ++ t
  | .indEmpty => 0x80
  | .indWrapped => 0xC0

/-- The 8-bit value of LAST_SWEEP: VALID in 7, CHIP in 2:0 (rule R34). -/
def LastSweep.byte (l : LastSweep) : Byte := BitVec.ofBool l.valid ++ 0#4 ++ l.chip

/-- `captureInfo(c)`, the information word of CAPTURE_FAILED: the chip in 2:0, the position in 15:8,
the phase in 19:16; the position is RETRY in the synchronization phases and TAPCNT elsewhere
(rule R285). -/
def captureInfo (c : ChipId) (f : Fsm) (w : Work) : Word :=
  let pos : Word :=
    if f = .syncRound ∨ f = .syncRecheck then w.retry.setWidth 32 else w.tapCnt.setWidth 32
  BitVec.ofNat 32 c.val ||| (pos <<< 8) ||| (f.code.setWidth 32 <<< 16)

/-- WARN_SEC as CALIBRATE computes it: the secondary clock-lock bit is expected, because
n ≥ SECONDARY_LOCK_MIN_CHIPS, and is 0 (rule R252). -/
def warnSecondary (I : Instance) (w0 : Word) : Bool :=
  decide (Config.secondaryLockMinChips ≤ calibrateCount I w0) && !secondaryLock I.layout w0

end Sys2Proof.Machine
end

