-- ==== Sys2Proof/Machine/Update.lean ====
section
/-! DEFINITION. The named updates of State. Laws/State.lean gives, for each of them, one lemma per
field. -/

namespace Sys2Proof.Machine

/-- `fsm <- f` (rule R9). -/
def State.setFsm (f : Fsm) (s : State) : State := { s with fsm := f }

/-- An update of the working registers (rule R22). -/
def State.mapWork (f : Work → Work) (s : State) : State := { s with work := f s.work }

/-- An update of the control registers (rules R23 to R27). -/
def State.mapCtl (f : Control → Control) (s : State) : State := { s with ctl := f s.ctl }

/-- An update of the status registers (rules R28, R29). -/
def State.mapStatus (f : Status → Status) (s : State) : State := { s with status := f s.status }

/-- An update of the result tables (rules R30 to R35). -/
def State.mapTables (f : Tables → Tables) (s : State) : State := { s with tables := f s.tables }

/-- The response of the command that ends (rule R38). It is no register of the block (rule R20); that it
stays in State until the next command ends, and is none before the first, is the model's choice
(DESIGN CHOICE, log 30). -/
def State.respond (r : Response) (s : State) : State := { s with response := some r }

/-- The words the host presents from now on (rule R300). -/
def State.setPort (ws : List Word) (s : State) : State := { s with port := ws }

/-- An update of the environment's answers (I7 to I9). -/
def State.mapEnv (f : Env → Env) (s : State) : State := { s with env := f s.env }

/-- An update of the board behind the Register Word Interface (rule R80). -/
def State.mapBoard (f : Board → Board) (s : State) : State := { s with board := f s.board }

/-- A trace entry for an event issued in state `s` (rules R21, R70). -/
def State.entry (e : Event) (s : State) : TraceEntry where
  event := e
  fsm := s.fsm
  work := s.work
  ctl := s.ctl
  status := s.status
  tables := s.tables

/-- Records a bus event, with the registers of the block in force (rules R10, R21, R70). -/
def State.emit (e : Event) (s : State) : State := { s with trace := s.entry e :: s.trace }

/-- The bus events performed so far, in issue order (rule R70). -/
def State.events (s : State) : List Event := (s.trace.map TraceEntry.event).reverse

end Sys2Proof.Machine
end

