-- ==== Sys2Proof/Machine/Ops.lean ====
section
/-! DEFINITION. The named operations every command is made of: the bus events (rule R10), the end
of a command by completion or by abort (rules R289, R290), and the helpers WriteRegister (R132),
SetDelayTap (R172), BitslipPulse (R177), Capture (R190) and CountErrors (R195). -/

namespace Sys2Proof.Machine

/-! ## Bus events -/

/-- `MemWrite(w, 4, v)` (rules R10, R71). -/
def State.memWrite (w : Nat) (v : Word) (s : State) : State :=
  (s.emit (.memWrite w v)).mapBoard (fun b => b.write s.inst w v)

/-- The same value written to each word of a list, in order. -/
def State.memWriteEach (ws : List Nat) (v : Nat → Word) (s : State) : State :=
  ws.foldl (fun s w => s.memWrite w (v w)) s

/-- `Settle()`: it changes no state (rules R10, R320; log 24). -/
def State.settle (s : State) : State := s.emit .settle

/-- What `IsProgrammed()` answers next (I8; log 4). -/
def State.nextProgrammed (s : State) : Bool :=
  match s.env.programmed with
  | b :: _ => b
  | [] => Config.freeProgrammed s.env.draws

/-- `IsProgrammed()`: the event, and the answer is used up (rule R10). -/
def State.askProgrammed (s : State) : State :=
  (s.emit .isProgrammed).mapEnv
    (fun e => { e with programmed := e.programmed.tail, draws := e.draws + 1 })

/-- What `MemRead(0, 4)` answers next: a draw, whatever was last written (rule R72; log 4,
log 32). -/
def State.nextWord0 (s : State) : Word :=
  match s.env.word0 with
  | w :: _ => w
  | [] => Config.freeWord0 s.env.draws

/-- `MemRead(0, 4)`: the event, and the answer is used up; no other effect (rules R10, R72). -/
def State.readWord0 (s : State) : State :=
  (s.emit (.memRead 0)).mapEnv (fun e => { e with word0 := e.word0.tail, draws := e.draws + 1 })

/-- The `n` samples of channel `ch` in the capture that is draw number `d`: the scripted bytes, and
free values past their end, so that a capture is never short (rule R190; log 5). -/
def fullChannel (d ch : Nat) (scripted : List Byte) (n : Nat) : List Byte :=
  (List.range n).map (fun k => scripted.getD k (Config.freeSample d ch k))

/-- A whole capture of `n` samples per channel (rule R190). -/
def fullSamples (d : Nat) (scripted : Samples) (n : Nat) : Samples :=
  #v[fullChannel d 0 scripted[0] n, fullChannel d 1 scripted[1] n,
     fullChannel d 2 scripted[2] n, fullChannel d 3 scripted[3] n]

/-- What `Capture(c, n)` answers next (rule R190, I7; log 4). -/
def State.nextCapture (c : ChipId) (n : Nat) (s : State) : CaptureAnswer :=
  match s.env.captures with
  | .fail :: _ => .fail
  | .ok scripted :: _ => .ok (fullSamples s.env.draws scripted n)
  | [] =>
    if Config.freeCaptureFails s.env.draws c n then .fail
    else .ok (fullSamples s.env.draws (Vector.replicate 4 []) n)

/-- `Capture(c, n)`: the event, and the answer is used up (rule R10). -/
def State.takeCapture (c : ChipId) (n : Nat) (s : State) : State :=
  (s.emit (.capture c n)).mapEnv
    (fun e => { e with captures := e.captures.tail, draws := e.draws + 1 })

/-! ## The end of a command -/

/-- The working registers between commands: unspecified, so a free value (rule R22, I10; log 7). -/
def Work.free (n : Nat) : Work where
  curChip := (Config.freeWorkReg n 0).setWidth 3
  tapCnt := (Config.freeWorkReg n 1).setWidth 6
  iterCnt := (Config.freeWorkReg n 2).setWidth 16
  retry := (Config.freeWorkReg n 3).setWidth 5
  liCnt := (Config.freeWorkReg n 4).setWidth 4
  bitCnt := (Config.freeWorkReg n 5).setWidth 5
  acc := tabulate (fun li => Config.freeWorkReg n (6 + li.val))
  acc0 := tabulate (fun li => Config.freeWorkReg n (14 + li.val))
  acc31 := tabulate (fun li => Config.freeWorkReg n (22 + li.val))

/-- The block is IDLE again and its working registers are unspecified (rules R21, R22, R290). -/
def State.endCommand (s : State) : State :=
  ((s.setFsm .idle).mapWork (fun _ => Work.free s.env.draws)).mapEnv
    (fun e => { e with draws := e.draws + 1 })

/-- The status update of a command that ends with code `e` and information word `info`
(rule R289). -/
def Status.ended (e : ErrCode) (info : Word) (st : Status) : Status :=
  { st with lastErr := e, errInfo := info }

/-- TAKING AN ERROR, the block's only exception: the command aborts with code `e` and information
word `info` (rules R289, R290). LAST_ERR and ERR_INFO are written, `fsm <- IDLE`, the response
carries the code, the information word and no data; nothing is rolled back. -/
def State.raise (e : ErrCode) (info : Word) (s : State) : State :=
  ((s.mapStatus (Status.ended e info)).respond { code := e, info := info, data := .none }).endCommand

/-- THE OTHER END OF A COMMAND: it completes with data (rules R38, R289). There is no return from an
error other than the next command (rule R292). -/
def State.complete (data : ResponseData) (s : State) : State :=
  ((s.mapStatus (Status.ended .ok 0)).respond { code := .ok, info := 0, data := data }).endCommand

/-- A command so far: it goes on from a state, or it has aborted with a code and an information
word (rule R280). -/
inductive Run where
  | done (s : State)
  | abort (e : ErrCode) (info : Word) (s : State)

/-- What follows a part of a command that can abort: nothing after an abort (rules R290, R292). -/
def Run.andThen (r : Run) (k : State → Run) : Run :=
  match r with
  | .done s => k s
  | .abort e info s => .abort e info s

/-- The end of a command: completion with the data read from the last state, or the abort
(rule R280). -/
def Run.finish (r : Run) (data : State → ResponseData) : State :=
  match r with
  | .done s => s.complete (data s)
  | .abort e info s => s.raise e info

/-- `r <- Capture(c, n); if r = Fail: raise CAPTURE_FAILED(captureInfo(c))`, then `k` on the samples
(rules R195, R200, R240). -/
def captureOrAbort (c : ChipId) (n : Nat) (s : State) (k : Samples → State → Run) : Run :=
  match s.nextCapture c n with
  | .fail => .abort .captureFailed (captureInfo c s.fsm s.work) (s.takeCapture c n)
  | .ok S => k S (s.takeCapture c n)

/-! ## The serial write helper -/

/-- The two bit frames of the j-th bit of a transaction (rule R132). BITCNT names the bit
(rule R22; log 15). -/
def State.sendBit (cs : Byte) (a : Byte) (v : Half) (s : State) (j : Nat) : State :=
  ((s.mapWork (fun w => { w with bitCnt := BitVec.ofNat 5 j })).memWrite 0
      (frame s.inst.layout false (serialBit a v j) cs)).memWrite 0
      (frame s.inst.layout true (serialBit a v j) cs)

/-- `WriteRegister(a, v)`: idle frame, 24 bits of two frames each, idle frame (rule R132). It reads
CS_MASK once, at its start, as rules R132, R134 and R141 say; rule R136 says that WRITE_REG "does not
read or change CS_MASK", and no ruling settles the two (DEDUCED, log 21). -/
def State.writeRegister (a : Byte) (v : Half) (s : State) : State :=
  let cs := csActive s.inst s.ctl.csMask
  let opened := (s.mapWork (fun w => { w with bitCnt := 0 })).memWrite 0 (idleFrame s.inst)
  let sent := (List.range 24).foldl (State.sendBit cs a v) opened
  (sent.mapWork (fun w => { w with bitCnt := 24 })).memWrite 0 (idleFrame s.inst)

/-- A list of register writes, in order (rule R66). -/
def State.writeRegisters (ps : List RegWrite) (s : State) : State :=
  ps.foldl (fun s p => s.writeRegister p.addr p.value) s

/-! ## Delay taps and bitslip -/

/-- `SetDelayTap(c, t, lm)` (rule R172). -/
def State.setDelayTap (c : ChipId) (t : Byte) (lm : Byte) (s : State) : State :=
  let L := s.inst.layout
  let cleared := s.memWriteEach L.strobeWords (fun _ => 0)
  let onBus := cleared.memWrite 1 (tapWord L t)
  let pulsed := onBus.memWriteEach L.strobeWords (fun w => strobeValue L w c lm)
  (pulsed.memWriteEach L.strobeWords (fun _ => 0)).settle

/-- `BitslipPulse(c)` (rule R177). -/
def State.bitslipPulse (c : ChipId) (s : State) : State :=
  (((s.memWrite 1 0).memWrite 1 (slipWord s.inst.layout c)).memWrite 1 0).settle

/-! ## The error counter -/

/-- A sample matches an expected byte: both are compared in signed form (rule R192). -/
def sampleMatches (b x : Byte) : Bool := decide (sext8 b = sext8 x)

/-- How many samples of lane `li` mismatch the expected byte: sample k of a channel belongs to the
lane of parity `k mod 2` (rules R191, R195). -/
def laneErrors (S : Samples) (x : Byte) (li : LaneId) : Nat :=
  S[laneChannel li].zipIdx.countP (fun e => decide (e.2 % 2 = laneParity li) && !sampleMatches e.1 x)

/-- The accumulators after one capture (rule R195). -/
def addErrors (S : Samples) (x : Byte) (acc : Lanes Word) : Lanes Word :=
  tabulate (fun li => acc[li] + BitVec.ofNat 32 (laneErrors S x li))

/-- The remaining iterations of an error count (rule R195). ITERCNT is advanced before each capture,
so that it runs 1..CFG_ITER. -/
def countLoop (c : ChipId) (x : Byte) : Nat → State → Run
  | 0, s => .done s
  | k + 1, s =>
    captureOrAbort c s.ctl.cfgSnapLen.toNat
      (s.mapWork (fun w => { w with iterCnt := w.iterCnt + 1 }))
      (fun S s' => countLoop c x k (s'.mapWork (fun w => { w with acc := addErrors S x w.acc })))

/-- `CountErrors(c, x)`; the counts are in ACC (rule R195). -/
def countErrors (c : ChipId) (x : Byte) (s : State) : Run :=
  countLoop c x s.ctl.cfgIter.toNat
    (s.mapWork (fun w => { w with acc := everyLane 0, iterCnt := 0 }))

end Sys2Proof.Machine
end

