-- ==== Sys2Proof/Machine/ChipConfig.lean ====
section
/-! DEFINITION. 41_chip_configuration.md: CHIP_RESET, POWER_CYCLE, SELECT_PATTERN,
SET_CUSTOM_PATTERN and INITIALIZE, all composed of serial register writes. -/

namespace Sys2Proof.Machine

/-- `ChipReset()` (rule R150). -/
def State.chipReset (s : State) : State := s.writeRegisters s.inst.chipRegs.resetWrites

/-- `PowerCycle()`: power-down, then power-up, with no wait (rule R152). -/
def State.powerCycle (s : State) : State :=
  let R := s.inst.chipRegs
  (s.writeRegister R.powerReg R.powerDownValue).writeRegister R.powerReg R.powerUpValue

/-- `SelectPattern(kind)` (rule R154). -/
def State.selectPattern (kind : PatternKind) (s : State) : State :=
  s.writeRegisters (patternWrites s.inst.chipRegs kind)

/-- CHIP_RESET (rule R150). -/
def execChipReset (s : State) : Host.Outcome State Fault Refusal :=
  .next ((s.setFsm .exec).chipReset.complete .none)

/-- POWER_CYCLE (rule R152). -/
def execPowerCycle (s : State) : Host.Outcome State Fault Refusal :=
  .next ((s.setFsm .exec).powerCycle.complete .none)

/-- SELECT_PATTERN (rule R154); a kind above 3 is illegal by value (rule R117). -/
def execSelectPattern (kind : BitVec 4) (s : State) : Host.Outcome State Fault Refusal :=
  .next
    (match patternKind kind with
    | none => s.raise .illegalCommand (commandWord (.selectPattern kind))
    | some k => ((s.setFsm .exec).selectPattern k).complete .none)

/-- SET_CUSTOM_PATTERN (rule R156); a slot at or above NCUSTOM is illegal by value (rule R117). -/
def execSetCustomPattern (slot : BitVec 4) (byte : Byte) (s : State) :
    Host.Outcome State Fault Refusal :=
  .next
    (if slotLegal s.inst slot then
      ((s.setFsm .exec).writeRegisters (customPatternWrites s.inst.chipRegs slot byte)).complete
        .none
    else s.raise .illegalCommand (commandWord (.setCustomPattern slot byte)))

/-- INITIALIZE (rule R160): the programmed check, chip reset, the overrides whose address is valid
(the others are skipped silently, rule R161), power cycle. -/
def execInitialize (overrides : List RegWrite) (s : State) : Host.Outcome State Fault Refusal :=
  let asked := (s.setFsm .exec).askProgrammed
  .next
    (if s.nextProgrammed then
      ((asked.chipReset.writeRegisters (overrides.filter overrideKept)).powerCycle).complete .none
    else asked.raise .notProgrammed 0)

end Sys2Proof.Machine
end

