-- ==== Sys2Proof/Machine/DelayBitslip.lean ====
section
/-! DEFINITION. 42_delay_bitslip.md: SET_DELAY_TAP and BITSLIP. -/

namespace Sys2Proof.Machine

/-- SET_DELAY_TAP (rule R175). The tap is masked, never rejected (rule R106). -/
def execSetDelayTap (chip : BitVec 3) (tap : Byte) (lm : Byte) (s : State) :
    Host.Outcome State Fault Refusal :=
  .next
    (if chipValid s.inst chip then
      (((s.setFsm .exec).mapWork (fun w => { w with curChip := chip })).setDelayTap
        (chipOfBits chip) tap lm).complete .none
    else s.raise .invalidChipSpecifier (chip.setWidth 32))

/-- One bitslip pulse for each chip of a list, in order, with CURCHIP naming it (rule R180). -/
def State.bitslipEach (cs : List ChipId) (s : State) : State :=
  cs.foldl (fun s c => (s.mapWork (fun w => { w with curChip := chipBits c })).bitslipPulse c) s

/-- BITSLIP (rule R180). -/
def execBitslip (mask : Byte) (s : State) : Host.Outcome State Fault Refusal :=
  .next
    (if maskValid s.inst mask then
      ((s.setFsm .exec).bitslipEach (chipsOf s.inst mask)).complete .none
    else s.raise .invalidChipSpecifier (mask.setWidth 32))

end Sys2Proof.Machine
end

