-- ==== Sys2Proof/Machine/Illegal.lean ====
section
/-! DEFINITION. The ILLEGAL row: words that spell no command (rules R116, R282). -/

namespace Sys2Proof.Machine

/-- ILLEGAL: ILLEGAL_COMMAND with the offending word, before any bus event (rules R116, R282). -/
def execIllegal (word : Word) (s : State) : Host.Outcome State Fault Refusal :=
  .next (s.raise .illegalCommand word)

end Sys2Proof.Machine
end

