-- ==== Sys2Proof/Machine/Serial.lean ====
section
/-! DEFINITION. 40_serial_protocol.md: WRITE_REG and SET_CS_MASK. -/

namespace Sys2Proof.Machine

/-- WRITE_REG (rule R135). The address is sent unchecked (rule R103). -/
def execWriteReg (addr : Byte) (value : Half) (s : State) : Host.Outcome State Fault Refusal :=
  .next (((s.setFsm .exec).writeRegister addr value).complete .none)

/-- SET_CS_MASK (rule R140). -/
def execSetCsMask (mask : Byte) (s : State) : Host.Outcome State Fault Refusal :=
  .next
    (if maskValid s.inst mask then
      ((s.setFsm .exec).mapCtl (fun c => { c with csMask := mask })).complete .none
    else (s.setFsm .exec).raise .invalidChipSpecifier (mask.setWidth 32))

end Sys2Proof.Machine
end

