-- ==== Sys2Proof/Machine/Snapshot.lean ====
section
/-! DEFINITION. 43_snapshot_error_counter.md: CAPTURE. The error counter is in Ops.lean. -/

namespace Sys2Proof.Machine

/-- The response data of CAPTURE: four channels of signed samples (rule R200). -/
def signedSamples (S : Samples) : ResponseData :=
  .samples (S.toList.map (fun channel => channel.map sext8))

/-- CAPTURE (rule R200). The length is checked before the chip (rule R288). -/
def execCapture (chip : BitVec 3) (len : Half) (s : State) : Host.Outcome State Fault Refusal :=
  let c := chipOfBits chip
  let started :=
    (s.setFsm .exec).mapWork (fun w => { w with curChip := chip, tapCnt := 0x3F })
  .next
    (if lenLegal s.inst len then
      if chipValid s.inst chip then
        match started.nextCapture c len.toNat with
        | .fail =>
          (started.takeCapture c len.toNat).raise .captureFailed
            (captureInfo c started.fsm started.work)
        | .ok S => (started.takeCapture c len.toNat).complete (signedSamples S)
      else s.raise .invalidChipSpecifier (chip.setWidth 32)
    else s.raise .illegalCommand (commandWord (.capture chip len)))

end Sys2Proof.Machine
end

