-- ==== Sys2Proof/Machine/StatusConfig.lean ====
section
/-! DEFINITION. 46_status_config.md: READ_STATUS and SET_CONFIG, over the register map of
rule R36. Neither enters a phase: their pseudocode leaves `fsm` at IDLE (log 14). -/

namespace Sys2Proof.Machine

/-- The configuration field `idx` of selector 2 (rules R36, R260). -/
def configValue (ctl : Control) (idx : Nat) : Word :=
  match idx with
  | 0 => ctl.cfgDeskew.setWidth 32
  | 1 => ctl.cfgSync.setWidth 32
  | 2 => ctl.cfgIter.setWidth 32
  | _ => ctl.cfgSnapLen.setWidth 32

/-- The value of a register of the map other than the board status (rules R36, R260). -/
def registerValue (s : State) (sel idx : Byte) : Word :=
  match sel.toNat with
  | 0 => if idx = 0 then statusWord s.status s.fsm else s.status.errInfo
  | 1 => s.ctl.csMask.setWidth 32
  | 2 => configValue s.ctl idx.toNat
  | 3 => (syncStatusWord s.tables.syncStatus).setWidth 32
  | 4 => (s.tables.calResult[idxChip idx][idxLane idx]).byte.setWidth 32
  | 5 => s.tables.goodMap[idxChip idx][idxLane idx]
  | 6 => s.tables.errCount[idxTap idx][idxLane idx]
  | 8 => s.tables.lastSweep.byte.setWidth 32
  | 9 => s.tables.heurSlip.setWidth 32
  | _ => 0

/-- The response of a successful READ_STATUS: code 0, information word 0, the value (rule R260). -/
def readResponse (d : Word) : Response := { code := .ok, info := 0, data := .value d }

/-- READ_STATUS (rule R260). A successful read writes no register; selector 7 reads word 0 live, the
others issue no event. -/
def execReadStatus (sel idx : Byte) (s : State) : Host.Outcome State Fault Refusal :=
  .next
    (if inMap s.inst sel idx then
      if sel = 7 then
        s.readWord0.respond (readResponse (boardField s.inst.layout s.nextWord0 idx.toNat))
      else s.respond (readResponse (registerValue s sel idx))
    else s.raise .illegalCommand (commandWord (.readStatus sel idx)))

/-- The configuration register a legal SET_CONFIG writes (rules R265, R266). -/
def Control.setField (field : BitVec 4) (value : Half) (ctl : Control) : Control :=
  match field.toNat with
  | 0 => { ctl with cfgDeskew := value.setWidth 8 }
  | 1 => { ctl with cfgSync := value.setWidth 8 }
  | 2 => { ctl with cfgIter := value }
  | 3 => { ctl with cfgSnapLen := value }
  | _ => ctl

/-- SET_CONFIG (rule R265). -/
def execSetConfig (field : BitVec 4) (value : Half) (s : State) :
    Host.Outcome State Fault Refusal :=
  .next
    (if configLegal s.inst field value then
      (s.mapCtl (Control.setField field value)).complete .none
    else s.raise .illegalCommand (commandWord (.setConfig field value)))

end Sys2Proof.Machine
end

