-- ==== Sys2Proof/Machine/TapCal.lean ====
section
/-! DEFINITION. 44_tap_calibration.md: the window detector, the five steps of the tap-sweep
calibration, and TAP_CAL. -/

namespace Sys2Proof.Machine

/-! ## The window detector -/

/-- The taps of a GoodTapSet bitmap in ascending order (rules R217, R220). -/
def goodTaps (g : Word) : List Nat := (List.range 32).filter (fun t => g.getLsbD t)

/-- `Window(G)` (rule R220). -/
def window (wrapSpan : Nat) (g : Word) : CalResult :=
  let S := goodTaps g
  if S.length = 0 then .indEmpty
  else if S.getD (S.length - 1) 0 - S.getD 0 0 > wrapSpan then .indWrapped
  else .tap (BitVec.ofNat 5 (S.getD (S.length / 2) 0))

/-! ## The steps -/

/-- `TapCalStart(c)` (rule R211). -/
def Tables.tapCalStart (c : ChipId) (T : Tables) : Tables :=
  { T with
    calResult := T.calResult.set c (everyLane .none)
    goodMap := T.goodMap.set c (everyLane 0)
    heurSlip := writeMaskBit T.heurSlip c false
    lastSweep := { valid := true, chip := chipBits c } }

/-- One probe: TAPCNT, the tap on all lanes, then the error count (rules R213, R216). -/
def probeTap (c : ChipId) (t : Nat) (s : State) : Run :=
  countErrors c s.ctl.cfgDeskew
    ((s.mapWork (fun w => { w with tapCnt := BitVec.ofNat 6 t })).setDelayTap c
      (BitVec.ofNat 8 t) 0xFF)

/-- `ProbeExtremes(c)`: tap 0 into ACC0, then tap 31 into ACC31 (rule R213). -/
def probeExtremes (c : ChipId) (s : State) : Run :=
  (probeTap c 0 s).andThen fun s0 =>
    (probeTap c 31 (s0.mapWork (fun w => { w with acc0 := w.acc }))).andThen fun s31 =>
      .done (s31.mapWork (fun w => { w with acc31 := w.acc }))

/-- `straddles(ACC0, ACC31)`: some lane has no error at one of the two extremes (rule R214). -/
def straddles (acc0 acc31 : Lanes Word) : Bool :=
  allLanes.any (fun li => acc0[li] == 0 || acc31[li] == 0)

/-- The heuristic bitslip, recorded in HEUR_SLIP (rule R214). -/
def State.heuristicSlip (c : ChipId) (s : State) : State :=
  ((s.setFsm .calSlip).bitslipPulse c).mapTables
    (fun T => { T with heurSlip := writeMaskBit T.heurSlip c true })

/-- The heuristic of step 2: at most one bitslip (rule R214). -/
def State.heuristic (c : ChipId) (s : State) : State :=
  if straddles s.work.acc0 s.work.acc31 then s.heuristicSlip c else s

/-- The counts of tap `t` into ERR_COUNT and GOOD_MAP (rule R216). -/
def Tables.recordTap (c : ChipId) (t : Fin 32) (acc : Lanes Word) (T : Tables) : Tables :=
  { T with
    errCount := T.errCount.set t acc
    goodMap := T.goodMap.set c
      (tabulate (fun li => writeBit T.goodMap[c][li] t.val (acc[li] == 0))) }

/-- The taps of a sweep from a list, in order (rule R216). -/
def sweepTaps (c : ChipId) : List (Fin 32) → State → Run
  | [], s => .done s
  | t :: ts, s =>
    (probeTap c t.val s).andThen fun s' =>
      sweepTaps c ts (s'.mapTables (Tables.recordTap c t s'.work.acc))

/-- `Sweep(c)`: every tap in ascending order; TAPCNT is 32 after it (rule R216). -/
def sweep (c : ChipId) (s : State) : Run :=
  (sweepTaps c (List.finRange 32) s).andThen fun s' =>
    .done (s'.mapWork (fun w => { w with tapCnt := 32 }))

/-- `Decide(c)` (rule R222). -/
def decideLanes (c : ChipId) (s : State) : Lanes CalResult :=
  tabulate (fun li => window s.inst.wrapSpan s.tables.goodMap[c][li])

/-- The latch of one lane of step 5: nothing for an indeterminate lane (rule R223). -/
def State.applyLane (c : ChipId) (R : Lanes CalResult) (s : State) (li : LaneId) : State :=
  let named := s.mapWork (fun w => { w with liCnt := BitVec.ofNat 4 li.val })
  match R[li] with
  | .tap t => named.setDelayTap c (t.setWidth 8) (1#8 <<< li.val)
  | .none => named
  | .indEmpty => named
  | .indWrapped => named

/-- `Apply(c, R)`: each determinate lane separately, in ascending lane index (rule R223). -/
def State.applyTaps (c : ChipId) (R : Lanes CalResult) (s : State) : State :=
  (allLanes.foldl (State.applyLane c R) s).mapWork (fun w => { w with liCnt := 8 })

/-- Steps 4 and 5: the decision, `CAL_RESULT[c] <- R` with all lanes at once, and the latching
(rules R222, R223, R224). -/
def State.decideAndApply (c : ChipId) (s : State) : State :=
  let R := decideLanes c s
  let decided := (s.setFsm .calDecide).mapTables
    (fun T => { T with calResult := T.calResult.set c R })
  ((decided.setFsm .calApply).applyTaps c R).setFsm .calDone

/-- `TapCalBody(c)`, also run by CALIBRATE (rule R210). -/
def tapCalBody (c : ChipId) (s : State) : Run :=
  let started :=
    (s.mapWork (fun w => { w with curChip := chipBits c })).mapTables (Tables.tapCalStart c)
  (probeExtremes c (((started.setFsm .calPattern).selectPattern .deskew).setFsm .calProbe)).andThen
    fun probed =>
      (sweep c ((probed.heuristic c).setFsm .calSweep)).andThen fun swept =>
        .done (swept.decideAndApply c)

/-- The response data of TAP_CAL: the eight `CAL_RESULT[c][li]` bytes (rules R38, R224). -/
def calResultData (c : ChipId) (s : State) : ResponseData :=
  .calResults (s.tables.calResult[c].toList.map CalResult.byte)

/-- TAP_CAL (rule R210). -/
def execTapCal (chip : BitVec 3) (s : State) : Host.Outcome State Fault Refusal :=
  .next
    (if chipValid s.inst chip then
      (tapCalBody (chipOfBits chip) s).finish (calResultData (chipOfBits chip))
    else s.raise .invalidChipSpecifier (chip.setWidth 32))

end Sys2Proof.Machine
end

