-- ==== Sys2Proof/Machine/Sync.lean ====
section
/-! DEFINITION. 45_sync_calibrate.md: the bitslip synchronization sequencer, SYNC_VERIFY and
CALIBRATE. -/

namespace Sys2Proof.Machine

/-- `Matches(S, x)`: the first sample of every channel matches (rule R241). -/
def frameMatches (S : Samples) (x : Byte) : Bool :=
  ([0, 1, 2, 3] : List (Fin 4)).all (fun ch => sampleMatches (S[ch].headD 0) x)

/-- `SYNC_STATUS[c] <- v` (rule R243). -/
def State.setSyncStatus (c : ChipId) (v : SyncStatus) (s : State) : State :=
  s.mapTables (fun T => { T with syncStatus := T.syncStatus.set c v })

/-- The re-check after the last round (rule R240). -/
def syncRecheck (c : ChipId) (s : State) : Run :=
  captureOrAbort c 1
    ((s.setFsm .syncRecheck).mapWork
      (fun w => { w with retry := BitVec.ofNat 5 s.inst.syncRetries }))
    (fun S s' => .done (s'.setSyncStatus c
      (if frameMatches S s'.ctl.cfgSync then .synced else .unsynced)))

/-- The remaining rounds of `SyncChip(c)`: capture, stop on a match, else one bitslip and the next
round (rule R240). -/
def syncRounds (c : ChipId) : Nat → State → Run
  | 0, s => syncRecheck c s
  | k + 1, s =>
    captureOrAbort c 1
      ((s.setFsm .syncRound).mapWork
        (fun w => { w with retry := BitVec.ofNat 5 (s.inst.syncRetries - (k + 1)) }))
      (fun S s' =>
        if frameMatches S s'.ctl.cfgSync then .done (s'.setSyncStatus c .synced)
        else syncRounds c k (s'.bitslipPulse c))

/-- `CURCHIP <- c; SYNC_STATUS[c] <- SyncChip(c)` (rules R240, R243). -/
def syncChip (c : ChipId) (s : State) : Run :=
  syncRounds c s.inst.syncRetries (s.mapWork (fun w => { w with curChip := chipBits c }))

/-- The chips of a list, in order; a failed capture ends the loop (rules R243, R247). -/
def syncEach : List ChipId → State → Run
  | [], s => .done s
  | c :: cs, s => (syncChip c s).andThen (syncEach cs)

/-- `SYNC_STATUS <- 0` (rules R243, R250). -/
def State.clearSync (s : State) : State :=
  s.mapTables (fun T => { T with syncStatus := everyChip .notAttempted })

/-- `SyncVerifyBody(m)` (rule R243). -/
def syncVerifyBody (mask : Byte) (s : State) : Run :=
  syncEach (chipsOf s.inst mask) ((s.clearSync.setFsm .syncPattern).selectPattern .sync)

/-- The response data of SYNC_VERIFY and CALIBRATE (rule R38). -/
def syncStatusData (s : State) : ResponseData := .syncStatus (syncStatusWord s.tables.syncStatus)

/-- SYNC_VERIFY (rule R245). -/
def execSyncVerify (mask : Byte) (s : State) : Host.Outcome State Fault Refusal :=
  .next
    (if maskValid s.inst mask then (syncVerifyBody mask s).finish syncStatusData
    else s.raise .invalidChipSpecifier (mask.setWidth 32))

/-- TapCalBody for each chip of a list, in order (rules R250, R254). -/
def tapCalEach : List ChipId → State → Run
  | [], s => .done s
  | c :: cs, s => (tapCalBody c s).andThen (tapCalEach cs)

/-- The chips CALIBRATE works on: `mask & ones(n)` (rules R250, R253). -/
def calibrateMask (I : Instance) (mask : Byte) (w0 : Word) : Byte :=
  mask &&& onesMask (calibrateCount I w0)

/-- CALIBRATE after its preconditions: the warning flag, the tap calibrations, then one
synchronization pass unless no chip is left (rules R250, R252 to R254). -/
def calibrateBody (mask : Byte) (w0 : Word) (s : State) : Run :=
  let m := calibrateMask s.inst mask w0
  let warned := s.mapStatus (fun st => { st with warnSec := warnSecondary s.inst w0 })
  (tapCalEach (chipsOf s.inst m) warned.clearSync).andThen fun s' =>
    if m ≠ 0 then syncVerifyBody m s' else .done s'

/-- CALIBRATE (rule R250): programmed check, primary clock-lock check (rule R251), then the body. -/
def execCalibrate (mask : Byte) (s : State) : Host.Outcome State Fault Refusal :=
  let asked := (s.setFsm .precheck).askProgrammed
  .next
    (if maskValid s.inst mask then
      if s.nextProgrammed then
        if primaryLock s.inst.layout asked.nextWord0 then
          (calibrateBody mask asked.nextWord0 asked.readWord0).finish syncStatusData
        else asked.readWord0.raise .clockNotLocked asked.nextWord0
      else asked.raise .notProgrammed 0
    else s.raise .invalidChipSpecifier (mask.setWidth 32))

end Sys2Proof.Machine
end

