-- ==== Sys2Proof/Machine/Dispatch.lean ====
section
/-! DEFINITION. One arm per command (rule R102): each calls the command's own meaning. -/

namespace Sys2Proof.Machine

/-- The meaning of each command. -/
def exec (i : Instr) (s : State) : Host.Outcome State Fault Refusal :=
  match i with
  | .illegal word => Sys2Proof.Machine.execIllegal word s
  | .writeReg addr value => Sys2Proof.Machine.execWriteReg addr value s
  | .setCsMask mask => Sys2Proof.Machine.execSetCsMask mask s
  | .setDelayTap chip tap lm => Sys2Proof.Machine.execSetDelayTap chip tap lm s
  | .bitslip mask => Sys2Proof.Machine.execBitslip mask s
  | .chipReset => Sys2Proof.Machine.execChipReset s
  | .powerCycle => Sys2Proof.Machine.execPowerCycle s
  | .selectPattern kind => Sys2Proof.Machine.execSelectPattern kind s
  | .setCustomPattern slot byte => Sys2Proof.Machine.execSetCustomPattern slot byte s
  | .initializeChips overrides => Sys2Proof.Machine.execInitialize overrides s
  | .capture chip len => Sys2Proof.Machine.execCapture chip len s
  | .tapCal chip => Sys2Proof.Machine.execTapCal chip s
  | .syncVerify mask => Sys2Proof.Machine.execSyncVerify mask s
  | .calibrate mask => Sys2Proof.Machine.execCalibrate mask s
  | .readStatus sel idx => Sys2Proof.Machine.execReadStatus sel idx s
  | .setConfig field value => Sys2Proof.Machine.execSetConfig field value s

end Sys2Proof.Machine
end

