-- ==== Sys2Proof/Machine/InstanceChecks.lean ====
section
/-! DEFINITION. The named checks of an instance (rules R6, R60, R64, R65, R66). `step` refuses an
instance that fails one, by the check's name. -/

namespace Sys2Proof.Machine

/-- `n` consecutive bit positions from `lsb`. -/
def bitRange (lsb n : Nat) : List Nat := (List.range n).map (lsb + ·)

/-- The bit positions of the fields of word 0 (rule R61). -/
def word0Bits (I : Instance) : List Nat :=
  let L := I.layout
  [L.sclkBit, L.sdataBit, L.primaryLockBit, L.secondaryLockBit] ++ bitRange L.csLsb I.nchips
    ++ bitRange L.chipCountLsb L.chipCountWidth ++ bitRange L.revisionLsb L.revisionWidth

/-- The bit positions of the fields of word 1 that the block uses (rule R62). -/
def word1Bits (I : Instance) : List Nat :=
  bitRange I.layout.tapLsb 5 ++ bitRange I.layout.slipLsb I.nchips

/-- The strobe bits of every lane of every chip of the board, chip by chip (rule R63). -/
def strobeBits (I : Instance) : List StrobeBit :=
  (allChips.filter (fun c => c.val < I.nchips)).flatMap
    (fun c => allLanes.map (fun li => I.layout.strobeBit[c][li]))

/-- `NCHIPS ∈ {4, 8}` (rule R6). -/
abbrev nchipsOk (I : Instance) : Prop := I.nchips = 4 ∨ I.nchips = 8

/-- `2 ≤ SNAP_DEPTH ≤ 65535` (rule R6). -/
abbrev snapDepthOk (I : Instance) : Prop := 2 ≤ I.snapDepth ∧ I.snapDepth ≤ 65535

/-- `0 ≤ WRAP_SPAN ≤ 31` (rule R6). -/
abbrev wrapSpanOk (I : Instance) : Prop := I.wrapSpan ≤ 31

/-- RETRY is 5 bits wide and counts 0..SYNC_RETRIES (rule R22; log 16). -/
abbrev syncRetriesOk (I : Instance) : Prop := I.syncRetries ≤ 31

/-- `1 ≤ NCUSTOM ≤ 16` (rule R6). -/
abbrev ncustomOk (I : Instance) : Prop := 1 ≤ I.ncustom ∧ I.ncustom ≤ 16

/-- The ranges of rule R64 for the fields that rule R65 does not bound: `tapLsb` 0..27 and every
strobe bit 0..31 (log 17). -/
abbrev rangesOk (I : Instance) : Prop :=
  I.layout.tapLsb ≤ 27 ∧ ∀ b ∈ strobeBits I, b.bit < 32

/-- `L1_word0_disjoint` (rule R65). -/
abbrev word0DisjointOk (I : Instance) : Prop :=
  (word0Bits I).Nodup ∧ ∀ b ∈ word0Bits I, b < 32

/-- `L2_word1_disjoint` (rule R65). -/
abbrev word1DisjointOk (I : Instance) : Prop :=
  (word1Bits I).Nodup ∧ ∀ b ∈ word1Bits I, b < 32

/-- `L3_strobe_words` (rule R65), with the non-emptiness of rule R64. -/
abbrev strobeWordsOk (I : Instance) : Prop :=
  I.layout.strobeWords ≠ [] ∧ I.layout.strobeWords.Nodup ∧
    ∀ w ∈ I.layout.strobeWords, w ≠ 0 ∧ w ≠ 1

/-- `L4_strobe_injective` (rule R65). -/
abbrev strobeInjectiveOk (I : Instance) : Prop := (strobeBits I).Nodup

/-- `L5_strobe_in_words` (rule R65). -/
abbrev strobeInWordsOk (I : Instance) : Prop :=
  ∀ b ∈ strobeBits I, b.word ∈ I.layout.strobeWords

/-- Every word index the block uses is below RWI_WORDS (rule R60; log 17). -/
abbrev rwiWordsOk (I : Instance) : Prop :=
  1 < I.rwiWords ∧ ∀ w ∈ I.layout.strobeWords, w < I.rwiWords

/-- A register write of CHIPREGS has a valid address (rule R66). -/
abbrev regWriteOk (p : RegWrite) : Prop := p.addr.toNat ≤ Config.addrValidMax

/-- The CHIPREGS addresses are valid and the custom-pattern table covers every slot below NCUSTOM
and every byte (rule R66; log 17). -/
abbrev chipRegsOk (I : Instance) : Prop :=
  let R := I.chipRegs
  (∀ p ∈ R.resetWrites ++ R.normalWrites ++ R.deskewWrites ++ R.syncWrites ++ R.customWrites,
    regWriteOk p) ∧
  R.powerReg.toNat ≤ Config.addrValidMax ∧
  R.customPattern.length = I.ncustom ∧
  ∀ row ∈ R.customPattern, row.length = 256 ∧ ∀ ps ∈ row, ∀ p ∈ ps, regWriteOk p

/-- Whether an instance passes a named check. -/
def passes (I : Instance) : InstanceCheck → Bool
  | .nchips => decide (nchipsOk I)
  | .snapDepth => decide (snapDepthOk I)
  | .wrapSpan => decide (wrapSpanOk I)
  | .syncRetries => decide (syncRetriesOk I)
  | .ncustom => decide (ncustomOk I)
  | .ranges => decide (rangesOk I)
  | .word0Disjoint => decide (word0DisjointOk I)
  | .word1Disjoint => decide (word1DisjointOk I)
  | .strobeWords => decide (strobeWordsOk I)
  | .strobeInjective => decide (strobeInjectiveOk I)
  | .strobeInWords => decide (strobeInWordsOk I)
  | .rwiWords => decide (rwiWordsOk I)
  | .chipRegs => decide (chipRegsOk I)

/-- Every named check, in the order in which `step` makes them. -/
def allChecks : List InstanceCheck :=
  [.nchips, .snapDepth, .wrapSpan, .syncRetries, .ncustom, .ranges, .word0Disjoint, .word1Disjoint,
   .strobeWords, .strobeInjective, .strobeInWords, .rwiWords, .chipRegs]

/-- The first named check an instance fails (rules R6, R65). -/
def failedCheck (I : Instance) : Option InstanceCheck := allChecks.find? (fun k => !passes I k)

/-- The instance passes every named check (rules R6, R65). -/
abbrev InstanceOk (I : Instance) : Prop := ∀ k ∈ allChecks, passes I k = true

end Sys2Proof.Machine
end

