-- ==== Sys2Proof/Machine/Port.lean ====
section
/-! DEFINITION. The command port (rules R112, R300): how the block takes its next whole command. -/

namespace Sys2Proof.Machine

/-- The next whole command at the port, and the words presented after it; nothing when the host has
not presented a whole command (rules R100, R112, R300). -/
def State.nextCommand (s : State) : Option (Instr × List Word) :=
  match decode s.port with
  | .ok (i, rest) => some (i, rest)
  | .error _ => none

/-- The command words `words` are the ones the host presents next. -/
def State.present (words : List Word) (s : State) : State := s.setPort (words ++ s.port)

end Sys2Proof.Machine
end

