-- ==== Sys2Proof/Machine/Step.lean ====
section
/-! DEFINITION. One step: the block takes one whole command from the port and executes it to
completion or abort (rules R7, R300, R333; log 2, log 3). -/

namespace Sys2Proof.Machine

/-- One step of the machine. An instance that fails a named check is not run (rules R6, R65;
log 19). With no whole command at the port the block waits (rule R310; log 3). A command presented
while one executes is refused (I14; log 18). Otherwise the command leaves the port and is executed. -/
def step (s : State) : Host.Outcome State Fault Refusal :=
  match failedCheck s.inst with
  | some k => .refused (.illFormedInstance k)
  | none =>
    match s.nextCommand with
    | none => .next s
    | some (i, rest) =>
      if s.fsm = .idle then exec i (s.setPort rest) else .refused .commandWhileBusy

/-- `s` with the instruction whose bits are the low `nbits` bits of `w` presented next at the port,
numbered as spec/opcode_table.json numbers them (log 3). -/
def State.withFetchWord (s : State) (nbits w : Nat) : State := s.present (tableWords nbits w)

end Sys2Proof.Machine
end

