-- ==== Sys2Proof/Machine/Assembler.lean ====
section
/-! DEFINITION. The assembler: command lines, chip specifiers and pseudo-instructions (rules R120,
R121, R122). A line is a list of characters; it gives the commands it stands for, whose words are
`encode`'s. What rule R120 leaves open about spelling is in log 26. -/

namespace Sys2Proof.Machine

/-- Why the assembler refuses a line. -/
inductive AsmError where
  /-- `InvalidChipSpecifier`: "invalid input is a hard error" (rule R121). -/
  | invalidChipSpecifier
  /-- An operand is missing, left over, misspelled or too large for its field. -/
  | badOperand
  /-- The mnemonic is none of rules R120 and R122. -/
  | unknownMnemonic
deriving DecidableEq, Repr

/-! ## Characters and numbers -/

/-- The character that opens a set operand. -/
def openBrace : Char := Char.ofNat 123

/-- The character that closes a set operand. -/
def closeBrace : Char := Char.ofNat 125

/-- White space inside a line. -/
def isBlank (c : Char) : Bool := c = ' ' || c = '\t' || c = '\r'

/-- A text without white space at its ends. -/
def trimBlanks (cs : List Char) : List Char :=
  ((cs.dropWhile isBlank).reverse.dropWhile isBlank).reverse

/-- The value of a digit in a base up to 16. -/
def digitValue (base : Nat) (c : Char) : Option Nat :=
  let n := c.toNat
  let d :=
    if 48 ≤ n ∧ n ≤ 57 then n - 48
    else if 97 ≤ n ∧ n ≤ 102 then n - 87
    else if 65 ≤ n ∧ n ≤ 70 then n - 55
    else base
  if d < base then some d else none

/-- The value of a run of digits that continues a number. -/
def digitsFrom (base : Nat) : Nat → List Char → Option Nat
  | acc, [] => some acc
  | acc, c :: cs =>
    match digitValue base c with
    | some d => digitsFrom base (acc * base + d) cs
    | none => none

/-- A non-empty run of digits. -/
def digits (base : Nat) (cs : List Char) : Option Nat :=
  match cs with
  | [] => none
  | c :: rest => digitsFrom base 0 (c :: rest)

/-- A number: hex `0x2A`, binary `0b101010` or decimal `42` (rule R120). -/
def number (cs : List Char) : Option Nat :=
  match cs with
  | '0' :: 'x' :: rest => digits 16 rest
  | '0' :: 'b' :: rest => digits 2 rest
  | _ => digits 10 cs

/-- A number that fits a field of `w` bits. -/
def fieldNumber (w : Nat) (cs : List Char) : Except AsmError (BitVec w) :=
  match number cs with
  | some n => if n < 2 ^ w then .ok (BitVec.ofNat w n) else .error .badOperand
  | none => .error .badOperand

/-! ## Lists and sets -/

/-- Splits at the commas that stand outside braces; `depth` is how many braces are open and `cur`
the current piece, reversed. -/
def splitCommas : Nat → List Char → List Char → List (List Char)
  | _, cur, [] => [trimBlanks cur.reverse]
  | depth, cur, c :: cs =>
    if c = ',' ∧ depth = 0 then trimBlanks cur.reverse :: splitCommas 0 [] cs
    else
      splitCommas (if c = openBrace then depth + 1 else if c = closeBrace then depth - 1 else depth)
        (c :: cur) cs

/-- The operands of a line: none for an empty text, else separated by commas (rule R120). -/
def operandsOf (cs : List Char) : List (List Char) :=
  if trimBlanks cs = [] then [] else splitCommas 0 [] cs

/-- The elements of a set operand in braces. -/
def setElements (cs : List Char) : Option (List (List Char)) :=
  match cs with
  | c :: rest =>
    if c = openBrace ∧ rest.getLast? = some closeBrace then some (operandsOf rest.dropLast) else none
  | [] => none

/-! ## Chip specifiers -/

/-- The position of a letter `a`..`h` or `A`..`H` in the alphabet, minus one (rule R121). -/
def letterIndex (c : Char) : Option Nat :=
  let n := c.toNat
  if 97 ≤ n ∧ n ≤ 104 then some (n - 97)
  else if 65 ≤ n ∧ n ≤ 72 then some (n - 65)
  else none

/-- The number a chip specifier stands for, before the range check (rule R121). -/
def specifierNumber (cs : List Char) : Option Nat :=
  match cs with
  | [':', c] => letterIndex c
  | [c] => (letterIndex c).orElse (fun _ => digits 10 [c])
  | _ => digits 10 cs

/-- `canonicalize`: a valid ChipId below NCHIPS, or InvalidChipSpecifier (rule R121). -/
def canonicalize (nchips : Nat) (cs : List Char) : Except AsmError ChipId :=
  match specifierNumber cs with
  | some n =>
    if h : n < 8 then (if n < nchips then .ok ⟨n, h⟩ else .error .invalidChipSpecifier)
    else .error .invalidChipSpecifier
  | none => .error .invalidChipSpecifier

/-- The OR of `1 << c` over the chips of a set; repeats merge (rule R120). -/
def chipSetMask (nchips : Nat) : List (List Char) → Except AsmError Byte
  | [] => .ok 0
  | e :: es =>
    match canonicalize nchips e, chipSetMask nchips es with
    | .ok c, .ok m => .ok (m ||| (1#8 <<< c.val))
    | .error err, _ => .error err
    | _, .error err => .error err

/-- A `chipset` operand: `all`, a number (the mask itself), or a set of chips (rule R120). -/
def chipsetOperand (nchips : Nat) (cs : List Char) : Except AsmError Byte :=
  if cs = "all".toList then .ok (onesMask nchips)
  else
    match setElements cs with
    | some es => chipSetMask nchips es
    | none => fieldNumber 8 cs

/-! ## Lanes -/

/-- The lane names in lane-index order (rule R120). -/
def laneNames : List (List Char) :=
  ["c0e", "c1e", "c2e", "c3e", "c0o", "c1o", "c2o", "c3o"].map String.toList

/-- The lane mask of a set of lane names (rule R120). -/
def laneSetMask : List (List Char) → Except AsmError Byte
  | [] => .ok 0
  | e :: es =>
    match laneNames.idxOf? e, laneSetMask es with
    | some li, .ok m => .ok (m ||| (1#8 <<< li))
    | none, _ => .error .badOperand
    | _, .error err => .error err

/-- A `lanes` operand: `all`, a number (the lane mask), or a set of lane names (rule R120). -/
def lanesOperand (cs : List Char) : Except AsmError Byte :=
  if cs = "all".toList then .ok 0xFF
  else
    match setElements cs with
    | some es => laneSetMask es
    | none => fieldNumber 8 cs

/-! ## Other operands -/

/-- A pattern name (rule R120). -/
def patternOperand (cs : List Char) : Except AsmError (BitVec 4) :=
  match (["normal", "deskew", "sync", "custom"].map String.toList).idxOf? cs with
  | some k => .ok (BitVec.ofNat 4 k)
  | none => .error .badOperand

/-- A configuration field name (rule R120). -/
def configOperand (cs : List Char) : Except AsmError (BitVec 4) :=
  match (["deskew", "sync", "iterations", "snaplen"].map String.toList).idxOf? cs with
  | some k => .ok (BitVec.ofNat 4 k)
  | none => .error .badOperand

/-- The register names that take no index, with their selector and index (rule R120). -/
def plainRegisters : List (List Char × Byte × Byte) :=
  [("status".toList, 0, 0), ("err_info".toList, 0, 1), ("cs_mask".toList, 1, 0),
   ("sync_status".toList, 3, 0), ("last_sweep".toList, 8, 0), ("heur_slip".toList, 9, 0)]

/-- The register names that take an index, with their selector (rule R120). -/
def indexedRegisters : List (List Char × Byte) :=
  [("cfg".toList, 2), ("cal_result".toList, 4), ("good_map".toList, 5), ("err_count".toList, 6),
   ("board".toList, 7)]

/-- The operands of READ_STATUS (rule R120). -/
def readStatusOperands (ops : List (List Char)) : Except AsmError Instr :=
  match ops with
  | [name] =>
    match plainRegisters.lookup name with
    | some (sel, idx) => .ok (.readStatus sel idx)
    | none => .error .badOperand
  | [a, b] => do
    let idx ← fieldNumber 8 b
    match indexedRegisters.lookup a with
    | some sel => return .readStatus sel idx
    | none => return .readStatus (← fieldNumber 8 a) idx
  | _ => .error .badOperand

/-- An override pair `addr:value` of INITIALIZE (rule R120). -/
def pairOperand (cs : List Char) : Except AsmError RegWrite := do
  let addr ← fieldNumber 8 (trimBlanks (cs.takeWhile (· ≠ ':')))
  let value ← fieldNumber 16 (trimBlanks ((cs.dropWhile (· ≠ ':')).drop 1))
  return { addr, value }

/-- The override pairs of INITIALIZE, in order; at most 65535 (rules R112, R120). -/
def pairOperands : List (List Char) → Except AsmError (List RegWrite)
  | [] => .ok []
  | e :: es =>
    match pairOperand e, pairOperands es with
    | .ok p, .ok ps => .ok (p :: ps)
    | .error err, _ => .error err
    | _, .error err => .error err

/-! ## Lines -/

/-- The commands a mnemonic and its operands stand for (rules R120, R122). -/
def assembleCommand (nchips : Nat) (mnemonic : List Char) (ops : List (List Char)) :
    Except AsmError (List Instr) := do
  if mnemonic = "WRITE_REG".toList then
    match ops with
    | [a, v] => return [.writeReg (← fieldNumber 8 a) (← fieldNumber 16 v)]
    | _ => throw .badOperand
  else if mnemonic = "SET_CS_MASK".toList then
    match ops with
    | [m] => return [.setCsMask (← chipsetOperand nchips m)]
    | _ => throw .badOperand
  else if mnemonic = "SET_DELAY_TAP".toList then
    match ops with
    | [c, t, lm] =>
      return [.setDelayTap (chipBits (← canonicalize nchips c)) (← fieldNumber 8 t)
        (← lanesOperand lm)]
    | _ => throw .badOperand
  else if mnemonic = "BITSLIP".toList then
    match ops with
    | [m] => return [.bitslip (← chipsetOperand nchips m)]
    | _ => throw .badOperand
  else if mnemonic = "CHIP_RESET".toList then
    match ops with
    | [] => return [.chipReset]
    | _ => throw .badOperand
  else if mnemonic = "POWER_CYCLE".toList then
    match ops with
    | [] => return [.powerCycle]
    | _ => throw .badOperand
  else if mnemonic = "SELECT_PATTERN".toList then
    match ops with
    | [k] => return [.selectPattern (← patternOperand k)]
    | _ => throw .badOperand
  else if mnemonic = "SET_CUSTOM_PATTERN".toList then
    match ops with
    | [n, b] => return [.setCustomPattern (← fieldNumber 4 n) (← fieldNumber 8 b)]
    | _ => throw .badOperand
  else if mnemonic = "INITIALIZE".toList then
    match ops with
    | [o] =>
      match setElements o with
      | some es =>
        let ps ← pairOperands es
        if ps.length < 65536 then return [.initializeChips ps] else throw .badOperand
      | none => throw .badOperand
    | _ => throw .badOperand
  else if mnemonic = "CAPTURE".toList then
    match ops with
    | [c, n] => return [.capture (chipBits (← canonicalize nchips c)) (← fieldNumber 16 n)]
    | _ => throw .badOperand
  else if mnemonic = "TAP_CAL".toList then
    match ops with
    | [c] => return [.tapCal (chipBits (← canonicalize nchips c))]
    | _ => throw .badOperand
  else if mnemonic = "SYNC_VERIFY".toList then
    match ops with
    | [m] => return [.syncVerify (← chipsetOperand nchips m)]
    | _ => throw .badOperand
  else if mnemonic = "CALIBRATE".toList then
    match ops with
    | [m] => return [.calibrate (← chipsetOperand nchips m)]
    | _ => throw .badOperand
  else if mnemonic = "READ_STATUS".toList then
    return [← readStatusOperands ops]
  else if mnemonic = "SET_CONFIG".toList then
    match ops with
    | [f, v] => return [.setConfig (← configOperand f) (← fieldNumber 16 v)]
    | _ => throw .badOperand
  else if mnemonic = "SELECT_ALL".toList then
    match ops with
    | [] => return [.setCsMask (onesMask nchips)]
    | _ => throw .badOperand
  else if mnemonic = "SET_DELAY_TAP_ALL".toList then
    match ops with
    | [c, t] =>
      return [.setDelayTap (chipBits (← canonicalize nchips c)) (← fieldNumber 8 t) 0xFF]
    | _ => throw .badOperand
  else if mnemonic = "WRITE_REG_TO".toList then
    match ops with
    | [m, a, v] =>
      return [.setCsMask (← chipsetOperand nchips m),
        .writeReg (← fieldNumber 8 a) (← fieldNumber 16 v)]
    | _ => throw .badOperand
  else if mnemonic = "READ_CAL".toList then
    match ops with
    | [c, ch, lane] =>
      let chip ← canonicalize nchips c
      let channel ← fieldNumber 2 ch
      let parity ← fieldNumber 1 lane
      return [.readStatus 4 (BitVec.ofNat 8 (8 * chip.val + 4 * parity.toNat + channel.toNat))]
    | _ => throw .badOperand
  else if mnemonic = "NOP".toList then
    match ops with
    | [] => return [.readStatus 0 0]
    | _ => throw .badOperand
  else throw .unknownMnemonic

/-- The commands of one line: none for a blank line or a comment (rule R120). -/
def assembleLine (nchips : Nat) (line : List Char) : Except AsmError (List Instr) :=
  let text := trimBlanks (line.takeWhile (· ≠ '#'))
  if text = [] then .ok []
  else
    assembleCommand nchips (text.takeWhile (fun c => !isBlank c))
      (operandsOf (text.dropWhile (fun c => !isBlank c)))

/-- The command words of one line (rules R101, R120). -/
def assembleWords (nchips : Nat) (line : List Char) : Except AsmError (List Word) :=
  match assembleLine nchips line with
  | .ok is => .ok (is.flatMap encode)
  | .error err => .error err

end Sys2Proof.Machine
end

