-- ==== Sys2Proof/Machine/AtomicStep.lean ====
section
/-! DEFINITION. The atomic steps of rule R7: "one bus event (rule R10) or one internal state update
between events". `Machine/Step.lean` runs a whole command in one step, because the host's interface
runs an instruction in one; here the same commands run event by event, through the states the
machine passes on its way (log 2). -/

namespace Sys2Proof.Machine

/-- One bus event, performed in a state whose registers are those in force (rule R10). -/
def State.perform (e : Event) (s : State) : State :=
  match e with
  | .memWrite w v => s.memWrite w v
  | .memRead _ => s.readWord0
  | .capture c n => s.takeCapture c n
  | .isProgrammed => s.askProgrammed
  | .settle => s.settle

/-- One internal update: the block's registers take the values that are in force at the next event
(rules R7, R21). -/
def State.recall (e : TraceEntry) (s : State) : State :=
  { s with fsm := e.fsm, work := e.work, ctl := e.ctl, status := e.status, tables := e.tables }

/-- The events that a command which took the state `s` to `t` issued, each with the registers in force,
in order (rule R70). -/
def newEntries (s t : State) : List TraceEntry :=
  (t.trace.take (t.trace.length - s.trace.length)).reverse

/-- The states from `s` on, through the given events, up to the end of the command in `t`: before each
event the internal update that leads to it, where the registers change at all, then the event; after
the last event the update that ends the command. -/
def statesThrough (t : State) : List TraceEntry → State → List State
  | [], _ => [t]
  | e :: es, s =>
    let ready := s.recall e
    let done := ready.perform e.event
    if s.entry e.event = e then done :: statesThrough t es done
    else ready :: done :: statesThrough t es done

/-- The states that a command passes through, one for each atomic step, its last state included
(rule R7). -/
def commandStates (i : Instr) (s : State) : List State :=
  match exec i s with
  | .next t => statesThrough t (newEntries s t) s
  | .fault _ => []
  | .refused _ => []

/-- The machine between two atomic steps: its state, and the states that the command in progress still
passes through; none when the block is idle (rules R7, R300). -/
structure Progress where
  now : State
  ahead : List State
deriving DecidableEq, Repr

/-- One atomic step (rule R7): the next event or internal update of the command in progress, or, when
there is none, the acceptance of the next whole command, its words leaving the port (rules R112,
R300). The refusals are those of `step`. -/
def atomicStep (p : Progress) : Host.Outcome Progress Fault Refusal :=
  match p.ahead with
  | s :: rest => .next { now := s, ahead := rest }
  | [] =>
    match failedCheck p.now.inst with
    | some k => .refused (.illFormedInstance k)
    | none =>
      match p.now.nextCommand with
      | none => .next p
      | some (i, rest) =>
        if p.now.fsm = .idle then
          .next { now := p.now.setPort rest, ahead := commandStates i (p.now.setPort rest) }
        else .refused .commandWhileBusy

/-- `n` atomic steps, stopping at the first refusal. -/
def atomicRun : Nat → Progress → Host.Outcome Progress Fault Refusal
  | 0, p => .next p
  | n + 1, p =>
    match atomicStep p with
    | .next p' => atomicRun n p'
    | .fault r => .fault r
    | .refused r => .refused r

end Sys2Proof.Machine
end

