-- ==== Sys2Proof/Safety.lean ====
section
/-! DEFINITION. What counts as a safe state and a safe run, and the terms the statements use: how a
command ends, what it leaves unchanged, and the events the rules name, written out from the rules
and not from the operations of Machine/. -/

namespace Sys2Proof.Safety

open Sys2Proof.Machine

/-! ## How a command ends -/

/-- The state after a command that completed with `data` (rules R38, R289). -/
structure Completed (t : State) (data : ResponseData) : Prop where
  fsm : t.fsm = .idle
  lastErr : t.status.lastErr = .ok
  errInfo : t.status.errInfo = 0
  response : t.response = some { code := .ok, info := 0, data := data }

/-- The state after a command that aborted with a code and an information word (rules R38, R289,
R290). -/
structure Aborted (t : State) (e : ErrCode) (info : Word) : Prop where
  fsm : t.fsm = .idle
  lastErr : t.status.lastErr = e
  errInfo : t.status.errInfo = info
  response : t.response = some { code := e, info := info, data := .none }

/-! ## What a command leaves unchanged -/

/-- The instance, the words at the port and WARN_SEC are unchanged. -/
structure KeepsSetting (s t : State) : Prop where
  inst : t.inst = s.inst
  port : t.port = s.port
  warnSec : t.status.warnSec = s.status.warnSec

/-- The instance, the port, WARN_SEC, the control registers and the result tables are unchanged. -/
structure KeepsRegisters (s t : State) : Prop extends KeepsSetting s t where
  ctl : t.ctl = s.ctl
  tables : t.tables = s.tables

/-- No bus event was issued, no word written, no answer of the environment used up. -/
structure NoEvents (s t : State) : Prop where
  trace : t.trace = s.trace
  board : t.board = s.board
  programmed : t.env.programmed = s.env.programmed
  word0 : t.env.word0 = s.env.word0
  captures : t.env.captures = s.env.captures

/-- No answer of the environment is used up (the count of draws aside). -/
structure KeepsAnswers (s t : State) : Prop where
  programmed : t.env.programmed = s.env.programmed
  word0 : t.env.word0 = s.env.word0
  captures : t.env.captures = s.env.captures

/-- The receivers and registers of the ADC chips are unchanged. -/
structure KeepsAdc (s t : State) : Prop where
  receivers : t.board.receivers = s.board.receivers
  sentRegs : t.board.sentRegs = s.board.sentRegs
  upsets : t.board.upsets = s.board.upsets

/-- The registers of the ADC chips after a reset or a power cycle that ended with the register write `p`:
in a chip of CS_MASK that register holds the value, and every other register a free value; the other
chips keep theirs, unless they were in a malformed selection (rulings I12, I13, rules R81, R331;
log 10, log 12). -/
def LeavesOnly (p : RegWrite) (s t : State) : Prop :=
  ∀ c : ChipId,
    (s.ctl.csMask.getLsbD c.val = true → t.board.chipReg c p.addr = p.value ∧
      ∃ n, ∀ r : Byte, r ≠ p.addr → t.board.chipReg c r = Config.freeChipReg n c r) ∧
    (s.ctl.csMask.getLsbD c.val = false →
      s.board.receivers[c].endsMalformed s.inst.layout (s.board.held 0) c = false →
      ∀ r : Byte, t.board.chipReg c r = s.board.chipReg c r)

/-- The rows of chip `c` in the per-chip result tables are unchanged. -/
structure KeepsChipRows (c : ChipId) (s t : State) : Prop where
  calResult : t.tables.calResult[c] = s.tables.calResult[c]
  goodMap : t.tables.goodMap[c] = s.tables.goodMap[c]
  heurSlip : t.tables.heurSlip.getLsbD c.val = s.tables.heurSlip.getLsbD c.val

/-- The result tables that only TAP_CAL and CALIBRATE write are unchanged (rules R31 to R35). -/
structure KeepsCalTables (s t : State) : Prop where
  calResult : t.tables.calResult = s.tables.calResult
  goodMap : t.tables.goodMap = s.tables.goodMap
  errCount : t.tables.errCount = s.tables.errCount
  lastSweep : t.tables.lastSweep = s.tables.lastSweep
  heurSlip : t.tables.heurSlip = s.tables.heurSlip

/-- Every word but those of `ws` reads as before (rule R71). -/
def KeepsWords (ws : List Nat) (s t : State) : Prop :=
  ∀ w, w ∉ ws → t.board.rwi.read w = s.board.rwi.read w

/-! ## Events of the rules -/

/-- The `MemWrite` events of a transaction that writes `v` to register `a` of the chips in `m`:
50 word-0 writes (rule R132). -/
def serialEvents (I : Instance) (m : Byte) (p : RegWrite) : List Event :=
  let bits : List Bool :=
    ((List.range 8).map (fun i => p.addr.getLsbD (7 - i)))
      ++ (List.range 16).map (fun i => p.value.getLsbD (15 - i))
  [Event.memWrite 0 (idleFrame I)]
    ++ bits.flatMap (fun d =>
      [Event.memWrite 0 (frame I.layout false d (csActive I m)),
       Event.memWrite 0 (frame I.layout true d (csActive I m))])
    ++ [Event.memWrite 0 (idleFrame I)]

/-- The events of `SetDelayTap(c, t, lm)` (rule R172). -/
def delayTapEvents (L : Layout) (c : ChipId) (t lm : Byte) : List Event :=
  L.strobeWords.map (fun w => Event.memWrite w 0)
    ++ [Event.memWrite 1 (tapWord L t)]
    ++ L.strobeWords.map (fun w => Event.memWrite w (strobeValue L w c lm))
    ++ L.strobeWords.map (fun w => Event.memWrite w 0)
    ++ [Event.settle]

/-- The events of `BitslipPulse(c)` (rule R177). -/
def bitslipEvents (L : Layout) (c : ChipId) : List Event :=
  [Event.memWrite 1 0, Event.memWrite 1 (1#32 <<< (L.slipLsb + c.val)), Event.memWrite 1 0, Event.settle]

/-- `e` is a word write. -/
def isWrite : Event → Bool
  | .memWrite _ _ => true
  | .memRead _ => false
  | .capture _ _ => false
  | .isProgrammed => false
  | .settle => false

/-- `e` is a capture. -/
def isCapture : Event → Bool
  | .memWrite _ _ => false
  | .memRead _ => false
  | .capture _ _ => true
  | .isProgrammed => false
  | .settle => false

/-- `e` accesses only words the block uses: words 0, 1 and the strobe words by writes, word 0 by
reads (rules R60, R72, R76). -/
def usesOwnWords (L : Layout) : Event → Bool
  | .memWrite w _ => decide (w = 0 ∨ w = 1 ∨ w ∈ L.strobeWords)
  | .memRead w => decide (w = 0)
  | .capture _ _ => true
  | .isProgrammed => true
  | .settle => true

/-- After the events `before`, the serial writes of a list of register writes were performed, and
nothing else: the words other than word 0, the delay elements and the deserializers are as before,
word 0 is as before or the idle frame, and no register of the block changed (rules R132, R136). -/
structure SerialOutcome (before : List Event) (ps : List RegWrite) (s t : State) : Prop
    extends KeepsRegisters s t where
  events : t.events = s.events ++ before ++ ps.flatMap (serialEvents s.inst s.ctl.csMask)
  words : KeepsWords [0] s t
  word0 : t.board.rwi.read 0 = if ps = [] then s.board.rwi.read 0 else some (idleFrame s.inst)
  taps : t.board.taps = s.board.taps
  slips : t.board.slips = s.board.slips
  word0Answers : t.env.word0 = s.env.word0
  captures : t.env.captures = s.env.captures

/-- The words after the writes of a list of events, from the words before (rule R71). -/
def wordsAfter (m : WordMem) (es : List Event) : WordMem :=
  es.foldl (fun m e =>
    match e with
    | .memWrite w v => m.write w v
    | .memRead _ => m
    | .capture _ _ => m
    | .isProgrammed => m
    | .settle => m) m

/-- The chips of a mask below chip number `n`, in ascending order (rules R105, R253, R254). -/
def chipsBelow (m : Byte) (n : Nat) : List ChipId :=
  [0, 1, 2, 3, 4, 5, 6, 7].filter (fun c => m.getLsbD c.val && decide (c.val < n))

/-- The captures of the tap calibrations of a list of chips, `n` captures of `len` samples each
(rules R195, R210, R254). -/
def tapCalCaptures (n len : Nat) (cs : List ChipId) : List Event :=
  cs.flatMap (fun c => List.replicate n (.capture c len))

/-- The events of one probe: tap `u` on all lanes of chip `c`, then `n` captures of `len` samples
(rules R195, R213, R216). -/
def probeEvents (L : Layout) (c : ChipId) (n len u : Nat) : List Event :=
  delayTapEvents L c (BitVec.ofNat 8 u) 0xFF ++ List.replicate n (.capture c len)

/-- The events of step 5: each lane with a TAP result is latched, in ascending order (rule R223). -/
def latchEvents (L : Layout) (c : ChipId) (R : Lanes CalResult) : List Event :=
  ([0, 1, 2, 3, 4, 5, 6, 7] : List LaneId).flatMap (fun li =>
    match R[li] with
    | .tap u => delayTapEvents L c (u.setWidth 8) (1#8 <<< li.val)
    | .none => []
    | .indEmpty => []
    | .indWrapped => [])

/-- The events of a whole tap calibration of chip `c`: the DESKEW writes to the chips of CS_MASK, the
probes of taps 0 and 31, the heuristic bitslip when `slip` says so, the sweep, the latching of the
results `R` (rules R210, R212, R213, R214, R216, R223). -/
def tapCalEvents (I : Instance) (K : Control) (c : ChipId) (slip : Bool) (R : Lanes CalResult) :
    List Event :=
  I.chipRegs.deskewWrites.flatMap (serialEvents I K.csMask)
    ++ probeEvents I.layout c K.cfgIter.toNat K.cfgSnapLen.toNat 0
    ++ probeEvents I.layout c K.cfgIter.toNat K.cfgSnapLen.toNat 31
    ++ (if slip then bitslipEvents I.layout c else [])
    ++ (List.range 32).flatMap (probeEvents I.layout c K.cfgIter.toNat K.cfgSnapLen.toNat)
    ++ latchEvents I.layout c R

/-- The events of the synchronization of chip `c` that issues `k` bitslips: a capture of one sample, and
after each bitslip another (rules R240, R242). -/
def syncChipEvents (L : Layout) (c : ChipId) (k : Nat) : List Event :=
  .capture c 1 :: (List.replicate k (bitslipEvents L c ++ [.capture c 1])).flatten

/-- The events of a synchronization pass over a list of chips: the SYNC writes to the chips of the mask
`m`, then the chips one after another, with `k c` bitslips for chip `c` (rule R243). -/
def syncEvents (I : Instance) (m : Byte) (k : ChipId → Nat) (cs : List ChipId) : List Event :=
  I.chipRegs.syncWrites.flatMap (serialEvents I m)
    ++ cs.flatMap (fun c => syncChipEvents I.layout c (k c))

/-- The information word of a capture that fails in a tap calibration, in probe number `p` of its 34:
the chip in bits 7:0; in bits 15:8 the tap, 0, 31, or `p - 2` in the sweep; above them the phase, 3
(PROBE) or 5 (SWEEP) (rules R213, R216, R285). -/
def tapCalFailure (c : ChipId) (p : Nat) : Word :=
  BitVec.ofNat 32
    (c.val + 0x100 * (if p = 0 then 0 else if p = 1 then 31 else p - 2) +
      0x10000 * (if p < 2 then 3 else 5))

/-- The information word of a capture that fails in a synchronization, in capture number `k` of the
chip: the chip in bits 7:0, the retry in bits 15:8, above them the phase, 10 (ROUND) or 11 (RECHECK)
(rules R240, R285). -/
def syncFailure (I : Instance) (c : ChipId) (k : Nat) : Word :=
  BitVec.ofNat 32 (c.val + 0x100 * k + 0x10000 * (if k < I.syncRetries then 10 else 11))

/-- The results of chip `c` are the windows of its good maps (rules R220, R222). -/
def HasWindows (c : ChipId) (s : State) : Prop :=
  ∀ li : LaneId, s.tables.calResult[c][li] = window s.inst.wrapSpan s.tables.goodMap[c][li]

/-! ## Atomic steps -/

/-- One internal update: nothing outside the block's registers, its response and the count of draws
changes (rule R7). -/
structure InternalUpdate (s t : State) : Prop where
  inst : t.inst = s.inst
  port : t.port = s.port
  trace : t.trace = s.trace
  board : t.board = s.board
  programmed : t.env.programmed = s.env.programmed
  word0 : t.env.word0 = s.env.word0
  captures : t.env.captures = s.env.captures

/-- One atomic step of a command: one bus event, or one internal update (rule R7). -/
def OneAtomicStep (s t : State) : Prop := (∃ e, t = s.perform e) ∨ InternalUpdate s t

/-! ## Answers of the sampler -/

/-- How many of the first `n` samples of lane `li` differ from the byte `x`: sample k of channel
`li mod 4` belongs to the lane when `k mod 2 = li div 4` (rules R12, R191). -/
def laneMismatches (S : Samples) (n : Nat) (x : Byte) (li : LaneId) : Nat :=
  (List.range n).countP (fun k =>
    decide (k % 2 = li.val / 4) && decide ((S[laneChannel li]).getD k 0 ≠ x))

/-- The first sample of each of the four channels is the byte `x` (rule R241). -/
abbrev firstSamplesAre (S : Samples) (x : Byte) : Prop := ∀ ch : Fin 4, (S[ch]).head? = some x

/-- The scripted captures begin with the whole captures `answers` of `n` samples per channel. -/
def Scripted (answers : List Samples) (n : Nat) (s : State) : Prop :=
  (∃ rest, s.env.captures = answers.map .ok ++ rest) ∧
    ∀ S ∈ answers, ∀ ch : Fin 4, (S[ch]).length = n

/-- The next `n` captures succeed: their answers are scripted, and none of them is a failure. -/
def CapturesSucceed (n : Nat) (s : State) : Prop :=
  n ≤ s.env.captures.length ∧ ∀ a ∈ s.env.captures.take n, a ≠ .fail

/-- The scripted captures are `n` that succeed and then one that fails. -/
def FailsAfter (n : Nat) (l : List CaptureAnswer) : Prop :=
  ∃ good rest, l = good ++ .fail :: rest ∧ good.length = n ∧ ∀ a ∈ good, a ≠ .fail

/-- The frames of the synchronization of one chip: the last of them is the first that matches `x`, or
the re-check, the one of index `n` (rules R240, R241). -/
def SyncFrames (n : Nat) (x : Byte) (l : List Samples) : Prop :=
  ∃ bad last, l = bad ++ [last] ∧ bad.length ≤ n ∧ (∀ S ∈ bad, ¬ firstSamplesAre S x) ∧
    (firstSamplesAre last x ∨ bad.length = n)

/-- The scripted captures are, of one sample each, the whole synchronizations of the chips `cs`, then `k`
frames that do not match, then a failure. -/
def FailsInSync (n : Nat) (x : Byte) (cs : List ChipId) (k : Nat) (l : List CaptureAnswer) : Prop :=
  ∃ (frames : ChipId → List Samples) (bad : List Samples) (rest : List CaptureAnswer),
    l = (cs.flatMap frames ++ bad).map .ok ++ .fail :: rest ∧
    (∀ S ∈ cs.flatMap frames ++ bad, ∀ ch : Fin 4, (S[ch]).length = 1) ∧
    (∀ c ∈ cs, SyncFrames n x (frames c)) ∧
    (∀ S ∈ bad, ¬ firstSamplesAre S x) ∧ bad.length = k

/-! ## Safe states -/

/-- The block has left no strobe bit and no bitslip bit at 1: of the strobe words and word 1, those it
has written at all have these bits at 0 (rules R290, R312). -/
structure Quiet (s : State) : Prop where
  strobes : ∀ w ∈ s.inst.layout.strobeWords, ∀ v, s.board.rwi.read w = some v → v = 0
  slips : ∀ c : ChipId, c.val < s.inst.nchips → ∀ v, s.board.rwi.read 1 = some v →
    v.getLsbD (s.inst.layout.slipLsb + c.val) = false

/-- No chip is in a serial selection, and its bit counter is at 0 (rule R81). -/
def ReceiversAtRest (s : State) : Prop :=
  ∀ c : ChipId, c.val < s.inst.nchips →
    chipSelected s.inst.layout (s.board.held 0) c = false ∧ s.board.receivers[c].count = 0

/-- The legal values of the control registers (rules R23, R26, R27). -/
structure ControlLegal (s : State) : Prop where
  csMask : maskValid s.inst s.ctl.csMask
  cfgIter : s.ctl.cfgIter ≠ 0
  cfgSnapLen : 2 ≤ s.ctl.cfgSnapLen.toNat ∧ s.ctl.cfgSnapLen.toNat ≤ s.inst.snapDepth

/-- What the result tables keep: a calibration result is NONE or the window of the lane's good map
(rules R220, R224, R228), and entries of chips the board does not have hold their reset values. -/
structure TablesLegal (s : State) : Prop where
  results : ∀ (c : ChipId) (li : LaneId), s.tables.calResult[c][li] = .none ∨
    s.tables.calResult[c][li] = window s.inst.wrapSpan s.tables.goodMap[c][li]
  absentSync : ∀ c : ChipId, s.inst.nchips ≤ c.val → s.tables.syncStatus[c] = .notAttempted
  absentResults : ∀ (c : ChipId) (li : LaneId), s.inst.nchips ≤ c.val →
    s.tables.calResult[c][li] = .none ∧ s.tables.goodMap[c][li] = 0
  heurSlip : maskValid s.inst s.tables.heurSlip
  lastSweep : s.tables.lastSweep.chip.toNat < s.inst.nchips

/-- What every step keeps. Of the serial receivers nothing is known before the block first writes word 0
(rules R80, R312). -/
structure Inv (s : State) : Prop where
  idle : s.fsm = .idle
  memory : s.board.rwi.wf
  control : ControlLegal s
  tables : TablesLegal s
  quiet : Quiet s
  atRest : s.board.rwi.read 0 ≠ none → ReceiversAtRest s

/-- A run of any length from `s` goes on: no step of it faults or is refused. -/
def NeverStops (s : State) : Prop := ∀ k, ∃ t, Sys2Proof.core.run k s = .next t

end Sys2Proof.Safety
end

