-- ==== Sys2Proof/Certificates/Slice0/Obligations.lean ====
section
/-! DEFINITION. The statements for the provers. Each docstring names the rule it formalises. -/

open Sys2Proof Sys2Proof.Machine Sys2Proof.Safety

/-! ## Encoding -/

/-- Decoding the words of a well-formed command gives the command, whatever words follow
(rules R100, R101, R102, R112, R119). -/
def Obligations.DecodeInvertsEncode : Prop :=
  ∀ (i : Instr) (rest : List Word), WellFormed i → decode (encode i ++ rest) = .ok (i, rest)

/-- The other direction: a command that is not ILLEGAL is spelled by exactly the words it was decoded
from, so no bit of a word is dropped (rules R101, R116). -/
def Obligations.EncodeInvertsDecode : Prop :=
  ∀ (ws : List Word) (i : Instr), decode ws = .ok (i, []) → (∀ w, i ≠ .illegal w) → encode i = ws

/-- No word matches two rows of the opcode map (rule R102 "Every 32-bit word either spells exactly
one of the fifteen commands or is illegal"). -/
def Obligations.OpcodeRowsDisjoint : Prop :=
  ∀ (w : Word), ∀ r ∈ opcodeMap, ∀ r' ∈ opcodeMap,
    w &&& r.mask = r.bits → w &&& r'.mask = r'.bits → r.mnemonic = r'.mnemonic

/-- A word that matches no row of the fifteen commands decodes to ILLEGAL with that word, after the
length its opcode gives (rules R100, R116). -/
def Obligations.UnspelledWordDecodesToIllegal : Prop :=
  ∀ (w : Word) (rest : List Word), payloadCount w ≤ rest.length →
    (∀ r ∈ opcodeMap, r.mnemonic ≠ "ILLEGAL" → w &&& r.mask ≠ r.bits) →
    decode (w :: rest) = .ok (.illegal w, rest.drop (payloadCount w))

/-- The worked encodings of rule R123 decode to the commands they are given for. -/
def Obligations.WorkedEncodingsDecode : Prop :=
  decode [0x10250010] = .ok (.writeReg 0x25 0x0010, []) ∧
  decode [0x20000002] = .ok (.setCsMask 0x02, []) ∧
  decode [0x33000FFF] = .ok (.setDelayTap 3 15 0xFF, []) ∧
  decode [0x40000001] = .ok (.bitslip 0x01, []) ∧
  decode [0x50000000] = .ok (.chipReset, []) ∧
  decode [0x60000000] = .ok (.powerCycle, []) ∧
  decode [0x70000001] = .ok (.selectPattern 1, []) ∧
  decode [0x80000155] = .ok (.setCustomPattern 1 0x55, []) ∧
  decode [0x90000002, 0x00310001, 0x00571234] =
    .ok (.initializeChips [⟨0x31, 0x0001⟩, ⟨0x57, 0x1234⟩], []) ∧
  decode [0xA0000400] = .ok (.capture 0 1024, []) ∧
  decode [0xB2000000] = .ok (.tapCal 2, []) ∧
  decode [0xC0000003] = .ok (.syncVerify 0x03, []) ∧
  decode [0xD00000FF] = .ok (.calibrate 0xFF, []) ∧
  decode [0xE0000403] = .ok (.readStatus 4 3, []) ∧
  decode [0xF2000001] = .ok (.setConfig 2 1, [])

/-! ## The step -/

/-- A step runs the command at the head of the port: when the presented words decode to a command,
the step is that command's meaning, with its words taken from the port (rule R300; the port is the
model's, log 3). -/
def Obligations.StepRunsTheDecodedCommand : Prop :=
  ∀ (s : State) (i : Instr) (rest : List Word),
    InstanceOk s.inst → s.fsm = .idle → decode s.port = .ok (i, rest) →
    step s = exec i { s with port := rest }

/-- A well-formed command whose words are presented next is what the step runs, with everything else
of the state as it was (rules R112, R119, R300; the port is the model's, log 3). -/
def Obligations.PresentedCommandRuns : Prop :=
  ∀ (s : State) (i : Instr), InstanceOk s.inst → s.fsm = .idle → WellFormed i →
    step { s with port := encode i ++ s.port } = exec i s

/-- While no whole command is presented, or only a part of an INITIALIZE, the block waits and nothing
changes (rules R112, R310; the model's choice, log 3). -/
def Obligations.StepWaitsForAWholeCommand : Prop :=
  ∀ (s : State) (e : DecodeError), InstanceOk s.inst → decode s.port = .error e → step s = .next s

/-- What a step does not run: an instance that fails a named check, under the name of a check it fails,
and a command presented while another executes (I14, rule R300; log 18). Nothing else is refused, and
no step ends in a fault (rules R280, R287). Rules R6 and R65 name the checks `nchips` to `ncustom` and
L1 to L5; the model deduces the check `syncRetries` from rule R22 (log 16), the checks `ranges`,
`rwiWords`, `chipRegs` and the non-empty strobe list from rules R64, R60 and R66 (log 17), and it
chooses the order in which the checks are made (log 19). -/
def Obligations.StepRefusesOnlyWhatTheSpecDoesNotRun : Prop :=
  ∀ (s : State),
    (¬ InstanceOk s.inst →
      ∃ k, passes s.inst k = false ∧ step s = .refused (.illFormedInstance k)) ∧
    (InstanceOk s.inst → s.fsm ≠ .idle →
      ∀ (i : Instr) (rest : List Word), decode s.port = .ok (i, rest) →
        step s = .refused .commandWhileBusy) ∧
    (InstanceOk s.inst → s.fsm = .idle → ∃ t, step s = .next t)

/-! ## Reset, invariants, runs -/

/-- The reset value of every register the spec gives one for, in any instance, and no bus event at
reset (rules R311, R312). -/
def Obligations.ResetLeavesTheStatedValues : Prop :=
  ∀ (I : Instance), InstanceOk I →
    let s := State.resetOf I
    s.inst = I ∧ s.fsm = .idle ∧
    s.ctl.csMask.toNat = 2 ^ I.nchips - 1 ∧ s.ctl.cfgDeskew = 0x2A ∧ s.ctl.cfgSync = 0x70 ∧
    s.ctl.cfgIter = 1 ∧ s.ctl.cfgSnapLen.toNat = I.snapDepth ∧
    statusWord s.status s.fsm = 0 ∧ s.status.errInfo = 0 ∧
    syncStatusWord s.tables.syncStatus = 0 ∧
    (∀ (c : ChipId) (li : LaneId),
      (s.tables.calResult[c][li]).byte = 0 ∧ s.tables.goodMap[c][li] = 0) ∧
    (∀ (t : Fin 32) (li : LaneId), s.tables.errCount[t][li] = 0) ∧
    s.tables.lastSweep.byte = 0 ∧ s.tables.heurSlip = 0 ∧ s.events = []

/-- The invariant holds after reset, in any instance, whatever the words, the receivers and the chip
registers hold at power-on (rules R311, R312). -/
def Obligations.ResetMeetsTheInvariant : Prop :=
  ∀ (I : Instance), InstanceOk I → Inv (State.resetOf I)

/-- Every step keeps the invariant and the instance (rules R23, R26, R27, R30, R31, R35, R220, R228,
R290): the block is idle between commands, memory stays canonical, the control registers stay
legal, every calibration result is NONE or the window of its good map, the block leaves no strobe or
bitslip bit at 1 in a word it wrote, and, once it has written word 0, every chip is de-selected and
its bit counter at 0. -/
def Obligations.EveryStepKeepsTheInvariant : Prop :=
  ∀ (s t : State), Inv s → step s = .next t → Inv t ∧ t.inst = s.inst

/-- Every run, of any length, from a state that meets the invariant goes on: the block accepts the
next command after every completion and every abort (rules R280, R290, R292). -/
def Obligations.RunsNeverStop : Prop :=
  ∀ (s : State), InstanceOk s.inst → Inv s → NeverStops s

/-! ## Rules about all commands -/

/-- Every command ends idle with a response, and LAST_ERR and ERR_INFO carry the response's code and
information word, but for a READ_STATUS that succeeds, which writes neither (rules R38, R280,
R289). An abort has no data. -/
def Obligations.EveryCommandReportsItsEnd : Prop :=
  ∀ (i : Instr) (s : State), s.fsm = .idle →
    ∃ t r, exec i s = .next t ∧ t.fsm = .idle ∧ t.response = some r ∧
      (r.code ≠ .ok → r.data = .none) ∧ (r.code = .ok → r.info = 0) ∧
      (if (∃ sel idx, i = .readStatus sel idx) ∧ r.code = .ok then t.status = s.status
       else t.status.lastErr = r.code ∧ t.status.errInfo = r.info)

/-- Only SET_CS_MASK writes CS_MASK, and only SET_CONFIG the CFG registers (rules R23, R24, R25,
R141). -/
def Obligations.ControlWrittenOnlyByItsCommands : Prop :=
  ∀ (i : Instr) (s t : State), exec i s = .next t →
    ((∀ mask, i ≠ .setCsMask mask) → t.ctl.csMask = s.ctl.csMask) ∧
    ((∀ f v, i ≠ .setConfig f v) → t.ctl.cfgDeskew = s.ctl.cfgDeskew ∧
      t.ctl.cfgSync = s.ctl.cfgSync ∧ t.ctl.cfgIter = s.ctl.cfgIter ∧
      t.ctl.cfgSnapLen = s.ctl.cfgSnapLen)

/-- Only CALIBRATE writes WARN_SEC; only SYNC_VERIFY and CALIBRATE write SYNC_STATUS; only TAP_CAL and
CALIBRATE write the calibration tables (rules R28, R30 to R35). -/
def Obligations.ResultsWrittenOnlyByTheirCommands : Prop :=
  ∀ (i : Instr) (s t : State), exec i s = .next t → (∀ m, i ≠ .calibrate m) →
    t.status.warnSec = s.status.warnSec ∧
    ((∀ m, i ≠ .syncVerify m) → t.tables.syncStatus = s.tables.syncStatus) ∧
    ((∀ c, i ≠ .tapCal c) → KeepsCalTables s t)

/-- Every command only appends to the trace, in any state: no event is dropped or reordered; what it
appends accesses word 0, word 1 and the strobe words only; the words of the interface are the ones its
writes leave; and the command is a chain of atomic steps, each one bus event or one internal update,
from the state it starts in to the state it ends in (rules R7, R70, R71, R76; log 2). -/
def Obligations.TraceGrowsAndExplainsTheWords : Prop :=
  ∀ (i : Instr) (s t : State), exec i s = .next t →
    ∃ l, t.events = s.events ++ l ∧ (∀ e ∈ l, usesOwnWords s.inst.layout e = true) ∧
      t.board.rwi = wordsAfter s.board.rwi l ∧
      (commandStates i s).getLast? = some t ∧
      List.IsChain OneAtomicStep (s :: commandStates i s)

/-! ## Errors -/

/-- ILLEGAL: a word that spells no command aborts with ILLEGAL_COMMAND and the offending word, before
any bus event (rules R116, R282). -/
def Obligations.IllegalCommandAborts : Prop :=
  ∀ (word : Word) (s : State), ∃ t, exec (.illegal word) s = .next t ∧
    Aborted t .illegalCommand word ∧ KeepsRegisters s t ∧ NoEvents s t

/-- INITIALIZE with an illegal payload word aborts with the first such word, whatever its other
payload words (rules R112, R116, R288). -/
def Obligations.IllegalPayloadWordAborts : Prop :=
  ∀ (s : State) (n : Half) (before after rest : List Word) (bad : Word),
    InstanceOk s.inst → s.fsm = .idle →
    (before ++ bad :: after).length = n.toNat →
    (∀ p ∈ before, p.extractLsb' 24 8 = 0) → bad.extractLsb' 24 8 ≠ 0 →
    s.port = (0x9000#16 ++ n) :: ((before ++ bad :: after) ++ rest) →
    ∃ t, step s = .next t ∧ Aborted t .illegalCommand bad ∧ NoEvents s t ∧ t.port = rest ∧
      t.ctl = s.ctl ∧ t.tables = s.tables

/-- The field values of rule R117 abort with ILLEGAL_COMMAND and the command word, before any bus
event, and change no register but LAST_ERR and ERR_INFO. The illegal pairs of READ_STATUS are those
outside the list of rule R261. -/
def Obligations.IllegalValuesAbort : Prop :=
  ∀ (s : State),
    (∀ kind : BitVec 4, 3 < kind.toNat →
      ∃ t, exec (.selectPattern kind) s = .next t ∧
        Aborted t .illegalCommand (0x7000000#28 ++ kind) ∧ KeepsRegisters s t ∧ NoEvents s t) ∧
    (∀ (slot : BitVec 4) (byte : Byte), s.inst.ncustom ≤ slot.toNat →
      ∃ t, exec (.setCustomPattern slot byte) s = .next t ∧
        Aborted t .illegalCommand (0x80000#20 ++ slot ++ byte) ∧ KeepsRegisters s t ∧
        NoEvents s t) ∧
    (∀ (chip : BitVec 3) (len : Half), len = 0 ∨ s.inst.snapDepth < len.toNat →
      ∃ t, exec (.capture chip len) s = .next t ∧
        Aborted t .illegalCommand (0xA#4 ++ 0#1 ++ chip ++ 0#8 ++ len) ∧ KeepsRegisters s t ∧
        NoEvents s t) ∧
    (∀ sel idx : Byte,
      (sel = 0 ∧ 1 < idx.toNat) ∨ (sel ∈ ([1, 3, 8, 9] : List Byte) ∧ idx ≠ 0) ∨
        (sel ∈ ([2, 7] : List Byte) ∧ 3 < idx.toNat) ∨
        (sel ∈ ([4, 5] : List Byte) ∧ 8 * s.inst.nchips ≤ idx.toNat) ∨ 10 ≤ sel.toNat →
      ∃ t, exec (.readStatus sel idx) s = .next t ∧
        Aborted t .illegalCommand (0xE000#16 ++ sel ++ idx) ∧ KeepsRegisters s t ∧
        NoEvents s t) ∧
    (∀ (field : BitVec 4) (value : Half),
      (field.toNat ≤ 1 ∧ 0xFF < value.toNat) ∨ (field = 2 ∧ value = 0) ∨
        (field = 3 ∧ (value.toNat < 2 ∨ s.inst.snapDepth < value.toNat)) ∨ 3 < field.toNat →
      ∃ t, exec (.setConfig field value) s = .next t ∧
        Aborted t .illegalCommand (0xF#4 ++ field ++ 0#8 ++ value) ∧ KeepsRegisters s t ∧
        NoEvents s t)

/-- A chip mask with a bit at or above NCHIPS aborts the four mask commands with
INVALID_CHIP_SPECIFIER and the mask, before any bus event (rules R105, R283). -/
def Obligations.InvalidMaskAborts : Prop :=
  ∀ (s : State) (mask : Byte) (c : ChipId), s.inst.nchips ≤ c.val → mask.getLsbD c.val = true →
    ∀ i ∈ [Instr.setCsMask mask, .bitslip mask, .syncVerify mask, .calibrate mask],
      ∃ t, exec i s = .next t ∧ Aborted t .invalidChipSpecifier (0#24 ++ mask) ∧
        KeepsRegisters s t ∧ NoEvents s t

/-- A chip field at or above NCHIPS aborts the three chip commands with INVALID_CHIP_SPECIFIER and
the field, before any bus event; CAPTURE checks its length first (rules R104, R283, R288). -/
def Obligations.InvalidChipAborts : Prop :=
  ∀ (s : State) (chip : BitVec 3), s.inst.nchips ≤ chip.toNat →
    (∀ tap lm : Byte, ∃ t, exec (.setDelayTap chip tap lm) s = .next t ∧
      Aborted t .invalidChipSpecifier (0#29 ++ chip) ∧ KeepsRegisters s t ∧ NoEvents s t) ∧
    (∃ t, exec (.tapCal chip) s = .next t ∧
      Aborted t .invalidChipSpecifier (0#29 ++ chip) ∧ KeepsRegisters s t ∧ NoEvents s t) ∧
    (∀ len : Half, 1 ≤ len.toNat → len.toNat ≤ s.inst.snapDepth →
      ∃ t, exec (.capture chip len) s = .next t ∧
        Aborted t .invalidChipSpecifier (0#29 ++ chip) ∧ KeepsRegisters s t ∧ NoEvents s t)

/-! ## Serial protocol (40) -/

/-- WRITE_REG performs the 50 word-0 writes of rule R132, completes, and changes no other word and no
other register (rules R132, R135, R136). -/
def Obligations.WriteRegSendsOneTransaction : Prop :=
  ∀ (addr : Byte) (value : Half) (s : State), InstanceOk s.inst →
    ∃ t, exec (.writeReg addr value) s = .next t ∧ Completed t .none ∧
      SerialOutcome [] [⟨addr, value⟩] s t ∧ t.env.programmed = s.env.programmed

/-- Under the receiver model, whatever the receivers held before, WRITE_REG leaves every chip de-selected,
its bit counter at 0, and the value in the addressed register of every chip of CS_MASK (rules R81,
R134). What else the chips hold: where the write resets or power-cycles the chip, the other
registers are free values (ruling I13; log 12). Otherwise, in a chip that was not selected, or in a
selection of 24 bits, nothing else was sent and nothing else changes; in a chip that the opening
idle frame takes out of a malformed selection, of fewer bits than 24, none included, or of more
(before the block's first write of word 0 a chip may be in one), the other registers are free values
(ruling I12; log 10). CS_MASK is legal. -/
def Obligations.WriteRegReachesTheSelectedChips : Prop :=
  ∀ (addr : Byte) (value : Half) (s t : State), InstanceOk s.inst →
    maskValid s.inst s.ctl.csMask → exec (.writeReg addr value) s = .next t →
    ReceiversAtRest t ∧
    ∀ (c : ChipId), c.val < s.inst.nchips →
      let selected := s.ctl.csMask.getLsbD c.val
      let malformed := s.board.receivers[c].endsMalformed s.inst.layout (s.board.held 0) c
      let upset := selected && chipUpset s.inst.chipRegs ⟨addr, value⟩
      (selected = true → t.board.chipReg c addr = value ∧
        (t.board.sentRegs[c])[addr.toNat]'addr.isLt = value) ∧
      (malformed = false → ∀ r : Byte, selected = false ∨ r ≠ addr →
        (t.board.sentRegs[c])[r.toNat]'r.isLt = (s.board.sentRegs[c])[r.toNat]'r.isLt ∧
        (upset = false → t.board.chipReg c r = s.board.chipReg c r)) ∧
      (upset = true →
        ∃ n, ∀ r : Byte, r ≠ addr → t.board.chipReg c r = Config.freeChipReg n c r) ∧
      (malformed = true → upset = false → ∃ n, ∀ r : Byte, selected = false ∨ r ≠ addr →
        t.board.chipReg c r = (Config.freeChipRegs n c)[r.toNat]'r.isLt)

/-- A serial transaction holds the select lines, clocks 24 bits most significant bit first, and its
clock rises once per bit: in a layout that passes the checks, the CS, SDATA and SCLK fields of the
frames WRITE_REG writes are exactly those of rules R130 to R134, and it makes 50 writes. -/
def Obligations.WriteRegFramesCarryTheBits : Prop :=
  ∀ (addr : Byte) (value : Half) (s t : State), InstanceOk s.inst →
    maskValid s.inst s.ctl.csMask → exec (.writeReg addr value) s = .next t →
    ∃ ws : List Word, ws.length = 50 ∧
      t.events = s.events ++ ws.map (fun v => Event.memWrite 0 v) ∧
      (∀ k ∈ [0, 49], (ws.getD k 0).getLsbD s.inst.layout.sclkBit = true ∧
        (ws.getD k 0).getLsbD s.inst.layout.sdataBit = false ∧
        ∀ c : ChipId, c.val < s.inst.nchips →
          chipSelected s.inst.layout (ws.getD k 0) c = false) ∧
      (∀ j, j < 24 → ∀ h, h < 2 →
        let v := ws.getD (1 + 2 * j + h) 0
        v.getLsbD s.inst.layout.sclkBit = decide (h = 1) ∧
        v.getLsbD s.inst.layout.sdataBit =
          (if j < 8 then addr.getLsbD (7 - j) else value.getLsbD (23 - j)) ∧
        ∀ c : ChipId, c.val < s.inst.nchips →
          chipSelected s.inst.layout v c = s.ctl.csMask.getLsbD c.val)

/-- SET_CS_MASK writes CS_MASK and issues no bus event (rule R140). -/
def Obligations.SetCsMaskWritesTheMask : Prop :=
  ∀ (mask : Byte) (s : State), (∀ c : ChipId, mask.getLsbD c.val = true → c.val < s.inst.nchips) →
    ∃ t, exec (.setCsMask mask) s = .next t ∧ Completed t .none ∧ KeepsSetting s t ∧
      t.ctl = { s.ctl with csMask := mask } ∧ t.tables = s.tables ∧ NoEvents s t

/-! ## Chip configuration (41) -/

/-- CHIP_RESET sends the reset writes (rule R150). Under the receiver model the last of them stores its
value in every chip of CS_MASK, whose other registers are free values from then on (ruling I13, rule
R331; log 12); the other chips keep theirs. -/
def Obligations.ChipResetSendsTheResetWrites : Prop :=
  ∀ (s : State), InstanceOk s.inst →
    ∃ t, exec .chipReset s = .next t ∧ Completed t .none ∧
      SerialOutcome [] s.inst.chipRegs.resetWrites s t ∧ t.env.programmed = s.env.programmed ∧
      (maskValid s.inst s.ctl.csMask →
        ∀ p, s.inst.chipRegs.resetWrites.getLast? = some p → LeavesOnly p s t)

/-- POWER_CYCLE sends power-down, then power-up, to the power register, with no wait (rule R152). Under
the receiver model every chip of CS_MASK then holds the power-up value there, and its other registers
are free values (ruling I13, rule R331; log 12); the other chips keep theirs. -/
def Obligations.PowerCycleSendsDownThenUp : Prop :=
  ∀ (s : State), InstanceOk s.inst →
    ∃ t, exec .powerCycle s = .next t ∧ Completed t .none ∧
      SerialOutcome [] [⟨s.inst.chipRegs.powerReg, s.inst.chipRegs.powerDownValue⟩,
        ⟨s.inst.chipRegs.powerReg, s.inst.chipRegs.powerUpValue⟩] s t ∧
      t.env.programmed = s.env.programmed ∧
      (maskValid s.inst s.ctl.csMask →
        LeavesOnly ⟨s.inst.chipRegs.powerReg, s.inst.chipRegs.powerUpValue⟩ s t)

/-- SELECT_PATTERN sends the writes of its kind: 0 NORMAL, 1 DESKEW, 2 SYNC, 3 CUSTOM (rules R108,
R154). -/
def Obligations.SelectPatternSendsTheKindsWrites : Prop :=
  ∀ (s : State) (kind : BitVec 4) (ps : List RegWrite), InstanceOk s.inst →
    (kind = 0 ∧ ps = s.inst.chipRegs.normalWrites ∨ kind = 1 ∧ ps = s.inst.chipRegs.deskewWrites ∨
      kind = 2 ∧ ps = s.inst.chipRegs.syncWrites ∨ kind = 3 ∧ ps = s.inst.chipRegs.customWrites) →
    ∃ t, exec (.selectPattern kind) s = .next t ∧ Completed t .none ∧
      SerialOutcome [] ps s t ∧ t.env.programmed = s.env.programmed

/-- SET_CUSTOM_PATTERN sends `customPatternWrites(slot, byte)`, the table's row `slot` and column
`byte` (rules R66, R156). -/
def Obligations.SetCustomPatternSendsTheSlotsWrites : Prop :=
  ∀ (s : State) (slot : BitVec 4) (byte : Byte) (row : List (List RegWrite))
    (ps : List RegWrite), InstanceOk s.inst → slot.toNat < s.inst.ncustom →
    s.inst.chipRegs.customPattern[slot.toNat]? = some row → row[byte.toNat]? = some ps →
    ∃ t, exec (.setCustomPattern slot byte) s = .next t ∧ Completed t .none ∧
      SerialOutcome [] ps s t ∧ t.env.programmed = s.env.programmed

/-- INITIALIZE on a programmed FPGA: the query, the reset writes, the overrides with an address up to
0x56 in order (the others are skipped), power-down, power-up (rules R160, R161). Under the receiver
model every chip of CS_MASK then holds the power-up value in the power register, and its other
registers, the overrides among them, are free values (ruling I13, rule R331 "A host must not assume
that a pattern selected before an INITIALIZE survives it"; log 12). -/
def Obligations.InitializeSendsTheOverrides : Prop :=
  ∀ (s : State) (overrides : List RegWrite), InstanceOk s.inst →
    s.nextProgrammed = true →
    ∃ t, exec (.initializeChips overrides) s = .next t ∧ Completed t .none ∧
      SerialOutcome [.isProgrammed]
        (s.inst.chipRegs.resetWrites ++ overrides.filter (fun p => p.addr.toNat ≤ 0x56) ++
          [⟨s.inst.chipRegs.powerReg, s.inst.chipRegs.powerDownValue⟩,
           ⟨s.inst.chipRegs.powerReg, s.inst.chipRegs.powerUpValue⟩]) s t ∧
      t.env.programmed = s.env.programmed.tail ∧
      (maskValid s.inst s.ctl.csMask →
        LeavesOnly ⟨s.inst.chipRegs.powerReg, s.inst.chipRegs.powerUpValue⟩ s t)

/-- INITIALIZE on an FPGA that is not programmed aborts after the query and before any write
(rules R160, R284). -/
def Obligations.InitializeNeedsAProgrammedFpga : Prop :=
  ∀ (s : State) (overrides : List RegWrite), s.nextProgrammed = false →
    ∃ t, exec (.initializeChips overrides) s = .next t ∧ Aborted t .notProgrammed 0 ∧
      KeepsRegisters s t ∧ t.board = s.board ∧ t.events = s.events ++ [.isProgrammed]

/-! ## Delay taps and bitslip (42) -/

/-- SET_DELAY_TAP performs the events of rule R172, completes, and leaves word 1 at the tap word and
every strobe word at 0, and every other word, register, ADC receiver and deserializer as it was
(rules R171, R172, R175). -/
def Obligations.SetDelayTapStrobesTheTap : Prop :=
  ∀ (s : State) (chip : BitVec 3) (tap lm : Byte), InstanceOk s.inst →
    chip.toNat < s.inst.nchips →
    ∃ t, exec (.setDelayTap chip tap lm) s = .next t ∧ Completed t .none ∧ KeepsRegisters s t ∧
      KeepsAnswers s t ∧ KeepsAdc s t ∧ t.board.slips = s.board.slips ∧
      t.events = s.events ++ delayTapEvents s.inst.layout (chipOfBits chip) tap lm ∧
      KeepsWords (1 :: s.inst.layout.strobeWords) s t ∧
      t.board.rwi.read 1 = some ((BitVec.ofNat 32 (tap.toNat % 32)) <<< s.inst.layout.tapLsb) ∧
      ∀ w ∈ s.inst.layout.strobeWords, t.board.rwi.read w = some 0

/-- Under the delay-element model, SET_DELAY_TAP latches `tap & 0x1F` into exactly the lanes of the
lane mask of the addressed chip (rules R82, R106, R174). -/
def Obligations.SetDelayTapLatchesTheAddressedLanes : Prop :=
  ∀ (s t : State) (chip : BitVec 3) (tap lm : Byte), InstanceOk s.inst →
    chip.toNat < s.inst.nchips → exec (.setDelayTap chip tap lm) s = .next t →
    ∀ (c : ChipId) (li : LaneId), t.board.taps[c][li] =
      if c.val = chip.toNat ∧ lm.getLsbD li.val = true then BitVec.ofNat 5 (tap.toNat % 32)
      else s.board.taps[c][li]

/-- BITSLIP pulses each chip of the mask once, in ascending order, and under the deserializer model
advances the alignment of exactly those chips by one position; no delay tap changes (rules R83,
R177, R178, R180). -/
def Obligations.BitslipPulsesTheMask : Prop :=
  ∀ (s : State) (mask : Byte), InstanceOk s.inst → maskValid s.inst mask →
    ∃ t, exec (.bitslip mask) s = .next t ∧ Completed t .none ∧ KeepsRegisters s t ∧
      KeepsAnswers s t ∧ KeepsAdc s t ∧ t.board.taps = s.board.taps ∧
      t.events = s.events ++ (([0, 1, 2, 3, 4, 5, 6, 7] : List ChipId).filter
        (fun c => mask.getLsbD c.val)).flatMap (bitslipEvents s.inst.layout) ∧
      KeepsWords [1] s t ∧
      t.board.rwi.read 1 = (if mask = 0 then s.board.rwi.read 1 else some 0) ∧
      ∀ c : ChipId, t.board.slips[c] =
        s.board.slips[c] + if mask.getLsbD c.val = true then 1 else 0

/-! ## Snapshot capture and error counter (43) -/

/-- CAPTURE returns the captured samples in signed form, four channels, and changes nothing else
(rules R8, R200). -/
def Obligations.CaptureReturnsSignedSamples : Prop :=
  ∀ (s : State) (chip : BitVec 3) (len : Half) (S : Samples),
    1 ≤ len.toNat → len.toNat ≤ s.inst.snapDepth → chip.toNat < s.inst.nchips →
    s.nextCapture (chipOfBits chip) len.toNat = .ok S →
    ∃ t, exec (.capture chip len) s = .next t ∧
      Completed t (.samples [(S[0]).map BitVec.toInt, (S[1]).map BitVec.toInt,
        (S[2]).map BitVec.toInt, (S[3]).map BitVec.toInt]) ∧
      KeepsRegisters s t ∧ t.board = s.board ∧
      t.events = s.events ++ [.capture (chipOfBits chip) len.toNat] ∧
      t.env.programmed = s.env.programmed ∧ t.env.word0 = s.env.word0 ∧
      t.env.captures = s.env.captures.tail

/-- CAPTURE aborts with CAPTURE_FAILED when the sampler fails; the information word names the chip,
the position 0x3F and the phase EXEC (rules R200, R285). -/
def Obligations.CaptureFailureAborts : Prop :=
  ∀ (s : State) (chip : BitVec 3) (len : Half),
    1 ≤ len.toNat → len.toNat ≤ s.inst.snapDepth → chip.toNat < s.inst.nchips →
    s.nextCapture (chipOfBits chip) len.toNat = .fail →
    ∃ t, exec (.capture chip len) s = .next t ∧
      Aborted t .captureFailed (0x00013F00 + BitVec.ofNat 32 chip.toNat) ∧
      KeepsRegisters s t ∧ t.board = s.board ∧
      t.events = s.events ++ [.capture (chipOfBits chip) len.toNat]

/-- A capture that does not fail has exactly the requested number of samples in every channel, in
every state; a scripted answer of that length is given as it stands (rule R190 "A short result is
never returned"; the script is the model's, log 4). -/
def Obligations.CapturesAreNeverShort : Prop :=
  ∀ (s : State) (c : ChipId) (n : Nat) (S : Samples), s.nextCapture c n = .ok S →
    (∀ ch : Fin 4, (S[ch]).length = n) ∧
    ∀ (raw : Samples) (rest : List CaptureAnswer), s.env.captures = .ok raw :: rest →
      (∀ ch : Fin 4, (raw[ch]).length = n) → S = raw

/-- The signed comparison of samples is equality of bytes (rules R192, R193). -/
def Obligations.SignedComparisonIsByteEquality : Prop :=
  ∀ b x : Byte, sampleMatches b x = true ↔ b = x

/-- CountErrors over CFG_ITER whole captures of CFG_SNAPLEN samples counts, lane by lane, exactly
the samples that differ from the expected byte, without wrapping (rules R33, R191, R195). -/
def Obligations.CountErrorsCountsTheMismatches : Prop :=
  ∀ (s : State) (c : ChipId) (x : Byte) (answers : List Samples),
    Scripted answers s.ctl.cfgSnapLen.toNat s → answers.length = s.ctl.cfgIter.toNat →
    ∃ t, countErrors c x s = .done t ∧
      t.events = s.events ++
        List.replicate s.ctl.cfgIter.toNat (.capture c s.ctl.cfgSnapLen.toNat) ∧
      t.board = s.board ∧ t.tables = s.tables ∧
      ∀ li : LaneId, (t.work.acc[li]).toNat =
        (answers.map (fun S => laneMismatches S s.ctl.cfgSnapLen.toNat x li)).sum

/-- The bounds of an error count: at most CFG_ITER * ceil(CFG_SNAPLEN / 2) in an even lane and
CFG_ITER * floor(CFG_SNAPLEN / 2) in an odd lane, whatever the sampler answers (rule R196). -/
def Obligations.ErrorCountsAreBounded : Prop :=
  ∀ (s t : State) (c : ChipId) (x : Byte), countErrors c x s = .done t →
    ∀ li : LaneId, (t.work.acc[li]).toNat ≤
      s.ctl.cfgIter.toNat * (if li.val < 4 then (s.ctl.cfgSnapLen.toNat + 1) / 2
        else s.ctl.cfgSnapLen.toNat / 2)

/-! ## Tap calibration (44) -/

/-- The window detector: an empty set of good taps is IND_EMPTY; a set in which two good taps lie
more than WRAP_SPAN apart is IND_WRAPPED; any other set gives a good tap that has exactly half of
the good taps, rounded down, below it (rules R220, R221). -/
def Obligations.WindowSelectsTheMiddleGoodTap : Prop :=
  ∀ (span : Nat) (g : Word),
    (g = 0 → window span g = .indEmpty) ∧
    (∀ a b : Nat, a < 32 → b < 32 → g.getLsbD a = true → g.getLsbD b = true → span < b - a →
      window span g = .indWrapped) ∧
    (g ≠ 0 → (∀ a b : Nat, g.getLsbD a = true → g.getLsbD b = true → b - a ≤ span) →
      ∃ t : Tap, window span g = .tap t ∧ g.getLsbD t.toNat = true ∧
        (List.range t.toNat).countP (fun u => g.getLsbD u) =
          (List.range 32).countP (fun u => g.getLsbD u) / 2)

/-- TAP_CAL completes when its 34 * CFG_ITER captures succeed. Its response is the eight result
bytes; each result is the window of the lane's good map, and a tap is good exactly when its error
count is 0; LAST_SWEEP names the chip; the rows of the other chips, SYNC_STATUS, the control
registers and every word but 0, 1 and the strobe words are as before (rules R34, R210, R217,
R222, R224). -/
def Obligations.TapCalReportsTheWindows : Prop :=
  ∀ (s : State) (chip : BitVec 3), InstanceOk s.inst → chip.toNat < s.inst.nchips →
    CapturesSucceed (34 * s.ctl.cfgIter.toNat) s →
    ∃ t, exec (.tapCal chip) s = .next t ∧
      Completed t (.calResults
        ((t.tables.calResult[chipOfBits chip]).toList.map CalResult.byte)) ∧
      KeepsSetting s t ∧ t.ctl = s.ctl ∧ t.tables.syncStatus = s.tables.syncStatus ∧
      t.tables.lastSweep = { valid := true, chip := chip } ∧
      (∀ c : ChipId, c ≠ chipOfBits chip → KeepsChipRows c s t) ∧
      (∀ li : LaneId, t.tables.calResult[chipOfBits chip][li] =
        window s.inst.wrapSpan t.tables.goodMap[chipOfBits chip][li]) ∧
      (∀ (u : Fin 32) (li : LaneId),
        t.tables.goodMap[chipOfBits chip][li].getLsbD u.val = true ↔
          t.tables.errCount[u][li] = 0) ∧
      KeepsWords (0 :: 1 :: s.inst.layout.strobeWords) s t

/-- The error counts and the good map after a TAP_CAL whose captures are scripted: the count of tap u
and lane li is the number of the lane's samples that differ from CFG_DESKEW in the CFG_ITER captures
taken at tap u of the sweep, and the tap is good exactly when none does (rules R33, R192, R195,
R216, R217). The first 2 * CFG_ITER captures are the probes'. -/
def Obligations.TapCalGoodMapReflectsTheSamples : Prop :=
  ∀ (s t : State) (chip : BitVec 3) (answers : List Samples), chip.toNat < s.inst.nchips →
    Scripted answers s.ctl.cfgSnapLen.toNat s →
    answers.length = 34 * s.ctl.cfgIter.toNat →
    exec (.tapCal chip) s = .next t →
    ∀ (u : Fin 32) (li : LaneId),
      let atTap := (answers.drop ((2 + u.val) * s.ctl.cfgIter.toNat)).take s.ctl.cfgIter.toNat
      (t.tables.errCount[u][li]).toNat =
        (atTap.map (fun S => laneMismatches S s.ctl.cfgSnapLen.toNat s.ctl.cfgDeskew li)).sum ∧
      (t.tables.goodMap[chipOfBits chip][li].getLsbD u.val = true ↔
        ∀ S ∈ atTap, laneMismatches S s.ctl.cfgSnapLen.toNat s.ctl.cfgDeskew li = 0)

/-- The eye-straddle heuristic: HEUR_SLIP of the chip is 1 after TAP_CAL exactly when some lane has no
mismatch in the captures of the tap-0 probe or none in those of the tap-31 probe, whether or not
the sweep then completes (rules R35, R213, R214). -/
def Obligations.TapCalHeuristicCondition : Prop :=
  ∀ (s t : State) (chip : BitVec 3) (at0 at31 : List Samples), InstanceOk s.inst →
    chip.toNat < s.inst.nchips →
    Scripted (at0 ++ at31) s.ctl.cfgSnapLen.toNat s →
    at0.length = s.ctl.cfgIter.toNat → at31.length = s.ctl.cfgIter.toNat →
    exec (.tapCal chip) s = .next t →
    (t.tables.heurSlip.getLsbD chip.toNat = true ↔
      ∃ li : LaneId,
        (∀ S ∈ at0, laneMismatches S s.ctl.cfgSnapLen.toNat s.ctl.cfgDeskew li = 0) ∨
        (∀ S ∈ at31, laneMismatches S s.ctl.cfgSnapLen.toNat s.ctl.cfgDeskew li = 0))

/-- Under the deserializer model a TAP_CAL, completed or aborted, advances the chip's alignment by
HEUR_SLIP, 0 or 1, and no other chip's (rules R83, R227). -/
def Obligations.TapCalSlipsAtMostOnce : Prop :=
  ∀ (s t : State) (chip : BitVec 3), InstanceOk s.inst →
    chip.toNat < s.inst.nchips → exec (.tapCal chip) s = .next t →
    ∀ c : ChipId, t.board.slips[c] = s.board.slips[c] +
      if c.val = chip.toNat ∧ t.tables.heurSlip.getLsbD chip.toNat = true then 1 else 0

/-- The events of a TAP_CAL that completes, in order: the writes of the DESKEW pattern; for tap 0 and then
tap 31, the SetDelayTap of the tap on all lanes and after it the CFG_ITER captures; the bitslip where
HEUR_SLIP is 1; for every tap in ascending order its SetDelayTap and then its captures; and a
SetDelayTap for each lane with a TAP result (rules R210, R212, R213, R214, R216, R223). So there are
50P + 34D + 3h + kD word writes, 34 + h + k settles, 34 * CFG_ITER captures and nothing else, where P
is the number of deskew pattern writes, D = 3 * len(strobeWords) + 1, h is HEUR_SLIP and k the number
of determinate lanes (rule R225). -/
def Obligations.TapCalEvents : Prop :=
  ∀ (s t : State) (chip : BitVec 3), InstanceOk s.inst → chip.toNat < s.inst.nchips →
    exec (.tapCal chip) s = .next t → t.status.lastErr = .ok →
    let slip := t.tables.heurSlip.getLsbD chip.toNat
    let R := t.tables.calResult[chipOfBits chip]
    let l := tapCalEvents s.inst s.ctl (chipOfBits chip) slip R
    let D := 3 * s.inst.layout.strobeWords.length + 1
    let h := if slip = true then 1 else 0
    let k := R.toList.countP (fun r => decide (r ≠ .indEmpty ∧ r ≠ .indWrapped))
    t.events = s.events ++ l ∧
    l.countP isWrite = 50 * s.inst.chipRegs.deskewWrites.length + 34 * D + 3 * h + k * D ∧
    l.count .settle = 34 + h + k ∧
    l.countP isCapture = 34 * s.ctl.cfgIter.toNat ∧
    l.length = l.countP isWrite + l.count .settle + l.countP isCapture

/-- Under the delay-element model, after a TAP_CAL that completes every lane with a TAP result holds
that tap and every indeterminate lane holds 31; no lane of another chip changes (rules R223,
R226). -/
def Obligations.TapCalLeavesTheChosenTaps : Prop :=
  ∀ (s t : State) (chip : BitVec 3), InstanceOk s.inst →
    chip.toNat < s.inst.nchips → exec (.tapCal chip) s = .next t → t.status.lastErr = .ok →
    ∀ (c : ChipId) (li : LaneId), t.board.taps[c][li] =
      if c = chipOfBits chip then
        match t.tables.calResult[c][li] with
        | .tap u => u
        | .none => 31
        | .indEmpty => 31
        | .indWrapped => 31
      else s.board.taps[c][li]

/-- A failed capture aborts TAP_CAL: when the script has k captures that succeed and then one that fails,
k < 34 * CFG_ITER, the command aborts with CAPTURE_FAILED, and the information word names the chip,
the tap that was set and the phase, PROBE or SWEEP (rules R195, R197, R228, R285). And only a failed
capture does: a TAP_CAL that aborts does so in this way after some k captures. Then every result of
the chip is NONE, every strobe word is at 0 and no bitslip bit is left at 1, and the rows of the other
chips are as before (rules R211, R228, R290). -/
def Obligations.TapCalAbortsOnAFailedCapture : Prop :=
  ∀ (s : State) (chip : BitVec 3), InstanceOk s.inst → chip.toNat < s.inst.nchips →
    (∀ k, k < 34 * s.ctl.cfgIter.toNat → FailsAfter k s.env.captures →
      ∃ t, exec (.tapCal chip) s = .next t ∧
        Aborted t .captureFailed (tapCalFailure (chipOfBits chip) (k / s.ctl.cfgIter.toNat))) ∧
    (∀ t, exec (.tapCal chip) s = .next t → t.status.lastErr ≠ .ok →
      t.status.lastErr = .captureFailed ∧
      (∃ l k, t.events = s.events ++ l ∧ k < 34 * s.ctl.cfgIter.toNat ∧
        l.filter isCapture =
          List.replicate (k + 1) (.capture (chipOfBits chip) s.ctl.cfgSnapLen.toNat) ∧
        t.status.errInfo = tapCalFailure (chipOfBits chip) (k / s.ctl.cfgIter.toNat)) ∧
      (∀ li : LaneId, t.tables.calResult[chipOfBits chip][li] = .none) ∧ Quiet t ∧
      (∀ w ∈ s.inst.layout.strobeWords, t.board.rwi.read w = some 0) ∧
      (∀ c : ChipId, c ≠ chipOfBits chip → KeepsChipRows c s t))

/-! ## Synchronization and calibrate (45) -/

/-- The synchronization of one chip: with the first matching capture after j mismatches,
j ≤ SYNC_RETRIES, the chip is SYNCED after j bitslips and j + 1 captures; with SYNC_RETRIES + 1
mismatches it is UNSYNCED after SYNC_RETRIES bitslips and SYNC_RETRIES + 1 captures. The events are
the SYNC pattern's writes, then a capture, and a bitslip and a capture in turn (rules R240, R241,
R242, R243). -/
def Obligations.SyncVerifyStopsAtTheFirstMatch : Prop :=
  ∀ (s : State) (c : ChipId) (bad : List Samples), InstanceOk s.inst →
    c.val < s.inst.nchips → (∀ S ∈ bad, ¬ firstSamplesAre S s.ctl.cfgSync) →
    (∀ good : Samples, Scripted (bad ++ [good]) 1 s → bad.length ≤ s.inst.syncRetries →
      firstSamplesAre good s.ctl.cfgSync →
      ∃ t, exec (.syncVerify (1#8 <<< c.val)) s = .next t ∧
        Completed t (.syncStatus (syncStatusWord t.tables.syncStatus)) ∧
        t.tables.syncStatus[c] = .synced ∧
        (∀ c' : ChipId, t.board.slips[c'] =
          s.board.slips[c'] + if c' = c then bad.length else 0) ∧
        t.events = s.events ++ syncEvents s.inst s.ctl.csMask (fun _ => bad.length) [c]) ∧
    (Scripted bad 1 s → bad.length = s.inst.syncRetries + 1 →
      ∃ t, exec (.syncVerify (1#8 <<< c.val)) s = .next t ∧
        Completed t (.syncStatus (syncStatusWord t.tables.syncStatus)) ∧
        t.tables.syncStatus[c] = .unsynced ∧
        (∀ c' : ChipId, t.board.slips[c'] =
          s.board.slips[c'] + if c' = c then s.inst.syncRetries else 0) ∧
        t.events = s.events ++ syncEvents s.inst s.ctl.csMask (fun _ => s.inst.syncRetries) [c])

/-- SYNC_VERIFY completes when its captures succeed: every chip of the mask is SYNCED or UNSYNCED,
every other chip NOT_ATTEMPTED; the calibration tables, the control registers, the delay taps and
every word but 0 and 1 are as before (rules R243, R245). Its events are the writes of the SYNC
pattern, sent to the chips of CS_MASK even for the mask 0, and then, for each chip of the mask in
ascending order, a capture, and a bitslip and a capture in turn, at most SYNC_RETRIES times; fewer
times only where the chip is SYNCED. Exactly these bitslips advance the deserializers (rules R83,
R240, R242, R328). -/
def Obligations.SyncVerifyReportsEveryChip : Prop :=
  ∀ (s : State) (mask : Byte), InstanceOk s.inst → maskValid s.inst mask →
    CapturesSucceed (8 * (s.inst.syncRetries + 1)) s →
    ∃ t k, exec (.syncVerify mask) s = .next t ∧
      Completed t (.syncStatus (syncStatusWord t.tables.syncStatus)) ∧ KeepsSetting s t ∧
      t.ctl = s.ctl ∧ KeepsCalTables s t ∧ t.board.taps = s.board.taps ∧
      (∀ c : ChipId, t.tables.syncStatus[c] ≠ .notAttempted ↔ mask.getLsbD c.val = true) ∧
      KeepsWords [0, 1] s t ∧
      t.events = s.events ++ syncEvents s.inst s.ctl.csMask k (chipsBelow mask s.inst.nchips) ∧
      (∀ c, k c ≤ s.inst.syncRetries) ∧
      ∀ c : ChipId, t.board.slips[c] =
          s.board.slips[c] + (if mask.getLsbD c.val = true then k c else 0) ∧
        (mask.getLsbD c.val = true → k c < s.inst.syncRetries →
          t.tables.syncStatus[c] = .synced)

/-- A failed capture aborts SYNC_VERIFY: when the script has the synchronizations of the chips of the mask
below a chip c of the mask, then k frames that do not match, k ≤ SYNC_RETRIES, and then a failure, the
command aborts with CAPTURE_FAILED, and the information word names c, the retry k and the phase,
ROUND or RECHECK (rules R240, R247, R285). And only a failed capture does: a SYNC_VERIFY that aborts,
with a valid mask, does so in this way at some chip c and some k; its events are the SYNC writes, the
synchronizations of the chips of the mask below c, and those of c up to the failed capture; the chips
of the mask below c are SYNCED or UNSYNCED, c and every later chip NOT_ATTEMPTED (rules R243, R247,
R290). -/
def Obligations.SyncVerifyAbortsOnAFailedCapture : Prop :=
  ∀ (s : State) (mask : Byte), InstanceOk s.inst → maskValid s.inst mask →
    (∀ (c : ChipId) (k : Nat), mask.getLsbD c.val = true → k ≤ s.inst.syncRetries →
      FailsInSync s.inst.syncRetries s.ctl.cfgSync (chipsBelow mask c.val) k s.env.captures →
      ∃ t, exec (.syncVerify mask) s = .next t ∧
        Aborted t .captureFailed (syncFailure s.inst c k)) ∧
    (∀ t, exec (.syncVerify mask) s = .next t → t.status.lastErr ≠ .ok →
      t.status.lastErr = .captureFailed ∧
      ∃ c : ChipId, mask.getLsbD c.val = true ∧ c.val < s.inst.nchips ∧
        (∃ n k, k ≤ s.inst.syncRetries ∧ (∀ c', n c' ≤ s.inst.syncRetries) ∧
          t.events = s.events ++ syncEvents s.inst s.ctl.csMask n (chipsBelow mask c.val) ++
            syncChipEvents s.inst.layout c k ∧
          t.status.errInfo = syncFailure s.inst c k) ∧
        ∀ c' : ChipId, t.tables.syncStatus[c'] ≠ .notAttempted ↔
          mask.getLsbD c'.val = true ∧ c'.val < c.val)

/-- How CALIBRATE aborts. On an FPGA that is not programmed: after the one query. With the primary
clock unlocked: after the query and the one read of word 0, with the value read; neither changes a
register but LAST_ERR and ERR_INFO, or writes a word (rules R250, R251, R284, R285). With its
preconditions met, on a failed capture: when the script fails at capture k of the tap calibration of
a chip c of the mask below the compiled count, or, all tap calibrations done, at frame k of the
synchronization of c, it aborts with CAPTURE_FAILED, and the information word names the chip, the
position and the phase (rules R195, R197, R240, R247, R285, R292). And then only on a failed capture,
at some such chip c. Either c is being tap-calibrated: the chips of the mask below c have their
results, c has none, the other rows are as before, and no chip was synchronized; or c is being
synchronized, every chip of the mask below the count has its results, and exactly the chips below c
were synchronized, after the SYNC writes that follow the last tap calibration (rules R228, R247, R254,
R290). -/
def Obligations.CalibrateAborts : Prop :=
  ∀ (s : State) (mask : Byte), maskValid s.inst mask →
    (s.nextProgrammed = false →
      ∃ t, exec (.calibrate mask) s = .next t ∧ Aborted t .notProgrammed 0 ∧
        KeepsRegisters s t ∧ t.board = s.board ∧ t.events = s.events ++ [.isProgrammed]) ∧
    (s.nextProgrammed = true → ∀ (w0 : Word) (rest : List Word), s.env.word0 = w0 :: rest →
      (w0.getLsbD s.inst.layout.primaryLockBit = false →
        ∃ t, exec (.calibrate mask) s = .next t ∧ Aborted t .clockNotLocked w0 ∧
          KeepsRegisters s t ∧ t.board = s.board ∧
          t.events = s.events ++ [.isProgrammed, .memRead 0]) ∧
      (InstanceOk s.inst → w0.getLsbD s.inst.layout.primaryLockBit = true →
        let L := s.inst.layout
        let count := min (w0.extractLsb' L.chipCountLsb L.chipCountWidth).toNat s.inst.nchips
        let perChip := 34 * s.ctl.cfgIter.toNat
        let len := s.ctl.cfgSnapLen.toNat
        let chips := chipsBelow mask count
        (∀ c ∈ chips, ∀ k, k < perChip →
          FailsAfter ((chipsBelow mask c.val).length * perChip + k) s.env.captures →
          ∃ t, exec (.calibrate mask) s = .next t ∧
            Aborted t .captureFailed (tapCalFailure c (k / s.ctl.cfgIter.toNat))) ∧
        (∀ c ∈ chips, ∀ k, k ≤ s.inst.syncRetries → ∀ good frames : List CaptureAnswer,
          s.env.captures = good ++ frames → good.length = chips.length * perChip →
          (∀ a ∈ good, a ≠ .fail) →
          FailsInSync s.inst.syncRetries s.ctl.cfgSync (chipsBelow mask c.val) k frames →
          ∃ t, exec (.calibrate mask) s = .next t ∧
            Aborted t .captureFailed (syncFailure s.inst c k)) ∧
        (∀ t, exec (.calibrate mask) s = .next t → t.status.lastErr ≠ .ok →
          t.status.lastErr = .captureFailed ∧ t.ctl = s.ctl ∧
          ∃ c ∈ chips, ∃ (l : List Event) (k : Nat),
            t.events = s.events ++ [.isProgrammed, .memRead 0] ++ l ∧
            ((k < perChip ∧
              l.filter isCapture = tapCalCaptures perChip len (chipsBelow mask c.val) ++
                List.replicate (k + 1) (.capture c len) ∧
              t.status.errInfo = tapCalFailure c (k / s.ctl.cfgIter.toNat) ∧
              (∀ c' : ChipId, t.tables.syncStatus[c'] = .notAttempted) ∧
              (∀ li : LaneId, t.tables.calResult[c][li] = .none) ∧
              (∀ c' ∈ chipsBelow mask c.val, HasWindows c' t) ∧
              (∀ c' : ChipId, c' ≠ c → c' ∉ chipsBelow mask c.val → KeepsChipRows c' s t)) ∨
             (k ≤ s.inst.syncRetries ∧
              (∃ n, (∀ c', n c' ≤ s.inst.syncRetries) ∧
                l = chips.flatMap (fun c' => tapCalEvents s.inst s.ctl c'
                    (t.tables.heurSlip.getLsbD c'.val) t.tables.calResult[c']) ++
                  syncEvents s.inst s.ctl.csMask n (chipsBelow mask c.val) ++
                  syncChipEvents L c k) ∧
              t.status.errInfo = syncFailure s.inst c k ∧
              (∀ c' : ChipId, t.tables.syncStatus[c'] ≠ .notAttempted ↔
                c' ∈ chipsBelow mask c.val) ∧
              (∀ c' ∈ chips, HasWindows c' t) ∧
              (∀ c' : ChipId, c' ∉ chips → KeepsChipRows c' s t))))))

/-- CALIBRATE with its preconditions met and its captures succeeding completes. With n the compiled
chip count capped at NCHIPS: WARN_SEC is 1 exactly when n ≥ 5 and the secondary lock bit is 0;
exactly the chips of the mask below n are attempted; their results are the windows of their good
maps, the rows of the other chips are as before; CS_MASK and the CFG registers are unchanged
(rules R250, R252, R253, R254, R255). Its events are the query, the read, the whole tap calibration of
every chip of the mask below n, in ascending order, and then, unless there is no such chip, the SYNC
writes and the synchronization of each of them in ascending order (rules R210, R243, R253, R254). -/
def Obligations.CalibrateReportsTheSupportedChips : Prop :=
  ∀ (s : State) (mask : Byte) (w0 : Word) (rest : List Word), InstanceOk s.inst →
    maskValid s.inst mask → s.nextProgrammed = true → s.env.word0 = w0 :: rest →
    w0.getLsbD s.inst.layout.primaryLockBit = true →
    CapturesSucceed (8 * (34 * s.ctl.cfgIter.toNat + s.inst.syncRetries + 1)) s →
    ∃ t, exec (.calibrate mask) s = .next t ∧
      Completed t (.syncStatus (syncStatusWord t.tables.syncStatus)) ∧
      t.inst = s.inst ∧ t.port = s.port ∧ t.ctl = s.ctl ∧
      let L := s.inst.layout
      let n := min (w0.extractLsb' L.chipCountLsb L.chipCountWidth).toNat s.inst.nchips
      (t.status.warnSec = true ↔ 5 ≤ n ∧ w0.getLsbD L.secondaryLockBit = false) ∧
      (∀ c : ChipId, t.tables.syncStatus[c] ≠ .notAttempted ↔
        mask.getLsbD c.val = true ∧ c.val < n) ∧
      (∀ (c : ChipId), mask.getLsbD c.val = true ∧ c.val < n → HasWindows c t) ∧
      (∀ (c : ChipId), ¬ (mask.getLsbD c.val = true ∧ c.val < n) → KeepsChipRows c s t) ∧
      KeepsWords (0 :: 1 :: L.strobeWords) s t ∧
      ∃ k, (∀ c, k c ≤ s.inst.syncRetries) ∧
        t.events = s.events ++ [.isProgrammed, .memRead 0] ++
          (chipsBelow mask n).flatMap (fun c => tapCalEvents s.inst s.ctl c
            (t.tables.heurSlip.getLsbD c.val) t.tables.calResult[c]) ++
          if chipsBelow mask n = [] then []
          else syncEvents s.inst s.ctl.csMask k (chipsBelow mask n)

/-- CALIBRATE with no chip of the mask below the compiled chip count issues no event after the read
of word 0, marks every chip NOT_ATTEMPTED and completes (rule R253). -/
def Obligations.CalibrateOfNoChipOnlyReads : Prop :=
  ∀ (s : State) (mask : Byte) (w0 : Word) (rest : List Word), InstanceOk s.inst →
    maskValid s.inst mask → s.nextProgrammed = true → s.env.word0 = w0 :: rest →
    w0.getLsbD s.inst.layout.primaryLockBit = true →
    (∀ c : ChipId, mask.getLsbD c.val = true →
      (w0.extractLsb' s.inst.layout.chipCountLsb s.inst.layout.chipCountWidth).toNat ≤ c.val) →
    ∃ t, exec (.calibrate mask) s = .next t ∧ Completed t (.syncStatus 0) ∧
      t.events = s.events ++ [.isProgrammed, .memRead 0] ∧ t.board = s.board ∧
      t.ctl = s.ctl ∧ KeepsCalTables s t ∧
      ∀ c : ChipId, t.tables.syncStatus[c] = .notAttempted

/-! ## Status and configuration (46) -/

/-- READ_STATUS of a block register returns its value with code 0, issues no event and writes no
register (rules R36, R260, R261). -/
def Obligations.ReadStatusReturnsTheRegister : Prop :=
  ∀ (s : State),
    let reads (sel idx : Byte) (d : Word) : Prop :=
      exec (.readStatus sel idx) s =
        .next { s with response := some { code := .ok, info := 0, data := .value d } }
    reads 0 0 (statusWord s.status s.fsm) ∧ reads 0 1 s.status.errInfo ∧
    reads 1 0 (0#24 ++ s.ctl.csMask) ∧
    reads 2 0 (0#24 ++ s.ctl.cfgDeskew) ∧ reads 2 1 (0#24 ++ s.ctl.cfgSync) ∧
    reads 2 2 (0#16 ++ s.ctl.cfgIter) ∧ reads 2 3 (0#16 ++ s.ctl.cfgSnapLen) ∧
    reads 3 0 (0#16 ++ syncStatusWord s.tables.syncStatus) ∧
    (∀ (c : ChipId) (li : LaneId), c.val < s.inst.nchips → s.inst.nchips ≤ 8 →
      reads 4 (BitVec.ofNat 8 (8 * c.val + li.val))
        (0#24 ++ (s.tables.calResult[c][li]).byte) ∧
      reads 5 (BitVec.ofNat 8 (8 * c.val + li.val)) (s.tables.goodMap[c][li])) ∧
    (∀ (u : Fin 32) (li : LaneId),
      reads 6 (BitVec.ofNat 8 (8 * u.val + li.val)) (s.tables.errCount[u][li])) ∧
    reads 8 0 (0#24 ++ s.tables.lastSweep.byte) ∧ reads 9 0 (0#24 ++ s.tables.heurSlip)

/-- READ_STATUS of the board status issues one read of word 0 and returns the field of the value
read: primary lock, secondary lock, compiled chip count, revision (rules R260, R262). -/
def Obligations.ReadStatusOfTheBoardIsLive : Prop :=
  ∀ (s : State) (w0 : Word) (rest : List Word), s.env.word0 = w0 :: rest →
    let L := s.inst.layout
    ∀ p ∈ [((0 : Byte), w0.extractLsb' L.primaryLockBit 1 |>.setWidth 32),
           (1, w0.extractLsb' L.secondaryLockBit 1 |>.setWidth 32),
           (2, w0.extractLsb' L.chipCountLsb L.chipCountWidth |>.setWidth 32),
           (3, w0.extractLsb' L.revisionLsb L.revisionWidth |>.setWidth 32)],
      ∃ t, exec (.readStatus 7 p.1) s = .next t ∧
        t.response = some { code := .ok, info := 0, data := .value p.2 } ∧
        t.events = s.events ++ [.memRead 0] ∧ t.env.word0 = rest ∧ t.fsm = s.fsm ∧
        t.status = s.status ∧ t.ctl = s.ctl ∧ t.tables = s.tables ∧ t.board = s.board ∧
        t.work = s.work ∧ t.inst = s.inst ∧ t.port = s.port

/-- The packed registers. STATUS has LAST_ERR in bits 3:0, WARN_SEC in bit 4, FSM in bits 11:8, and
every other bit 0 (rule R28); the codes of LAST_ERR are 0 to 5 and those of FSM 0 to 12 (rules R281,
R21). SYNC_STATUS has chip c in bits 2c+1:2c, with the codes 0, 1 and 2 (rule R30). CAL_RESULT has KIND
0 to 3 in bits 7:6, bit 5 zero, and TAP in bits 4:0, which is 0 for every kind but TAP (rule R31).
LAST_SWEEP has VALID in bit 7 and CHIP in bits 2:0 (rule R34). -/
def Obligations.StatusAndResultFields : Prop :=
  (∀ (st : Status) (f : Fsm),
    (statusWord st f).extractLsb' 0 4 = st.lastErr.code ∧
    (statusWord st f).getLsbD 4 = st.warnSec ∧ (statusWord st f).extractLsb' 5 3 = 0 ∧
    (statusWord st f).extractLsb' 8 4 = f.code ∧ (statusWord st f).extractLsb' 12 20 = 0 ∧
    (f = .idle → (statusWord st f).extractLsb' 8 4 = 0)) ∧
  [ErrCode.ok, .illegalCommand, .invalidChipSpecifier, .notProgrammed, .clockNotLocked,
    .captureFailed].map ErrCode.code = [0, 1, 2, 3, 4, 5] ∧
  [Fsm.idle, .exec, .calPattern, .calProbe, .calSlip, .calSweep, .calDecide, .calApply, .calDone,
    .syncPattern, .syncRound, .syncRecheck, .precheck].map Fsm.code =
    [0, 1, 2, 3, 4, 5, 6, 7, 8, 9, 10, 11, 12] ∧
  (∀ (v : Chips SyncStatus) (c : ChipId), (syncStatusWord v).extractLsb' (2 * c.val) 2 =
    match v[c] with
    | .notAttempted => 0
    | .synced => 1
    | .unsynced => 2) ∧
  (∀ r : CalResult, r.byte.getLsbD 5 = false ∧
    (r.byte.extractLsb' 6 2, r.byte.extractLsb' 0 5) =
      match r with
      | .none => (0, 0)
      | .tap u => (1, u)
      | .indEmpty => (2, 0)
      | .indWrapped => (3, 0)) ∧
  (∀ l : LastSweep, l.byte.getLsbD 7 = l.valid ∧ l.byte.extractLsb' 3 4 = 0 ∧
    l.byte.extractLsb' 0 3 = l.chip)

/-- SET_CONFIG of a legal value writes exactly its register and issues no bus event (rules R265,
R266). -/
def Obligations.SetConfigWritesOneRegister : Prop :=
  ∀ (s : State) (field : BitVec 4) (value : Half) (ctl : Control),
    (field = 0 ∧ value.toNat ≤ 0xFF ∧ ctl = { s.ctl with cfgDeskew := value.extractLsb' 0 8 } ∨
     field = 1 ∧ value.toNat ≤ 0xFF ∧ ctl = { s.ctl with cfgSync := value.extractLsb' 0 8 } ∨
     field = 2 ∧ value ≠ 0 ∧ ctl = { s.ctl with cfgIter := value } ∨
     field = 3 ∧ 2 ≤ value.toNat ∧ value.toNat ≤ s.inst.snapDepth ∧
       ctl = { s.ctl with cfgSnapLen := value }) →
    ∃ t, exec (.setConfig field value) s = .next t ∧ Completed t .none ∧ KeepsSetting s t ∧
      t.ctl = ctl ∧ t.tables = s.tables ∧ NoEvents s t

/-! ## Assembler (30) -/

/-- `canonicalize` gives the same zero-based ChipId for the decimal digit, the letter in either case
and the symbolic name in either case, below NCHIPS, and InvalidChipSpecifier at or above it
(rule R121). -/
def Obligations.CanonicalizeAgreesOnAllForms : Prop :=
  ∀ (nchips : Nat) (c : ChipId),
    let forms : List (List Char) :=
      [[Char.ofNat (48 + c.val)], [Char.ofNat (97 + c.val)], [Char.ofNat (65 + c.val)],
       [':', Char.ofNat (97 + c.val)], [':', Char.ofNat (65 + c.val)]]
    ∀ f ∈ forms, canonicalize nchips f =
      if c.val < nchips then .ok c else .error .invalidChipSpecifier
end

