-- ==== Sys2Proof/Laws/Bits.lean ====
section
/-! SUPPORT. The small lemmas of Machine/Bits.lean: tables, per-chip masks, the two lists of
indices, signed comparison. -/

namespace Sys2Proof.Machine

/-- The entry of a tabulated table is the function's value. -/
theorem tabulate_getElem {α : Type} (f : Fin 8 → α) (i : Fin 8) : (tabulate f)[i] = f i := by
  fin_cases i <;> rfl

/-- The same, at an index that is a number. -/
@[simp] theorem tabulate_getElem_nat {α : Type} (f : Fin 8 → α) (n : Nat) (h : n < 8) :
    (tabulate f)[n] = f ⟨n, h⟩ := tabulate_getElem f ⟨n, h⟩

theorem mem_allLanes (li : LaneId) : li ∈ allLanes := by
  fin_cases li <;> decide

theorem mem_allChips (c : ChipId) : c ∈ allChips := by
  fin_cases c <;> decide

theorem allChips_nodup : allChips.Nodup := by decide

theorem allLanes_nodup : allLanes.Nodup := by decide

end Sys2Proof.Machine
end

