-- ==== Sys2Proof/Laws/Instance.lean ====
section
/-! SUPPORT. What a well-formed instance gives: the named checks, each as a fact (rules R6, R60,
R64, R65, R66), and the bit positions they keep apart. -/

namespace Sys2Proof.Machine

theorem nchipsOk_of (I : Instance) (h : InstanceOk I) : nchipsOk I :=
  of_decide_eq_true (h .nchips (by decide))

theorem snapDepthOk_of (I : Instance) (h : InstanceOk I) : snapDepthOk I :=
  of_decide_eq_true (h .snapDepth (by decide))

theorem wrapSpanOk_of (I : Instance) (h : InstanceOk I) : wrapSpanOk I :=
  of_decide_eq_true (h .wrapSpan (by decide))

theorem syncRetriesOk_of (I : Instance) (h : InstanceOk I) : syncRetriesOk I :=
  of_decide_eq_true (h .syncRetries (by decide))

theorem rangesOk_of (I : Instance) (h : InstanceOk I) : rangesOk I :=
  of_decide_eq_true (h .ranges (by decide))

theorem word0DisjointOk_of (I : Instance) (h : InstanceOk I) : word0DisjointOk I :=
  of_decide_eq_true (h .word0Disjoint (by decide))

theorem word1DisjointOk_of (I : Instance) (h : InstanceOk I) : word1DisjointOk I :=
  of_decide_eq_true (h .word1Disjoint (by decide))

theorem strobeWordsOk_of (I : Instance) (h : InstanceOk I) : strobeWordsOk I :=
  of_decide_eq_true (h .strobeWords (by decide))

theorem strobeInjectiveOk_of (I : Instance) (h : InstanceOk I) : strobeInjectiveOk I :=
  of_decide_eq_true (h .strobeInjective (by decide))

theorem strobeInWordsOk_of (I : Instance) (h : InstanceOk I) : strobeInWordsOk I :=
  of_decide_eq_true (h .strobeInWords (by decide))

theorem chipRegsOk_of (I : Instance) (h : InstanceOk I) : chipRegsOk I :=
  of_decide_eq_true (h .chipRegs (by decide))

theorem failedCheck_none (I : Instance) (h : InstanceOk I) : failedCheck I = none := by
  simp only [failedCheck, List.find?_eq_none]
  intro k hk
  simp [h k hk]

theorem nchips_le (I : Instance) (h : InstanceOk I) : 4 ≤ I.nchips ∧ I.nchips ≤ 8 := by
  rcases nchipsOk_of I h with h | h <;> omega

theorem mem_strobeBits (I : Instance) (c : ChipId) (li : LaneId) (h : c.val < I.nchips) :
    I.layout.strobeBit[c][li] ∈ strobeBits I := by
  simp only [strobeBits, List.mem_flatMap, List.mem_filter, List.mem_map]
  exact ⟨c, ⟨mem_allChips c, by simpa using h⟩, li, mem_allLanes li, rfl⟩

/-- No two lanes of the board share a strobe bit (`L4_strobe_injective`, rule R65). -/
theorem strobeBit_injective (I : Instance) (h : InstanceOk I) (c c' : ChipId) (li li' : LaneId)
    (hc : c.val < I.nchips) (hc' : c'.val < I.nchips)
    (e : I.layout.strobeBit[c][li] = I.layout.strobeBit[c'][li']) : c = c' ∧ li = li' := by
  have hn : (strobeBits I).Nodup := strobeInjectiveOk_of I h
  simp only [strobeBits, List.nodup_flatMap] at hn
  obtain ⟨h1, h2⟩ := hn
  have mem : ∀ d : ChipId, d.val < I.nchips →
      d ∈ allChips.filter (fun c => decide (c.val < I.nchips)) := by
    intro d hd
    simp [mem_allChips, hd]
  by_cases hcc : c = c'
  · subst hcc
    refine ⟨rfl, ?_⟩
    exact List.inj_on_of_nodup_map (h1 c (mem c hc)) (mem_allLanes li) (mem_allLanes li') e
  · exfalso
    have h3 := List.Pairwise.forall_of_forall_of_flip (R := fun a b => List.Disjoint
      (allLanes.map (fun li => I.layout.strobeBit[a][li]))
      (allLanes.map (fun li => I.layout.strobeBit[b][li])) ∨ a = b)
      (l := allChips.filter (fun c => decide (c.val < I.nchips))) ?_ ?_ ?_ (mem c hc) (mem c' hc')
    · rcases h3 with h3 | h3
      · exact h3 (List.mem_map_of_mem (mem_allLanes li)) (e ▸ List.mem_map_of_mem (mem_allLanes li'))
      · exact hcc h3
    · exact fun x _ => .inr rfl
    · exact h2.imp (fun hd => .inl hd)
    · exact h2.imp (fun hd => .inl (List.disjoint_comm.mp hd))

/-- Every lane of the board has its strobe bit in a strobe word, inside the word
(`L5_strobe_in_words`, rules R64, R65). -/
theorem strobeBit_mem (I : Instance) (h : InstanceOk I) (c : ChipId) (li : LaneId)
    (hc : c.val < I.nchips) :
    I.layout.strobeBit[c][li].word ∈ I.layout.strobeWords ∧ I.layout.strobeBit[c][li].bit < 32 :=
  ⟨strobeInWordsOk_of I h _ (mem_strobeBits I c li hc),
    (rangesOk_of I h).2 _ (mem_strobeBits I c li hc)⟩

/-- The bitslip bits lie in the word and outside the tap value field (`L2_word1_disjoint`,
rule R65). -/
theorem slipBit_apart (I : Instance) (h : InstanceOk I) (c : ChipId) (hc : c.val < I.nchips) :
    I.layout.slipLsb + c.val < 32 ∧
      (I.layout.slipLsb + c.val < I.layout.tapLsb ∨ I.layout.tapLsb + 5 ≤ I.layout.slipLsb + c.val) := by
  obtain ⟨hn, hb⟩ := word1DisjointOk_of I h
  have hm : I.layout.slipLsb + c.val ∈ bitRange I.layout.slipLsb I.nchips := by
    simp only [bitRange, List.mem_map, List.mem_range]
    exact ⟨c.val, hc, rfl⟩
  refine ⟨hb _ (by simp [word1Bits, hm]), ?_⟩
  by_contra hcon
  have hd := (List.nodup_append.mp hn).2.2 (I.layout.slipLsb + c.val) ?_ _ hm
  · exact hd rfl
  · simp only [bitRange, List.mem_map, List.mem_range]
    exact ⟨I.layout.slipLsb + c.val - I.layout.tapLsb, by omega, by omega⟩

/-- The serial fields of word 0 do not overlap (`L1_word0_disjoint`, rule R65). -/
theorem serialBits_apart (I : Instance) (h : InstanceOk I) :
    I.layout.sclkBit ≠ I.layout.sdataBit ∧ I.layout.sclkBit < 32 ∧ I.layout.sdataBit < 32 ∧
    ∀ c : Nat, c < I.nchips → I.layout.csLsb + c < 32 ∧ I.layout.csLsb + c ≠ I.layout.sclkBit ∧
      I.layout.csLsb + c ≠ I.layout.sdataBit := by
  obtain ⟨hn, hb⟩ := word0DisjointOk_of I h
  have h0 : I.layout.sclkBit < 32 := hb _ (by simp [word0Bits])
  have h1 : I.layout.sdataBit < 32 := hb _ (by simp [word0Bits])
  simp only [word0Bits, List.append_assoc] at hn
  have h2 := (List.nodup_append.mp hn)
  refine ⟨?_, h0, h1, ?_⟩
  · have := h2.1
    simp only [List.nodup_cons, List.mem_cons, not_or] at this
    exact this.1.1
  · intro c hc
    have hm : I.layout.csLsb + c ∈ bitRange I.layout.csLsb I.nchips := by
      simp only [bitRange, List.mem_map, List.mem_range]
      exact ⟨c, hc, rfl⟩
    refine ⟨hb _ (by simp [word0Bits, hm]), ?_, ?_⟩
    · intro e
      exact h2.2.2 I.layout.sclkBit (by simp) _ (List.mem_append_left _ hm) e.symm
    · intro e
      exact h2.2.2 I.layout.sdataBit (by simp) _ (List.mem_append_left _ hm) e.symm

end Sys2Proof.Machine
end

