-- ==== Sys2Proof/Laws/State.lean ====
section
/-! SUPPORT. One lemma per field per update of State, true by rfl. -/

namespace Sys2Proof.Machine

@[simp] theorem State.setFsm_inst (f : Fsm) (s : State) :
    (s.setFsm f).inst = s.inst := rfl

@[simp] theorem State.setFsm_fsm (f : Fsm) (s : State) :
    (s.setFsm f).fsm = f := rfl

@[simp] theorem State.setFsm_work (f : Fsm) (s : State) :
    (s.setFsm f).work = s.work := rfl

@[simp] theorem State.setFsm_ctl (f : Fsm) (s : State) :
    (s.setFsm f).ctl = s.ctl := rfl

@[simp] theorem State.setFsm_status (f : Fsm) (s : State) :
    (s.setFsm f).status = s.status := rfl

@[simp] theorem State.setFsm_tables (f : Fsm) (s : State) :
    (s.setFsm f).tables = s.tables := rfl

@[simp] theorem State.setFsm_response (f : Fsm) (s : State) :
    (s.setFsm f).response = s.response := rfl

@[simp] theorem State.setFsm_port (f : Fsm) (s : State) :
    (s.setFsm f).port = s.port := rfl

@[simp] theorem State.setFsm_trace (f : Fsm) (s : State) :
    (s.setFsm f).trace = s.trace := rfl

@[simp] theorem State.setFsm_env (f : Fsm) (s : State) :
    (s.setFsm f).env = s.env := rfl

@[simp] theorem State.setFsm_board (f : Fsm) (s : State) :
    (s.setFsm f).board = s.board := rfl

@[simp] theorem State.mapWork_inst (f : Work → Work) (s : State) :
    (s.mapWork f).inst = s.inst := rfl

@[simp] theorem State.mapWork_fsm (f : Work → Work) (s : State) :
    (s.mapWork f).fsm = s.fsm := rfl

@[simp] theorem State.mapWork_work (f : Work → Work) (s : State) :
    (s.mapWork f).work = f s.work := rfl

@[simp] theorem State.mapWork_ctl (f : Work → Work) (s : State) :
    (s.mapWork f).ctl = s.ctl := rfl

@[simp] theorem State.mapWork_status (f : Work → Work) (s : State) :
    (s.mapWork f).status = s.status := rfl

@[simp] theorem State.mapWork_tables (f : Work → Work) (s : State) :
    (s.mapWork f).tables = s.tables := rfl

@[simp] theorem State.mapWork_response (f : Work → Work) (s : State) :
    (s.mapWork f).response = s.response := rfl

@[simp] theorem State.mapWork_port (f : Work → Work) (s : State) :
    (s.mapWork f).port = s.port := rfl

@[simp] theorem State.mapWork_trace (f : Work → Work) (s : State) :
    (s.mapWork f).trace = s.trace := rfl

@[simp] theorem State.mapWork_env (f : Work → Work) (s : State) :
    (s.mapWork f).env = s.env := rfl

@[simp] theorem State.mapWork_board (f : Work → Work) (s : State) :
    (s.mapWork f).board = s.board := rfl

@[simp] theorem State.mapCtl_inst (f : Control → Control) (s : State) :
    (s.mapCtl f).inst = s.inst := rfl

@[simp] theorem State.mapCtl_fsm (f : Control → Control) (s : State) :
    (s.mapCtl f).fsm = s.fsm := rfl

@[simp] theorem State.mapCtl_work (f : Control → Control) (s : State) :
    (s.mapCtl f).work = s.work := rfl

@[simp] theorem State.mapCtl_ctl (f : Control → Control) (s : State) :
    (s.mapCtl f).ctl = f s.ctl := rfl

@[simp] theorem State.mapCtl_status (f : Control → Control) (s : State) :
    (s.mapCtl f).status = s.status := rfl

@[simp] theorem State.mapCtl_tables (f : Control → Control) (s : State) :
    (s.mapCtl f).tables = s.tables := rfl

@[simp] theorem State.mapCtl_response (f : Control → Control) (s : State) :
    (s.mapCtl f).response = s.response := rfl

@[simp] theorem State.mapCtl_port (f : Control → Control) (s : State) :
    (s.mapCtl f).port = s.port := rfl

@[simp] theorem State.mapCtl_trace (f : Control → Control) (s : State) :
    (s.mapCtl f).trace = s.trace := rfl

@[simp] theorem State.mapCtl_env (f : Control → Control) (s : State) :
    (s.mapCtl f).env = s.env := rfl

@[simp] theorem State.mapCtl_board (f : Control → Control) (s : State) :
    (s.mapCtl f).board = s.board := rfl

@[simp] theorem State.mapStatus_inst (f : Status → Status) (s : State) :
    (s.mapStatus f).inst = s.inst := rfl

@[simp] theorem State.mapStatus_fsm (f : Status → Status) (s : State) :
    (s.mapStatus f).fsm = s.fsm := rfl

@[simp] theorem State.mapStatus_work (f : Status → Status) (s : State) :
    (s.mapStatus f).work = s.work := rfl

@[simp] theorem State.mapStatus_ctl (f : Status → Status) (s : State) :
    (s.mapStatus f).ctl = s.ctl := rfl

@[simp] theorem State.mapStatus_status (f : Status → Status) (s : State) :
    (s.mapStatus f).status = f s.status := rfl

@[simp] theorem State.mapStatus_tables (f : Status → Status) (s : State) :
    (s.mapStatus f).tables = s.tables := rfl

@[simp] theorem State.mapStatus_response (f : Status → Status) (s : State) :
    (s.mapStatus f).response = s.response := rfl

@[simp] theorem State.mapStatus_port (f : Status → Status) (s : State) :
    (s.mapStatus f).port = s.port := rfl

@[simp] theorem State.mapStatus_trace (f : Status → Status) (s : State) :
    (s.mapStatus f).trace = s.trace := rfl

@[simp] theorem State.mapStatus_env (f : Status → Status) (s : State) :
    (s.mapStatus f).env = s.env := rfl

@[simp] theorem State.mapStatus_board (f : Status → Status) (s : State) :
    (s.mapStatus f).board = s.board := rfl

@[simp] theorem State.mapTables_inst (f : Tables → Tables) (s : State) :
    (s.mapTables f).inst = s.inst := rfl

@[simp] theorem State.mapTables_fsm (f : Tables → Tables) (s : State) :
    (s.mapTables f).fsm = s.fsm := rfl

@[simp] theorem State.mapTables_work (f : Tables → Tables) (s : State) :
    (s.mapTables f).work = s.work := rfl

@[simp] theorem State.mapTables_ctl (f : Tables → Tables) (s : State) :
    (s.mapTables f).ctl = s.ctl := rfl

@[simp] theorem State.mapTables_status (f : Tables → Tables) (s : State) :
    (s.mapTables f).status = s.status := rfl

@[simp] theorem State.mapTables_tables (f : Tables → Tables) (s : State) :
    (s.mapTables f).tables = f s.tables := rfl

@[simp] theorem State.mapTables_response (f : Tables → Tables) (s : State) :
    (s.mapTables f).response = s.response := rfl

@[simp] theorem State.mapTables_port (f : Tables → Tables) (s : State) :
    (s.mapTables f).port = s.port := rfl

@[simp] theorem State.mapTables_trace (f : Tables → Tables) (s : State) :
    (s.mapTables f).trace = s.trace := rfl

@[simp] theorem State.mapTables_env (f : Tables → Tables) (s : State) :
    (s.mapTables f).env = s.env := rfl

@[simp] theorem State.mapTables_board (f : Tables → Tables) (s : State) :
    (s.mapTables f).board = s.board := rfl

@[simp] theorem State.respond_inst (r : Response) (s : State) :
    (s.respond r).inst = s.inst := rfl

@[simp] theorem State.respond_fsm (r : Response) (s : State) :
    (s.respond r).fsm = s.fsm := rfl

@[simp] theorem State.respond_work (r : Response) (s : State) :
    (s.respond r).work = s.work := rfl

@[simp] theorem State.respond_ctl (r : Response) (s : State) :
    (s.respond r).ctl = s.ctl := rfl

@[simp] theorem State.respond_status (r : Response) (s : State) :
    (s.respond r).status = s.status := rfl

@[simp] theorem State.respond_tables (r : Response) (s : State) :
    (s.respond r).tables = s.tables := rfl

@[simp] theorem State.respond_response (r : Response) (s : State) :
    (s.respond r).response = some r := rfl

@[simp] theorem State.respond_port (r : Response) (s : State) :
    (s.respond r).port = s.port := rfl

@[simp] theorem State.respond_trace (r : Response) (s : State) :
    (s.respond r).trace = s.trace := rfl

@[simp] theorem State.respond_env (r : Response) (s : State) :
    (s.respond r).env = s.env := rfl

@[simp] theorem State.respond_board (r : Response) (s : State) :
    (s.respond r).board = s.board := rfl

@[simp] theorem State.setPort_inst (ws : List Word) (s : State) :
    (s.setPort ws).inst = s.inst := rfl

@[simp] theorem State.setPort_fsm (ws : List Word) (s : State) :
    (s.setPort ws).fsm = s.fsm := rfl

@[simp] theorem State.setPort_work (ws : List Word) (s : State) :
    (s.setPort ws).work = s.work := rfl

@[simp] theorem State.setPort_ctl (ws : List Word) (s : State) :
    (s.setPort ws).ctl = s.ctl := rfl

@[simp] theorem State.setPort_status (ws : List Word) (s : State) :
    (s.setPort ws).status = s.status := rfl

@[simp] theorem State.setPort_tables (ws : List Word) (s : State) :
    (s.setPort ws).tables = s.tables := rfl

@[simp] theorem State.setPort_response (ws : List Word) (s : State) :
    (s.setPort ws).response = s.response := rfl

@[simp] theorem State.setPort_port (ws : List Word) (s : State) :
    (s.setPort ws).port = ws := rfl

@[simp] theorem State.setPort_trace (ws : List Word) (s : State) :
    (s.setPort ws).trace = s.trace := rfl

@[simp] theorem State.setPort_env (ws : List Word) (s : State) :
    (s.setPort ws).env = s.env := rfl

@[simp] theorem State.setPort_board (ws : List Word) (s : State) :
    (s.setPort ws).board = s.board := rfl

@[simp] theorem State.mapEnv_inst (f : Env → Env) (s : State) :
    (s.mapEnv f).inst = s.inst := rfl

@[simp] theorem State.mapEnv_fsm (f : Env → Env) (s : State) :
    (s.mapEnv f).fsm = s.fsm := rfl

@[simp] theorem State.mapEnv_work (f : Env → Env) (s : State) :
    (s.mapEnv f).work = s.work := rfl

@[simp] theorem State.mapEnv_ctl (f : Env → Env) (s : State) :
    (s.mapEnv f).ctl = s.ctl := rfl

@[simp] theorem State.mapEnv_status (f : Env → Env) (s : State) :
    (s.mapEnv f).status = s.status := rfl

@[simp] theorem State.mapEnv_tables (f : Env → Env) (s : State) :
    (s.mapEnv f).tables = s.tables := rfl

@[simp] theorem State.mapEnv_response (f : Env → Env) (s : State) :
    (s.mapEnv f).response = s.response := rfl

@[simp] theorem State.mapEnv_port (f : Env → Env) (s : State) :
    (s.mapEnv f).port = s.port := rfl

@[simp] theorem State.mapEnv_trace (f : Env → Env) (s : State) :
    (s.mapEnv f).trace = s.trace := rfl

@[simp] theorem State.mapEnv_env (f : Env → Env) (s : State) :
    (s.mapEnv f).env = f s.env := rfl

@[simp] theorem State.mapEnv_board (f : Env → Env) (s : State) :
    (s.mapEnv f).board = s.board := rfl

@[simp] theorem State.mapBoard_inst (f : Board → Board) (s : State) :
    (s.mapBoard f).inst = s.inst := rfl

@[simp] theorem State.mapBoard_fsm (f : Board → Board) (s : State) :
    (s.mapBoard f).fsm = s.fsm := rfl

@[simp] theorem State.mapBoard_work (f : Board → Board) (s : State) :
    (s.mapBoard f).work = s.work := rfl

@[simp] theorem State.mapBoard_ctl (f : Board → Board) (s : State) :
    (s.mapBoard f).ctl = s.ctl := rfl

@[simp] theorem State.mapBoard_status (f : Board → Board) (s : State) :
    (s.mapBoard f).status = s.status := rfl

@[simp] theorem State.mapBoard_tables (f : Board → Board) (s : State) :
    (s.mapBoard f).tables = s.tables := rfl

@[simp] theorem State.mapBoard_response (f : Board → Board) (s : State) :
    (s.mapBoard f).response = s.response := rfl

@[simp] theorem State.mapBoard_port (f : Board → Board) (s : State) :
    (s.mapBoard f).port = s.port := rfl

@[simp] theorem State.mapBoard_trace (f : Board → Board) (s : State) :
    (s.mapBoard f).trace = s.trace := rfl

@[simp] theorem State.mapBoard_env (f : Board → Board) (s : State) :
    (s.mapBoard f).env = s.env := rfl

@[simp] theorem State.mapBoard_board (f : Board → Board) (s : State) :
    (s.mapBoard f).board = f s.board := rfl

@[simp] theorem State.entry_event (e : Event) (s : State) :
    (s.entry e).event = e := rfl

@[simp] theorem State.entry_fsm (e : Event) (s : State) :
    (s.entry e).fsm = s.fsm := rfl

@[simp] theorem State.entry_work (e : Event) (s : State) :
    (s.entry e).work = s.work := rfl

@[simp] theorem State.entry_ctl (e : Event) (s : State) :
    (s.entry e).ctl = s.ctl := rfl

@[simp] theorem State.entry_status (e : Event) (s : State) :
    (s.entry e).status = s.status := rfl

@[simp] theorem State.entry_tables (e : Event) (s : State) :
    (s.entry e).tables = s.tables := rfl

@[simp] theorem State.emit_inst (e : Event) (s : State) :
    (s.emit e).inst = s.inst := rfl

@[simp] theorem State.emit_fsm (e : Event) (s : State) :
    (s.emit e).fsm = s.fsm := rfl

@[simp] theorem State.emit_work (e : Event) (s : State) :
    (s.emit e).work = s.work := rfl

@[simp] theorem State.emit_ctl (e : Event) (s : State) :
    (s.emit e).ctl = s.ctl := rfl

@[simp] theorem State.emit_status (e : Event) (s : State) :
    (s.emit e).status = s.status := rfl

@[simp] theorem State.emit_tables (e : Event) (s : State) :
    (s.emit e).tables = s.tables := rfl

@[simp] theorem State.emit_response (e : Event) (s : State) :
    (s.emit e).response = s.response := rfl

@[simp] theorem State.emit_port (e : Event) (s : State) :
    (s.emit e).port = s.port := rfl

@[simp] theorem State.emit_trace (e : Event) (s : State) :
    (s.emit e).trace = s.entry e :: s.trace := rfl

@[simp] theorem State.emit_env (e : Event) (s : State) :
    (s.emit e).env = s.env := rfl

@[simp] theorem State.emit_board (e : Event) (s : State) :
    (s.emit e).board = s.board := rfl

/-- Recording an event appends it to the events performed. -/
@[simp] theorem State.emit_events (e : Event) (s : State) :
    (s.emit e).events = s.events ++ [e] := by
  simp [State.events]

@[simp] theorem State.setFsm_events (f : Fsm) (s : State) :
    (s.setFsm f).events = s.events := rfl

@[simp] theorem State.mapWork_events (f : Work → Work) (s : State) :
    (s.mapWork f).events = s.events := rfl

@[simp] theorem State.mapCtl_events (f : Control → Control) (s : State) :
    (s.mapCtl f).events = s.events := rfl

@[simp] theorem State.mapStatus_events (f : Status → Status) (s : State) :
    (s.mapStatus f).events = s.events := rfl

@[simp] theorem State.mapTables_events (f : Tables → Tables) (s : State) :
    (s.mapTables f).events = s.events := rfl

@[simp] theorem State.respond_events (r : Response) (s : State) :
    (s.respond r).events = s.events := rfl

@[simp] theorem State.setPort_events (ws : List Word) (s : State) :
    (s.setPort ws).events = s.events := rfl

@[simp] theorem State.mapEnv_events (f : Env → Env) (s : State) :
    (s.mapEnv f).events = s.events := rfl

@[simp] theorem State.mapBoard_events (f : Board → Board) (s : State) :
    (s.mapBoard f).events = s.events := rfl

end Sys2Proof.Machine
end

