-- ==== Sys2Proof/Laws/Atomic.lean ====
section
/-! SUPPORT. The atomic steps of rule R7: what a list of them does, and that the events of an operation,
performed again one by one with the recorded registers in force, lead to where it led. -/

namespace Sys2Proof.Machine

open Sys2Proof.Safety

/-! ## Runs of atomic steps -/

/-- The states ahead are passed through one by one, up to the last (rule R7). -/
theorem atomicRun_ahead (l : List State) (s t : State) (h : (s :: l).getLast? = some t) :
    atomicRun l.length { now := s, ahead := l } = .next { now := t, ahead := [] } := by
  induction l generalizing s with
  | nil =>
    cases h
    rfl
  | cons u l ih =>
    rw [List.length_cons, atomicRun]
    exact ih u (by rwa [List.getLast?_cons_cons] at h)

/-- The last state that a command passes through is the one it ends in. -/
theorem statesThrough_getLast? (t : State) (es : List TraceEntry) (s : State) :
    (statesThrough t es s).getLast? = some t := by
  induction es generalizing s with
  | nil => rfl
  | cons e es ih =>
    have ne : statesThrough t es ((s.recall e).perform e.event) ≠ [] := by
      intro h
      have := ih ((s.recall e).perform e.event)
      rw [h] at this
      cases this
    have last := ih ((s.recall e).perform e.event)
    unfold statesThrough
    simp only []
    split
    · rw [List.getLast?_cons, last]
      rfl
    · rw [List.getLast?_cons, List.getLast?_cons, last]
      rfl

/-- The atomic steps of one command, its acceptance first, end in the state that `step` gives
(rules R7, R300; log 2). -/
theorem atomicRun_command (s t : State) (i : Instr) (rest : List Word) (hI : InstanceOk s.inst)
    (hf : s.fsm = .idle) (hd : s.nextCommand = some (i, rest))
    (he : exec i (s.setPort rest) = .next t) :
    step s = .next t ∧
    atomicRun ((commandStates i (s.setPort rest)).length + 1) { now := s, ahead := [] } =
      .next { now := t, ahead := [] } := by
  have hc := failedCheck_none s.inst hI
  refine ⟨?_, ?_⟩
  · unfold step
    rw [hc, hd]
    simp only [hf, if_true]
    exact he
  · rw [atomicRun]
    unfold atomicStep
    simp only [hc, hd, hf, if_true]
    refine atomicRun_ahead _ _ _ ?_
    have last : (commandStates i (s.setPort rest)).getLast? = some t := by
      unfold commandStates
      rw [he]
      exact statesThrough_getLast? _ _ _
    rw [List.getLast?_cons, last]
    rfl

/-! ## Events performed again -/

theorem internalUpdate_refl (s : State) : InternalUpdate s s := by constructor <;> rfl

theorem internalUpdate_trans {s t u : State} (h : InternalUpdate s t) (k : InternalUpdate t u) :
    InternalUpdate s u where
  inst := k.inst.trans h.inst
  port := k.port.trans h.port
  trace := k.trace.trans h.trace
  board := k.board.trans h.board
  programmed := k.programmed.trans h.programmed
  word0 := k.word0.trans h.word0
  captures := k.captures.trans h.captures

/-- The registers that are recalled are the only ones an event is recorded with. -/
theorem internalUpdate_perform {s t : State} (h : InternalUpdate s t) (e : TraceEntry) :
    InternalUpdate ((s.recall e).perform e.event) ((t.recall e).perform e.event) := by
  obtain ⟨hi, hp, ht, hb, h1, h2, h3⟩ := h
  cases he : e.event <;>
    constructor <;>
    simp only [State.perform, State.recall, State.memWrite, State.readWord0, State.takeCapture,
      State.askProgrammed, State.settle, State.emit, State.entry, State.mapBoard, State.mapEnv,
      hi, hp, ht, hb, h1, h2, h3]

/-- The recorded events performed again, each with the registers in force restored (rule R7). -/
def State.replay (s : State) (l : List TraceEntry) : State :=
  l.foldl (fun s e => (s.recall e).perform e.event) s

/-- An operation took `s` to `t` by the events `l`: it only appended them to the trace, and performing
them again leads to `t` but for an internal update. -/
structure Replays (l : List TraceEntry) (s t : State) : Prop where
  trace : t.trace = l.reverse ++ s.trace
  final : InternalUpdate (s.replay l) t

theorem internalUpdate_replay {s t : State} (h : InternalUpdate s t) (l : List TraceEntry) :
    InternalUpdate (s.replay l) (t.replay l) := by
  induction l generalizing s t with
  | nil => exact h
  | cons e l ih => exact ih (internalUpdate_perform h e)

theorem internalUpdate_replays {s t : State} (h : InternalUpdate s t) : Replays [] s t :=
  ⟨h.trace, h⟩

theorem Replays.trans {l k : List TraceEntry} {s t u : State} (h : Replays l s t)
    (g : Replays k t u) : Replays (l ++ k) s u where
  trace := by rw [g.trace, h.trace, List.reverse_append, List.append_assoc]
  final := by
    unfold State.replay
    rw [List.foldl_append]
    exact internalUpdate_trans (internalUpdate_replay h.final k) g.final

/-- One event, as `perform` does it. -/
theorem replays_perform (e : Event) (s : State) (h : (s.perform e).trace = s.entry e :: s.trace) :
    Replays [s.entry e] s (s.perform e) :=
  ⟨h, internalUpdate_refl _⟩

theorem memWrite_replays (w : Nat) (v : Word) (s : State) :
    Replays [s.entry (.memWrite w v)] s (s.memWrite w v) :=
  replays_perform (.memWrite w v) s rfl

theorem readWord0_replays (s : State) : Replays [s.entry (.memRead 0)] s s.readWord0 :=
  replays_perform (.memRead 0) s rfl

theorem takeCapture_replays (c : ChipId) (n : Nat) (s : State) :
    Replays [s.entry (.capture c n)] s (s.takeCapture c n) :=
  replays_perform (.capture c n) s rfl

theorem askProgrammed_replays (s : State) : Replays [s.entry .isProgrammed] s s.askProgrammed :=
  replays_perform .isProgrammed s rfl

theorem settle_replays (s : State) : Replays [s.entry .settle] s s.settle :=
  replays_perform .settle s rfl

/-- An operation that replays is a chain of atomic steps (rule R7; log 2). -/
theorem Replays.isChain {l : List TraceEntry} {s t : State} (h : Replays l s t) :
    newEntries s t = l ∧ List.IsChain OneAtomicStep (s :: statesThrough t l s) := by
  refine ⟨?_, ?_⟩
  · unfold newEntries
    rw [h.trace]
    simp
  · have key : ∀ (l : List TraceEntry) (s : State), InternalUpdate (s.replay l) t →
        List.IsChain OneAtomicStep (s :: statesThrough t l s) := by
      intro l
      induction l with
      | nil => exact fun s h => .cons_cons (.inr h) (.singleton _)
      | cons e l ih =>
        intro s h
        have rest := ih _ h
        unfold statesThrough
        simp only []
        split
        · rename_i he
          refine .cons_cons (.inl ⟨e.event, ?_⟩) rest
          rw [← he]
          rfl
        · refine .cons_cons (.inr ?_) (.cons_cons (.inl ⟨e.event, rfl⟩) rest)
          constructor <;> rfl
    exact key l s h.final

end Sys2Proof.Machine
end

