-- ==== Sys2Proof/Laws/Memory.lean ====
section
/-! SUPPORT. The words of the Register Word Interface: a read after a write, and every write keeps
the canonical form. -/

namespace Sys2Proof.Machine

/-- Every listed index of a canonical list's tail is above the head's. -/
theorem WordMem.wf_cons {a : Nat} {v : Word} {m : WordMem} :
    WordMem.wf ((a, v) :: m) ↔ (∀ e ∈ m, a < e.1) ∧ WordMem.wf m := List.pairwise_cons

/-- A word below every listed index reads as unlisted. -/
theorem WordMem.read_of_lt {m : WordMem} {w : Nat} (h : ∀ e ∈ m, w < e.1) :
    WordMem.read m w = none := by
  induction m with
  | nil => rfl
  | cons e m ih =>
    obtain ⟨a, v⟩ := e
    have hne : a ≠ w := Nat.ne_of_gt (h (a, v) (List.mem_cons_self ..))
    simp only [WordMem.read, hne, if_false]
    exact ih (fun e he => h e (List.mem_cons_of_mem _ he))

/-- Every index listed after a write is the written one or was listed before. -/
theorem WordMem.mem_write {m : WordMem} {w : Nat} {v : Word} {e : Nat × Word}
    (h : e ∈ WordMem.write m w v) : e = (w, v) ∨ e ∈ m := by
  induction m with
  | nil => exact .inl (List.mem_singleton.mp h)
  | cons p m ih =>
    obtain ⟨a, u⟩ := p
    simp only [WordMem.write] at h
    split at h
    · exact List.mem_cons.mp h
    · split at h
      · exact (List.mem_cons.mp h).imp id (List.mem_cons_of_mem _)
      · rcases List.mem_cons.mp h with h | h
        · exact .inr (h ▸ List.mem_cons_self ..)
        · exact (ih h).imp id (List.mem_cons_of_mem _)

/-- A write keeps the canonical form. -/
theorem WordMem.write_wf {m : WordMem} (w : Nat) (v : Word) (h : WordMem.wf m) :
    WordMem.wf (WordMem.write m w v) := by
  induction m with
  | nil => exact List.pairwise_singleton ..
  | cons p m ih =>
    obtain ⟨a, u⟩ := p
    obtain ⟨hlt, hm⟩ := WordMem.wf_cons.mp h
    simp only [WordMem.write]
    split
    · rename_i hwa
      refine WordMem.wf_cons.mpr ⟨?_, h⟩
      intro e he
      rcases List.mem_cons.mp he with rfl | he
      · exact hwa
      · exact Nat.lt_trans hwa (hlt e he)
    · split
      · subst_vars
        exact WordMem.wf_cons.mpr ⟨hlt, hm⟩
      · refine WordMem.wf_cons.mpr ⟨?_, ih hm⟩
        intro e he
        rcases WordMem.mem_write he with rfl | he
        · show a < w
          omega
        · exact hlt e he

/-- A word reads as last written. -/
@[simp] theorem WordMem.read_write_same (m : WordMem) (w : Nat) (v : Word) :
    WordMem.read (WordMem.write m w v) w = some v := by
  induction m with
  | nil => simp [WordMem.write, WordMem.read]
  | cons p m ih =>
    obtain ⟨a, u⟩ := p
    simp only [WordMem.write]
    split
    · simp [WordMem.read]
    · split
      · simp [WordMem.read]
      · rename_i hne
        have hne' : a ≠ w := fun h => hne h.symm
        simp only [WordMem.read, hne', if_false]
        exact ih

/-- A write leaves every other word as it was. -/
theorem WordMem.read_write_other (m : WordMem) {w w' : Nat} (v : Word) (h : w' ≠ w) :
    WordMem.read (WordMem.write m w v) w' = WordMem.read m w' := by
  have hne : w ≠ w' := fun h' => h h'.symm
  induction m with
  | nil => simp [WordMem.write, WordMem.read, hne]
  | cons p m ih =>
    obtain ⟨a, u⟩ := p
    simp only [WordMem.write]
    split
    · simp [WordMem.read, hne]
    · split
      · subst_vars
        simp [WordMem.read, hne]
      · simp [WordMem.read, ih]

/-- Canonical lists that read alike are equal data. -/
theorem WordMem.ext_read {m n : WordMem} (hm : WordMem.wf m) (hn : WordMem.wf n)
    (h : ∀ w, WordMem.read m w = WordMem.read n w) : m = n := by
  have lower : ∀ {a b : Nat} {v : Word} {l : WordMem}, a < b → WordMem.wf ((b, v) :: l) →
      WordMem.read ((b, v) :: l) a = none := by
    intro a b v l hab hl
    refine WordMem.read_of_lt ?_
    intro x hx
    rcases List.mem_cons.mp hx with rfl | hx
    · exact hab
    · exact Nat.lt_trans hab ((WordMem.wf_cons.mp hl).1 x hx)
  induction m generalizing n with
  | nil =>
    cases n with
    | nil => rfl
    | cons q n =>
      have := h q.1
      simp [WordMem.read] at this
  | cons p m ih =>
    obtain ⟨a, u⟩ := p
    cases n with
    | nil =>
      have := h a
      simp [WordMem.read] at this
    | cons q n =>
      obtain ⟨b, v⟩ := q
      rcases Nat.lt_trichotomy a b with hab | rfl | hab
      · have e := h a
        rw [lower hab hn] at e
        simp [WordMem.read] at e
      · obtain ⟨hlm, hm'⟩ := WordMem.wf_cons.mp hm
        obtain ⟨hln, hn'⟩ := WordMem.wf_cons.mp hn
        have e := h a
        simp only [WordMem.read, if_true, Option.some.injEq] at e
        subst e
        congr 1
        refine ih hm' hn' ?_
        intro w
        by_cases hw : a = w
        · subst hw
          rw [WordMem.read_of_lt hlm, WordMem.read_of_lt hln]
        · simpa [WordMem.read, hw] using h w
      · have e := h b
        rw [lower hab hm] at e
        simp [WordMem.read] at e

/-- A written word holds its value (rule R71). -/
@[simp] theorem Board.held_of_read {b : Board} {w : Nat} {v : Word} (h : b.rwi.read w = some v) :
    b.held w = v := by
  rw [Board.held, h]
  rfl

/-- A word that reads as before holds what it held (rule R71). -/
theorem Board.held_congr {b d : Board} {w : Nat} (h : b.rwi.read w = d.rwi.read w) :
    b.held w = d.held w := by
  rw [Board.held, Board.held, h]

end Sys2Proof.Machine
end

