-- ==== Sys2Proof/Laws/Ops.lean ====
section
/-! SUPPORT. The shared operations of the bus: what each of them changes, and its events. Every one of
them leaves everything but the trace, the board and the working registers as it was. -/

namespace Sys2Proof.Machine

/-- Everything but the trace, the board and the working registers is the same. -/
structure OnlyBus (s t : State) : Prop where
  inst : t.inst = s.inst
  fsm : t.fsm = s.fsm
  ctl : t.ctl = s.ctl
  status : t.status = s.status
  tables : t.tables = s.tables
  response : t.response = s.response
  port : t.port = s.port
  env : t.env = s.env

theorem OnlyBus.refl (s : State) : OnlyBus s s := by constructor <;> rfl

theorem OnlyBus.trans {s t u : State} (h : OnlyBus s t) (k : OnlyBus t u) : OnlyBus s u := by
  constructor
  · exact k.inst.trans h.inst
  · exact k.fsm.trans h.fsm
  · exact k.ctl.trans h.ctl
  · exact k.status.trans h.status
  · exact k.tables.trans h.tables
  · exact k.response.trans h.response
  · exact k.port.trans h.port
  · exact k.env.trans h.env

/-- A left fold of such operations is one. -/
theorem OnlyBus.foldl {α : Type} (f : State → α → State) (h : ∀ s a, OnlyBus s (f s a)) :
    ∀ (l : List α) (s : State), OnlyBus s (l.foldl f s)
  | [], s => OnlyBus.refl s
  | a :: l, s => (h s a).trans (OnlyBus.foldl f h l (f s a))

theorem mapWork_onlyBus (f : Work → Work) (s : State) : OnlyBus s (s.mapWork f) := by
  constructor <;> rfl

theorem memWrite_onlyBus (w : Nat) (v : Word) (s : State) : OnlyBus s (s.memWrite w v) := by
  constructor <;> rfl

theorem memWriteEach_onlyBus (ws : List Nat) (v : Nat → Word) (s : State) :
    OnlyBus s (s.memWriteEach ws v) :=
  OnlyBus.foldl _ (fun s w => memWrite_onlyBus w (v w) s) ws s

theorem settle_onlyBus (s : State) : OnlyBus s s.settle := by constructor <;> rfl

theorem sendBit_onlyBus (cs a : Byte) (v : Half) (s : State) (j : Nat) :
    OnlyBus s (s.sendBit cs a v j) :=
  (mapWork_onlyBus _ s).trans ((memWrite_onlyBus _ _ _).trans (memWrite_onlyBus _ _ _))

theorem writeRegister_onlyBus (a : Byte) (v : Half) (s : State) :
    OnlyBus s (s.writeRegister a v) := by
  unfold State.writeRegister
  refine OnlyBus.trans ?_ (memWrite_onlyBus _ _ _)
  refine OnlyBus.trans ?_ (mapWork_onlyBus _ _)
  refine OnlyBus.trans ?_ (OnlyBus.foldl _ (fun s j => sendBit_onlyBus _ a v s j) _ _)
  exact (mapWork_onlyBus _ s).trans (memWrite_onlyBus _ _ _)

theorem writeRegisters_onlyBus (ps : List RegWrite) (s : State) :
    OnlyBus s (s.writeRegisters ps) := by
  unfold State.writeRegisters
  refine OnlyBus.foldl _ ?_ ps s
  intro s p
  exact writeRegister_onlyBus p.addr p.value s

theorem setDelayTap_onlyBus (c : ChipId) (t lm : Byte) (s : State) :
    OnlyBus s (s.setDelayTap c t lm) := by
  unfold State.setDelayTap
  refine OnlyBus.trans ?_ (settle_onlyBus _)
  refine OnlyBus.trans ?_ (memWriteEach_onlyBus _ _ _)
  refine OnlyBus.trans ?_ (memWriteEach_onlyBus _ _ _)
  exact (memWriteEach_onlyBus _ _ s).trans (memWrite_onlyBus _ _ _)

theorem bitslipPulse_onlyBus (c : ChipId) (s : State) : OnlyBus s (s.bitslipPulse c) := by
  unfold State.bitslipPulse
  refine OnlyBus.trans ?_ (settle_onlyBus _)
  refine OnlyBus.trans ?_ (memWrite_onlyBus _ _ _)
  exact (memWrite_onlyBus _ _ s).trans (memWrite_onlyBus _ _ _)

theorem bitslipEach_onlyBus (cs : List ChipId) (s : State) : OnlyBus s (s.bitslipEach cs) := by
  unfold State.bitslipEach
  refine OnlyBus.foldl _ ?_ cs s
  intro s c
  exact (mapWork_onlyBus _ s).trans (bitslipPulse_onlyBus c _)

theorem chipReset_onlyBus (s : State) : OnlyBus s s.chipReset := by
  unfold State.chipReset
  exact writeRegisters_onlyBus _ s

theorem powerCycle_onlyBus (s : State) : OnlyBus s s.powerCycle := by
  unfold State.powerCycle
  exact (writeRegister_onlyBus _ _ s).trans (writeRegister_onlyBus _ _ _)

theorem selectPattern_onlyBus (k : PatternKind) (s : State) : OnlyBus s (s.selectPattern k) := by
  unfold State.selectPattern
  exact writeRegisters_onlyBus _ s

/-! ## Field by field -/

@[simp] theorem State.memWrite_inst (w : Nat) (v : Word) (s : State) :
    (s.memWrite w v).inst = s.inst := (memWrite_onlyBus w v s).inst

@[simp] theorem State.memWrite_fsm (w : Nat) (v : Word) (s : State) :
    (s.memWrite w v).fsm = s.fsm := (memWrite_onlyBus w v s).fsm

@[simp] theorem State.memWrite_ctl (w : Nat) (v : Word) (s : State) :
    (s.memWrite w v).ctl = s.ctl := (memWrite_onlyBus w v s).ctl

@[simp] theorem State.memWrite_status (w : Nat) (v : Word) (s : State) :
    (s.memWrite w v).status = s.status := (memWrite_onlyBus w v s).status

@[simp] theorem State.memWrite_tables (w : Nat) (v : Word) (s : State) :
    (s.memWrite w v).tables = s.tables := (memWrite_onlyBus w v s).tables

@[simp] theorem State.memWrite_response (w : Nat) (v : Word) (s : State) :
    (s.memWrite w v).response = s.response := (memWrite_onlyBus w v s).response

@[simp] theorem State.memWrite_port (w : Nat) (v : Word) (s : State) :
    (s.memWrite w v).port = s.port := (memWrite_onlyBus w v s).port

@[simp] theorem State.memWrite_env (w : Nat) (v : Word) (s : State) :
    (s.memWrite w v).env = s.env := (memWrite_onlyBus w v s).env

@[simp] theorem State.memWriteEach_inst (ws : List Nat) (v : Nat → Word) (s : State) :
    (s.memWriteEach ws v).inst = s.inst := (memWriteEach_onlyBus ws v s).inst

@[simp] theorem State.memWriteEach_fsm (ws : List Nat) (v : Nat → Word) (s : State) :
    (s.memWriteEach ws v).fsm = s.fsm := (memWriteEach_onlyBus ws v s).fsm

@[simp] theorem State.memWriteEach_ctl (ws : List Nat) (v : Nat → Word) (s : State) :
    (s.memWriteEach ws v).ctl = s.ctl := (memWriteEach_onlyBus ws v s).ctl

@[simp] theorem State.memWriteEach_status (ws : List Nat) (v : Nat → Word) (s : State) :
    (s.memWriteEach ws v).status = s.status := (memWriteEach_onlyBus ws v s).status

@[simp] theorem State.memWriteEach_tables (ws : List Nat) (v : Nat → Word) (s : State) :
    (s.memWriteEach ws v).tables = s.tables := (memWriteEach_onlyBus ws v s).tables

@[simp] theorem State.memWriteEach_response (ws : List Nat) (v : Nat → Word) (s : State) :
    (s.memWriteEach ws v).response = s.response := (memWriteEach_onlyBus ws v s).response

@[simp] theorem State.memWriteEach_port (ws : List Nat) (v : Nat → Word) (s : State) :
    (s.memWriteEach ws v).port = s.port := (memWriteEach_onlyBus ws v s).port

@[simp] theorem State.memWriteEach_env (ws : List Nat) (v : Nat → Word) (s : State) :
    (s.memWriteEach ws v).env = s.env := (memWriteEach_onlyBus ws v s).env

@[simp] theorem State.settle_inst (s : State) :
    s.settle.inst = s.inst := (settle_onlyBus s).inst

@[simp] theorem State.settle_fsm (s : State) :
    s.settle.fsm = s.fsm := (settle_onlyBus s).fsm

@[simp] theorem State.settle_ctl (s : State) :
    s.settle.ctl = s.ctl := (settle_onlyBus s).ctl

@[simp] theorem State.settle_status (s : State) :
    s.settle.status = s.status := (settle_onlyBus s).status

@[simp] theorem State.settle_tables (s : State) :
    s.settle.tables = s.tables := (settle_onlyBus s).tables

@[simp] theorem State.settle_response (s : State) :
    s.settle.response = s.response := (settle_onlyBus s).response

@[simp] theorem State.settle_port (s : State) :
    s.settle.port = s.port := (settle_onlyBus s).port

@[simp] theorem State.settle_env (s : State) :
    s.settle.env = s.env := (settle_onlyBus s).env

@[simp] theorem State.writeRegister_inst (a : Byte) (v : Half) (s : State) :
    (s.writeRegister a v).inst = s.inst := (writeRegister_onlyBus a v s).inst

@[simp] theorem State.writeRegister_fsm (a : Byte) (v : Half) (s : State) :
    (s.writeRegister a v).fsm = s.fsm := (writeRegister_onlyBus a v s).fsm

@[simp] theorem State.writeRegister_ctl (a : Byte) (v : Half) (s : State) :
    (s.writeRegister a v).ctl = s.ctl := (writeRegister_onlyBus a v s).ctl

@[simp] theorem State.writeRegister_status (a : Byte) (v : Half) (s : State) :
    (s.writeRegister a v).status = s.status := (writeRegister_onlyBus a v s).status

@[simp] theorem State.writeRegister_tables (a : Byte) (v : Half) (s : State) :
    (s.writeRegister a v).tables = s.tables := (writeRegister_onlyBus a v s).tables

@[simp] theorem State.writeRegister_response (a : Byte) (v : Half) (s : State) :
    (s.writeRegister a v).response = s.response := (writeRegister_onlyBus a v s).response

@[simp] theorem State.writeRegister_port (a : Byte) (v : Half) (s : State) :
    (s.writeRegister a v).port = s.port := (writeRegister_onlyBus a v s).port

@[simp] theorem State.writeRegister_env (a : Byte) (v : Half) (s : State) :
    (s.writeRegister a v).env = s.env := (writeRegister_onlyBus a v s).env

@[simp] theorem State.writeRegisters_inst (ps : List RegWrite) (s : State) :
    (s.writeRegisters ps).inst = s.inst := (writeRegisters_onlyBus ps s).inst

@[simp] theorem State.writeRegisters_fsm (ps : List RegWrite) (s : State) :
    (s.writeRegisters ps).fsm = s.fsm := (writeRegisters_onlyBus ps s).fsm

@[simp] theorem State.writeRegisters_ctl (ps : List RegWrite) (s : State) :
    (s.writeRegisters ps).ctl = s.ctl := (writeRegisters_onlyBus ps s).ctl

@[simp] theorem State.writeRegisters_status (ps : List RegWrite) (s : State) :
    (s.writeRegisters ps).status = s.status := (writeRegisters_onlyBus ps s).status

@[simp] theorem State.writeRegisters_tables (ps : List RegWrite) (s : State) :
    (s.writeRegisters ps).tables = s.tables := (writeRegisters_onlyBus ps s).tables

@[simp] theorem State.writeRegisters_response (ps : List RegWrite) (s : State) :
    (s.writeRegisters ps).response = s.response := (writeRegisters_onlyBus ps s).response

@[simp] theorem State.writeRegisters_port (ps : List RegWrite) (s : State) :
    (s.writeRegisters ps).port = s.port := (writeRegisters_onlyBus ps s).port

@[simp] theorem State.writeRegisters_env (ps : List RegWrite) (s : State) :
    (s.writeRegisters ps).env = s.env := (writeRegisters_onlyBus ps s).env

@[simp] theorem State.setDelayTap_inst (c : ChipId) (t lm : Byte) (s : State) :
    (s.setDelayTap c t lm).inst = s.inst := (setDelayTap_onlyBus c t lm s).inst

@[simp] theorem State.setDelayTap_fsm (c : ChipId) (t lm : Byte) (s : State) :
    (s.setDelayTap c t lm).fsm = s.fsm := (setDelayTap_onlyBus c t lm s).fsm

@[simp] theorem State.setDelayTap_ctl (c : ChipId) (t lm : Byte) (s : State) :
    (s.setDelayTap c t lm).ctl = s.ctl := (setDelayTap_onlyBus c t lm s).ctl

@[simp] theorem State.setDelayTap_status (c : ChipId) (t lm : Byte) (s : State) :
    (s.setDelayTap c t lm).status = s.status := (setDelayTap_onlyBus c t lm s).status

@[simp] theorem State.setDelayTap_tables (c : ChipId) (t lm : Byte) (s : State) :
    (s.setDelayTap c t lm).tables = s.tables := (setDelayTap_onlyBus c t lm s).tables

@[simp] theorem State.setDelayTap_response (c : ChipId) (t lm : Byte) (s : State) :
    (s.setDelayTap c t lm).response = s.response := (setDelayTap_onlyBus c t lm s).response

@[simp] theorem State.setDelayTap_port (c : ChipId) (t lm : Byte) (s : State) :
    (s.setDelayTap c t lm).port = s.port := (setDelayTap_onlyBus c t lm s).port

@[simp] theorem State.setDelayTap_env (c : ChipId) (t lm : Byte) (s : State) :
    (s.setDelayTap c t lm).env = s.env := (setDelayTap_onlyBus c t lm s).env

@[simp] theorem State.bitslipPulse_inst (c : ChipId) (s : State) :
    (s.bitslipPulse c).inst = s.inst := (bitslipPulse_onlyBus c s).inst

@[simp] theorem State.bitslipPulse_fsm (c : ChipId) (s : State) :
    (s.bitslipPulse c).fsm = s.fsm := (bitslipPulse_onlyBus c s).fsm

@[simp] theorem State.bitslipPulse_ctl (c : ChipId) (s : State) :
    (s.bitslipPulse c).ctl = s.ctl := (bitslipPulse_onlyBus c s).ctl

@[simp] theorem State.bitslipPulse_status (c : ChipId) (s : State) :
    (s.bitslipPulse c).status = s.status := (bitslipPulse_onlyBus c s).status

@[simp] theorem State.bitslipPulse_tables (c : ChipId) (s : State) :
    (s.bitslipPulse c).tables = s.tables := (bitslipPulse_onlyBus c s).tables

@[simp] theorem State.bitslipPulse_response (c : ChipId) (s : State) :
    (s.bitslipPulse c).response = s.response := (bitslipPulse_onlyBus c s).response

@[simp] theorem State.bitslipPulse_port (c : ChipId) (s : State) :
    (s.bitslipPulse c).port = s.port := (bitslipPulse_onlyBus c s).port

@[simp] theorem State.bitslipPulse_env (c : ChipId) (s : State) :
    (s.bitslipPulse c).env = s.env := (bitslipPulse_onlyBus c s).env

@[simp] theorem State.bitslipEach_inst (cs : List ChipId) (s : State) :
    (s.bitslipEach cs).inst = s.inst := (bitslipEach_onlyBus cs s).inst

@[simp] theorem State.bitslipEach_fsm (cs : List ChipId) (s : State) :
    (s.bitslipEach cs).fsm = s.fsm := (bitslipEach_onlyBus cs s).fsm

@[simp] theorem State.bitslipEach_ctl (cs : List ChipId) (s : State) :
    (s.bitslipEach cs).ctl = s.ctl := (bitslipEach_onlyBus cs s).ctl

@[simp] theorem State.bitslipEach_status (cs : List ChipId) (s : State) :
    (s.bitslipEach cs).status = s.status := (bitslipEach_onlyBus cs s).status

@[simp] theorem State.bitslipEach_tables (cs : List ChipId) (s : State) :
    (s.bitslipEach cs).tables = s.tables := (bitslipEach_onlyBus cs s).tables

@[simp] theorem State.bitslipEach_response (cs : List ChipId) (s : State) :
    (s.bitslipEach cs).response = s.response := (bitslipEach_onlyBus cs s).response

@[simp] theorem State.bitslipEach_port (cs : List ChipId) (s : State) :
    (s.bitslipEach cs).port = s.port := (bitslipEach_onlyBus cs s).port

@[simp] theorem State.bitslipEach_env (cs : List ChipId) (s : State) :
    (s.bitslipEach cs).env = s.env := (bitslipEach_onlyBus cs s).env

@[simp] theorem State.chipReset_inst (s : State) :
    s.chipReset.inst = s.inst := (chipReset_onlyBus s).inst

@[simp] theorem State.chipReset_fsm (s : State) :
    s.chipReset.fsm = s.fsm := (chipReset_onlyBus s).fsm

@[simp] theorem State.chipReset_ctl (s : State) :
    s.chipReset.ctl = s.ctl := (chipReset_onlyBus s).ctl

@[simp] theorem State.chipReset_status (s : State) :
    s.chipReset.status = s.status := (chipReset_onlyBus s).status

@[simp] theorem State.chipReset_tables (s : State) :
    s.chipReset.tables = s.tables := (chipReset_onlyBus s).tables

@[simp] theorem State.chipReset_response (s : State) :
    s.chipReset.response = s.response := (chipReset_onlyBus s).response

@[simp] theorem State.chipReset_port (s : State) :
    s.chipReset.port = s.port := (chipReset_onlyBus s).port

@[simp] theorem State.chipReset_env (s : State) :
    s.chipReset.env = s.env := (chipReset_onlyBus s).env

@[simp] theorem State.powerCycle_inst (s : State) :
    s.powerCycle.inst = s.inst := (powerCycle_onlyBus s).inst

@[simp] theorem State.powerCycle_fsm (s : State) :
    s.powerCycle.fsm = s.fsm := (powerCycle_onlyBus s).fsm

@[simp] theorem State.powerCycle_ctl (s : State) :
    s.powerCycle.ctl = s.ctl := (powerCycle_onlyBus s).ctl

@[simp] theorem State.powerCycle_status (s : State) :
    s.powerCycle.status = s.status := (powerCycle_onlyBus s).status

@[simp] theorem State.powerCycle_tables (s : State) :
    s.powerCycle.tables = s.tables := (powerCycle_onlyBus s).tables

@[simp] theorem State.powerCycle_response (s : State) :
    s.powerCycle.response = s.response := (powerCycle_onlyBus s).response

@[simp] theorem State.powerCycle_port (s : State) :
    s.powerCycle.port = s.port := (powerCycle_onlyBus s).port

@[simp] theorem State.powerCycle_env (s : State) :
    s.powerCycle.env = s.env := (powerCycle_onlyBus s).env

@[simp] theorem State.selectPattern_inst (k : PatternKind) (s : State) :
    (s.selectPattern k).inst = s.inst := (selectPattern_onlyBus k s).inst

@[simp] theorem State.selectPattern_fsm (k : PatternKind) (s : State) :
    (s.selectPattern k).fsm = s.fsm := (selectPattern_onlyBus k s).fsm

@[simp] theorem State.selectPattern_ctl (k : PatternKind) (s : State) :
    (s.selectPattern k).ctl = s.ctl := (selectPattern_onlyBus k s).ctl

@[simp] theorem State.selectPattern_status (k : PatternKind) (s : State) :
    (s.selectPattern k).status = s.status := (selectPattern_onlyBus k s).status

@[simp] theorem State.selectPattern_tables (k : PatternKind) (s : State) :
    (s.selectPattern k).tables = s.tables := (selectPattern_onlyBus k s).tables

@[simp] theorem State.selectPattern_response (k : PatternKind) (s : State) :
    (s.selectPattern k).response = s.response := (selectPattern_onlyBus k s).response

@[simp] theorem State.selectPattern_port (k : PatternKind) (s : State) :
    (s.selectPattern k).port = s.port := (selectPattern_onlyBus k s).port

@[simp] theorem State.selectPattern_env (k : PatternKind) (s : State) :
    (s.selectPattern k).env = s.env := (selectPattern_onlyBus k s).env

/-! ## Events -/

@[simp] theorem State.memWrite_events (w : Nat) (v : Word) (s : State) :
    (s.memWrite w v).events = s.events ++ [Event.memWrite w v] := by
  simp [State.memWrite]

@[simp] theorem State.memWrite_board (w : Nat) (v : Word) (s : State) :
    (s.memWrite w v).board = s.board.write s.inst w v := rfl

@[simp] theorem State.memWrite_work (w : Nat) (v : Word) (s : State) :
    (s.memWrite w v).work = s.work := rfl

@[simp] theorem State.settle_events (s : State) : s.settle.events = s.events ++ [Event.settle] := by
  simp [State.settle]

@[simp] theorem State.settle_board (s : State) : s.settle.board = s.board := rfl

@[simp] theorem State.settle_work (s : State) : s.settle.work = s.work := rfl

theorem State.memWriteEach_events (ws : List Nat) (v : Nat → Word) (s : State) :
    (s.memWriteEach ws v).events = s.events ++ ws.map (fun w => Event.memWrite w (v w)) := by
  induction ws generalizing s with
  | nil => simp [State.memWriteEach]
  | cons w ws ih =>
    have := ih (s.memWrite w (v w))
    simp only [State.memWriteEach, List.foldl_cons, List.map_cons] at this ⊢
    rw [this]
    simp

@[simp] theorem State.memWriteEach_work (ws : List Nat) (v : Nat → Word) (s : State) :
    (s.memWriteEach ws v).work = s.work := by
  induction ws generalizing s with
  | nil => rfl
  | cons w ws ih => exact ih (s.memWrite w (v w))

/-- The events of SetDelayTap (rule R172). -/
theorem State.setDelayTap_events (c : ChipId) (t lm : Byte) (s : State) :
    (s.setDelayTap c t lm).events = s.events ++
      (s.inst.layout.strobeWords.map (fun w => Event.memWrite w 0)
        ++ [Event.memWrite 1 (tapWord s.inst.layout t)]
        ++ s.inst.layout.strobeWords.map
            (fun w => Event.memWrite w (strobeValue s.inst.layout w c lm))
        ++ s.inst.layout.strobeWords.map (fun w => Event.memWrite w 0) ++ [Event.settle]) := by
  simp [State.setDelayTap, State.memWriteEach_events]

@[simp] theorem State.setDelayTap_work (c : ChipId) (t lm : Byte) (s : State) :
    (s.setDelayTap c t lm).work = s.work := by
  simp [State.setDelayTap]

/-- The events of BitslipPulse (rule R177). -/
theorem State.bitslipPulse_events (c : ChipId) (s : State) :
    (s.bitslipPulse c).events = s.events ++
      [Event.memWrite 1 0, Event.memWrite 1 (slipWord s.inst.layout c), Event.memWrite 1 0,
        Event.settle] := by
  simp [State.bitslipPulse]

@[simp] theorem State.bitslipPulse_work (c : ChipId) (s : State) :
    (s.bitslipPulse c).work = s.work := by
  simp [State.bitslipPulse]

/-- The word-0 values of a serial transaction, in order (rule R132). -/
def serialWords (I : Instance) (m : Byte) (a : Byte) (v : Half) : List Word :=
  let cs := csActive I m
  idleFrame I :: ((List.range 24).flatMap (fun j =>
    [frame I.layout false (serialBit a v j) cs, frame I.layout true (serialBit a v j) cs])
      ++ [idleFrame I])

theorem sendBits_events (cs a : Byte) (v : Half) (js : List Nat) (s : State) :
    (js.foldl (State.sendBit cs a v) s).events = s.events ++ js.flatMap (fun j =>
      [Event.memWrite 0 (frame s.inst.layout false (serialBit a v j) cs),
       Event.memWrite 0 (frame s.inst.layout true (serialBit a v j) cs)]) := by
  induction js generalizing s with
  | nil => simp
  | cons j js ih =>
    rw [List.foldl_cons, ih, (sendBit_onlyBus cs a v s j).inst]
    simp [State.sendBit]

/-- The events of WriteRegister: word-0 writes of `serialWords` (rule R132). -/
theorem State.writeRegister_events (a : Byte) (v : Half) (s : State) :
    (s.writeRegister a v).events =
      s.events ++ (serialWords s.inst s.ctl.csMask a v).map (fun x => Event.memWrite 0 x) := by
  simp only [State.writeRegister, State.memWrite_events, State.mapWork_events, sendBits_events,
    State.mapWork_inst, State.memWrite_inst]
  simp [serialWords, List.map_flatMap]

theorem State.writeRegisters_events (ps : List RegWrite) (s : State) :
    (s.writeRegisters ps).events = s.events ++ ps.flatMap (fun p =>
      (serialWords s.inst s.ctl.csMask p.addr p.value).map (fun x => Event.memWrite 0 x)) := by
  induction ps generalizing s with
  | nil => simp [State.writeRegisters]
  | cons p ps ih =>
    have := ih (s.writeRegister p.addr p.value)
    simp only [State.writeRegisters, List.foldl_cons] at this ⊢
    rw [this]
    simp [State.writeRegister_events]

theorem State.bitslipEach_events (cs : List ChipId) (s : State) :
    (s.bitslipEach cs).events = s.events ++ cs.flatMap (fun c =>
      [Event.memWrite 1 0, Event.memWrite 1 (slipWord s.inst.layout c), Event.memWrite 1 0,
       Event.settle]) := by
  induction cs generalizing s with
  | nil => simp [State.bitslipEach]
  | cons c cs ih =>
    have := ih ((s.mapWork (fun w => { w with curChip := chipBits c })).bitslipPulse c)
    simp only [State.bitslipEach, List.foldl_cons] at this ⊢
    rw [this]
    simp [State.bitslipPulse_events]

end Sys2Proof.Machine
end

