-- ==== Sys2Proof/Laws/Board.lean ====
section
/-! SUPPORT. What the word writes of the block do to the words and to the devices behind them: delay
taps (rules R82, R172), deserializers (rules R83, R177), and the canonical form of the words. -/

namespace Sys2Proof.Machine

/-! ## One word write -/

theorem memWrite_rwi (w : Nat) (v : Word) (s : State) :
    (s.memWrite w v).board.rwi = s.board.rwi.write w v := rfl

/-- A write leaves what every other word holds. -/
theorem memWrite_held {w x : Nat} (v : Word) (s : State) (h : x ≠ w) :
    (s.memWrite w v).board.held x = s.board.held x :=
  Board.held_congr (WordMem.read_write_other _ _ h)

theorem memWrite_held_same (w : Nat) (v : Word) (s : State) :
    (s.memWrite w v).board.held w = v :=
  Board.held_of_read (WordMem.read_write_same ..)

theorem memWrite_receivers (w : Nat) (v : Word) (s : State) (h : w ≠ 0) :
    (s.memWrite w v).board.receivers = s.board.receivers := by
  simp [Board.write, h]

theorem memWrite_adc (w : Nat) (v : Word) (s : State) (h : w ≠ 0) :
    (s.memWrite w v).board.sentRegs = s.board.sentRegs ∧
    (s.memWrite w v).board.upsets = s.board.upsets := by
  simp [Board.write, h]

theorem memWrite_slips (w : Nat) (v : Word) (s : State) (h : w ≠ 1) :
    (s.memWrite w v).board.slips = s.board.slips := by
  simp [Board.write, h]

theorem memWrite_taps_of_not_mem (w : Nat) (v : Word) (s : State)
    (h : w ∉ s.inst.layout.strobeWords) : (s.memWrite w v).board.taps = s.board.taps := by
  simp [Board.write, h]

/-- A delay element latches word 1's tap field when its own strobe bit is written at 1
(rule R82). -/
theorem memWrite_taps (w : Nat) (v : Word) (s : State) (c : ChipId) (li : LaneId)
    (h : w ∈ s.inst.layout.strobeWords) :
    ((s.memWrite w v).board.taps[c])[li] =
      if c.val < s.inst.nchips ∧ s.inst.layout.strobeBit[c][li].word = w ∧
          v.getLsbD s.inst.layout.strobeBit[c][li].bit = true then
        (s.board.held 1).extractLsb' s.inst.layout.tapLsb 5
      else s.board.taps[c][li] := by
  rw [State.memWrite_board]
  unfold Board.write
  simp only [h, if_true, tabulate_getElem, Bool.and_eq_true, decide_eq_true_eq, and_assoc]

/-- A deserializer counts a pulse when its bitslip bit goes from 0 to 1 (rule R83). -/
theorem memWrite_slips_of_one (v : Word) (s : State) (c : ChipId) :
    (s.memWrite 1 v).board.slips[c] =
      if c.val < s.inst.nchips ∧
          v.getLsbD (s.inst.layout.slipLsb + c.val) = true ∧
          (s.board.held 1).getLsbD (s.inst.layout.slipLsb + c.val) = false then s.board.slips[c] + 1
      else s.board.slips[c] := by
  rw [State.memWrite_board]
  unfold Board.write
  simp only [if_true, tabulate_getElem, rises, Bool.and_eq_true, decide_eq_true_eq,
    Bool.not_eq_true']

/-- Equal tables of taps, lane by lane. -/
theorem taps_ext {t u : Chips (Lanes Tap)} (h : ∀ (c : ChipId) (li : LaneId), t[c][li] = u[c][li]) :
    t = u := by
  apply Vector.ext
  intro i hi
  apply Vector.ext
  intro j hj
  exact h ⟨i, hi⟩ ⟨j, hj⟩

/-- Equal tables, chip by chip (or lane by lane). -/
theorem table_ext {α : Type} {t u : Vector α 8} (h : ∀ c : Fin 8, t[c] = u[c]) : t = u := by
  apply Vector.ext
  intro i hi
  exact h ⟨i, hi⟩

/-! ## The same value to each word of a list -/

theorem memWriteEach_nil (v : Nat → Word) (s : State) : s.memWriteEach [] v = s := rfl

theorem memWriteEach_cons (w : Nat) (ws : List Nat) (v : Nat → Word) (s : State) :
    s.memWriteEach (w :: ws) v = (s.memWrite w (v w)).memWriteEach ws v := rfl

theorem memWriteEach_wf (ws : List Nat) (v : Nat → Word) (s : State) (h : s.board.rwi.wf) :
    (s.memWriteEach ws v).board.rwi.wf := by
  induction ws generalizing s with
  | nil => exact h
  | cons w ws ih =>
    rw [memWriteEach_cons]
    exact ih _ (WordMem.write_wf w (v w) h)

theorem memWriteEach_read (ws : List Nat) (v : Nat → Word) (s : State) (x : Nat) :
    (s.memWriteEach ws v).board.rwi.read x =
      if x ∈ ws then some (v x) else s.board.rwi.read x := by
  induction ws generalizing s with
  | nil => rfl
  | cons w ws ih =>
    rw [memWriteEach_cons, ih, memWrite_rwi]
    by_cases hx : x = w
    · subst hx
      simp
    · simp [hx, WordMem.read_write_other _ _ hx]

theorem memWriteEach_receivers (ws : List Nat) (v : Nat → Word) (s : State) (h : 0 ∉ ws) :
    (s.memWriteEach ws v).board.receivers = s.board.receivers := by
  induction ws generalizing s with
  | nil => rfl
  | cons w ws ih =>
    simp only [List.mem_cons, not_or] at h
    rw [memWriteEach_cons, ih _ h.2, memWrite_receivers _ _ _ (Ne.symm h.1)]

theorem memWriteEach_adc (ws : List Nat) (v : Nat → Word) (s : State) (h : 0 ∉ ws) :
    (s.memWriteEach ws v).board.sentRegs = s.board.sentRegs ∧
    (s.memWriteEach ws v).board.upsets = s.board.upsets := by
  induction ws generalizing s with
  | nil => exact ⟨rfl, rfl⟩
  | cons w ws ih =>
    simp only [List.mem_cons, not_or] at h
    obtain ⟨h1, h2⟩ := ih (s.memWrite w (v w)) h.2
    obtain ⟨h3, h4⟩ := memWrite_adc w (v w) s (Ne.symm h.1)
    exact ⟨h1.trans h3, h2.trans h4⟩

theorem memWriteEach_slips (ws : List Nat) (v : Nat → Word) (s : State) (h : 1 ∉ ws) :
    (s.memWriteEach ws v).board.slips = s.board.slips := by
  induction ws generalizing s with
  | nil => rfl
  | cons w ws ih =>
    simp only [List.mem_cons, not_or] at h
    rw [memWriteEach_cons, ih _ h.2, memWrite_slips _ _ _ (Ne.symm h.1)]

/-- The delay elements after writes to strobe words: those whose strobe bit was written at 1 hold
word 1's tap field (rule R82). -/
theorem memWriteEach_taps (ws : List Nat) (v : Nat → Word) (s : State) (c : ChipId) (li : LaneId)
    (hs : ∀ w ∈ ws, w ∈ s.inst.layout.strobeWords) (h1 : 1 ∉ ws) :
    (s.memWriteEach ws v).board.taps[c][li] =
      if c.val < s.inst.nchips ∧ s.inst.layout.strobeBit[c][li].word ∈ ws ∧
          (v s.inst.layout.strobeBit[c][li].word).getLsbD s.inst.layout.strobeBit[c][li].bit
            = true then
        (s.board.held 1).extractLsb' s.inst.layout.tapLsb 5
      else s.board.taps[c][li] := by
  induction ws generalizing s with
  | nil => simp [memWriteEach_nil]
  | cons w ws ih =>
    simp only [List.mem_cons, not_or] at h1
    rw [memWriteEach_cons]
    rw [ih (s.memWrite w (v w)) (fun w hw => hs w (List.mem_cons_of_mem _ hw)) h1.2]
    rw [memWrite_taps _ _ _ _ _ (hs w (List.mem_cons_self ..)), memWrite_held _ _ h1.1]
    simp only [State.memWrite_inst, List.mem_cons]
    generalize s.inst.layout.strobeBit[c][li] = B
    by_cases hw : B.word = w
    · subst hw
      by_cases hc : c.val < s.inst.nchips <;> by_cases hm : B.word ∈ ws <;>
        by_cases hv : (v B.word).getLsbD B.bit = true <;> simp only [hc, hm, hv, and_self, and_true,
          and_false, true_or, or_false, if_true, if_false, Bool.false_eq_true]
    · by_cases hc : c.val < s.inst.nchips <;> by_cases hm : B.word ∈ ws <;>
        by_cases hv : (v B.word).getLsbD B.bit = true <;> simp only [hc, hm, hv, hw, and_self,
          and_true, and_false, false_and, or_true, or_false, if_true, if_false,
          Bool.false_eq_true]

/-! ## SetDelayTap -/

/-- The one bit of `bitAt` (rule R8). -/
theorem bitAt_getLsbD (n b : Nat) (hb : b < 32) :
    (bitAt n true).getLsbD b = decide (n = b) := by
  rw [bitAt, if_pos rfl, BitVec.getLsbD_shiftLeft]
  by_cases hlt : b < n
  · simp [hlt, Nat.ne_of_gt hlt]
  · by_cases hz : n = b
    · subst hz
      simp [hb]
    · have : 0 < b - n := by omega
      have h1 : (1#32).getLsbD (b - n) = false := by
        simp [BitVec.getLsbD_one]
        omega
      simp [h1, hz]

/-- Bit `b` of the strobe value of word `w`: it is set exactly when a lane of the lane mask has its
strobe bit there (rule R170). -/
theorem strobeValue_getLsbD (L : Layout) (w : Nat) (c : ChipId) (lm : Byte) (b : Nat)
    (hb : b < 32) :
    (strobeValue L w c lm).getLsbD b = true ↔
      ∃ li : LaneId, lm.getLsbD li.val = true ∧ L.strobeBit[c][li].word = w ∧
        L.strobeBit[c][li].bit = b := by
  have key : ∀ (l : List LaneId) (a : Word),
      (l.foldl (fun acc li =>
        if lm.getLsbD li.val && decide (L.strobeBit[c][li].word = w)
        then acc ||| bitAt L.strobeBit[c][li].bit true else acc) a).getLsbD b = true ↔
      a.getLsbD b = true ∨ ∃ li ∈ l, lm.getLsbD li.val = true ∧ L.strobeBit[c][li].word = w ∧
        L.strobeBit[c][li].bit = b := by
    intro l
    induction l with
    | nil => simp
    | cons x l ih =>
      intro a
      rw [List.foldl_cons, ih]
      by_cases hx : lm.getLsbD x.val = true ∧ L.strobeBit[c][x].word = w
      · have e : (lm.getLsbD x.val && decide (L.strobeBit[c][x].word = w)) = true := by
          rw [Bool.and_eq_true, decide_eq_true_eq]
          exact hx
        rw [if_pos e]
        have hbit : (bitAt L.strobeBit[c][x].bit true).getLsbD b
            = decide (L.strobeBit[c][x].bit = b) := by
          exact bitAt_getLsbD _ b hb
        simp only [BitVec.getLsbD_or, Bool.or_eq_true, hbit, decide_eq_true_eq, List.mem_cons,
          exists_eq_or_imp, hx.1, hx.2, true_and, or_assoc]
      · have e : ¬ (lm.getLsbD x.val && decide (L.strobeBit[c][x].word = w)) = true := by
          rw [Bool.and_eq_true, decide_eq_true_eq]
          exact hx
        rw [if_neg e]
        simp only [List.mem_cons, exists_eq_or_imp]
        constructor
        · rintro (h | h)
          · exact .inl h
          · exact .inr (.inr h)
        · rintro (h | ⟨h1, h2, -⟩ | h)
          · exact .inl h
          · exact absurd ⟨h1, h2⟩ hx
          · exact .inr h
  rw [strobeValue, key allLanes 0]
  constructor
  · rintro (h | ⟨li, -, h⟩)
    · simp at h
    · exact ⟨li, h⟩
  · rintro ⟨li, h⟩
    exact .inr ⟨li, mem_allLanes li, h⟩

/-- The tap field of the tap word is the tap (rules R106, R171). -/
theorem tapWord_field (L : Layout) (t : Byte) (h : L.tapLsb ≤ 27) :
    (tapWord L t).extractLsb' L.tapLsb 5 = BitVec.ofNat 5 (t.toNat % 32) := by
  apply BitVec.eq_of_getLsbD_eq
  intro i hi
  have h32 : L.tapLsb + i < 32 := by omega
  have ht : BitVec.ofNat 5 (t.toNat % 32) = t.extractLsb' 0 5 := by
    apply BitVec.eq_of_toNat_eq
    simp
  have hsub : L.tapLsb + i - L.tapLsb = i := by omega
  have hnl : ¬ L.tapLsb + i < L.tapLsb := by omega
  rw [ht]
  have h1f : (0x1F#8).getLsbD i = true := by
    have hi' : i = 0 ∨ i = 1 ∨ i = 2 ∨ i = 3 ∨ i = 4 := by omega
    rcases hi' with rfl | rfl | rfl | rfl | rfl <;> rfl
  have h32' : i < 32 := by omega
  simp only [tapWord, BitVec.getLsbD_extractLsb', hi, decide_true, Bool.true_and,
    BitVec.getLsbD_shiftLeft, h32, hnl, decide_false, Bool.not_false, hsub,
    BitVec.getLsbD_setWidth, h32', BitVec.getLsbD_and, Nat.zero_add]
  show (t.getLsbD i && (0x1F#8).getLsbD i) = t.getLsbD i
  rw [h1f, Bool.and_true]

/-- Outside its tap field the tap word is 0 (rule R171). -/
theorem tapWord_apart (L : Layout) (t : Byte) (b : Nat) (h : b < L.tapLsb ∨ L.tapLsb + 5 ≤ b) :
    (tapWord L t).getLsbD b = false := by
  simp only [tapWord, BitVec.getLsbD_shiftLeft]
  rcases h with h | h
  · simp [h]
  · have hge : 5 ≤ b - L.tapLsb := by omega
    have hz : ((t &&& 0x1F).setWidth 32).getLsbD (b - L.tapLsb) = false := by
      rw [BitVec.getLsbD_setWidth, BitVec.getLsbD_and]
      have : (0x1F#8).getLsbD (b - L.tapLsb) = false := by
        rw [BitVec.getLsbD, Nat.testBit_lt_two_pow]
        calc (0x1F#8).toNat < 2 ^ 5 := by decide
          _ ≤ 2 ^ (b - L.tapLsb) := Nat.pow_le_pow_right (by decide) hge
      show (_ && (_ && (0x1F#8).getLsbD (b - L.tapLsb))) = false
      rw [this]
      simp
    rw [hz]
    simp

/-! ### The whole operation -/

/-- SetDelayTap keeps the canonical form. -/
theorem setDelayTap_wf (c : ChipId) (t lm : Byte) (s : State) (h : s.board.rwi.wf) :
    (s.setDelayTap c t lm).board.rwi.wf :=
  memWriteEach_wf _ _ _ (memWriteEach_wf _ _ _ (WordMem.write_wf 1 _ (memWriteEach_wf _ _ _ h)))

/-- The words after SetDelayTap (rules R172, R290). -/
theorem setDelayTap_read (c : ChipId) (t lm : Byte) (s : State) (x : Nat) :
    (s.setDelayTap c t lm).board.rwi.read x =
      if x ∈ s.inst.layout.strobeWords then some 0
      else if x = 1 then some (tapWord s.inst.layout t) else s.board.rwi.read x := by
  unfold State.setDelayTap
  rw [State.settle_board, memWriteEach_read, memWriteEach_read, memWrite_rwi]
  by_cases hx : x ∈ s.inst.layout.strobeWords
  · simp only [hx, if_true]
  · simp only [hx, if_false]
    by_cases hx1 : x = 1
    · subst hx1
      rw [if_pos rfl, WordMem.read_write_same]
    · rw [if_neg hx1, WordMem.read_write_other _ _ hx1, memWriteEach_read]
      simp only [hx, if_false]

/-- SetDelayTap leaves the ADC chips and the deserializers as they were (rule R172). -/
theorem setDelayTap_devices (c : ChipId) (t lm : Byte) (s : State) (hI : InstanceOk s.inst) :
    (s.setDelayTap c t lm).board.receivers = s.board.receivers ∧
    ((s.setDelayTap c t lm).board.sentRegs = s.board.sentRegs ∧
      (s.setDelayTap c t lm).board.upsets = s.board.upsets) ∧
    (s.setDelayTap c t lm).board.slips = s.board.slips := by
  obtain ⟨-, -, hs⟩ := strobeWordsOk_of _ hI
  have h0 : 0 ∉ s.inst.layout.strobeWords := fun h => (hs 0 h).1 rfl
  have h1 : 1 ∉ s.inst.layout.strobeWords := fun h => (hs 1 h).2 rfl
  unfold State.setDelayTap
  refine ⟨?_, ?_, ?_⟩
  · rw [State.settle_board, memWriteEach_receivers _ _ _ h0, memWriteEach_receivers _ _ _ h0,
      memWrite_receivers _ _ _ (by decide), memWriteEach_receivers _ _ _ h0]
  · rw [State.settle_board, (memWriteEach_adc _ _ _ h0).1, (memWriteEach_adc _ _ _ h0).1,
      (memWrite_adc _ _ _ (by decide)).1, (memWriteEach_adc _ _ _ h0).1,
      (memWriteEach_adc _ _ _ h0).2, (memWriteEach_adc _ _ _ h0).2,
      (memWrite_adc _ _ _ (by decide)).2, (memWriteEach_adc _ _ _ h0).2]
    exact ⟨rfl, rfl⟩
  · rw [State.settle_board, memWriteEach_slips _ _ _ h1, memWriteEach_slips _ _ _ h1]
    rw [← memWriteEach_slips s.inst.layout.strobeWords (fun _ => 0) s h1]
    apply table_ext
    intro d
    rw [memWrite_slips_of_one]
    refine if_neg ?_
    rintro ⟨hd, hb, -⟩
    simp only [State.memWriteEach_inst] at hd hb
    rw [tapWord_apart _ _ _ (slipBit_apart _ hI d hd).2] at hb
    exact absurd hb (by decide)

/-- The delay elements after SetDelayTap: the lanes of the lane mask of the chip hold the tap, the
others are as before (rules R82, R174). -/
theorem setDelayTap_taps (c : ChipId) (t lm : Byte) (s : State) (hI : InstanceOk s.inst)
    (hc : c.val < s.inst.nchips) (d : ChipId) (li : LaneId) :
    (s.setDelayTap c t lm).board.taps[d][li] =
      if d = c ∧ lm.getLsbD li.val = true then BitVec.ofNat 5 (t.toNat % 32)
      else s.board.taps[d][li] := by
  obtain ⟨-, -, hs⟩ := strobeWordsOk_of _ hI
  have h1 : 1 ∉ s.inst.layout.strobeWords := fun h => (hs 1 h).2 rfl
  have z : ∀ n, (0 : Word).getLsbD n = false := fun n => BitVec.getLsbD_zero
  unfold State.setDelayTap
  rw [State.settle_board, memWriteEach_taps _ _ _ _ _ (by simp) h1]
  simp only [z, Bool.false_eq_true, and_false, if_false]
  rw [memWriteEach_taps _ _ _ _ _ (by simp) h1, memWrite_held_same,
    memWrite_taps_of_not_mem _ _ _ (by simpa using h1), memWriteEach_taps _ _ _ _ _ (by simp) h1]
  simp only [z, Bool.false_eq_true, and_false, if_false, State.memWrite_inst,
    State.memWriteEach_inst, tapWord_field _ _ (rangesOk_of _ hI).1]
  congr 1
  rw [eq_iff_iff]
  constructor
  · rintro ⟨hd, hm, hv⟩
    obtain ⟨hm', hb⟩ := strobeBit_mem _ hI d li hd
    obtain ⟨l, hl, hl1, hl2⟩ := (strobeValue_getLsbD _ _ _ _ _ hb).mp hv
    have e : s.inst.layout.strobeBit[d][li] = s.inst.layout.strobeBit[c][l] := by
      generalize s.inst.layout.strobeBit[d][li] = A at *
      generalize s.inst.layout.strobeBit[c][l] = B at *
      cases A
      cases B
      simp_all
    obtain ⟨rfl, rfl⟩ := strobeBit_injective _ hI d c li l hd hc e
    exact ⟨rfl, hl⟩
  · rintro ⟨rfl, hl⟩
    obtain ⟨hm', hb⟩ := strobeBit_mem _ hI d li hc
    exact ⟨hc, hm', (strobeValue_getLsbD _ _ _ _ _ hb).mpr ⟨li, hl, rfl, rfl⟩⟩

/-! ## BitslipPulse -/

/-- BitslipPulse keeps the canonical form. -/
theorem bitslipPulse_wf (c : ChipId) (s : State) (h : s.board.rwi.wf) :
    (s.bitslipPulse c).board.rwi.wf :=
  WordMem.write_wf 1 0 (WordMem.write_wf 1 _ (WordMem.write_wf 1 0 h))

/-- The words after BitslipPulse (rule R177). -/
theorem bitslipPulse_read (c : ChipId) (s : State) (x : Nat) :
    (s.bitslipPulse c).board.rwi.read x = if x = 1 then some 0 else s.board.rwi.read x := by
  unfold State.bitslipPulse
  rw [State.settle_board, memWrite_rwi, memWrite_rwi, memWrite_rwi]
  by_cases hx : x = 1
  · subst hx
    rw [if_pos rfl, WordMem.read_write_same]
  · rw [if_neg hx, WordMem.read_write_other _ _ hx, WordMem.read_write_other _ _ hx,
      WordMem.read_write_other _ _ hx]

/-- BitslipPulse leaves the ADC chips as they were, and the delay elements where word 1 is no strobe
word (rule R177). -/
theorem bitslipPulse_devices (c : ChipId) (s : State) :
    (s.bitslipPulse c).board.receivers = s.board.receivers ∧
    ((s.bitslipPulse c).board.sentRegs = s.board.sentRegs ∧
      (s.bitslipPulse c).board.upsets = s.board.upsets) ∧
    (1 ∉ s.inst.layout.strobeWords → (s.bitslipPulse c).board.taps = s.board.taps) := by
  unfold State.bitslipPulse
  refine ⟨?_, ?_, ?_⟩
  · rw [State.settle_board, memWrite_receivers _ _ _ (by decide),
      memWrite_receivers _ _ _ (by decide), memWrite_receivers _ _ _ (by decide)]
  · rw [State.settle_board, (memWrite_adc _ _ _ (by decide)).1,
      (memWrite_adc _ _ _ (by decide)).1, (memWrite_adc _ _ _ (by decide)).1,
      (memWrite_adc _ _ _ (by decide)).2, (memWrite_adc _ _ _ (by decide)).2,
      (memWrite_adc _ _ _ (by decide)).2]
    exact ⟨rfl, rfl⟩
  · intro h
    rw [State.settle_board, memWrite_taps_of_not_mem _ _ _ (by simpa using h),
      memWrite_taps_of_not_mem _ _ _ (by simpa using h),
      memWrite_taps_of_not_mem _ _ _ (by simpa using h)]

/-- BitslipPulse advances the deserializer of its chip once, and no other, whatever word 1 held before
(rules R83, R177, R178). -/
theorem bitslipPulse_slips (c : ChipId) (s : State) (hI : InstanceOk s.inst)
    (hc : c.val < s.inst.nchips) (d : ChipId) :
    (s.bitslipPulse c).board.slips[d] = s.board.slips[d] + if d = c then 1 else 0 := by
  have z : ∀ n, (0 : Word).getLsbD n = false := fun n => BitVec.getLsbD_zero
  unfold State.bitslipPulse
  rw [State.settle_board, memWrite_slips_of_one]
  simp only [z, Bool.false_eq_true, and_false, false_and, if_false]
  rw [memWrite_slips_of_one, memWrite_held_same, memWrite_slips_of_one]
  simp only [z, Bool.false_eq_true, and_false, false_and, if_false, State.memWrite_inst, and_true]
  by_cases hd : d.val < s.inst.nchips
  · simp only [hd, true_and, slipWord,
      bitAt_getLsbD _ _ (slipBit_apart _ hI d hd).1, decide_eq_true_eq, Nat.add_left_cancel_iff]
    by_cases hdc : d = c
    · simp only [hdc, if_true]
    · have : ¬ c.val = d.val := fun h => hdc (Fin.ext h.symm)
      simp only [hdc, this, if_false, Nat.add_zero]
  · have : d ≠ c := fun h => hd (h ▸ hc)
    simp only [hd, this, false_and, if_false, Nat.add_zero]

/-! ## What a chip's registers hold -/

/-- A chip that was not reset since power-on holds what it was sent (rule R81). -/
theorem chipReg_of_none {b : Board} {c : ChipId} (h : b.upsets[c] = none) (r : Byte) :
    b.chipReg c r = b.sentRegs[c][r.toNat]'r.isLt := by
  rw [Board.chipReg, h]

/-- A register stored since the last reset of its chip holds what it was sent (rule R81). -/
theorem chipReg_of_mem {b : Board} {c : ChipId} {u : Upset} (h : b.upsets[c] = some u) {r : Byte}
    (hr : r ∈ u.stored) : b.chipReg c r = b.sentRegs[c][r.toNat]'r.isLt := by
  rw [Board.chipReg, h]
  exact if_pos hr

/-- Any other register of a chip that was reset is a free value (I13, rule R331; log 12). -/
theorem chipReg_of_not_mem {b : Board} {c : ChipId} {u : Upset} (h : b.upsets[c] = some u) {r : Byte}
    (hr : r ∉ u.stored) : b.chipReg c r = Config.freeChipReg u.stamp c r := by
  rw [Board.chipReg, h]
  exact if_neg hr

end Sys2Proof.Machine
end

