-- ==== Sys2Proof/Laws/Serial.lean ====
section
/-! SUPPORT. What a serial transaction does to the words, to the devices behind them and to the ADC
chips that receive it (rules R81, R130 to R134). -/

namespace Sys2Proof.Machine

/-! ## Transactions as word-0 writes -/

/-- A property of the board kept by every word-0 write is kept by a transaction. -/
theorem writeRegister_board (P : Board → Prop) (a : Byte) (v : Half) (s : State)
    (h : ∀ b x, P b → P (b.write s.inst 0 x)) (h0 : P s.board) :
    P (s.writeRegister a v).board := by
  have key : ∀ (js : List Nat) (cs : Byte) (t : State), t.inst = s.inst → P t.board →
      P (js.foldl (State.sendBit cs a v) t).board := by
    intro js cs
    induction js with
    | nil => exact fun t _ ht => ht
    | cons j js ih =>
      intro t hi ht
      refine ih _ ?_ ?_
      · rw [(sendBit_onlyBus cs a v t j).inst, hi]
      · unfold State.sendBit
        rw [State.memWrite_board, State.memWrite_board, State.mapWork_board, State.memWrite_inst,
          State.mapWork_inst, hi]
        exact h _ _ (h _ _ ht)
  unfold State.writeRegister
  rw [State.memWrite_board, State.mapWork_board, State.mapWork_inst,
    (OnlyBus.foldl _ (fun s j => sendBit_onlyBus _ a v s j) _ _).inst, State.memWrite_inst,
    State.mapWork_inst]
  refine h _ _ (key _ _ _ ?_ ?_)
  · rw [State.memWrite_inst, State.mapWork_inst]
  · rw [State.memWrite_board, State.mapWork_board, State.mapWork_inst]
    exact h _ _ h0

theorem writeRegister_wf (a : Byte) (v : Half) (s : State) (h : s.board.rwi.wf) :
    (s.writeRegister a v).board.rwi.wf :=
  writeRegister_board (fun b => b.rwi.wf) a v s (fun _ x hb => WordMem.write_wf 0 x hb) h

theorem writeRegister_read_other (a : Byte) (v : Half) (s : State) (w : Nat) (h : w ≠ 0) :
    (s.writeRegister a v).board.rwi.read w = s.board.rwi.read w :=
  writeRegister_board (fun b => b.rwi.read w = s.board.rwi.read w) a v s
    (fun _ x hb => (WordMem.read_write_other _ x h).trans hb) rfl

theorem writeRegister_slips (a : Byte) (v : Half) (s : State) :
    (s.writeRegister a v).board.slips = s.board.slips :=
  writeRegister_board (fun b => b.slips = s.board.slips) a v s
    (fun b x hb => by simpa [Board.write] using hb) rfl

theorem writeRegister_taps (a : Byte) (v : Half) (s : State)
    (h : 0 ∉ s.inst.layout.strobeWords) : (s.writeRegister a v).board.taps = s.board.taps :=
  writeRegister_board (fun b => b.taps = s.board.taps) a v s
    (fun b x hb => by simpa [Board.write, h] using hb) rfl

/-- Word 0 is left at the idle frame (rule R132). -/
theorem writeRegister_read_zero (a : Byte) (v : Half) (s : State) :
    (s.writeRegister a v).board.rwi.read 0 = some (idleFrame s.inst) := by
  unfold State.writeRegister
  rw [memWrite_rwi, WordMem.read_write_same]

/-! ## A list of transactions -/

theorem writeRegisters_nil (s : State) : s.writeRegisters [] = s := by
  rw [State.writeRegisters, List.foldl_nil]

theorem writeRegisters_cons (p : RegWrite) (ps : List RegWrite) (s : State) :
    s.writeRegisters (p :: ps) = (s.writeRegister p.addr p.value).writeRegisters ps := by
  rw [State.writeRegisters, List.foldl_cons, State.writeRegisters]

/-- A property of states kept by every transaction is kept by a list of them. -/
theorem writeRegisters_keeps (P : State → Prop) (ps : List RegWrite) (s : State)
    (h : ∀ t a v, P t → P (t.writeRegister a v)) (h0 : P s) : P (s.writeRegisters ps) := by
  induction ps generalizing s with
  | nil =>
    rw [writeRegisters_nil]
    exact h0
  | cons p ps ih =>
    rw [writeRegisters_cons]
    exact ih _ (h s p.addr p.value h0)

theorem writeRegisters_wf (ps : List RegWrite) (s : State) (h : s.board.rwi.wf) :
    (s.writeRegisters ps).board.rwi.wf :=
  writeRegisters_keeps (fun t => t.board.rwi.wf) ps s (fun t a v => writeRegister_wf a v t) h

theorem writeRegisters_read_other (ps : List RegWrite) (s : State) (w : Nat) (h : w ≠ 0) :
    (s.writeRegisters ps).board.rwi.read w = s.board.rwi.read w :=
  writeRegisters_keeps (fun t => t.board.rwi.read w = s.board.rwi.read w) ps s
    (fun t a v ht => (writeRegister_read_other a v t w h).trans ht) rfl

theorem writeRegisters_slips (ps : List RegWrite) (s : State) :
    (s.writeRegisters ps).board.slips = s.board.slips :=
  writeRegisters_keeps (fun t => t.board.slips = s.board.slips) ps s
    (fun t a v ht => (writeRegister_slips a v t).trans ht) rfl

theorem writeRegisters_taps (ps : List RegWrite) (s : State)
    (h : 0 ∉ s.inst.layout.strobeWords) : (s.writeRegisters ps).board.taps = s.board.taps := by
  refine (writeRegisters_keeps
    (fun t => t.inst = s.inst ∧ t.board.taps = s.board.taps) ps s ?_ ⟨rfl, rfl⟩).2
  rintro t a v ⟨hi, ht⟩
  refine ⟨by rw [State.writeRegister_inst, hi], ?_⟩
  rw [writeRegister_taps a v t (by rw [hi]; exact h), ht]

theorem writeRegisters_read_zero (ps : List RegWrite) (s : State) :
    (s.writeRegisters ps).board.rwi.read 0 =
      if ps = [] then s.board.rwi.read 0 else some (idleFrame s.inst) := by
  induction ps generalizing s with
  | nil => rw [writeRegisters_nil, if_pos rfl]
  | cons p ps ih =>
    rw [if_neg (List.cons_ne_nil p ps), writeRegisters_cons, ih]
    split
    · rw [writeRegister_read_zero]
    · rw [State.writeRegister_inst]

/-! ## The frames -/

/-- The clock, data and select bits of a frame, in a layout that passes the checks (rule R130). -/
theorem frame_bits (I : Instance) (h : InstanceOk I) (k d : Bool) (cs : Byte)
    (hcs : ∀ i, I.nchips ≤ i → cs.getLsbD i = false) :
    (frame I.layout k d cs).getLsbD I.layout.sclkBit = k ∧
    (frame I.layout k d cs).getLsbD I.layout.sdataBit = d ∧
    ∀ c : Nat, c < I.nchips → (frame I.layout k d cs).getLsbD (I.layout.csLsb + c) = cs.getLsbD c := by
  obtain ⟨hkd, hk, hd, hc⟩ := serialBits_apart I h
  have one : ∀ n b, b < 32 → ∀ x, (bitAt n x).getLsbD b = (decide (n = b) && x) := by
    intro n b hb x
    cases x
    · simp [bitAt]
    · simp [bitAt_getLsbD n b hb]
  have csBit : ∀ b, b < 32 → ((cs.setWidth 32) <<< I.layout.csLsb).getLsbD b =
      (decide (I.layout.csLsb ≤ b) && cs.getLsbD (b - I.layout.csLsb)) := by
    intro b hb
    rw [BitVec.getLsbD_shiftLeft, BitVec.getLsbD_setWidth]
    have : b - I.layout.csLsb < 32 := by omega
    by_cases hle : I.layout.csLsb ≤ b
    · simp [hb, this, hle]
    · simp [hle, Nat.lt_of_not_le hle]
  have csZero : ∀ b, b < 32 → (∀ c, c < I.nchips → I.layout.csLsb + c ≠ b) →
      ((cs.setWidth 32) <<< I.layout.csLsb).getLsbD b = false := by
    intro b hb hne
    rw [csBit b hb]
    by_cases hle : I.layout.csLsb ≤ b
    · have : I.nchips ≤ b - I.layout.csLsb := by
        by_contra hlt
        exact hne (b - I.layout.csLsb) (by omega) (by omega)
      simp [hcs _ this]
    · simp [hle]
  refine ⟨?_, ?_, ?_⟩
  · simp only [frame, BitVec.getLsbD_or, one _ _ hk, csZero _ hk (fun c h' => (hc c h').2.1)]
    simp [Ne.symm hkd]
  · simp only [frame, BitVec.getLsbD_or, one _ _ hd, csZero _ hd (fun c h' => (hc c h').2.2)]
    simp [hkd]
  · intro c h'
    obtain ⟨h1, h2, h3⟩ := hc c h'
    simp only [frame, BitVec.getLsbD_or, one _ _ h1, csBit _ h1]
    simp [Ne.symm h2, Ne.symm h3]

/-- Bit `i` of `ones(n)` (rule R8). -/
theorem onesMask_getLsbD (n i : Nat) (hn : n ≤ 8) : (onesMask n).getLsbD i = decide (i < n) := by
  by_cases hi : i < 8
  · have key : ∀ m : Fin 9, ∀ j : Fin 8, (onesMask m.val).getLsbD j.val = decide (j.val < m.val) := by
      decide
    exact key ⟨n, by omega⟩ ⟨i, hi⟩
  · rw [BitVec.getLsbD_of_ge _ _ (by omega)]
    simp only [Bool.false_eq, decide_eq_false_iff_not]
    omega

/-- A valid mask has no bit of a chip the board does not have (rule R105). -/
theorem maskValid_iff (I : Instance) (m : Byte) (h : I.nchips ≤ 8) :
    maskValid I m ↔ ∀ i, I.nchips ≤ i → m.getLsbD i = false := by
  unfold maskValid
  constructor
  · intro e i hi
    by_cases h8 : i < 8
    · have := congrArg (fun x => BitVec.getLsbD x i) e
      simp only [BitVec.getLsbD_and, BitVec.getLsbD_not, h8, decide_true,
        onesMask_getLsbD _ _ h, Nat.not_lt.mpr hi, decide_false, Bool.not_false, Bool.and_true] at this
      rw [this]
      exact BitVec.getLsbD_zero
    · exact BitVec.getLsbD_of_ge _ _ (by omega)
  · intro hm
    apply BitVec.eq_of_getLsbD_eq
    intro i hi
    simp only [BitVec.getLsbD_and, BitVec.getLsbD_not, hi, decide_true, Bool.true_and,
      onesMask_getLsbD _ _ h]
    by_cases hlt : i < I.nchips
    · simp [hlt]
    · simp [hm i (by omega)]

/-- A chip's select line is asserted by the frames of a transaction exactly when the mask names it
(rules R81, R130). -/
theorem frame_selects (I : Instance) (h : InstanceOk I) (k d : Bool) (m : Byte)
    (hm : maskValid I m) (c : ChipId) (hc : c.val < I.nchips) :
    chipSelected I.layout (frame I.layout k d (csActive I m)) c = m.getLsbD c.val := by
  have h8 := (nchips_le I h).2
  have hm' := (maskValid_iff I m h8).mp hm
  have hcs : ∀ i, I.nchips ≤ i → (csActive I m).getLsbD i = false := by
    intro i hi
    unfold csActive
    cases I.layout.csPolarity
    · simp [onesMask_getLsbD _ _ h8, Nat.not_lt.mpr hi]
    · exact hm' i hi
  have hb := (frame_bits I h k d _ hcs).2.2 c.val hc
  unfold chipSelected
  rw [hb]
  unfold csActive
  cases I.layout.csPolarity
  · simp [onesMask_getLsbD _ _ h8, hc]
  · rfl

/-- No chip is selected by the idle frame, and its clock is high (rule R131). -/
theorem idleFrame_bits (I : Instance) (h : InstanceOk I) :
    (idleFrame I).getLsbD I.layout.sclkBit = true ∧
    (idleFrame I).getLsbD I.layout.sdataBit = false ∧
    ∀ c : ChipId, c.val < I.nchips → chipSelected I.layout (idleFrame I) c = false := by
  have h8 := (nchips_le I h).2
  have hcs : ∀ i, I.nchips ≤ i → (csIdle I).getLsbD i = false := by
    intro i hi
    unfold csIdle
    cases I.layout.csPolarity
    · simp [onesMask_getLsbD _ _ h8, Nat.not_lt.mpr hi]
    · exact BitVec.getLsbD_zero
  obtain ⟨h1, h2, h3⟩ := frame_bits I h true false _ hcs
  refine ⟨h1, h2, ?_⟩
  intro c hc
  have hb := h3 c.val hc
  unfold chipSelected idleFrame
  rw [hb]
  unfold csIdle
  cases I.layout.csPolarity
  · simp [onesMask_getLsbD _ _ h8, hc]
  · exact BitVec.getLsbD_zero

/-! ## The receivers -/

/-- One word-0 write, seen by the receiver of a chip of the board (rule R81). -/
theorem memWrite_zero_receiver (x : Word) (s : State) (c : ChipId) (h : c.val < s.inst.nchips) :
    (s.memWrite 0 x).board.receivers[c] =
      s.board.receivers[c].step s.inst.layout (s.board.held 0) x c := by
  rw [State.memWrite_board]
  unfold Board.write
  simp only [if_true, tabulate_getElem, chipPresent, h, decide_true]

/-- One word-0 write, seen by the registers of a chip of the board: what they were sent (rule R81),
and what a reset or a power cycle leaves of them (I13). -/
theorem memWrite_zero_regs (x : Word) (s : State) (c : ChipId) (h : c.val < s.inst.nchips) :
    (s.memWrite 0 x).board.sentRegs[c] =
      s.board.receivers[c].stepRegs s.inst.layout s.board.writes (s.board.held 0) x c
        s.board.sentRegs[c] ∧
    (s.memWrite 0 x).board.upsets[c] =
      s.board.receivers[c].stepUpset s.inst.layout s.inst.chipRegs s.board.writes (s.board.held 0) x c
        s.board.upsets[c] := by
  rw [State.memWrite_board]
  refine ⟨?_, ?_⟩ <;>
  · unfold Board.write
    simp only [if_true]
    exact (tabulate_getElem _ c).trans (if_pos (decide_eq_true h))

/-- What a word-0 write leaves of a chip position the board does not have: everything. -/
theorem boardWrite_absent (I : Instance) (x : Word) (b : Board) (c : ChipId)
    (h : I.nchips ≤ c.val) :
    (b.write I 0 x).receivers[c] = b.receivers[c] ∧
    (b.write I 0 x).sentRegs[c] = b.sentRegs[c] ∧
    (b.write I 0 x).upsets[c] = b.upsets[c] := by
  unfold Board.write
  simp only [if_true, tabulate_getElem, chipPresent, Nat.not_lt.mpr h, decide_false,
    Bool.false_eq_true, if_false, and_self]

/-- A receiver of a chip that is selected, or that has counted nothing, is its own current one
(rule R81). -/
theorem Receiver.current_eq {L : Layout} {old : Word} {c : ChipId} {r : Receiver}
    (h : chipSelected L old c = true ∨ r.count = 0) : r.current L old c = r := by
  unfold Receiver.current
  split
  · rfl
  · rename_i hs
    rw [← h.resolve_left hs]

/-- A write that raises the clock of a selected chip: one more bit (rule R81). -/
theorem Receiver.step_of_rise (L : Layout) (old new : Word) (c : ChipId) (r : Receiver)
    (hq : r.current L old c = r) (hs : chipSelected L new c = true)
    (hr : rises L.sclkBit old new = true) : r.step L old new c = r.shiftIn L new := by
  rw [Receiver.step, if_pos hs, if_pos hr, hq]

/-- A write that leaves the clock of a selected chip does nothing to it (rule R81). -/
theorem Receiver.of_no_rise (L : Layout) (R : ChipRegs) (n : Nat) (old new : Word) (c : ChipId)
    (r : Receiver) (regs : Vector Half 256) (u : Option Upset) (hq : r.current L old c = r)
    (hs : chipSelected L new c = true) (hr : rises L.sclkBit old new = false) :
    r.step L old new c = r ∧ r.stepRegs L n old new c regs = regs ∧
      r.stepUpset L R n old new c u = u := by
  have hc : r.completes L old new c = none := by simp [Receiver.completes, hr]
  have hm : r.malformed L old new c = false := by
    rw [Receiver.malformed, if_pos hs, hr, Bool.false_and]
  refine ⟨by simp [Receiver.step, hs, hr, hq], ?_, ?_⟩
  · rw [Receiver.stepRegs, hm, hc]
    rfl
  · rw [Receiver.stepUpset, hm, hc]
    rfl

/-- A write that leaves a chip de-selected, or de-selects it: its counter is 0 again, and its registers
are as before, or, when it ends a malformed selection, all unspecified (rule R81, I12). -/
theorem Receiver.of_deselect (L : Layout) (R : ChipRegs) (n : Nat) (old new : Word) (c : ChipId)
    (r : Receiver) (regs : Vector Half 256) (u : Option Upset)
    (hs : chipSelected L new c = false) :
    (r.step L old new c).count = 0 ∧
      r.stepRegs L n old new c regs =
        (if r.endsMalformed L old c then Config.freeChipRegs n c else regs) ∧
      r.stepUpset L R n old new c u = if r.endsMalformed L old c then none else u := by
  have hn : r.completes L old new c = none := by simp [Receiver.completes, hs]
  have hm : r.malformed L old new c = r.endsMalformed L old c := by
    rw [Receiver.malformed, hs, if_neg Bool.false_ne_true]
  refine ⟨by simp [Receiver.step, hs], ?_, ?_⟩
  · rw [Receiver.stepRegs, hm, hn]
  · rw [Receiver.stepUpset, hm, hn]

/-- A chip that is not selected is in no malformed selection. -/
theorem Receiver.endsMalformed_of_deselected {L : Layout} {old : Word} {c : ChipId} {r : Receiver}
    (h : chipSelected L old c = false) : r.endsMalformed L old c = false := by
  rw [Receiver.endsMalformed, h, Bool.false_and]

/-- A selection of 24 bits is well formed. -/
theorem Receiver.endsMalformed_of_full {L : Layout} {old : Word} {c : ChipId} {r : Receiver}
    (h : r.count = 24) : r.endsMalformed L old c = false := by
  rw [Receiver.endsMalformed, decide_eq_false (not_not_intro h), Bool.and_false]

/-- A write that clocks a bit of a selection before its 24th: it stores nothing (rule R81). -/
theorem Receiver.of_early_bit (L : Layout) (R : ChipRegs) (n k : Nat) (old new : Word) (c : ChipId)
    (r : Receiver) (regs : Vector Half 256) (u : Option Upset) (hq : r.current L old c = r)
    (hs : chipSelected L new c = true) (hk : r.count = k) (h : k + 1 < 24) :
    r.stepRegs L n old new c regs = regs ∧ r.stepUpset L R n old new c u = u := by
  have hn : r.completes L old new c = none := by
    have : (r.shiftIn L new).count ≠ 24 := by
      simp only [Receiver.shiftIn, hk]
      omega
    simp [Receiver.completes, hq, this]
  have hm : r.malformed L old new c = false := by
    rw [Receiver.malformed, if_pos hs, hq, hk, decide_eq_false (by omega), Bool.and_false]
  refine ⟨?_, ?_⟩
  · rw [Receiver.stepRegs, hm, hn]
    rfl
  · rw [Receiver.stepUpset, hm, hn]
    rfl

/-- A write that clocks the 24th bit of a selection stores the register write (rule R81). -/
theorem Receiver.of_last_bit (L : Layout) (R : ChipRegs) (n : Nat) (old new : Word) (c : ChipId)
    (r : Receiver) (regs : Vector Half 256) (u : Option Upset) (hq : r.current L old c = r)
    (hs : chipSelected L new c = true) (hr : rises L.sclkBit old new = true) (hk : r.count = 23) :
    r.stepRegs L n old new c regs =
        regs.set (r.shiftIn L new).regWrite.addr.toNat (r.shiftIn L new).regWrite.value
          (r.shiftIn L new).regWrite.addr.isLt ∧
      r.stepUpset L R n old new c u = upsetAfter R n (r.shiftIn L new).regWrite u := by
  have hn : r.completes L old new c = some (r.shiftIn L new).regWrite := by
    have : (r.shiftIn L new).count = 24 := by simp [Receiver.shiftIn, hk]
    rw [Receiver.completes, hq, hs, hr, this, decide_eq_true rfl]
    rfl
  have hm : r.malformed L old new c = false := by
    rw [Receiver.malformed, if_pos hs, hq, hk]
    simp
  refine ⟨?_, ?_⟩
  · rw [Receiver.stepRegs, hm, hn]
    rfl
  · rw [Receiver.stepUpset, hm, hn]
    rfl

/-- The receiver of a chip in the middle of a transaction of (a, v): it has `n` bits of it, or, when the
mask does not name it, none; it is selected from the first bit on, when the mask names it. `regs` and `u` are what its registers were sent and their upset before
the transaction. -/
structure MidFrame (m : Byte) (a : Byte) (v : Half) (regs : Vector Half 256) (u : Option Upset)
    (c : ChipId) (n : Nat) (t : State) : Prop where
  clock : (t.board.held 0).getLsbD t.inst.layout.sclkBit = true
  level : chipSelected t.inst.layout (t.board.held 0) c = (decide (0 < n) && m.getLsbD c.val)
  count : t.board.receivers[c].count = if m.getLsbD c.val = true then n else 0
  bits : m.getLsbD c.val = true → ∀ i, i < n → i < 24 →
    t.board.receivers[c].shift.getLsbD i = serialBit a v (n - 1 - i)
  kept : n < 24 ∨ m.getLsbD c.val = false →
    t.board.sentRegs[c] = regs ∧ t.board.upsets[c] = u
  stored : n = 24 → m.getLsbD c.val = true →
    t.board.sentRegs[c] = regs.set a.toNat v a.isLt ∧
    ∃ k, t.board.upsets[c] = upsetAfter t.inst.chipRegs k ⟨a, v⟩ u

theorem sendBit_midFrame (I : Instance) (hI : InstanceOk I) (m : Byte) (hm : maskValid I m)
    (a : Byte) (v : Half) (regs : Vector Half 256) (u : Option Upset) (c : ChipId)
    (hc : c.val < I.nchips) (n : Nat) (hn : n < 24) (t : State) (ht : t.inst = I)
    (h : MidFrame m a v regs u c n t) :
    MidFrame m a v regs u c (n + 1) (t.sendBit (csActive I m) a v n) := by
  have h8 := (nchips_le I hI).2
  have hm' := (maskValid_iff I m h8).mp hm
  have hcs : ∀ i, I.nchips ≤ i → (csActive I m).getLsbD i = false := by
    intro i hi
    unfold csActive
    cases I.layout.csPolarity
    · simp [onesMask_getLsbD _ _ h8, Nat.not_lt.mpr hi]
    · exact hm' i hi
  subst ht
  unfold State.sendBit
  generalize ht0 : t.mapWork (fun w => { w with bitCnt := BitVec.ofNat 5 n }) = t0
  have hi0 : t0.inst = t.inst := by rw [← ht0]; rfl
  have hb0 : t0.board = t.board := by rw [← ht0]; rfl
  generalize hlo : frame t.inst.layout false (serialBit a v n) (csActive t.inst m) = lo
  generalize hhi : frame t.inst.layout true (serialBit a v n) (csActive t.inst m) = hi
  have blo := frame_bits t.inst hI false (serialBit a v n) _ hcs
  have bhi := frame_bits t.inst hI true (serialBit a v n) _ hcs
  have slo := frame_selects t.inst hI false (serialBit a v n) m hm c hc
  have shi := frame_selects t.inst hI true (serialBit a v n) m hm c hc
  rw [hlo] at blo slo
  rw [hhi] at bhi shi
  have r1 : (t0.memWrite 0 lo).board.held 0 = lo := memWrite_held_same 0 lo t0
  have r2 : ((t0.memWrite 0 lo).memWrite 0 hi).board.held 0 = hi := memWrite_held_same 0 hi _
  have hc0 : c.val < t0.inst.nchips := by rw [hi0]; exact hc
  have e1 := memWrite_zero_receiver lo t0 c hc0
  obtain ⟨g1, u1⟩ := memWrite_zero_regs lo t0 c hc0
  have e2 := memWrite_zero_receiver hi (t0.memWrite 0 lo) c hc0
  obtain ⟨g2, u2⟩ := memWrite_zero_regs hi (t0.memWrite 0 lo) c hc0
  rw [r1, e1] at e2 g2 u2
  rw [g1] at g2
  rw [u1] at u2
  simp only [State.memWrite_inst, hi0, hb0] at e2 g2 u2
  have hcount := h.count
  have hlevel := h.level
  have hbits := h.bits
  have hregs := h.kept
  generalize t.board.receivers[c] = r at *
  have clock : (((t0.memWrite 0 lo).memWrite 0 hi).board.held 0).getLsbD
      ((t0.memWrite 0 lo).memWrite 0 hi).inst.layout.sclkBit = true := by
    rw [r2, State.memWrite_inst, State.memWrite_inst, hi0]
    exact bhi.1
  have level : chipSelected ((t0.memWrite 0 lo).memWrite 0 hi).inst.layout
      (((t0.memWrite 0 lo).memWrite 0 hi).board.held 0) c =
        (decide (0 < n + 1) && m.getLsbD c.val) := by
    rw [r2, State.memWrite_inst, State.memWrite_inst, hi0, shi, decide_eq_true (Nat.succ_pos n),
      Bool.true_and]
  by_cases hsel : m.getLsbD c.val = true
  · rw [hsel] at slo shi
    rw [if_pos hsel] at hcount
    have up : rises t.inst.layout.sclkBit lo hi = true := by
      simp [rises, blo.1, bhi.1]
    have down : rises t.inst.layout.sclkBit (t.board.held 0) lo = false := by
      simp [rises, blo.1]
    have cur : r.current t.inst.layout (t.board.held 0) c = r := by
      refine Receiver.current_eq ?_
      rcases Nat.eq_zero_or_pos n with h0 | h0
      · exact .inr (hcount.trans h0)
      · exact .inl (by rw [hlevel, hsel, decide_eq_true h0, Bool.true_and])
    have cur2 : r.current t.inst.layout lo c = r := Receiver.current_eq (.inl slo)
    obtain ⟨d1, d2, d3⟩ := Receiver.of_no_rise t.inst.layout t.inst.chipRegs t.board.writes
      (t.board.held 0) lo c r t.board.sentRegs[c] t.board.upsets[c] cur slo down
    rw [d1] at e2 g2 u2
    rw [d2] at g2
    rw [d3] at u2
    rw [Receiver.step_of_rise _ _ _ _ _ cur2 shi up] at e2
    have sh : ∀ i, i < n + 1 → i < 24 →
        (r.shiftIn t.inst.layout hi).shift.getLsbD i = serialBit a v (n + 1 - 1 - i) := by
      intro i hi1 hi2
      simp only [Receiver.shiftIn, bhi.2.1]
      rw [BitVec.getLsbD_or, BitVec.getLsbD_shiftLeft, BitVec.getLsbD_setWidth]
      cases i with
      | zero => simp
      | succ i =>
        have : (BitVec.ofBool (serialBit a v n)).getLsbD (i + 1) = false :=
          BitVec.getLsbD_of_ge _ _ (by omega)
        simp only [this, hi2, decide_true, Bool.true_and, Nat.add_sub_cancel, Bool.and_false,
          Bool.or_false]
        rw [hbits hsel i (by omega) (by omega)]
        have h1 : ¬ i + 1 < 1 := by omega
        have h2 : n - 1 - i = n - (i + 1) := by omega
        simp only [h1, decide_false, Bool.not_false, Bool.true_and, h2]
    refine ⟨clock, level, ?_, ?_, ?_, ?_⟩
    · rw [e2, if_pos hsel]
      simp [Receiver.shiftIn, hcount]
    · intro _ i hi1 hi2
      rw [e2]
      exact sh i hi1 hi2
    · rintro (hlt | hf)
      · obtain ⟨k1, k2⟩ := Receiver.of_early_bit t.inst.layout t.inst.chipRegs
          (t0.memWrite 0 lo).board.writes n lo hi c r t.board.sentRegs[c] t.board.upsets[c]
          cur2 shi hcount hlt
        rw [g2, u2, k1, k2]
        exact hregs (.inl hn)
      · rw [hf] at hsel
        exact absurd hsel (by decide)
    · intro h24 _
      have f1 : (r.shiftIn t.inst.layout hi).regWrite = ⟨a, v⟩ := by
        have fa : (r.shiftIn t.inst.layout hi).shift.extractLsb' 16 8 = a := by
          apply BitVec.eq_of_getLsbD_eq
          intro i hi1
          rw [BitVec.getLsbD_extractLsb', sh (16 + i) (by omega) (by omega)]
          have : n + 1 - 1 - (16 + i) = 7 - i := by omega
          rw [this, serialBit, if_pos (by omega)]
          have : 7 - (7 - i) = i := by omega
          simp [this, hi1]
        have fv : (r.shiftIn t.inst.layout hi).shift.extractLsb' 0 16 = v := by
          apply BitVec.eq_of_getLsbD_eq
          intro i hi1
          rw [BitVec.getLsbD_extractLsb', sh (0 + i) (by omega) (by omega)]
          have : n + 1 - 1 - (0 + i) = 23 - i := by omega
          rw [this, serialBit, if_neg (by omega)]
          have : 23 - (23 - i) = i := by omega
          simp [this, hi1]
        rw [Receiver.regWrite, fa, fv]
      have h23 : r.count = 23 := by omega
      obtain ⟨k1, k2⟩ := Receiver.of_last_bit t.inst.layout t.inst.chipRegs
        (t0.memWrite 0 lo).board.writes lo hi c r t.board.sentRegs[c] t.board.upsets[c]
        cur2 shi up h23
      rw [g2, u2, k1, k2, (hregs (.inl hn)).1, (hregs (.inl hn)).2]
      rw [f1]
      refine ⟨rfl, (t0.memWrite 0 lo).board.writes, ?_⟩
      rw [State.memWrite_inst, State.memWrite_inst, hi0]
  · have hsel' : m.getLsbD c.val = false := by simpa using hsel
    rw [hsel'] at slo shi
    rw [if_neg hsel] at hcount
    have q : r.endsMalformed t.inst.layout (t.board.held 0) c = false :=
      Receiver.endsMalformed_of_deselected (by rw [hlevel, hsel', Bool.and_false])
    obtain ⟨d1, d2, d3⟩ := Receiver.of_deselect t.inst.layout t.inst.chipRegs t.board.writes
      (t.board.held 0) lo c r t.board.sentRegs[c] t.board.upsets[c] slo
    rw [q, if_neg Bool.false_ne_true] at d2 d3
    rw [d2] at g2
    rw [d3] at u2
    have q2 : (r.step t.inst.layout (t.board.held 0) lo c).endsMalformed t.inst.layout lo c = false :=
      Receiver.endsMalformed_of_deselected slo
    obtain ⟨k1, k2, k3⟩ := Receiver.of_deselect t.inst.layout t.inst.chipRegs
      (t0.memWrite 0 lo).board.writes lo hi c (r.step t.inst.layout (t.board.held 0) lo c)
      t.board.sentRegs[c] t.board.upsets[c] shi
    rw [q2, if_neg Bool.false_ne_true] at k2 k3
    rw [k2] at g2
    rw [k3] at u2
    refine ⟨clock, level, ?_, ?_, ?_, ?_⟩
    · rw [e2, if_neg hsel, k1]
    · exact fun h' => absurd h' hsel
    · intro _
      rw [g2, u2]
      exact hregs (.inr hsel')
    · exact fun _ h' => absurd h' hsel

/-- A transaction, seen by one chip: its receiver is at rest after it, and the chip de-selected; when the mask names the chip, it
stored the value, and a reset or a power cycle upset the chip's other registers. The registers it
starts from are the chip's own, or, when the opening idle frame ends a malformed selection, all
unspecified (rules R81, R134, R331, I12). -/
theorem writeRegister_chip (a : Byte) (v : Half) (s : State) (hI : InstanceOk s.inst)
    (hm : maskValid s.inst s.ctl.csMask) (c : ChipId) (hc : c.val < s.inst.nchips) :
    (s.writeRegister a v).board.receivers[c].count = 0 ∧
    chipSelected s.inst.layout ((s.writeRegister a v).board.held 0) c = false ∧
    ∃ regs u, regs = (if s.board.receivers[c].endsMalformed s.inst.layout (s.board.held 0) c then
        Config.freeChipRegs s.board.writes c else s.board.sentRegs[c]) ∧
      u = (if s.board.receivers[c].endsMalformed s.inst.layout (s.board.held 0) c then none
        else s.board.upsets[c]) ∧
      if s.ctl.csMask.getLsbD c.val = true then
        (s.writeRegister a v).board.sentRegs[c] = regs.set a.toNat v a.isLt ∧
        ∃ k, (s.writeRegister a v).board.upsets[c] = upsetAfter s.inst.chipRegs k ⟨a, v⟩ u
      else
        (s.writeRegister a v).board.sentRegs[c] = regs ∧
        (s.writeRegister a v).board.upsets[c] = u := by
  obtain ⟨hik, -, hsel⟩ := idleFrame_bits s.inst hI
  have hidle := hsel c hc
  generalize hs1 : (s.mapWork (fun w => { w with bitCnt := 0 })).memWrite 0 (idleFrame s.inst) = s1
  have hi1 : s1.inst = s.inst := by rw [← hs1]; rfl
  generalize hregs : (if s.board.receivers[c].endsMalformed s.inst.layout (s.board.held 0) c then
    Config.freeChipRegs s.board.writes c else s.board.sentRegs[c]) = regs
  generalize hu : (if s.board.receivers[c].endsMalformed s.inst.layout (s.board.held 0) c then none
    else s.board.upsets[c]) = u0
  have start : MidFrame s.ctl.csMask a v regs u0 c 0 s1 := by
    have e := memWrite_zero_receiver (idleFrame s.inst)
      (s.mapWork (fun w => { w with bitCnt := 0 })) c hc
    obtain ⟨g, u⟩ := memWrite_zero_regs (idleFrame s.inst)
      (s.mapWork (fun w => { w with bitCnt := 0 })) c hc
    rw [hs1] at e g u
    simp only [State.mapWork_inst, State.mapWork_board] at e g u
    obtain ⟨k1, k2, k3⟩ := Receiver.of_deselect s.inst.layout s.inst.chipRegs s.board.writes
      (s.board.held 0) (idleFrame s.inst) c s.board.receivers[c] s.board.sentRegs[c]
      s.board.upsets[c] hidle
    rw [k3, hu] at u
    rw [k2, hregs] at g
    refine ⟨?_, ?_, ?_, ?_, ?_, ?_⟩
    · rw [← hs1, memWrite_held_same, State.memWrite_inst, State.mapWork_inst]
      exact hik
    · rw [← hs1, memWrite_held_same, State.memWrite_inst, State.mapWork_inst]
      exact hidle
    · rw [e, k1]
      split <;> rfl
    · exact fun _ i hi => absurd hi (by omega)
    · exact fun _ => ⟨g, u⟩
    · exact fun h => absurd h (by decide)
  have loop : ∀ n, n ≤ 24 → MidFrame s.ctl.csMask a v regs u0 c n
      ((List.range n).foldl (State.sendBit (csActive s.inst s.ctl.csMask) a v) s1) := by
    intro n
    induction n with
    | zero =>
      intro _
      rw [List.range_zero, List.foldl_nil]
      exact start
    | succ n ih =>
      intro hn
      rw [List.range_succ, List.foldl_append, List.foldl_cons, List.foldl_nil]
      refine sendBit_midFrame s.inst hI _ hm a v _ _ c hc n (by omega) _ ?_ (ih (by omega))
      rw [(OnlyBus.foldl _ (fun s j => sendBit_onlyBus _ a v s j) _ _).inst, hi1]
  have last := loop 24 (by decide)
  unfold State.writeRegister
  simp only []
  rw [hs1]
  generalize hs2 : (List.range 24).foldl
    (State.sendBit (csActive s.inst s.ctl.csMask) a v) s1 = s2 at last ⊢
  have hi2 : s2.inst = s.inst := by
    rw [← hs2, (OnlyBus.foldl _ (fun s j => sendBit_onlyBus _ a v s j) _ _).inst, hi1]
  have hc2 : c.val < (s2.mapWork (fun w => { w with bitCnt := 24 })).inst.nchips := by
    rw [State.mapWork_inst, hi2]
    exact hc
  have e := memWrite_zero_receiver (idleFrame s.inst)
    (s2.mapWork (fun w => { w with bitCnt := 24 })) c hc2
  obtain ⟨g, u⟩ := memWrite_zero_regs (idleFrame s.inst)
    (s2.mapWork (fun w => { w with bitCnt := 24 })) c hc2
  simp only [State.mapWork_inst, State.mapWork_board, hi2] at e g u
  have q : s2.board.receivers[c].endsMalformed s.inst.layout (s2.board.held 0) c = false := by
    by_cases hb : s.ctl.csMask.getLsbD c.val = true
    · exact Receiver.endsMalformed_of_full (by rw [last.count, if_pos hb])
    · refine Receiver.endsMalformed_of_deselected ?_
      rw [← hi2, last.level, Bool.eq_false_iff.mpr hb, Bool.and_false]
  obtain ⟨k1, k2, k3⟩ := Receiver.of_deselect s.inst.layout s.inst.chipRegs s2.board.writes
    (s2.board.held 0) (idleFrame s.inst) c s2.board.receivers[c] s2.board.sentRegs[c]
    s2.board.upsets[c] hidle
  rw [q, if_neg Bool.false_ne_true] at k2 k3
  rw [k3] at u
  rw [k2] at g
  refine ⟨by rw [e, k1], by rw [memWrite_held_same]; exact hidle, regs, u0, rfl, rfl, ?_⟩
  rw [g, u]
  by_cases hb : s.ctl.csMask.getLsbD c.val = true
  · rw [if_pos hb, ← hi2]
    exact last.stored rfl hb
  · rw [if_neg hb]
    exact last.kept (.inr (by simpa using hb))

/-- A chip position the board does not have is not touched by a transaction. -/
theorem writeRegister_absent (a : Byte) (v : Half) (s : State) (c : ChipId)
    (h : s.inst.nchips ≤ c.val) :
    (s.writeRegister a v).board.receivers[c] = s.board.receivers[c] ∧
    (s.writeRegister a v).board.sentRegs[c] = s.board.sentRegs[c] ∧
    (s.writeRegister a v).board.upsets[c] = s.board.upsets[c] := by
  refine writeRegister_board (fun b => b.receivers[c] = s.board.receivers[c] ∧
    b.sentRegs[c] = s.board.sentRegs[c] ∧ b.upsets[c] = s.board.upsets[c]) a v s ?_ ⟨rfl, rfl, rfl⟩
  rintro b x ⟨h1, h2, h3⟩
  obtain ⟨k1, k2, k3⟩ := boardWrite_absent s.inst x b c h
  exact ⟨k1.trans h1, k2.trans h2, k3.trans h3⟩

/-! ## What a chip's registers hold -/

/-- A register that was just stored holds its value, whatever else the write did to the chip
(rules R81, R331). -/
theorem chipReg_stored {b : Board} {c : ChipId} {a : Byte} {v : Half} {R : ChipRegs} {k : Nat}
    {regs : Vector Half 256} {u : Option Upset} (hr : b.sentRegs[c] = regs.set a.toNat v a.isLt)
    (hu : b.upsets[c] = upsetAfter R k ⟨a, v⟩ u) : b.chipReg c a = v := by
  have e : b.sentRegs[c][a.toNat]'a.isLt = v := by
    simp only [hr, Vector.getElem_set_self]
  unfold Board.chipReg
  rw [hu, upsetAfter]
  split
  · exact e
  · rename_i w hw
    have : a ∈ w.stored := by
      split at hw
      · cases hw
        exact List.mem_singleton.mpr rfl
      · cases u with
        | none => cases hw
        | some u =>
          cases hw
          exact List.mem_insert_self
    rw [if_pos this]
    exact e

end Sys2Proof.Machine
end

