-- ==== Sys2Proof/Laws/Run.lean ====
section
/-! SUPPORT. Parts of commands that can abort: what a property of states must be kept by for a whole
part to keep it, and what the ends of a command write (rules R280, R289, R290). -/

namespace Sys2Proof.Machine

/-! ## Runs -/

/-- The state a run is in, gone on or aborted. -/
def Run.state : Run → State
  | .done s => s
  | .abort _ _ s => s

@[simp] theorem Run.state_done (s : State) : (Run.done s).state = s := rfl

@[simp] theorem Run.state_abort (e : ErrCode) (i : Word) (s : State) :
    (Run.abort e i s).state = s := rfl

@[simp] theorem Run.done_andThen (s : State) (k : State → Run) : (Run.done s).andThen k = k s := rfl

@[simp] theorem Run.abort_andThen (e : ErrCode) (i : Word) (s : State) (k : State → Run) :
    (Run.abort e i s).andThen k = .abort e i s := rfl

/-- A sequence goes on when both parts do. -/
theorem Run.andThen_eq_done {r : Run} {k : State → Run} {t : State} :
    r.andThen k = .done t ↔ ∃ s, r = .done s ∧ k s = .done t := by
  cases r <;> simp [Run.andThen]

/-- A sequence aborts when its first part does, or its second. -/
theorem Run.andThen_eq_abort {r : Run} {k : State → Run} {e : ErrCode} {i : Word} {t : State} :
    r.andThen k = .abort e i t ↔ r = .abort e i t ∨ ∃ s, r = .done s ∧ k s = .abort e i t := by
  cases r <;> simp [Run.andThen]

/-- A property of the state of a run, whether it has gone on or aborted. -/
theorem Run.andThen_state (P : State → Prop) (r : Run) (k : State → Run) (hr : P r.state)
    (hk : ∀ s, r = .done s → P s → P (k s).state) : P (r.andThen k).state := by
  cases r with
  | done s => exact hk s rfl hr
  | abort e i s => exact hr

/-! ## The ends of a command -/

@[simp] theorem endCommand_fsm (s : State) : s.endCommand.fsm = .idle := rfl

@[simp] theorem endCommand_inst (s : State) : s.endCommand.inst = s.inst := rfl

@[simp] theorem endCommand_ctl (s : State) : s.endCommand.ctl = s.ctl := rfl

@[simp] theorem endCommand_status (s : State) : s.endCommand.status = s.status := rfl

@[simp] theorem endCommand_tables (s : State) : s.endCommand.tables = s.tables := rfl

@[simp] theorem endCommand_response (s : State) : s.endCommand.response = s.response := rfl

@[simp] theorem endCommand_port (s : State) : s.endCommand.port = s.port := rfl

@[simp] theorem endCommand_trace (s : State) : s.endCommand.trace = s.trace := rfl

@[simp] theorem endCommand_board (s : State) : s.endCommand.board = s.board := rfl

@[simp] theorem endCommand_programmed (s : State) :
    s.endCommand.env.programmed = s.env.programmed := rfl

@[simp] theorem endCommand_word0 (s : State) : s.endCommand.env.word0 = s.env.word0 := rfl

@[simp] theorem endCommand_captures (s : State) : s.endCommand.env.captures = s.env.captures := rfl

/-- All that an abort writes: LAST_ERR, ERR_INFO, the response, the phase, the working registers and
the count of draws (rules R289, R290). -/
theorem raise_eq (e : ErrCode) (i : Word) (s : State) :
    s.raise e i = { s with
      fsm := .idle
      work := Work.free s.env.draws
      status := { s.status with lastErr := e, errInfo := i }
      response := some { code := e, info := i, data := .none }
      env := { s.env with draws := s.env.draws + 1 } } := rfl

/-- All that a completion writes (rules R38, R289). -/
theorem complete_eq (d : ResponseData) (s : State) :
    s.complete d = { s with
      fsm := .idle
      work := Work.free s.env.draws
      status := { s.status with lastErr := .ok, errInfo := 0 }
      response := some { code := .ok, info := 0, data := d }
      env := { s.env with draws := s.env.draws + 1 } } := rfl

@[simp] theorem raise_events (e : ErrCode) (i : Word) (s : State) :
    (s.raise e i).events = s.events := rfl

@[simp] theorem complete_events (d : ResponseData) (s : State) :
    (s.complete d).events = s.events := rfl

/-- A command that is a run ends in its state, completed or aborted. -/
theorem finish_cases (r : Run) (d : State → ResponseData) :
    (∃ s, r = .done s ∧ r.finish d = s.complete (d s)) ∨
    (∃ e i s, r = .abort e i s ∧ r.finish d = s.raise e i) := by
  cases r with
  | done s => exact .inl ⟨s, rfl, rfl⟩
  | abort e i s => exact .inr ⟨e, i, s, rfl, rfl⟩

/-! ## Captures -/

@[simp] theorem takeCapture_inst (c : ChipId) (n : Nat) (s : State) :
    (s.takeCapture c n).inst = s.inst := rfl

@[simp] theorem takeCapture_fsm (c : ChipId) (n : Nat) (s : State) :
    (s.takeCapture c n).fsm = s.fsm := rfl

@[simp] theorem takeCapture_work (c : ChipId) (n : Nat) (s : State) :
    (s.takeCapture c n).work = s.work := rfl

@[simp] theorem takeCapture_ctl (c : ChipId) (n : Nat) (s : State) :
    (s.takeCapture c n).ctl = s.ctl := rfl

@[simp] theorem takeCapture_status (c : ChipId) (n : Nat) (s : State) :
    (s.takeCapture c n).status = s.status := rfl

@[simp] theorem takeCapture_tables (c : ChipId) (n : Nat) (s : State) :
    (s.takeCapture c n).tables = s.tables := rfl

@[simp] theorem takeCapture_response (c : ChipId) (n : Nat) (s : State) :
    (s.takeCapture c n).response = s.response := rfl

@[simp] theorem takeCapture_port (c : ChipId) (n : Nat) (s : State) :
    (s.takeCapture c n).port = s.port := rfl

@[simp] theorem takeCapture_board (c : ChipId) (n : Nat) (s : State) :
    (s.takeCapture c n).board = s.board := rfl

@[simp] theorem takeCapture_captures (c : ChipId) (n : Nat) (s : State) :
    (s.takeCapture c n).env.captures = s.env.captures.tail := rfl

@[simp] theorem takeCapture_programmed (c : ChipId) (n : Nat) (s : State) :
    (s.takeCapture c n).env.programmed = s.env.programmed := rfl

@[simp] theorem takeCapture_word0 (c : ChipId) (n : Nat) (s : State) :
    (s.takeCapture c n).env.word0 = s.env.word0 := rfl

@[simp] theorem takeCapture_events (c : ChipId) (n : Nat) (s : State) :
    (s.takeCapture c n).events = s.events ++ [Event.capture c n] := by
  simp [State.takeCapture]

/-- All a capture in a command can do: abort with CAPTURE_FAILED in the state after the event, or go on
with the samples in that state (rules R190, R195). -/
theorem captureOrAbort_cases (c : ChipId) (n : Nat) (s : State) (k : Samples → State → Run) :
    (s.nextCapture c n = .fail ∧
      captureOrAbort c n s k = .abort .captureFailed (captureInfo c s.fsm s.work) (s.takeCapture c n)) ∨
    (∃ S, s.nextCapture c n = .ok S ∧ captureOrAbort c n s k = k S (s.takeCapture c n)) := by
  unfold captureOrAbort
  cases h : s.nextCapture c n with
  | fail => exact .inl ⟨rfl, rfl⟩
  | ok S => exact .inr ⟨S, rfl, rfl⟩

/-! ## Properties kept by every part -/

/-- `P` is kept by the operations that the calibration and synchronization loops of chip `c` are made
of, the result tables aside. -/
structure Kept (c : ChipId) (P : State → Prop) : Prop where
  setFsm : ∀ f s, P s → P (s.setFsm f)
  mapWork : ∀ f s, P s → P (s.mapWork f)
  setDelayTap : ∀ t lm s, P s → P (s.setDelayTap c t lm)
  bitslipPulse : ∀ s, P s → P (s.bitslipPulse c)
  takeCapture : ∀ n s, P s → P (s.takeCapture c n)

theorem captureOrAbort_state (c : ChipId) (n : Nat) (s : State) (k : Samples → State → Run)
    (P : State → Prop) (h : P (s.takeCapture c n)) (hk : ∀ S, P (k S (s.takeCapture c n)).state) :
    P (captureOrAbort c n s k).state := by
  rcases captureOrAbort_cases c n s k with ⟨-, e⟩ | ⟨S, -, e⟩
  · rw [e]
    exact h
  · rw [e]
    exact hk S

theorem countErrors_state {c : ChipId} {P : State → Prop} (h : Kept c P) (x : Byte) (s : State)
    (hs : P s) : P (countErrors c x s).state := by
  have loop : ∀ k s, P s → P (countLoop c x k s).state := by
    intro k
    induction k with
    | zero => exact fun s hs => hs
    | succ k ih =>
      intro s hs
      unfold countLoop
      refine captureOrAbort_state c _ _ _ P (h.takeCapture _ _ (h.mapWork _ _ hs)) ?_
      intro S
      exact ih _ (h.mapWork _ _ (h.takeCapture _ _ (h.mapWork _ _ hs)))
  unfold countErrors
  exact loop _ _ (h.mapWork _ _ hs)

theorem probeTap_state {c : ChipId} {P : State → Prop} (h : Kept c P) (t : Nat) (s : State)
    (hs : P s) : P (probeTap c t s).state := by
  unfold probeTap
  exact countErrors_state h _ _ (h.setDelayTap _ _ _ (h.mapWork _ _ hs))

theorem probeExtremes_state {c : ChipId} {P : State → Prop} (h : Kept c P) (s : State) (hs : P s) :
    P (probeExtremes c s).state := by
  unfold probeExtremes
  refine Run.andThen_state P _ _ (probeTap_state h _ _ hs) ?_
  intro s0 _ h0
  refine Run.andThen_state P _ _ (probeTap_state h _ _ (h.mapWork _ _ h0)) ?_
  intro s31 _ h31
  rw [Run.state_done]
  exact h.mapWork _ _ h31

/-- `P` is kept by the updates of the result tables before the decision of a TAP_CAL on chip `c`. -/
structure KeptTables (c : ChipId) (P : State → Prop) : Prop extends Kept c P where
  heurSlip : ∀ s, P s →
    P (s.mapTables (fun T => { T with heurSlip := writeMaskBit T.heurSlip c true }))
  recordTap : ∀ t acc s, P s → P (s.mapTables (Tables.recordTap c t acc))

theorem sweep_state {c : ChipId} {P : State → Prop} (h : KeptTables c P) (s : State) (hs : P s) :
    P (sweep c s).state := by
  have loop : ∀ ts s, P s → P (sweepTaps c ts s).state := by
    intro ts
    induction ts with
    | nil => exact fun s hs => hs
    | cons t ts ih =>
      intro s hs
      unfold sweepTaps
      refine Run.andThen_state P _ _ (probeTap_state h.toKept _ _ hs) ?_
      intro s' _ hs'
      exact ih _ (h.recordTap _ _ _ hs')
  unfold sweep
  refine Run.andThen_state P _ _ (loop _ _ hs) ?_
  intro s' _ hs'
  rw [Run.state_done]
  exact h.mapWork _ _ hs'

theorem heuristic_keeps {c : ChipId} {P : State → Prop} (h : KeptTables c P) (s : State) (hs : P s) :
    P (s.heuristic c) := by
  unfold State.heuristic
  split
  · exact h.heurSlip _ (h.bitslipPulse _ (h.setFsm _ _ hs))
  · exact hs

theorem applyTaps_keeps {c : ChipId} {P : State → Prop} (h : Kept c P) (R : Lanes CalResult)
    (s : State) (hs : P s) : P (s.applyTaps c R) := by
  have one : ∀ s li, P s → P (s.applyLane c R li) := by
    intro s li hs
    unfold State.applyLane
    simp only []
    split
    · exact h.setDelayTap _ _ _ (h.mapWork _ _ hs)
    · exact h.mapWork _ _ hs
    · exact h.mapWork _ _ hs
    · exact h.mapWork _ _ hs
  have loop : ∀ (l : List LaneId) s, P s → P (l.foldl (State.applyLane c R) s) := by
    intro l
    induction l with
    | nil => exact fun s hs => hs
    | cons li l ih => exact fun s hs => ih _ (one _ _ hs)
  unfold State.applyTaps
  exact h.mapWork _ _ (loop _ _ hs)

/-- Steps 4 and 5: a property kept by the latches holds at their end when it holds after the write of
CAL_RESULT (rules R222, R223). -/
theorem decideAndApply_keeps {c : ChipId} {P : State → Prop} (h : Kept c P) (s : State)
    (hs : P ((s.setFsm .calDecide).mapTables
      (fun T => { T with calResult := T.calResult.set c (decideLanes c s) }))) :
    P (s.decideAndApply c) := by
  unfold State.decideAndApply
  exact h.setFsm _ _ (applyTaps_keeps h _ _ (h.setFsm _ _ hs))

/-- The two ends of a TAP_CAL, for a property that holds once its tables are reset and that its operations
and its pattern selection keep: it aborts in a state with the property, or it makes its decision
in one (rule R210). -/
theorem tapCalBody_run {c : ChipId} {P : State → Prop} (h : KeptTables c P)
    (hp : ∀ s, P s → P (s.selectPattern .deskew)) (s : State)
    (hs : P ((s.mapWork (fun w => { w with curChip := chipBits c })).mapTables
      (Tables.tapCalStart c))) :
    (∃ q, P q ∧ tapCalBody c s = .done (q.decideAndApply c)) ∨
    (∃ e i t, P t ∧ tapCalBody c s = .abort e i t) := by
  unfold tapCalBody
  have h1 := probeExtremes_state h.toKept _
    (h.setFsm .calProbe _ (hp _ (h.setFsm .calPattern _ hs)))
  simp only []
  generalize probeExtremes c _ = r1 at h1
  cases r1 with
  | abort e i t => exact .inr ⟨e, i, t, h1, rfl⟩
  | done p =>
    have h2 := sweep_state h _ (h.setFsm .calSweep _ (heuristic_keeps h _ h1))
    simp only [Run.state_done, Run.done_andThen] at h2 ⊢
    generalize sweep c _ = r2 at h2
    cases r2 with
    | abort e i t => exact .inr ⟨e, i, t, h2, rfl⟩
    | done q => exact .inl ⟨q, h2, rfl⟩

/-- A property kept by every operation of a TAP_CAL, table updates included, is kept by the whole of it,
completed or aborted (rule R210). -/
theorem tapCalBody_state {c : ChipId} {P : State → Prop} (h : KeptTables c P)
    (hstart : ∀ s, P s → P (s.mapTables (Tables.tapCalStart c)))
    (hresult : ∀ R s, P s →
      P (s.mapTables (fun T => { T with calResult := T.calResult.set c R })))
    (hp : ∀ s, P s → P (s.selectPattern .deskew)) (s : State) (hs : P s) :
    P (tapCalBody c s).state := by
  rcases tapCalBody_run h hp s (hstart _ (h.mapWork _ _ hs)) with ⟨q, hq, e⟩ | ⟨e, i, t, ht, e'⟩
  · rw [e, Run.state_done]
    exact decideAndApply_keeps h.toKept _ (hresult _ _ (h.setFsm _ _ hq))
  · rw [e']
    exact ht

/-- A property kept by the operations of the synchronization of chip `c` is kept by the whole of it
(rule R240). -/
theorem syncChip_state {c : ChipId} {P : State → Prop} (h : Kept c P)
    (hv : ∀ v s, P s → P (s.setSyncStatus c v)) (s : State) (hs : P s) :
    P (syncChip c s).state := by
  have recheck : ∀ s, P s → P (syncRecheck c s).state := by
    intro s hs
    unfold syncRecheck
    have h1 := h.takeCapture 1 _ (h.mapWork (fun w =>
      { w with retry := BitVec.ofNat 5 s.inst.syncRetries }) _ (h.setFsm .syncRecheck _ hs))
    exact captureOrAbort_state c _ _ _ P h1 (fun S => hv _ _ h1)
  have rounds : ∀ k s, P s → P (syncRounds c k s).state := by
    intro k
    induction k with
    | zero => exact recheck
    | succ k ih =>
      intro s hs
      unfold syncRounds
      have h1 := h.takeCapture 1 _ (h.mapWork (fun w =>
        { w with retry := BitVec.ofNat 5 (s.inst.syncRetries - (k + 1)) }) _
          (h.setFsm .syncRound _ hs))
      refine captureOrAbort_state c _ _ _ P h1 ?_
      intro S
      split
      · exact hv _ _ h1
      · exact ih _ (h.bitslipPulse _ h1)
  unfold syncChip
  exact rounds _ _ (h.mapWork _ _ hs)

/-- A property kept by the synchronization of each chip of a list is kept by that of the list
(rules R243, R247). -/
theorem syncEach_state {P : State → Prop} (cs : List ChipId)
    (h : ∀ c ∈ cs, ∀ s, P s → P (syncChip c s).state) (s : State) (hs : P s) :
    P (syncEach cs s).state := by
  induction cs generalizing s with
  | nil => exact hs
  | cons c cs ih =>
    unfold syncEach
    refine Run.andThen_state P _ _ (h c (List.mem_cons_self ..) _ hs) ?_
    intro s' _ hs'
    exact ih (fun d hd => h d (List.mem_cons_of_mem _ hd)) _ hs'

/-- A property kept by the calibration of each chip of a list is kept by that of the list
(rule R254). -/
theorem tapCalEach_state {P : State → Prop} (cs : List ChipId)
    (h : ∀ c ∈ cs, ∀ s, P s → P (tapCalBody c s).state) (s : State) (hs : P s) :
    P (tapCalEach cs s).state := by
  induction cs generalizing s with
  | nil => exact hs
  | cons c cs ih =>
    unfold tapCalEach
    refine Run.andThen_state P _ _ (h c (List.mem_cons_self ..) _ hs) ?_
    intro s' _ hs'
    exact ih (fun d hd => h d (List.mem_cons_of_mem _ hd)) _ hs'

end Sys2Proof.Machine
end

