-- ==== Sys2Proof/Laws/Captures.lean ====
section
/-! SUPPORT. What captures and error counts do, exactly (rules R190 to R196). -/

namespace Sys2Proof.Machine

/-! ## One capture -/

/-- Every channel of a full capture has the requested length (rule R190). -/
theorem fullSamples_length (d : Nat) (raw : Samples) (n : Nat) (ch : Fin 4) :
    ((fullSamples d raw n)[ch]).length = n := by
  fin_cases ch <;> simp [fullSamples, fullChannel]

/-- A scripted channel of the requested length is given as it stands. -/
theorem fullChannel_eq (d ch : Nat) (raw : List Byte) : fullChannel d ch raw raw.length = raw := by
  apply List.ext_getElem
  · simp [fullChannel]
  · intro i h1 h2
    simp [fullChannel, h2]

theorem fullSamples_eq (d : Nat) (raw : Samples) (n : Nat) (h : ∀ ch : Fin 4, (raw[ch]).length = n) :
    fullSamples d raw n = raw := by
  have h0 := fullChannel_eq d 0 raw[0]
  have h1 := fullChannel_eq d 1 raw[1]
  have h2 := fullChannel_eq d 2 raw[2]
  have h3 := fullChannel_eq d 3 raw[3]
  rw [show (raw[0]).length = n from h 0] at h0
  rw [show (raw[1]).length = n from h 1] at h1
  rw [show (raw[2]).length = n from h 2] at h2
  rw [show (raw[3]).length = n from h 3] at h3
  unfold fullSamples
  rw [h0, h1, h2, h3]
  apply Vector.ext
  intro i hi
  have : i = 0 ∨ i = 1 ∨ i = 2 ∨ i = 3 := by omega
  rcases this with rfl | rfl | rfl | rfl <;> rfl

theorem nextCapture_ok (c : ChipId) (n : Nat) (s : State) (raw : Samples)
    (rest : List CaptureAnswer) (h : s.env.captures = .ok raw :: rest) :
    s.nextCapture c n = .ok (fullSamples s.env.draws raw n) := by
  simp [State.nextCapture, h]

theorem nextCapture_length (c : ChipId) (n : Nat) (s : State) (S : Samples)
    (h : s.nextCapture c n = .ok S) (ch : Fin 4) : (S[ch]).length = n := by
  unfold State.nextCapture at h
  split at h
  · cases h
  · cases h
    exact fullSamples_length _ _ _ _
  · split at h
    · cases h
    · cases h
      exact fullSamples_length _ _ _ _

/-! ## Error counts -/

/-- Between `s` and `t` exactly `n` captures of chip `c` were taken, of `len` samples each; nothing but
the trace, the environment and the working registers ACC and ITERCNT changed. -/
structure OnlyCaptures (c : ChipId) (len n : Nat) (s t : State) : Prop where
  inst : t.inst = s.inst
  fsm : t.fsm = s.fsm
  ctl : t.ctl = s.ctl
  status : t.status = s.status
  tables : t.tables = s.tables
  response : t.response = s.response
  port : t.port = s.port
  board : t.board = s.board
  programmed : t.env.programmed = s.env.programmed
  word0 : t.env.word0 = s.env.word0
  captures : t.env.captures = s.env.captures.drop n
  events : t.events = s.events ++ List.replicate n (Event.capture c len)
  work : { t.work with acc := s.work.acc, iterCnt := s.work.iterCnt } = s.work

theorem OnlyCaptures.mapWork (c : ChipId) (len : Nat) (f : Work → Work) (s : State)
    (h : { f s.work with acc := s.work.acc, iterCnt := s.work.iterCnt } = s.work) :
    OnlyCaptures c len 0 s (s.mapWork f) := by
  constructor <;> first | rfl | exact h | simp

theorem OnlyCaptures.take (c : ChipId) (len : Nat) (s : State) :
    OnlyCaptures c len 1 s (s.takeCapture c len) := by
  constructor <;> first | rfl | simp

theorem OnlyCaptures.trans {c : ChipId} {len m n : Nat} {s t u : State}
    (h : OnlyCaptures c len m s t) (k : OnlyCaptures c len n t u) :
    OnlyCaptures c len (m + n) s u := by
  constructor
  · rw [k.inst, h.inst]
  · rw [k.fsm, h.fsm]
  · rw [k.ctl, h.ctl]
  · rw [k.status, h.status]
  · rw [k.tables, h.tables]
  · rw [k.response, h.response]
  · rw [k.port, h.port]
  · rw [k.board, h.board]
  · rw [k.programmed, h.programmed]
  · rw [k.word0, h.word0]
  · rw [k.captures, h.captures, List.drop_drop]
  · rw [k.events, h.events, List.append_assoc, List.replicate_append_replicate]
  · have a := h.work
    have b := k.work
    rw [← a, ← b]

/-- The sum of the mismatches of lane `li` over a list of captures (rule R195). -/
def mismatches (Ss : List Samples) (x : Byte) (li : LaneId) : Nat :=
  (Ss.map (fun S => laneErrors S x li)).sum

/-- All an error count can do: it aborts at a failed capture, after the captures before it, or it goes on
after CFG_ITER captures with the sum of their mismatches in ACC (rule R195). -/
theorem countLoop_cases (c : ChipId) (x : Byte) (k : Nat) (s : State) :
    (∃ n t, n < k ∧ countLoop c x k s = .abort .captureFailed (captureInfo c s.fsm s.work) t ∧
      OnlyCaptures c s.ctl.cfgSnapLen.toNat (n + 1) s t) ∨
    (∃ t Ss, countLoop c x k s = .done t ∧ OnlyCaptures c s.ctl.cfgSnapLen.toNat k s t ∧
      Ss.length = k ∧ (∀ S ∈ Ss, ∀ ch : Fin 4, (S[ch]).length = s.ctl.cfgSnapLen.toNat) ∧
      (∀ raw rest, s.env.captures = raw.map CaptureAnswer.ok ++ rest → raw.length = k →
        (∀ S ∈ raw, ∀ ch : Fin 4, (S[ch]).length = s.ctl.cfgSnapLen.toNat) → Ss = raw) ∧
      ∀ li : LaneId, t.work.acc[li] = s.work.acc[li] + BitVec.ofNat 32 (mismatches Ss x li)) := by
  induction k generalizing s with
  | zero =>
    refine .inr ⟨s, [], rfl, ?_, rfl, by simp, ?_, ?_⟩
    · constructor <;> first | rfl | simp
    · intro raw rest _ hl _
      exact (List.length_eq_zero_iff.mp hl).symm
    · intro li
      simp [mismatches]
  | succ k ih =>
    unfold countLoop
    have e0 : OnlyCaptures c s.ctl.cfgSnapLen.toNat 0 s
        (s.mapWork (fun w => { w with iterCnt := w.iterCnt + 1 })) :=
      OnlyCaptures.mapWork _ _ _ _ rfl
    generalize hs1 : s.mapWork (fun w => { w with iterCnt := w.iterCnt + 1 }) = s1 at e0
    have info : captureInfo c s1.fsm s1.work = captureInfo c s.fsm s.work := by rw [← hs1]; rfl
    have acc1 : s1.work.acc = s.work.acc := by rw [← hs1]; rfl
    have dr1 : s1.env = s.env := by rw [← hs1]; rfl
    have e1 := e0.trans (OnlyCaptures.take c s.ctl.cfgSnapLen.toNat s1)
    rcases captureOrAbort_cases c s.ctl.cfgSnapLen.toNat s1
      (fun S s' => countLoop c x k (s'.mapWork (fun w => { w with acc := addErrors S x w.acc })))
      with ⟨-, e⟩ | ⟨S, hS, e⟩
    · refine .inl ⟨0, s1.takeCapture c s.ctl.cfgSnapLen.toNat, by omega, ?_, e1⟩
      rw [e, info]
    · have e2 := e1.trans (OnlyCaptures.mapWork c s.ctl.cfgSnapLen.toNat
        (fun w => { w with acc := addErrors S x w.acc }) _ rfl)
      generalize hs2 : (s1.takeCapture c s.ctl.cfgSnapLen.toNat).mapWork
        (fun w => { w with acc := addErrors S x w.acc }) = s2 at e2
      have ctl2 : s2.ctl = s.ctl := e2.ctl
      have acc2 : s2.work.acc = addErrors S x s.work.acc := by rw [← hs2, ← acc1]; rfl
      have info2 : captureInfo c s2.fsm s2.work = captureInfo c s.fsm s.work := by
        rw [← info, ← hs2]; rfl
      have cap2 : s2.env.captures = s.env.captures.tail := by rw [← hs2, ← dr1]; rfl
      have e' : captureOrAbort c s.ctl.cfgSnapLen.toNat s1 (fun S s' => countLoop c x k
          (s'.mapWork (fun w => { w with acc := addErrors S x w.acc }))) = countLoop c x k s2 := by
        rw [e, hs2]
      rw [e']
      rcases ih s2 with ⟨n, t, hn, hr, ho⟩ | ⟨t, Ss, hr, ho, hl, hlen, hraw, hacc⟩
      · refine .inl ⟨n + 1, t, by omega, by rw [hr, info2], ?_⟩
        rw [ctl2] at ho
        have := e2.trans ho
        rw [show 0 + 1 + 0 + (n + 1) = n + 1 + 1 from by omega] at this
        exact this
      · rw [ctl2] at ho hlen hraw
        refine .inr ⟨t, S :: Ss, hr, ?_, by simp [hl], ?_, ?_, ?_⟩
        · have := e2.trans ho
          rw [show 0 + 1 + 0 + k = k + 1 from by omega] at this
          exact this
        · intro S' hS'
          rcases List.mem_cons.mp hS' with rfl | h'
          · exact nextCapture_length _ _ _ _ hS
          · exact hlen S' h'
        · intro raw rest hcap hrl hrlen
          cases raw with
          | nil => simp at hrl
          | cons R raw =>
            have h1 := nextCapture_ok c s.ctl.cfgSnapLen.toNat s1 R (raw.map CaptureAnswer.ok ++ rest)
              (by rw [dr1, hcap]; rfl)
            rw [hS, fullSamples_eq _ _ _ (hrlen R (List.mem_cons_self ..))] at h1
            have h2 := hraw raw rest (by rw [cap2, hcap]; rfl) (by simpa using hrl)
              (fun S' hS' => hrlen S' (List.mem_cons_of_mem _ hS'))
            cases h1
            rw [h2]
        · intro li
          rw [hacc li, acc2]
          simp only [addErrors, tabulate_getElem, mismatches, List.map_cons, List.sum_cons,
            BitVec.ofNat_add, BitVec.add_assoc]

/-- An error count whose captures are scripted successes goes on (rule R195). -/
theorem countLoop_done (c : ChipId) (x : Byte) (k : Nat) (s : State)
    (h : k ≤ s.env.captures.length ∧ ∀ a ∈ s.env.captures.take k, a ≠ .fail) :
    ∃ t, countLoop c x k s = .done t := by
  induction k generalizing s with
  | zero => exact ⟨s, rfl⟩
  | succ k ih =>
    obtain ⟨hl, hf⟩ := h
    cases hc : s.env.captures with
    | nil => simp [hc] at hl
    | cons a rest =>
      have ha : a ≠ .fail := hf a (by simp [hc])
      cases a with
      | fail => exact absurd rfl ha
      | ok raw =>
        unfold countLoop captureOrAbort
        rw [nextCapture_ok c _ _ raw rest (by rw [State.mapWork_env, hc])]
        refine ih _ ?_
        simp only [State.mapWork_env, takeCapture_captures, hc, List.tail_cons]
        rw [hc] at hl hf
        refine ⟨by simpa using hl, ?_⟩
        intro a ha'
        exact hf a (by simp [ha'])

/-- All `CountErrors(c, x)` can do (rule R195): it aborts at a failed capture, after fewer than CFG_ITER
captures, or it goes on after CFG_ITER captures, with the sum of their mismatches in ACC. -/
theorem countErrors_cases (c : ChipId) (x : Byte) (s : State) :
    (∃ n t, n < s.ctl.cfgIter.toNat ∧
      countErrors c x s = .abort .captureFailed (captureInfo c s.fsm s.work) t ∧
      OnlyCaptures c s.ctl.cfgSnapLen.toNat (n + 1) s t) ∨
    (∃ t Ss, countErrors c x s = .done t ∧
      OnlyCaptures c s.ctl.cfgSnapLen.toNat s.ctl.cfgIter.toNat s t ∧
      Ss.length = s.ctl.cfgIter.toNat ∧
      (∀ S ∈ Ss, ∀ ch : Fin 4, (S[ch]).length = s.ctl.cfgSnapLen.toNat) ∧
      (∀ raw rest, s.env.captures = raw.map CaptureAnswer.ok ++ rest →
        raw.length = s.ctl.cfgIter.toNat →
        (∀ S ∈ raw, ∀ ch : Fin 4, (S[ch]).length = s.ctl.cfgSnapLen.toNat) → Ss = raw) ∧
      ∀ li : LaneId, t.work.acc[li] = BitVec.ofNat 32 (mismatches Ss x li)) := by
  have e0 : OnlyCaptures c s.ctl.cfgSnapLen.toNat 0 s
      (s.mapWork (fun w => { w with acc := everyLane 0, iterCnt := 0 })) :=
    OnlyCaptures.mapWork _ _ _ _ rfl
  unfold countErrors
  have acc0 : ∀ li : LaneId,
      (s.mapWork (fun w => { w with acc := everyLane 0, iterCnt := 0 })).work.acc[li] = 0 := by
    intro li
    simp [everyLane]
  rcases countLoop_cases c x s.ctl.cfgIter.toNat
    (s.mapWork (fun w => { w with acc := everyLane 0, iterCnt := 0 })) with
    ⟨n, t, hn, hr, ho⟩ | ⟨t, Ss, hr, ho, hl, hlen, hraw, hacc⟩
  · refine .inl ⟨n, t, hn, hr, ?_⟩
    have := e0.trans ho
    rwa [Nat.zero_add] at this
  · refine .inr ⟨t, Ss, hr, ?_, hl, hlen, hraw, ?_⟩
    · have := e0.trans ho
      rwa [Nat.zero_add] at this
    · intro li
      rw [hacc li, acc0 li]
      exact BitVec.zero_add _

/-- An error count whose captures are scripted successes goes on (rule R195). -/
theorem countErrors_done (c : ChipId) (x : Byte) (s : State)
    (h : s.ctl.cfgIter.toNat ≤ s.env.captures.length ∧
      ∀ a ∈ s.env.captures.take s.ctl.cfgIter.toNat, a ≠ .fail) :
    ∃ t, countErrors c x s = .done t := by
  unfold countErrors
  exact countLoop_done c x _ _ h

/-- The signed comparison is equality of bytes (rule R193). -/
theorem sext8_injective {b x : Byte} (h : sext8 b = sext8 x) : b = x := by
  apply BitVec.eq_of_toNat_eq
  have h1 := b.isLt
  have h2 := x.isLt
  unfold sext8 at h
  split at h <;> split at h <;> omega

/-- The error count of a lane, in the terms of the rules (rules R191, R195). -/
theorem laneErrors_eq (S : Samples) (x : Byte) (li : LaneId) (n : Nat)
    (h : (S[laneChannel li]).length = n) : laneErrors S x li = Safety.laneMismatches S n x li := by
  unfold laneErrors Safety.laneMismatches
  have key : ∀ (l : List Byte) (k : Nat),
      (l.zipIdx k).countP (fun e => decide (e.2 % 2 = laneParity li) && !sampleMatches e.1 x) =
      (List.range l.length).countP
        (fun j => decide ((j + k) % 2 = li.val / 4) && decide (l.getD j 0 ≠ x)) := by
    intro l
    induction l with
    | nil => intro k; rfl
    | cons b l ih =>
      intro k
      have hm : sampleMatches b x = decide (b = x) := by
        unfold sampleMatches
        by_cases hb : b = x
        · simp [hb]
        · have : ¬ sext8 b = sext8 x := fun e => hb (sext8_injective e)
          simp [hb, this]
      rw [List.zipIdx_cons, List.countP_cons, ih, List.length_cons, List.range_succ_eq_map,
        List.countP_cons, List.countP_map]
      congr 1
      · congr 1
        funext j
        simp [Nat.add_assoc, Nat.add_comm 1 k]
      · by_cases hk : k % 2 = li.val / 4 <;> by_cases hb : b = x <;> simp only [hm] <;>
          simp [laneParity, hk, hb]
  rw [key, h]
  simp

/-! ## The size of a count -/

/-- A lane has at most half of the samples of a channel: the even lane ceil(n / 2), the odd lane
floor(n / 2) (rules R191, R196). -/
theorem laneErrors_le (S : Samples) (x : Byte) (li : LaneId) (n : Nat)
    (h : (S[laneChannel li]).length = n) :
    laneErrors S x li ≤ if li.val < 4 then (n + 1) / 2 else n / 2 := by
  have count : ∀ (l : List Byte) (k p : Nat), p < 2 →
      (l.zipIdx k).countP (fun e => decide (e.2 % 2 = p) && !sampleMatches e.1 x) ≤
        (l.length + (if k % 2 = p then 1 else 0)) / 2 := by
    intro l
    induction l with
    | nil => simp
    | cons b l ih =>
      intro k p hp
      have := ih (k + 1) p hp
      rw [List.zipIdx_cons, List.countP_cons, List.length_cons]
      by_cases hk : k % 2 = p
      · have hk1 : ¬ (k + 1) % 2 = p := by omega
        rw [if_neg hk1] at this
        rw [if_pos hk]
        split <;> omega
      · have hk1 : (k + 1) % 2 = p := by omega
        rw [if_pos hk1] at this
        rw [if_neg hk, if_neg (by simp [hk])]
        omega
  have hp : laneParity li < 2 := by
    unfold laneParity
    omega
  have := count S[laneChannel li] 0 (laneParity li) hp
  rw [h] at this
  unfold laneErrors
  refine this.trans ?_
  have hz : (0 : Nat) % 2 = 0 := rfl
  by_cases h4 : li.val < 4
  · have : laneParity li = 0 := by
      unfold laneParity
      omega
    simp [this, h4]
  · have : laneParity li = 1 := by
      unfold laneParity
      omega
    simp [this, h4]

theorem mismatches_le (Ss : List Samples) (x : Byte) (li : LaneId) (n : Nat)
    (h : ∀ S ∈ Ss, ∀ ch : Fin 4, (S[ch]).length = n) :
    mismatches Ss x li ≤ Ss.length * if li.val < 4 then (n + 1) / 2 else n / 2 := by
  induction Ss with
  | nil => simp [mismatches]
  | cons S Ss ih =>
    have h1 := laneErrors_le S x li n (h S (List.mem_cons_self ..) _)
    have h2 := ih (fun S' hS' => h S' (List.mem_cons_of_mem _ hS'))
    simp only [mismatches, List.map_cons, List.sum_cons, List.length_cons] at h2 ⊢
    rw [Nat.succ_mul, Nat.add_comm]
    exact Nat.add_le_add h2 h1

/-- A count of fewer than 65536 captures of fewer than 65536 samples fits 32 bits (rule R196). -/
theorem mismatches_lt (Ss : List Samples) (x : Byte) (li : LaneId) (n : Nat)
    (h : ∀ S ∈ Ss, ∀ ch : Fin 4, (S[ch]).length = n) (hl : Ss.length < 65536) (hn : n < 65536) :
    mismatches Ss x li < 2 ^ 32 := by
  have h1 := mismatches_le Ss x li n h
  have h2 : (if li.val < 4 then (n + 1) / 2 else n / 2) ≤ 32768 := by
    split <;> omega
  have h3 : Ss.length * (if li.val < 4 then (n + 1) / 2 else n / 2) ≤ 65535 * 32768 :=
    Nat.mul_le_mul (by omega) h2
  omega

end Sys2Proof.Machine
end

