-- ==== Sys2Proof/Laws/TapCal.lean ====
section
/-! SUPPORT. The parts of a tap calibration, each with all that it does when it goes on (rules R210 to
R228): the events and how many of each kind, the captures used up, the tables written, the delay
taps. -/

namespace Sys2Proof.Machine

open Sys2Proof.Safety

/-! ## Counting events -/

/-- From `s` to `t`: `w` word writes, `e` settles, `k` captures and no other event. -/
structure EventDelta (w e k : Nat) (s t : State) : Prop where
  grows : ∃ l, t.events = s.events ++ l ∧ l.countP isWrite = w ∧ l.count .settle = e ∧
    l.countP isCapture = k ∧ l.length = w + e + k

theorem EventDelta.of_events {s t : State} (l : List Event) (h : t.events = s.events ++ l)
    (hl : l.length = l.countP isWrite + l.count .settle + l.countP isCapture) :
    EventDelta (l.countP isWrite) (l.count .settle) (l.countP isCapture) s t :=
  ⟨⟨l, h, rfl, rfl, rfl, hl⟩⟩

theorem EventDelta.same {s t : State} (h : t.events = s.events) : EventDelta 0 0 0 s t :=
  ⟨⟨[], by simpa using h, rfl, rfl, rfl, rfl⟩⟩

theorem EventDelta.trans {w e k w' e' k' : Nat} {s t u : State} (h : EventDelta w e k s t)
    (h' : EventDelta w' e' k' t u) : EventDelta (w + w') (e + e') (k + k') s u := by
  obtain ⟨l, h1, h2, h3, h4, h5⟩ := h.grows
  obtain ⟨l', h1', h2', h3', h4', h5'⟩ := h'.grows
  refine ⟨⟨l ++ l', ?_, ?_, ?_, ?_, ?_⟩⟩
  · rw [h1', h1, List.append_assoc]
  · rw [List.countP_append, h2, h2']
  · rw [List.count_append, h3, h3']
  · rw [List.countP_append, h4, h4']
  · rw [List.length_append, h5, h5']
    omega

theorem EventDelta.cast {w e k w' e' k' : Nat} {s t : State} (h : EventDelta w e k s t)
    (hw : w = w') (he : e = e') (hk : k = k') : EventDelta w' e' k' s t := by
  subst hw he hk
  exact h

/-- The number of word writes of SetDelayTap: `3 * len(strobeWords) + 1` (rule R225). -/
def tapWrites (L : Layout) : Nat := 3 * L.strobeWords.length + 1

theorem countP_memWrites (ws : List Nat) (v : Nat → Word) :
    (ws.map (fun w => Event.memWrite w (v w))).countP isWrite = ws.length ∧
    (ws.map (fun w => Event.memWrite w (v w))).count Event.settle = 0 ∧
    (ws.map (fun w => Event.memWrite w (v w))).countP isCapture = 0 := by
  induction ws with
  | nil => exact ⟨rfl, rfl, rfl⟩
  | cons w ws ih =>
    obtain ⟨h1, h2, h3⟩ := ih
    refine ⟨?_, ?_, ?_⟩
    · rw [List.map_cons, List.countP_cons, h1]
      rfl
    · rw [List.map_cons, List.count_cons, h2]
      rfl
    · rw [List.map_cons, List.countP_cons, h3]
      rfl

theorem setDelayTap_delta (c : ChipId) (t lm : Byte) (s : State) :
    EventDelta (tapWrites s.inst.layout) 1 0 s (s.setDelayTap c t lm) := by
  obtain ⟨a1, a2, a3⟩ := countP_memWrites s.inst.layout.strobeWords (fun _ => 0)
  obtain ⟨b1, b2, b3⟩ := countP_memWrites s.inst.layout.strobeWords
    (fun w => strobeValue s.inst.layout w c lm)
  refine ⟨⟨_, State.setDelayTap_events c t lm s, ?_, ?_, ?_, ?_⟩⟩
  · simp only [List.countP_append, a1, b1, List.countP_singleton, isWrite, tapWrites, if_true,
      Bool.false_eq_true, if_false]
    omega
  · simp only [List.count_append, a2, b2]
    rfl
  · simp only [List.countP_append, a3, b3]
    rfl
  · simp only [List.length_append, List.length_map, List.length_singleton, tapWrites]
    omega

theorem bitslipPulse_delta (c : ChipId) (s : State) : EventDelta 3 1 0 s (s.bitslipPulse c) :=
  ⟨⟨_, State.bitslipPulse_events c s, rfl, rfl, rfl, rfl⟩⟩

theorem onlyCaptures_delta {c : ChipId} {len n : Nat} {s t : State} (h : OnlyCaptures c len n s t) :
    EventDelta 0 0 n s t := by
  refine ⟨⟨_, h.events, ?_, ?_, ?_, ?_⟩⟩
  · simp [List.countP_replicate, isWrite]
  · simp [List.count_replicate]
  · simp [List.countP_replicate, isCapture]
  · simp

theorem serialWords_length (I : Instance) (m a : Byte) (v : Half) :
    (serialWords I m a v).length = 50 := by
  simp [serialWords, List.length_flatMap]

theorem writeRegister_delta (a : Byte) (v : Half) (s : State) :
    EventDelta 50 0 0 s (s.writeRegister a v) := by
  have key : ∀ ws : List Word, (ws.map (fun x => Event.memWrite 0 x)).countP isWrite = ws.length ∧
      (ws.map (fun x => Event.memWrite 0 x)).count Event.settle = 0 ∧
      (ws.map (fun x => Event.memWrite 0 x)).countP isCapture = 0 := by
    intro ws
    induction ws with
    | nil => exact ⟨rfl, rfl, rfl⟩
    | cons w ws ih =>
      obtain ⟨h1, h2, h3⟩ := ih
      refine ⟨?_, ?_, ?_⟩
      · rw [List.map_cons, List.countP_cons, h1]
        rfl
      · rw [List.map_cons, List.count_cons, h2]
        rfl
      · rw [List.map_cons, List.countP_cons, h3]
        rfl
  obtain ⟨h1, h2, h3⟩ := key (serialWords s.inst s.ctl.csMask a v)
  refine ⟨⟨_, State.writeRegister_events a v s, ?_, h2, h3, ?_⟩⟩
  · rw [h1, serialWords_length]
  · rw [List.length_map, serialWords_length]

theorem writeRegisters_delta (ps : List RegWrite) (s : State) :
    EventDelta (50 * ps.length) 0 0 s (s.writeRegisters ps) := by
  induction ps generalizing s with
  | nil =>
    rw [writeRegisters_nil]
    exact EventDelta.same rfl
  | cons p ps ih =>
    rw [writeRegisters_cons]
    refine ((writeRegister_delta p.addr p.value s).trans (ih _)).cast ?_ rfl rfl
    rw [List.length_cons]
    omega

/-! ## One probe -/

/-- A probe that goes on: from the state after its SetDelayTap it only takes CFG_ITER captures, and ACC
holds their mismatches with CFG_DESKEW; the captures are the scripted ones where they are whole
(rules R213, R216). -/
structure Probed (c : ChipId) (n : Nat) (s t : State) (Ss : List Samples) : Prop where
  only : OnlyCaptures c s.ctl.cfgSnapLen.toNat s.ctl.cfgIter.toNat
    ((s.mapWork (fun w => { w with tapCnt := BitVec.ofNat 6 n })).setDelayTap c
      (BitVec.ofNat 8 n) 0xFF) t
  length : Ss.length = s.ctl.cfgIter.toNat
  lengths : ∀ S ∈ Ss, ∀ ch : Fin 4, (S[ch]).length = s.ctl.cfgSnapLen.toNat
  scripted : ∀ (raw : List Samples) (rest : List CaptureAnswer), s.env.captures = raw.map CaptureAnswer.ok ++ rest →
    raw.length = s.ctl.cfgIter.toNat →
    (∀ S ∈ raw, ∀ ch : Fin 4, (S[ch]).length = s.ctl.cfgSnapLen.toNat) → Ss = raw
  acc : ∀ li : LaneId, t.work.acc[li] = BitVec.ofNat 32 (mismatches Ss s.ctl.cfgDeskew li)

theorem probeTap_cases (c : ChipId) (n : Nat) (s : State) :
    (∃ k t, k < s.ctl.cfgIter.toNat ∧
      probeTap c n s = .abort .captureFailed
        (captureInfo c s.fsm { s.work with tapCnt := BitVec.ofNat 6 n }) t ∧
      OnlyCaptures c s.ctl.cfgSnapLen.toNat (k + 1)
        ((s.mapWork (fun w => { w with tapCnt := BitVec.ofNat 6 n })).setDelayTap c
          (BitVec.ofNat 8 n) 0xFF) t) ∨
    (∃ t Ss, probeTap c n s = .done t ∧ Probed c n s t Ss) := by
  unfold probeTap
  generalize hu : (s.mapWork (fun w => { w with tapCnt := BitVec.ofNat 6 n })).setDelayTap c
    (BitVec.ofNat 8 n) 0xFF = u
  have ctl : u.ctl = s.ctl := by rw [← hu, State.setDelayTap_ctl, State.mapWork_ctl]
  have env : u.env = s.env := by rw [← hu, State.setDelayTap_env, State.mapWork_env]
  have fsm : u.fsm = s.fsm := by rw [← hu, State.setDelayTap_fsm, State.mapWork_fsm]
  have work : u.work = { s.work with tapCnt := BitVec.ofNat 6 n } := by
    rw [← hu, State.setDelayTap_work, State.mapWork_work]
  rcases countErrors_cases c s.ctl.cfgDeskew u with
    ⟨k, t, hk, hr, ho⟩ | ⟨t, Ss, hr, ho, hl, hlen, hraw, hacc⟩
  · rw [ctl] at hk ho
    rw [fsm, work] at hr
    exact .inl ⟨k, t, hk, hr, ho⟩
  · rw [ctl] at ho hl hlen hraw
    rw [env] at hraw
    refine .inr ⟨t, Ss, hr, ?_⟩
    rw [← hu] at ho
    exact ⟨ho, hl, hlen, hraw, hacc⟩

theorem probeTap_total (c : ChipId) (n : Nat) (s : State)
    (h : s.ctl.cfgIter.toNat ≤ s.env.captures.length ∧
      ∀ a ∈ s.env.captures.take s.ctl.cfgIter.toNat, a ≠ .fail) : ∃ t, probeTap c n s = .done t := by
  unfold probeTap
  refine countErrors_done _ _ _ ?_
  rw [State.setDelayTap_ctl, State.mapWork_ctl, State.setDelayTap_env, State.mapWork_env]
  exact h

theorem Probed.inst {c : ChipId} {n : Nat} {s t : State} {Ss : List Samples}
    (h : Probed c n s t Ss) : t.inst = s.inst := by
  rw [h.only.inst, State.setDelayTap_inst, State.mapWork_inst]

theorem Probed.ctl {c : ChipId} {n : Nat} {s t : State} {Ss : List Samples}
    (h : Probed c n s t Ss) : t.ctl = s.ctl := by
  rw [h.only.ctl, State.setDelayTap_ctl, State.mapWork_ctl]

theorem Probed.fsm {c : ChipId} {n : Nat} {s t : State} {Ss : List Samples}
    (h : Probed c n s t Ss) : t.fsm = s.fsm := by
  rw [h.only.fsm, State.setDelayTap_fsm, State.mapWork_fsm]

theorem Probed.tables {c : ChipId} {n : Nat} {s t : State} {Ss : List Samples}
    (h : Probed c n s t Ss) : t.tables = s.tables := by
  rw [h.only.tables, State.setDelayTap_tables, State.mapWork_tables]

theorem Probed.captures {c : ChipId} {n : Nat} {s t : State} {Ss : List Samples}
    (h : Probed c n s t Ss) : t.env.captures = s.env.captures.drop s.ctl.cfgIter.toNat := by
  rw [h.only.captures, State.setDelayTap_env, State.mapWork_env]

theorem Probed.delta {c : ChipId} {n : Nat} {s t : State} {Ss : List Samples}
    (h : Probed c n s t Ss) :
    EventDelta (tapWrites s.inst.layout) 1 s.ctl.cfgIter.toNat s t := by
  have a := setDelayTap_delta c (BitVec.ofNat 8 n) 0xFF
    (s.mapWork (fun w => { w with tapCnt := BitVec.ofNat 6 n }))
  have b := (EventDelta.same (s := s) (State.mapWork_events _ s)).trans
    (a.trans (onlyCaptures_delta h.only))
  rw [State.mapWork_inst] at b
  exact b.cast (by omega) (by omega) (by omega)

theorem Probed.work {c : ChipId} {n : Nat} {s t : State} {Ss : List Samples}
    (h : Probed c n s t Ss) :
    t.work.acc0 = s.work.acc0 ∧ t.work.acc31 = s.work.acc31 ∧
      t.work.tapCnt = BitVec.ofNat 6 n := by
  have := h.only.work
  rw [State.setDelayTap_work, State.mapWork_work] at this
  have a := congrArg Work.acc0 this
  have b := congrArg Work.acc31 this
  have d := congrArg Work.tapCnt this
  exact ⟨a, b, d⟩

/-! ## The sweep -/

/-- A written bit of a word reads back, and the other bits are as before (rule R9). -/
theorem writeBit_getLsbD (w : Word) (b : Nat) (v : Bool) (i : Nat) (hi : i < 32) :
    (writeBit w b v).getLsbD i = if i = b then v else w.getLsbD i := by
  have one : (1#32 <<< b).getLsbD i = decide (i = b) := by
    have := bitAt_getLsbD b i hi
    rw [bitAt, if_pos rfl] at this
    rw [this]
    simp only [eq_comm]
  unfold writeBit
  cases v
  · simp only [Bool.false_eq_true, if_false, BitVec.getLsbD_and, BitVec.getLsbD_not, one, hi,
      decide_true, Bool.true_and]
    by_cases h : i = b <;> simp [h]
  · simp only [if_true, BitVec.getLsbD_or, one]
    by_cases h : i = b <;> simp [h]

/-- What the taps of a list leave in the tables: for each of them the counts and the good bits, and
nothing else of the tables (rule R216). -/
structure Swept (c : ChipId) (ts : List (Fin 32)) (T U : Tables) (cnt : Fin 32 → LaneId → Word) :
    Prop where
  errCount : ∀ (u : Fin 32) (li : LaneId), U.errCount[u][li] =
    if u ∈ ts then cnt u li else T.errCount[u][li]
  goodMap : ∀ (u : Fin 32) (li : LaneId), U.goodMap[c][li].getLsbD u.val =
    if u ∈ ts then cnt u li == 0 else T.goodMap[c][li].getLsbD u.val
  otherMaps : ∀ d : ChipId, d ≠ c → U.goodMap[d] = T.goodMap[d]
  calResult : U.calResult = T.calResult
  syncStatus : U.syncStatus = T.syncStatus
  lastSweep : U.lastSweep = T.lastSweep
  heurSlip : U.heurSlip = T.heurSlip

theorem Swept.nil (c : ChipId) (T : Tables) (cnt : Fin 32 → LaneId → Word) :
    Swept c [] T T cnt := by
  constructor <;> simp

theorem Swept.cons {c : ChipId} {t : Fin 32} {ts : List (Fin 32)} {T U : Tables}
    {cnt : Fin 32 → LaneId → Word} {acc : Lanes Word} (ht : t ∉ ts)
    (h : Swept c ts (T.recordTap c t acc) U cnt) (hc : ∀ li : LaneId, cnt t li = acc[li]) :
    Swept c (t :: ts) T U cnt := by
  constructor
  · intro u li
    rw [h.errCount]
    by_cases hu : u ∈ ts
    · rw [if_pos hu, if_pos (List.mem_cons_of_mem _ hu)]
    · rw [if_neg hu]
      by_cases hut : u = t
      · subst hut
        rw [if_pos (List.mem_cons_self ..), hc]
        simp [Tables.recordTap]
      · rw [if_neg (by simp [hut, hu])]
        have : ¬ t.val = u.val := fun e => hut (Fin.ext e.symm)
        simp [Tables.recordTap, this]
  · intro u li
    rw [h.goodMap]
    by_cases hu : u ∈ ts
    · rw [if_pos hu, if_pos (List.mem_cons_of_mem _ hu)]
    · rw [if_neg hu]
      have hrow : (T.recordTap c t acc).goodMap[c][li] =
          writeBit T.goodMap[c][li] t.val (acc[li] == 0) := by
        simp [Tables.recordTap]
      rw [hrow, writeBit_getLsbD _ _ _ _ u.isLt]
      by_cases hut : u = t
      · subst hut
        rw [if_pos rfl, if_pos (List.mem_cons_self ..), hc]
      · have : ¬ u.val = t.val := fun e => hut (Fin.ext e)
        rw [if_neg this, if_neg (by simp [hut, hu])]
  · intro d hd
    rw [h.otherMaps d hd]
    have : ¬ c.val = d.val := fun e => hd (Fin.ext e.symm)
    simp [Tables.recordTap, this]
  · exact h.calResult
  · exact h.syncStatus
  · exact h.lastSweep
  · exact h.heurSlip

/-- What a sweep over a list of taps that goes on leaves (rule R216). The captures of the j-th tap of
the list are the scripted ones from j * CFG_ITER on, where they are whole. -/
structure SweepDone (c : ChipId) (ts : List (Fin 32)) (s t : State) (Ss : Fin 32 → List Samples) :
    Prop where
  inst : t.inst = s.inst
  ctl : t.ctl = s.ctl
  fsm : t.fsm = s.fsm
  captures : t.env.captures = s.env.captures.drop (ts.length * s.ctl.cfgIter.toNat)
  delta : EventDelta (ts.length * tapWrites s.inst.layout) ts.length
    (ts.length * s.ctl.cfgIter.toNat) s t
  tables : Swept c ts s.tables t.tables
    (fun u li => BitVec.ofNat 32 (mismatches (Ss u) s.ctl.cfgDeskew li))
  length : ∀ u ∈ ts, (Ss u).length = s.ctl.cfgIter.toNat
  lengths : ∀ u ∈ ts, ∀ S ∈ Ss u, ∀ ch : Fin 4, (S[ch]).length = s.ctl.cfgSnapLen.toNat
  scripted : ∀ (raw : List Samples) (rest : List CaptureAnswer), s.env.captures = raw.map CaptureAnswer.ok ++ rest →
    raw.length = ts.length * s.ctl.cfgIter.toNat →
    (∀ S ∈ raw, ∀ ch : Fin 4, (S[ch]).length = s.ctl.cfgSnapLen.toNat) →
    ∀ (j : Nat) (hj : j < ts.length),
      Ss (ts[j]'hj) = (raw.drop (j * s.ctl.cfgIter.toNat)).take s.ctl.cfgIter.toNat

theorem sweepTaps_done (c : ChipId) (ts : List (Fin 32)) (hn : ts.Nodup) (s t : State)
    (h : sweepTaps c ts s = .done t) : ∃ Ss, SweepDone c ts s t Ss := by
  induction ts generalizing s with
  | nil =>
    unfold sweepTaps at h
    cases h
    refine ⟨fun _ => [], ?_⟩
    constructor
    · rfl
    · rfl
    · rfl
    · simp
    · exact (EventDelta.same rfl).cast (by simp) (by simp) (by simp)
    · exact Swept.nil _ _ _
    · simp
    · simp
    · intro _ _ _ _ _ j hj
      exact absurd hj (by simp)
  | cons u ts ih =>
    obtain ⟨hu, hn'⟩ := List.nodup_cons.mp hn
    unfold sweepTaps at h
    obtain ⟨s1, h1, h2⟩ := Run.andThen_eq_done.mp h
    rcases probeTap_cases c u.val s with ⟨k, t', -, hr, -⟩ | ⟨t', Ss0, hr, hp⟩
    · rw [hr] at h1
      cases h1
    · rw [hr] at h1
      cases h1
      obtain ⟨Ss, hs⟩ := ih hn' _ h2
      have hctl : (s1.mapTables (Tables.recordTap c u s1.work.acc)).ctl = s.ctl := hp.ctl
      have hinst : (s1.mapTables (Tables.recordTap c u s1.work.acc)).inst = s.inst := hp.inst
      have hcap : (s1.mapTables (Tables.recordTap c u s1.work.acc)).env.captures =
          s.env.captures.drop s.ctl.cfgIter.toNat := hp.captures
      refine ⟨fun v => if v = u then Ss0 else Ss v, ?_⟩
      constructor
      · rw [hs.inst, hinst]
      · rw [hs.ctl, hctl]
      · exact hs.fsm.trans hp.fsm
      · rw [hs.captures, hctl, hcap, List.drop_drop, List.length_cons]
        congr 1
        rw [Nat.succ_mul, Nat.add_comm]
      · have a := (hp.delta.trans (EventDelta.same
          (t := s1.mapTables (Tables.recordTap c u s1.work.acc)) rfl)).trans hs.delta
        rw [hinst, hctl] at a
        refine a.cast ?_ ?_ ?_ <;> rw [List.length_cons]
        · rw [Nat.succ_mul]
          omega
        · omega
        · rw [Nat.succ_mul]
          omega
      · have a := hs.tables
        rw [hctl] at a
        refine Swept.cons (acc := s1.work.acc) hu ?_ ?_
        · have e : ∀ v li, v ∈ ts → BitVec.ofNat 32 (mismatches (if v = u then Ss0 else Ss v)
              s.ctl.cfgDeskew li) = BitVec.ofNat 32 (mismatches (Ss v) s.ctl.cfgDeskew li) := by
            intro v li hv
            have : v ≠ u := fun e => hu (e ▸ hv)
            rw [if_neg this]
          have b : s.tables = s1.tables := hp.tables.symm
          rw [b]
          constructor
          · intro v li
            rw [a.errCount]
            by_cases hv : v ∈ ts
            · rw [if_pos hv, if_pos hv, e v li hv]
            · rw [if_neg hv, if_neg hv]
              rfl
          · intro v li
            rw [a.goodMap]
            by_cases hv : v ∈ ts
            · rw [if_pos hv, if_pos hv, e v li hv]
            · rw [if_neg hv, if_neg hv]
              rfl
          · exact a.otherMaps
          · exact a.calResult
          · exact a.syncStatus
          · exact a.lastSweep
          · exact a.heurSlip
        · intro li
          simp only [if_true]
          exact (hp.acc li).symm
      · intro v hv
        by_cases hvu : v = u
        · simp only [hvu, if_true]
          exact hp.length
        · simp only [hvu, if_false]
          rw [hs.length v ((List.mem_cons.mp hv).resolve_left hvu), hctl]
      · intro v hv
        by_cases hvu : v = u
        · simp only [hvu, if_true]
          exact hp.lengths
        · simp only [hvu, if_false]
          have := hs.lengths v ((List.mem_cons.mp hv).resolve_left hvu)
          rwa [hctl] at this
      · intro raw rest hraw hl hlen j hj
        have split : raw = raw.take s.ctl.cfgIter.toNat ++ raw.drop s.ctl.cfgIter.toNat :=
          (List.take_append_drop _ _).symm
        rw [List.length_cons, Nat.succ_mul] at hl
        cases j with
        | zero =>
          simp only [List.getElem_cons_zero, if_true, Nat.zero_mul, List.drop_zero]
          refine hp.scripted _ ((raw.drop s.ctl.cfgIter.toNat).map CaptureAnswer.ok ++ rest) ?_ ?_ ?_
          · rw [hraw, ← List.append_assoc, ← List.map_append, ← split]
          · rw [List.length_take]
            omega
          · intro S hS
            exact hlen S (List.mem_of_mem_take hS)
        | succ j =>
          have hj' : j < ts.length := by simpa using hj
          have hne : ts[j]'hj' ≠ u := fun e => hu (e ▸ List.getElem_mem hj')
          simp only [List.getElem_cons_succ, hne, if_false]
          have := hs.scripted (raw.drop s.ctl.cfgIter.toNat) rest ?_ ?_ ?_ j hj'
          · rw [this, hctl, List.drop_drop]
            congr 2
            rw [Nat.succ_mul, Nat.add_comm]
          · rw [hcap, hraw, List.drop_append_of_le_length (by simp; omega), List.map_drop]
          · rw [List.length_drop, hctl]
            omega
          · intro S hS
            rw [hctl]
            exact hlen S (List.mem_of_mem_drop hS)

theorem sweepTaps_total (c : ChipId) (ts : List (Fin 32)) (s : State)
    (h : ts.length * s.ctl.cfgIter.toNat ≤ s.env.captures.length ∧
      ∀ a ∈ s.env.captures.take (ts.length * s.ctl.cfgIter.toNat), a ≠ .fail) :
    ∃ t, sweepTaps c ts s = .done t := by
  induction ts generalizing s with
  | nil => exact ⟨s, rfl⟩
  | cons u ts ih =>
    obtain ⟨h1, h2⟩ := h
    rw [List.length_cons, Nat.succ_mul] at h1 h2
    obtain ⟨t, ht⟩ := probeTap_total c u.val s ⟨by omega, fun a ha => h2 a
      ((List.take_prefix_take_left (by omega)).subset ha)⟩
    rcases probeTap_cases c u.val s with ⟨k, t', -, hr, -⟩ | ⟨t', Ss, hr, hp⟩
    · rw [hr] at ht
      cases ht
    · unfold sweepTaps
      rw [hr, Run.done_andThen]
      refine ih _ ?_
      rw [State.mapTables_ctl, State.mapTables_env, hp.ctl, hp.captures, List.length_drop]
      refine ⟨by omega, ?_⟩
      intro a ha
      rw [List.take_drop] at ha
      refine h2 a ?_
      rw [Nat.add_comm]
      exact List.mem_of_mem_drop ha

end Sys2Proof.Machine
end

