-- ==== Sys2Proof/Laws/TapCalBody.lean ====
section
/-! SUPPORT. A whole tap calibration (rule R210): how it divides into its parts, and the delay taps it
leaves behind. -/

namespace Sys2Proof.Machine

open Sys2Proof.Safety

/-! ## The delay elements of the parts -/

/-- A probe leaves its tap on every lane of its chip, and the other chips' taps as they were
(rules R82, R213). -/
theorem Probed.taps {c : ChipId} {n : Nat} {s t : State} {Ss : List Samples} {I : Instance}
    (hI : InstanceOk I) (hc : c.val < I.nchips) (h : Probed c n s t Ss) (hs : s.inst = I)
    (hn : n < 32) (d : ChipId) (li : LaneId) :
    t.board.taps[d][li] = if d = c then BitVec.ofNat 5 n else s.board.taps[d][li] := by
  rw [h.only.board]
  subst hs
  rw [setDelayTap_taps c _ _ _ (by rw [State.mapWork_inst]; exact hI)
    (by rw [State.mapWork_inst]; exact hc)]
  have hff : (0xFF#8).getLsbD li.val = true := by
    fin_cases li <;> rfl
  have hmod : (BitVec.ofNat 8 n).toNat % 32 = n := by
    rw [BitVec.toNat_ofNat]
    omega
  rw [State.mapWork_board, hmod]
  have : (d = c ∧ BitVec.getLsbD (255 : Byte) li.val = true) = (d = c) := by
    rw [eq_iff_iff]
    exact ⟨fun h => h.1, fun h => ⟨h, hff⟩⟩
  simp only [this]

/-- After the taps of a list, the lanes of the chip hold the last of them (rule R216). -/
theorem sweepTaps_taps {I : Instance} (hI : InstanceOk I) (c : ChipId) (hc : c.val < I.nchips)
    (ts : List (Fin 32)) (s t : State) (hs : s.inst = I) (h : sweepTaps c ts s = .done t)
    (d : ChipId) (li : LaneId) :
    t.inst = I ∧ t.board.taps[d][li] =
      match ts.getLast? with
      | none => s.board.taps[d][li]
      | some u => if d = c then BitVec.ofNat 5 u.val else s.board.taps[d][li] := by
  induction ts generalizing s with
  | nil =>
    unfold sweepTaps at h
    cases h
    exact ⟨hs, rfl⟩
  | cons u ts ih =>
    unfold sweepTaps at h
    obtain ⟨s1, h1, h2⟩ := Run.andThen_eq_done.mp h
    rcases probeTap_cases c u.val s with ⟨k, t', -, hr, -⟩ | ⟨t', Ss, hr, hp⟩
    · rw [hr] at h1
      cases h1
    · rw [hr] at h1
      cases h1
      obtain ⟨h3, h4⟩ := ih (s1.mapTables (Tables.recordTap c u s1.work.acc)) (hp.inst.trans hs) h2
      refine ⟨h3, ?_⟩
      rw [h4, State.mapTables_board, hp.taps hI hc hs u.isLt]
      cases ts with
      | nil => rfl
      | cons v ts =>
        rw [List.getLast?_cons_cons]
        cases hl : (v :: ts).getLast? with
        | none => simp at hl
        | some w =>
          simp only []
          split <;> rfl

/-! ## Step 5 -/

/-- The mask of one lane names that lane (rule R107). -/
theorem laneBit (x li : LaneId) : (1#8 <<< x.val).getLsbD li.val = decide (li = x) := by
  revert x li
  decide

/-- The latches of step 5, over a list of lanes (rule R223): a lane with a TAP result holds it, the
others are as before. -/
theorem applyLanes_taps {I : Instance} (hI : InstanceOk I) (c : ChipId) (hc : c.val < I.nchips)
    (R : Lanes CalResult) (l : List LaneId) (s : State) (hs : s.inst = I) :
    (l.foldl (State.applyLane c R) s).inst = I ∧
    ∀ (d : ChipId) (li : LaneId), (l.foldl (State.applyLane c R) s).board.taps[d][li] =
      if d = c ∧ li ∈ l then
        match R[li] with
        | .tap t => t
        | .none => s.board.taps[d][li]
        | .indEmpty => s.board.taps[d][li]
        | .indWrapped => s.board.taps[d][li]
      else s.board.taps[d][li] := by
  induction l generalizing s with
  | nil => exact ⟨hs, fun d li => by simp⟩
  | cons x l ih =>
    have one : (s.applyLane c R x).inst = I ∧
        ∀ (d : ChipId) (li : LaneId), (s.applyLane c R x).board.taps[d][li] =
          if d = c ∧ li = x then
            match R[li] with
            | .tap t => t
            | .none => s.board.taps[d][li]
            | .indEmpty => s.board.taps[d][li]
            | .indWrapped => s.board.taps[d][li]
          else s.board.taps[d][li] := by
      have keep : ∀ r : CalResult, R[x] = r → (∀ t, r ≠ .tap t) →
          (s.mapWork (fun w => { w with liCnt := BitVec.ofNat 4 x.val })).inst = I ∧
          ∀ (d : ChipId) (li : LaneId),
            (s.mapWork (fun w => { w with liCnt := BitVec.ofNat 4 x.val })).board.taps[d][li] =
            if d = c ∧ li = x then
              match R[li] with
              | .tap t => t
              | .none => s.board.taps[d][li]
              | .indEmpty => s.board.taps[d][li]
              | .indWrapped => s.board.taps[d][li]
            else s.board.taps[d][li] := by
        intro r hr hne
        refine ⟨hs, ?_⟩
        intro d li
        rw [State.mapWork_board]
        split
        · rename_i h
          obtain ⟨-, rfl⟩ := h
          rw [hr]
          cases r with
          | tap t => exact absurd rfl (hne t)
          | none => rfl
          | indEmpty => rfl
          | indWrapped => rfl
        · rfl
      unfold State.applyLane
      cases hr : R[x] with
      | none => exact keep _ hr (by simp)
      | indEmpty => exact keep _ hr (by simp)
      | indWrapped => exact keep _ hr (by simp)
      | tap t =>
        subst hs
        simp only []
        refine ⟨?_, ?_⟩
        · rw [State.setDelayTap_inst, State.mapWork_inst]
        · intro d li
          rw [setDelayTap_taps c _ _ _ (by rw [State.mapWork_inst]; exact hI)
            (by rw [State.mapWork_inst]; exact hc),
            State.mapWork_board]
          have hbit : (1#8 <<< x.val).getLsbD li.val = decide (li = x) := laneBit x li
          have hval : BitVec.ofNat 5 ((t.setWidth 8).toNat % 32) = t := by
            apply BitVec.eq_of_toNat_eq
            have := t.isLt
            rw [BitVec.toNat_ofNat, BitVec.toNat_setWidth]
            omega
          rw [hval, hbit]
          simp only [decide_eq_true_eq]
          split
          · rename_i h
            obtain ⟨-, rfl⟩ := h
            rw [hr]
          · rfl
    obtain ⟨h1, h2⟩ := ih _ one.1
    refine ⟨h1, ?_⟩
    intro d li
    rw [List.foldl_cons, h2, one.2]
    by_cases hd : d = c
    · by_cases hx : li = x
      · subst hx
        simp only [hd, true_and, List.mem_cons, true_or, if_true]
        cases R[li] <;> simp
      · simp only [hd, true_and, List.mem_cons, hx, false_or, if_false]
    · simp only [hd, false_and, if_false]

theorem applyLane_onlyBus (c : ChipId) (R : Lanes CalResult) (s : State) (li : LaneId) :
    OnlyBus s (s.applyLane c R li) := by
  unfold State.applyLane
  simp only []
  split
  · exact (mapWork_onlyBus _ s).trans (setDelayTap_onlyBus _ _ _ _)
  · exact mapWork_onlyBus _ s
  · exact mapWork_onlyBus _ s
  · exact mapWork_onlyBus _ s

theorem applyTaps_onlyBus (c : ChipId) (R : Lanes CalResult) (s : State) :
    OnlyBus s (s.applyTaps c R) := by
  unfold State.applyTaps
  exact (OnlyBus.foldl _ (applyLane_onlyBus c R) _ s).trans (mapWork_onlyBus _ _)

/-- A lane that step 5 latches (rule R223). -/
def CalResult.determinate : CalResult → Bool
  | .tap _ => true
  | .none => false
  | .indEmpty => false
  | .indWrapped => false

/-- The events of step 5: one SetDelayTap per determinate lane (rule R225). -/
theorem applyTaps_delta (c : ChipId) (R : Lanes CalResult) (s : State) :
    EventDelta (R.toList.countP CalResult.determinate * tapWrites s.inst.layout)
      (R.toList.countP CalResult.determinate) 0 s (s.applyTaps c R) := by
  have loop : ∀ (l : List LaneId) (s : State),
      EventDelta (l.countP (fun li => R[li].determinate) * tapWrites s.inst.layout)
        (l.countP (fun li => R[li].determinate)) 0 s (l.foldl (State.applyLane c R) s) := by
    intro l
    induction l with
    | nil => exact fun s => (EventDelta.same rfl).cast (by simp) rfl rfl
    | cons x l ih =>
      intro s
      have rest := ih (s.applyLane c R x)
      rw [(applyLane_onlyBus c R s x).inst] at rest
      rw [List.foldl_cons, List.countP_cons]
      have one : EventDelta (if R[x].determinate = true then tapWrites s.inst.layout else 0)
          (if R[x].determinate = true then 1 else 0) 0 s (s.applyLane c R x) := by
        unfold State.applyLane
        cases hr : R[x] with
        | none => exact EventDelta.same rfl
        | indEmpty => exact EventDelta.same rfl
        | indWrapped => exact EventDelta.same rfl
        | tap t =>
          have a := setDelayTap_delta c (t.setWidth 8) (1#8 <<< x.val)
            (s.mapWork (fun w => { w with liCnt := BitVec.ofNat 4 x.val }))
          rw [State.mapWork_inst] at a
          exact ((EventDelta.same (State.mapWork_events _ s)).trans a).cast
            (by simp [CalResult.determinate]) (by simp [CalResult.determinate]) rfl
      refine (one.trans rest).cast ?_ ?_ rfl
      · by_cases hd : R[x].determinate = true
        · rw [if_pos hd, if_pos hd, Nat.succ_mul]
          omega
        · rw [if_neg hd, if_neg hd, Nat.zero_add, Nat.add_zero]
      · by_cases hd : R[x].determinate = true
        · rw [if_pos hd]
          omega
        · rw [if_neg hd]
          omega
  have e : allLanes.countP (fun li => R[li].determinate) = R.toList.countP CalResult.determinate := by
    have : R.toList = allLanes.map (fun li => R[li]) := by
      apply List.ext_getElem
      · simp [allLanes]
      · intro i h1 h2
        have : i < 8 := by simpa using h1
        have : i = 0 ∨ i = 1 ∨ i = 2 ∨ i = 3 ∨ i = 4 ∨ i = 5 ∨ i = 6 ∨ i = 7 := by omega
        rcases this with rfl | rfl | rfl | rfl | rfl | rfl | rfl | rfl <;>
          simp [allLanes]
    rw [this, List.countP_map]
    rfl
  unfold State.applyTaps
  have a := (loop allLanes s).trans (EventDelta.same
    (State.mapWork_events (fun w => { w with liCnt := 8 }) (allLanes.foldl (State.applyLane c R) s)))
  rw [e] at a
  exact a

/-- Steps 4 and 5 write CAL_RESULT of the chip, from the good map, and no other table
(rules R222, R224). -/
theorem decideAndApply_tables (c : ChipId) (s : State) :
    (s.decideAndApply c).tables =
      { s.tables with calResult := s.tables.calResult.set c (decideLanes c s) } := by
  unfold State.decideAndApply
  rw [State.setFsm_tables, (applyTaps_onlyBus c _ _).tables]
  rfl

theorem decideAndApply_rest (c : ChipId) (s : State) :
    (s.decideAndApply c).inst = s.inst ∧ (s.decideAndApply c).ctl = s.ctl ∧
    (s.decideAndApply c).status = s.status ∧ (s.decideAndApply c).env = s.env ∧
    (s.decideAndApply c).port = s.port := by
  unfold State.decideAndApply
  have h := applyTaps_onlyBus c (decideLanes c s)
    ((((s.setFsm .calDecide).mapTables
      (fun T => { T with calResult := T.calResult.set c (decideLanes c s) })).setFsm .calApply))
  refine ⟨?_, ?_, ?_, ?_, ?_⟩
  · rw [State.setFsm_inst, h.inst]
    rfl
  · rw [State.setFsm_ctl, h.ctl]
    rfl
  · rw [State.setFsm_status, h.status]
    rfl
  · rw [State.setFsm_env, h.env]
    rfl
  · rw [State.setFsm_port, h.port]
    rfl

theorem decideAndApply_delta (c : ChipId) (s : State) :
    EventDelta ((decideLanes c s).toList.countP CalResult.determinate * tapWrites s.inst.layout)
      ((decideLanes c s).toList.countP CalResult.determinate) 0 s (s.decideAndApply c) := by
  unfold State.decideAndApply
  have a := applyTaps_delta c (decideLanes c s) ((((s.setFsm .calDecide).mapTables
      (fun T => { T with calResult := T.calResult.set c (decideLanes c s) })).setFsm .calApply))
  have b : EventDelta 0 0 0 s ((((s.setFsm .calDecide).mapTables
      (fun T => { T with calResult := T.calResult.set c (decideLanes c s) })).setFsm .calApply)) :=
    EventDelta.same rfl
  have d := (b.trans a).trans (EventDelta.same (State.setFsm_events .calDone _))
  exact d.cast (by simp only [State.setFsm_inst, State.mapTables_inst]; omega) (by omega) rfl

/-! ## The whole -/

/-- The state in which the probes of a TAP_CAL on chip `c` start: the tables reset for the chip, the deskew
pattern sent (rules R211, R212). -/
def tapCalProbing (c : ChipId) (s : State) : State :=
  (((((s.mapWork (fun w => { w with curChip := chipBits c })).mapTables
    (Tables.tapCalStart c)).setFsm .calPattern).selectPattern .deskew).setFsm .calProbe)

/-- The parts of a TAP_CAL that goes on to its end (rule R210): `s0` and `s31` after the two probes,
`q` after the sweep. -/
structure TapCalParts (c : ChipId) (s t s0 s31 q : State) (A0 A31 : List Samples)
    (Ss : Fin 32 → List Samples) : Prop where
  probe0 : Probed c 0 (tapCalProbing c s) s0 A0
  probe31 : Probed c 31 (s0.mapWork (fun w => { w with acc0 := w.acc })) s31 A31
  sweepRun : sweepTaps c (List.finRange 32)
    (((s31.mapWork (fun w => { w with acc31 := w.acc })).heuristic c).setFsm .calSweep) = .done q
  swept : SweepDone c (List.finRange 32)
    (((s31.mapWork (fun w => { w with acc31 := w.acc })).heuristic c).setFsm .calSweep) q Ss
  final : t = (q.mapWork (fun w => { w with tapCnt := 32 })).decideAndApply c

theorem tapCalBody_done (c : ChipId) (s t : State) (h : tapCalBody c s = .done t) :
    ∃ s0 s31 q A0 A31 Ss, TapCalParts c s t s0 s31 q A0 A31 Ss := by
  unfold tapCalBody at h
  obtain ⟨p, h1, h2⟩ := Run.andThen_eq_done.mp h
  unfold probeExtremes at h1
  obtain ⟨s0, h3, h4⟩ := Run.andThen_eq_done.mp h1
  obtain ⟨s31, h5, h6⟩ := Run.andThen_eq_done.mp h4
  cases h6
  obtain ⟨q', h7, h8⟩ := Run.andThen_eq_done.mp h2
  unfold sweep at h7
  obtain ⟨q, h9, h10⟩ := Run.andThen_eq_done.mp h7
  cases h10
  cases h8
  rcases probeTap_cases c 0 (tapCalProbing c s) with ⟨k, t', -, hr, -⟩ | ⟨t', A0, hr, hp⟩
  · rw [tapCalProbing, h3] at hr
    cases hr
  · rw [tapCalProbing, h3] at hr
    cases hr
    rcases probeTap_cases c 31 (s0.mapWork (fun w => { w with acc0 := w.acc })) with
      ⟨k, t', -, hr, -⟩ | ⟨t', A31, hr, hp'⟩
    · rw [h5] at hr
      cases hr
    · rw [h5] at hr
      cases hr
      obtain ⟨Ss, hs⟩ := sweepTaps_done c _ (List.nodup_finRange 32) _ _ h9
      exact ⟨s0, s31, q, A0, A31, Ss, hp, hp', h9, hs, rfl⟩

/-- A TAP_CAL whose 34 * CFG_ITER captures are scripted successes goes on to its end. -/
theorem tapCalBody_total (c : ChipId) (s : State)
    (h : 34 * s.ctl.cfgIter.toNat ≤ s.env.captures.length ∧
      ∀ a ∈ s.env.captures.take (34 * s.ctl.cfgIter.toNat), a ≠ .fail) :
    ∃ t, tapCalBody c s = .done t := by
  obtain ⟨h1, h2⟩ := h
  have ctl0 : (tapCalProbing c s).ctl = s.ctl := by simp [tapCalProbing]
  have env0 : (tapCalProbing c s).env = s.env := by simp [tapCalProbing]
  have sub : ∀ m n : Nat, m + n ≤ 34 * s.ctl.cfgIter.toNat →
      ∀ a ∈ (s.env.captures.drop m).take n, a ≠ .fail := by
    intro m n hmn a ha
    rw [List.take_drop] at ha
    exact h2 a ((List.take_prefix_take_left hmn).subset (List.mem_of_mem_drop ha))
  obtain ⟨s0, hs0⟩ := probeTap_total c 0 (tapCalProbing c s) (by
    rw [ctl0, env0]
    exact ⟨by omega, fun a ha => sub 0 s.ctl.cfgIter.toNat (by omega) a (by simpa using ha)⟩)
  rcases probeTap_cases c 0 (tapCalProbing c s) with ⟨k, t', -, hr, -⟩ | ⟨t', A0, hr, hp⟩
  · rw [hs0] at hr
    cases hr
  · rw [hs0] at hr
    cases hr
    have ctl1 : (s0.mapWork (fun w => { w with acc0 := w.acc })).ctl = s.ctl := hp.ctl.trans ctl0
    have cap1 : (s0.mapWork (fun w => { w with acc0 := w.acc })).env.captures =
        s.env.captures.drop s.ctl.cfgIter.toNat := by
      rw [State.mapWork_env, hp.captures, env0, ctl0]
    obtain ⟨s31, hs31⟩ := probeTap_total c 31 (s0.mapWork (fun w => { w with acc0 := w.acc })) (by
      rw [ctl1, cap1, List.length_drop]
      exact ⟨by omega, sub _ _ (by omega)⟩)
    rcases probeTap_cases c 31 (s0.mapWork (fun w => { w with acc0 := w.acc })) with
      ⟨k, t', -, hr, -⟩ | ⟨t', A31, hr, hp'⟩
    · rw [hs31] at hr
      cases hr
    · rw [hs31] at hr
      cases hr
      generalize hh : ((s31.mapWork (fun w => { w with acc31 := w.acc })).heuristic c).setFsm
        .calSweep = u
      have heur : ∀ v : State, (v.heuristic c).ctl = v.ctl ∧ (v.heuristic c).env = v.env := by
        intro v
        unfold State.heuristic State.heuristicSlip
        split <;> simp
      have ctl2 : u.ctl = s.ctl := by
        rw [← hh, State.setFsm_ctl, (heur _).1, State.mapWork_ctl, hp'.ctl, ctl1]
      have cap2 : u.env.captures = s.env.captures.drop (2 * s.ctl.cfgIter.toNat) := by
        rw [← hh, State.setFsm_env, (heur _).2, State.mapWork_env, hp'.captures, cap1, ctl1,
          List.drop_drop]
        congr 1
        omega
      obtain ⟨q, hq⟩ := sweepTaps_total c (List.finRange 32) u (by
        rw [ctl2, cap2, List.length_finRange, List.length_drop]
        exact ⟨by omega, sub _ _ (by omega)⟩)
      refine ⟨(q.mapWork (fun w => { w with tapCnt := 32 })).decideAndApply c, ?_⟩
      unfold tapCalBody probeExtremes
      unfold tapCalProbing at hs0
      simp only []
      rw [hs0, Run.done_andThen, hs31, Run.done_andThen, Run.done_andThen, hh]
      unfold sweep
      rw [hq]
      rfl

end Sys2Proof.Machine
end

