-- ==== Sys2Proof/Laws/Events.lean ====
section
/-! SUPPORT. The events of the parts of a command, in the terms of Safety.lean, and where a failed
capture stops a tap calibration (rules R132, R172, R177, R195, R210 to R228). -/

namespace Sys2Proof.Machine

open Sys2Proof.Safety

/-! ## The shared operations -/

/-- The two ways to write the bits of a transaction (rules R132, R133). -/
theorem serialEvents_eq (I : Instance) (m : Byte) (p : RegWrite) :
    serialEvents I m p = (serialWords I m p.addr p.value).map (fun x => Event.memWrite 0 x) := by
  have bits : (List.range 8).map (fun i => p.addr.getLsbD (7 - i)) ++
      (List.range 16).map (fun i => p.value.getLsbD (15 - i)) =
        (List.range 24).map (serialBit p.addr p.value) := by
    rfl
  simp only [serialEvents, bits, serialWords, List.flatMap_map]
  simp [List.map_flatMap]

/-- The events of a list of register writes (rule R132). -/
theorem writeRegisters_serialEvents (ps : List RegWrite) (s : State) :
    (s.writeRegisters ps).events = s.events ++ ps.flatMap (serialEvents s.inst s.ctl.csMask) := by
  rw [State.writeRegisters_events, funext (serialEvents_eq s.inst s.ctl.csMask)]

theorem setDelayTap_delayTapEvents (c : ChipId) (t lm : Byte) (s : State) :
    (s.setDelayTap c t lm).events = s.events ++ delayTapEvents s.inst.layout c t lm :=
  State.setDelayTap_events c t lm s

theorem bitslipPulse_bitslipEvents (c : ChipId) (s : State) :
    (s.bitslipPulse c).events = s.events ++ bitslipEvents s.inst.layout c :=
  State.bitslipPulse_events c s

/-! ## The parts of a tap calibration -/

/-- The events of a probe that goes on (rules R195, R213, R216). -/
theorem Probed.events {c : ChipId} {n : Nat} {s t : State} {Ss : List Samples}
    (h : Probed c n s t Ss) : t.events = s.events ++
      probeEvents s.inst.layout c s.ctl.cfgIter.toNat s.ctl.cfgSnapLen.toNat n := by
  rw [h.only.events, setDelayTap_delayTapEvents, State.mapWork_events, State.mapWork_inst,
    List.append_assoc]
  rfl

/-- The events of the taps of a list, in order (rule R216). -/
theorem sweepTaps_events (c : ChipId) (ts : List (Fin 32)) (s t : State)
    (h : sweepTaps c ts s = .done t) : t.events = s.events ++ ts.flatMap (fun u =>
      probeEvents s.inst.layout c s.ctl.cfgIter.toNat s.ctl.cfgSnapLen.toNat u.val) := by
  induction ts generalizing s with
  | nil =>
    unfold sweepTaps at h
    cases h
    simp
  | cons u ts ih =>
    unfold sweepTaps at h
    obtain ⟨s1, h1, h2⟩ := Run.andThen_eq_done.mp h
    rcases probeTap_cases c u.val s with ⟨k, t', -, hr, -⟩ | ⟨t', Ss, hr, hp⟩
    · rw [hr] at h1
      cases h1
    · rw [hr] at h1
      cases h1
      have e := ih _ h2
      rw [State.mapTables_events, State.mapTables_inst, State.mapTables_ctl, hp.inst, hp.ctl,
        hp.events] at e
      rw [e, List.flatMap_cons, List.append_assoc]

/-- The events of the heuristic (rule R214). -/
theorem heuristic_events (c : ChipId) (s : State) : (s.heuristic c).events = s.events ++
    if straddles s.work.acc0 s.work.acc31 then bitslipEvents s.inst.layout c else [] := by
  unfold State.heuristic
  split
  · unfold State.heuristicSlip
    rw [State.mapTables_events, bitslipPulse_bitslipEvents, State.setFsm_events, State.setFsm_inst]
  · rw [List.append_nil]

/-- The events of step 5 (rule R223). -/
theorem applyTaps_events (c : ChipId) (R : Lanes CalResult) (s : State) :
    (s.applyTaps c R).events = s.events ++ latchEvents s.inst.layout c R := by
  have one : ∀ (s : State) (li : LaneId), (s.applyLane c R li).events = s.events ++
      match R[li] with
      | .tap u => delayTapEvents s.inst.layout c (u.setWidth 8) (1#8 <<< li.val)
      | .none => []
      | .indEmpty => []
      | .indWrapped => [] := by
    intro s li
    unfold State.applyLane
    cases R[li] with
    | tap u => exact setDelayTap_delayTapEvents c _ _ _
    | none => exact (List.append_nil _).symm
    | indEmpty => exact (List.append_nil _).symm
    | indWrapped => exact (List.append_nil _).symm
  have loop : ∀ (l : List LaneId) (s : State), (l.foldl (State.applyLane c R) s).events =
      s.events ++ l.flatMap (fun li =>
        match R[li] with
        | .tap u => delayTapEvents s.inst.layout c (u.setWidth 8) (1#8 <<< li.val)
        | .none => []
        | .indEmpty => []
        | .indWrapped => []) := by
    intro l
    induction l with
    | nil => exact fun s => (List.append_nil _).symm
    | cons x l ih =>
      intro s
      rw [List.foldl_cons, ih, (applyLane_onlyBus c R s x).inst, one, List.flatMap_cons,
        List.append_assoc]
  unfold State.applyTaps
  rw [State.mapWork_events, loop]
  rfl

/-- The events of steps 4 and 5: those of the latches alone (rules R222, R223). -/
theorem decideAndApply_events (c : ChipId) (s : State) : (s.decideAndApply c).events =
    s.events ++ latchEvents s.inst.layout c (decideLanes c s) := by
  unfold State.decideAndApply
  rw [State.setFsm_events, applyTaps_events]
  rfl

/-! ## A whole tap calibration -/

/-- A written bit of a mask reads back, and the other bits are as before (rule R9). -/
theorem writeMaskBit_getLsbD (m : Byte) (c d : ChipId) (v : Bool) :
    (writeMaskBit m c v).getLsbD d.val = if d = c then v else m.getLsbD d.val := by
  unfold writeMaskBit
  cases v <;> fin_cases c <;> fin_cases d <;> simp

/-- The state in which the probes start (rules R211, R212). -/
theorem tapCalProbing_eq (c : ChipId) (s : State) :
    (tapCalProbing c s).inst = s.inst ∧ (tapCalProbing c s).ctl = s.ctl ∧
    (tapCalProbing c s).env = s.env ∧ (tapCalProbing c s).fsm = .calProbe ∧
    (tapCalProbing c s).tables = s.tables.tapCalStart c ∧
    (tapCalProbing c s).events = s.events ++
      s.inst.chipRegs.deskewWrites.flatMap (serialEvents s.inst s.ctl.csMask) := by
  refine ⟨?_, ?_, ?_, ?_, ?_, ?_⟩
  · simp [tapCalProbing]
  · simp [tapCalProbing]
  · simp [tapCalProbing]
  · simp [tapCalProbing]
  · simp [tapCalProbing]
  · unfold tapCalProbing State.selectPattern
    rw [State.setFsm_events, writeRegisters_serialEvents]
    simp [patternWrites]

/-- All that the heuristic does beside its events and its bitslip (rule R214). -/
theorem heuristic_eq (c : ChipId) (s : State) :
    (s.heuristic c).inst = s.inst ∧ (s.heuristic c).ctl = s.ctl ∧ (s.heuristic c).env = s.env ∧
    (s.heuristic c).tables =
      if straddles s.work.acc0 s.work.acc31 then
        { s.tables with heurSlip := writeMaskBit s.tables.heurSlip c true }
      else s.tables := by
  unfold State.heuristic State.heuristicSlip
  split <;> simp

/-- The events of a tap calibration that goes on to its end, by the chip's HEUR_SLIP bit and results
after it (rules R210 to R223). -/
theorem TapCalParts.events {c : ChipId} {s t s0 s31 q : State} {A0 A31 : List Samples}
    {Ss : Fin 32 → List Samples} (P : TapCalParts c s t s0 s31 q A0 A31 Ss) :
    t.events = s.events ++
      tapCalEvents s.inst s.ctl c (t.tables.heurSlip.getLsbD c.val) t.tables.calResult[c] := by
  obtain ⟨pi, pc, -, -, pt, pv⟩ := tapCalProbing_eq c s
  have i0 : s0.inst = s.inst := P.probe0.inst.trans pi
  have c0 : s0.ctl = s.ctl := P.probe0.ctl.trans pc
  have i31 : s31.inst = s.inst := P.probe31.inst.trans i0
  have c31 : s31.ctl = s.ctl := P.probe31.ctl.trans c0
  have t31 : s31.tables = s.tables.tapCalStart c :=
    P.probe31.tables.trans (P.probe0.tables.trans pt)
  obtain ⟨hi, hc, -, ht⟩ := heuristic_eq c (s31.mapWork (fun w => { w with acc31 := w.acc }))
  have qi : q.inst = s.inst := P.swept.inst.trans (hi.trans i31)
  have e0 := P.probe0.events
  have e31 := P.probe31.events
  have eh := heuristic_events c (s31.mapWork (fun w => { w with acc31 := w.acc }))
  have es := sweepTaps_events c _ _ _ P.sweepRun
  have ed := decideAndApply_events c (q.mapWork (fun w => { w with tapCnt := 32 }))
  rw [← P.final] at ed
  simp only [State.mapWork_events, State.mapWork_inst, State.mapWork_ctl, State.setFsm_events,
    State.setFsm_inst, State.setFsm_ctl, pi, pc, i0, c0, i31, hi, hc, c31, qi] at e0 e31 eh es ed
  have slip : t.tables.heurSlip.getLsbD c.val = straddles
      (s31.mapWork (fun w => { w with acc31 := w.acc })).work.acc0
      (s31.mapWork (fun w => { w with acc31 := w.acc })).work.acc31 := by
    have e : t.tables.heurSlip = q.tables.heurSlip := by
      rw [P.final, decideAndApply_tables]
      rfl
    rw [e, P.swept.tables.heurSlip, State.setFsm_tables, ht, State.mapWork_tables, t31]
    split
    · rename_i h
      rw [h]
      exact (writeMaskBit_getLsbD _ c c true).trans (if_pos rfl)
    · rename_i h
      rw [Bool.eq_false_iff.mpr h]
      exact (writeMaskBit_getLsbD _ c c false).trans (if_pos rfl)
  have res : t.tables.calResult[c] = decideLanes c (q.mapWork (fun w => { w with tapCnt := 32 })) := by
    rw [P.final, decideAndApply_tables]
    exact Vector.getElem_set_self c.isLt
  have taps : (List.finRange 32).flatMap (fun u => probeEvents s.inst.layout c s.ctl.cfgIter.toNat
      s.ctl.cfgSnapLen.toNat u.val) = (List.range 32).flatMap
        (probeEvents s.inst.layout c s.ctl.cfgIter.toNat s.ctl.cfgSnapLen.toNat) := rfl
  rw [ed, es, eh, e31, e0, pv, taps, ← slip, ← res]
  simp only [tapCalEvents, List.append_assoc]

/-! ## Where a failed capture stops a tap calibration -/

/-- The information word of a failed capture as a number: the chip, the position and the phase, one above
the other (rule R285). -/
theorem captureInfo_eq (c : ChipId) (f : Fsm) (w : Work) :
    captureInfo c f w = BitVec.ofNat 32 (c.val +
      0x100 * (if f = .syncRound ∨ f = .syncRecheck then w.retry.toNat else w.tapCnt.toNat) +
      0x10000 * f.code.toNat) := by
  have key : ∀ pos : Nat, pos < 64 →
      BitVec.ofNat 32 c.val ||| (BitVec.ofNat 32 pos <<< 8) ||| (f.code.setWidth 32 <<< 16) =
        BitVec.ofNat 32 (c.val + 0x100 * pos + 0x10000 * f.code.toNat) := by
    intro pos hp
    have hc := c.isLt
    have hf := f.code.isLt
    have h1 := Nat.shiftLeft_add_eq_or_of_lt (i := 8) (b := c.val) (by omega) pos
    have h2 := Nat.shiftLeft_add_eq_or_of_lt (i := 16) (b := pos <<< 8 + c.val)
      (by rw [Nat.shiftLeft_eq]; omega) f.code.toNat
    apply BitVec.eq_of_toNat_eq
    rw [BitVec.toNat_or, BitVec.toNat_or, BitVec.toNat_shiftLeft, BitVec.toNat_shiftLeft,
      BitVec.toNat_ofNat, BitVec.toNat_ofNat, BitVec.toNat_setWidth, BitVec.toNat_ofNat,
      Nat.mod_eq_of_lt (show c.val < 2 ^ 32 by omega), Nat.mod_eq_of_lt (show pos < 2 ^ 32 by omega),
      Nat.mod_eq_of_lt (show f.code.toNat < 2 ^ 32 by omega),
      Nat.mod_eq_of_lt (show pos <<< 8 < 2 ^ 32 by rw [Nat.shiftLeft_eq]; omega),
      Nat.mod_eq_of_lt (show f.code.toNat <<< 16 < 2 ^ 32 by rw [Nat.shiftLeft_eq]; omega),
      Nat.or_comm c.val, ← h1, Nat.or_comm _ (f.code.toNat <<< 16), ← h2, Nat.shiftLeft_eq,
      Nat.shiftLeft_eq, Nat.mod_eq_of_lt (by omega)]
    omega
  have small : ∀ {n : Nat} (x : BitVec n), x.setWidth 32 = BitVec.ofNat 32 x.toNat := by
    intro n x
    apply BitVec.eq_of_toNat_eq
    rw [BitVec.toNat_setWidth, BitVec.toNat_ofNat]
  unfold captureInfo
  split
  · rw [small w.retry]
    exact key _ (by have := w.retry.isLt; omega)
  · rw [small w.tapCnt]
    exact key _ (by have := w.tapCnt.isLt; omega)

/-- One capture less, and the script still fails where it did. -/
theorem failsAfter_succ {n : Nat} {l : List CaptureAnswer} (h : FailsAfter (n + 1) l) :
    ∃ raw rest, l = .ok raw :: rest ∧ FailsAfter n rest := by
  obtain ⟨good, rest, rfl, hl, hg⟩ := h
  cases good with
  | nil => simp at hl
  | cons a good =>
    cases a with
    | fail => exact absurd rfl (hg _ (List.mem_cons_self ..))
    | ok raw =>
      refine ⟨raw, good ++ .fail :: rest, rfl, good, rest, rfl, by simpa using hl, ?_⟩
      exact fun a ha => hg a (List.mem_cons_of_mem _ ha)

theorem failsAfter_zero {l : List CaptureAnswer} (h : FailsAfter 0 l) : ∃ rest, l = .fail :: rest := by
  obtain ⟨good, rest, rfl, hl, -⟩ := h
  rw [List.length_eq_zero_iff.mp hl]
  exact ⟨rest, rfl⟩

/-- After the captures that succeed, the script fails as much sooner. -/
theorem failsAfter_drop {n m : Nat} {l : List CaptureAnswer} (h : FailsAfter n l) (hm : m ≤ n) :
    FailsAfter (n - m) (l.drop m) := by
  obtain ⟨good, rest, rfl, hl, hg⟩ := h
  refine ⟨good.drop m, rest, ?_, by rw [List.length_drop, hl],
    fun a ha => hg a (List.mem_of_mem_drop ha)⟩
  rw [List.drop_append_of_le_length (by omega)]

/-- The captures before the failure succeed. -/
theorem failsAfter_succeeds {n m : Nat} {l : List CaptureAnswer} (h : FailsAfter n l) (hm : m ≤ n) :
    m ≤ l.length ∧ ∀ a ∈ l.take m, a ≠ .fail := by
  obtain ⟨good, rest, rfl, hl, hg⟩ := h
  refine ⟨by rw [List.length_append]; omega, ?_⟩
  rw [List.take_append_of_le_length (by omega)]
  exact fun a ha => hg a (List.mem_of_mem_take ha)

/-- An error count aborts at a failed capture (rules R195, R197). -/
theorem countErrors_fails (c : ChipId) (x : Byte) (s : State) (k : Nat)
    (hk : k < s.ctl.cfgIter.toNat) (h : FailsAfter k s.env.captures) :
    ∃ t, countErrors c x s = .abort .captureFailed (captureInfo c s.fsm s.work) t := by
  have loop : ∀ (n k : Nat) (s : State), k < n → FailsAfter k s.env.captures →
      ∃ t, countLoop c x n s = .abort .captureFailed (captureInfo c s.fsm s.work) t := by
    intro n
    induction n with
    | zero => exact fun k s hk => absurd hk (Nat.not_lt_zero k)
    | succ n ih =>
      intro k s hk h
      unfold countLoop captureOrAbort State.nextCapture
      cases k with
      | zero =>
        obtain ⟨rest, hc⟩ := failsAfter_zero h
        rw [State.mapWork_env, hc]
        exact ⟨_, rfl⟩
      | succ k =>
        obtain ⟨raw, rest, hc, h'⟩ := failsAfter_succ h
        rw [State.mapWork_env, hc]
        refine ih k _ (by omega) ?_
        rw [State.mapWork_env, takeCapture_captures, State.mapWork_env, hc]
        exact h'
  unfold countErrors
  exact loop _ k _ hk h

/-- A probe aborts at a failed capture (rules R195, R213, R216). -/
theorem probeTap_fails (c : ChipId) (n : Nat) (s : State) (k : Nat)
    (hk : k < s.ctl.cfgIter.toNat) (h : FailsAfter k s.env.captures) :
    ∃ t, probeTap c n s = .abort .captureFailed
      (captureInfo c s.fsm { s.work with tapCnt := BitVec.ofNat 6 n }) t := by
  unfold probeTap
  have e := countErrors_fails c s.ctl.cfgDeskew
    ((s.mapWork (fun w => { w with tapCnt := BitVec.ofNat 6 n })).setDelayTap c
      (BitVec.ofNat 8 n) 0xFF) k
    (by rw [State.setDelayTap_ctl, State.mapWork_ctl]; exact hk)
    (by rw [State.setDelayTap_env, State.mapWork_env]; exact h)
  rw [State.setDelayTap_fsm, State.mapWork_fsm, State.setDelayTap_work, State.mapWork_work] at e
  exact e

/-- A probe of which all captures are scripted successes goes on, and says so. -/
theorem probeTap_succeeds (c : ChipId) (n : Nat) (s : State)
    (h : s.ctl.cfgIter.toNat ≤ s.env.captures.length ∧
      ∀ a ∈ s.env.captures.take s.ctl.cfgIter.toNat, a ≠ .fail) :
    ∃ t Ss, probeTap c n s = .done t ∧ Probed c n s t Ss := by
  obtain ⟨t, ht⟩ := probeTap_total c n s h
  rcases probeTap_cases c n s with ⟨k, t', -, hr, -⟩ | ⟨t', Ss, hr, hp⟩
  · rw [ht] at hr
    cases hr
  · exact ⟨t', Ss, hr, hp⟩

/-- A sweep aborts at a failed capture: in the tap that has its number (rules R195, R216, R228). -/
theorem sweepTaps_fails (c : ChipId) (ts : List (Fin 32)) (s : State) (k : Nat)
    (hk : k < ts.length * s.ctl.cfgIter.toNat) (h : FailsAfter k s.env.captures) :
    ∃ (w : Work) (t : State), sweepTaps c ts s = .abort .captureFailed (captureInfo c s.fsm w) t ∧
      (ts[k / s.ctl.cfgIter.toNat]?).map (fun u => BitVec.ofNat 6 u.val) = some w.tapCnt := by
  induction ts generalizing s k with
  | nil => simp at hk
  | cons u ts ih =>
    unfold sweepTaps
    by_cases hlt : k < s.ctl.cfgIter.toNat
    · obtain ⟨t, ht⟩ := probeTap_fails c u.val s k hlt h
      rw [ht, Run.abort_andThen, Nat.div_eq_of_lt hlt]
      exact ⟨_, t, rfl, rfl⟩
    · have hle := Nat.le_of_not_lt hlt
      obtain ⟨s1, Ss, h1, hp⟩ := probeTap_succeeds c u.val s (failsAfter_succeeds h hle)
      rw [h1, Run.done_andThen]
      rw [List.length_cons, Nat.succ_mul] at hk
      have ctl1 : (s1.mapTables (Tables.recordTap c u s1.work.acc)).ctl = s.ctl := hp.ctl
      have hk' : k - s.ctl.cfgIter.toNat < ts.length * s.ctl.cfgIter.toNat := by omega
      obtain ⟨w, t, e, hw⟩ := ih _ (k - s.ctl.cfgIter.toNat) (by rw [ctl1]; exact hk')
        (by rw [State.mapTables_env, hp.captures]; exact failsAfter_drop h hle)
      rw [State.mapTables_fsm, hp.fsm] at e
      rw [ctl1] at hw
      refine ⟨w, t, e, ?_⟩
      have pos : 0 < s.ctl.cfgIter.toNat := by
        rcases Nat.eq_zero_or_pos s.ctl.cfgIter.toNat with h0 | h0
        · rw [h0, Nat.mul_zero] at hk'
          exact absurd hk' (Nat.not_lt_zero _)
        · exact h0
      rw [Nat.div_eq_sub_div pos hle, List.getElem?_cons_succ]
      exact hw

/-- A tap calibration aborts at a failed capture among its 34 * CFG_ITER, and the information word says
where (rules R195, R197, R228, R285). -/
theorem tapCalBody_fails (c : ChipId) (s : State) (k : Nat) (hk : k < 34 * s.ctl.cfgIter.toNat)
    (h : FailsAfter k s.env.captures) :
    ∃ t, tapCalBody c s = .abort .captureFailed (tapCalFailure c (k / s.ctl.cfgIter.toNat)) t := by
  have pos : 0 < s.ctl.cfgIter.toNat := by omega
  obtain ⟨-, pc, pe, pf, -, -⟩ := tapCalProbing_eq c s
  have info : ∀ (f : Fsm) (w : Work) (n : Nat), n < 32 → f = .calProbe ∨ f = .calSweep →
      w.tapCnt = BitVec.ofNat 6 n →
      captureInfo c f w = BitVec.ofNat 32 (c.val + 0x100 * n + 0x10000 * f.code.toNat) := by
    intro f w n hn hf hw
    have hw' : w.tapCnt.toNat = n := by rw [hw, BitVec.toNat_ofNat, Nat.mod_eq_of_lt (by omega)]
    rw [captureInfo_eq, if_neg (by rcases hf with rfl | rfl <;> decide), hw']
  unfold tapCalBody probeExtremes
  by_cases h0 : k < s.ctl.cfgIter.toNat
  · obtain ⟨t, ht⟩ := probeTap_fails c 0 (tapCalProbing c s) k (by rw [pc]; exact h0)
      (by rw [pe]; exact h)
    rw [pf, info .calProbe _ 0 (by decide) (.inl rfl) rfl] at ht
    unfold tapCalProbing at ht
    refine ⟨t, ?_⟩
    simp only [ht, Run.abort_andThen, Nat.div_eq_of_lt h0]
    rfl
  · obtain ⟨s0, A0, h1, p0⟩ := probeTap_succeeds c 0 (tapCalProbing c s)
      (by rw [pc, pe]; exact failsAfter_succeeds h (by omega))
    have c0 : (s0.mapWork (fun w => { w with acc0 := w.acc })).ctl = s.ctl := p0.ctl.trans pc
    have f0 : (s0.mapWork (fun w => { w with acc0 := w.acc })).fsm = .calProbe := p0.fsm.trans pf
    have h' : FailsAfter (k - s.ctl.cfgIter.toNat)
        (s0.mapWork (fun w => { w with acc0 := w.acc })).env.captures := by
      rw [State.mapWork_env, p0.captures, pc, pe]
      exact failsAfter_drop h (by omega)
    have d1 := Nat.div_eq_sub_div pos (Nat.le_of_not_lt h0)
    unfold tapCalProbing at h1
    by_cases h31 : k < 2 * s.ctl.cfgIter.toNat
    · obtain ⟨t, ht⟩ := probeTap_fails c 31 (s0.mapWork (fun w => { w with acc0 := w.acc })) _
        (by rw [c0]; omega) h'
      rw [f0, info .calProbe _ 31 (by decide) (.inl rfl) rfl] at ht
      refine ⟨t, ?_⟩
      rw [Nat.div_eq_of_lt (show k - s.ctl.cfgIter.toNat < s.ctl.cfgIter.toNat by omega)] at d1
      simp only [h1, Run.done_andThen, ht, Run.abort_andThen, d1]
      rfl
    · obtain ⟨s31, A31, h2, p31⟩ := probeTap_succeeds c 31
        (s0.mapWork (fun w => { w with acc0 := w.acc }))
        (by rw [c0]; exact failsAfter_succeeds h' (by omega))
      obtain ⟨-, hc, he, -⟩ := heuristic_eq c (s31.mapWork (fun w => { w with acc31 := w.acc }))
      have c2 : (((s31.mapWork (fun w => { w with acc31 := w.acc })).heuristic c).setFsm
          .calSweep).ctl = s.ctl := hc.trans (p31.ctl.trans c0)
      have e2 : FailsAfter (k - s.ctl.cfgIter.toNat - s.ctl.cfgIter.toNat)
          (((s31.mapWork (fun w => { w with acc31 := w.acc })).heuristic c).setFsm
            .calSweep).env.captures := by
        rw [State.setFsm_env, he, State.mapWork_env, p31.captures, c0]
        exact failsAfter_drop h' (by omega)
      obtain ⟨w, t, ht, hw⟩ := sweepTaps_fails c (List.finRange 32) _ _
        (by rw [c2, List.length_finRange]; omega) e2
      have d2 := Nat.div_eq_sub_div pos (show s.ctl.cfgIter.toNat ≤ k - s.ctl.cfgIter.toNat by omega)
      rw [c2] at hw
      have lt : k / s.ctl.cfgIter.toNat < 34 := Nat.div_lt_of_lt_mul (by rw [Nat.mul_comm]; exact hk)
      have hlt : (k - s.ctl.cfgIter.toNat - s.ctl.cfgIter.toNat) / s.ctl.cfgIter.toNat < 32 := by
        omega
      rw [List.getElem?_eq_getElem (by rw [List.length_finRange]; exact hlt), List.getElem_finRange,
        Option.map_some, Option.some_inj] at hw
      rw [State.setFsm_fsm, info .calSweep w _ hlt (.inr rfl) hw.symm] at ht
      unfold sweep
      refine ⟨t, ?_⟩
      simp only [h1, Run.done_andThen, h2, ht, Run.abort_andThen]
      unfold tapCalFailure
      generalize (k - s.ctl.cfgIter.toNat - s.ctl.cfgIter.toNat) / s.ctl.cfgIter.toNat = p at d2
      have d : k / s.ctl.cfgIter.toNat = p + 2 := by omega
      rw [d, if_neg (show ¬ p + 2 = 0 by omega), if_neg (show ¬ p + 2 = 1 by omega),
        if_neg (show ¬ p + 2 < 2 by omega), Nat.add_sub_cancel]
      rfl

end Sys2Proof.Machine
end

