-- ==== Sys2Proof/Laws/Sync.lean ====
section
/-! SUPPORT. The synchronization of one chip, with all that it can do (rules R240 to R247). -/

namespace Sys2Proof.Machine

open Sys2Proof.Safety

/-- The comparison of R241 is equality of bytes (rules R192, R241). -/
theorem frameMatches_iff (S : Samples) (x : Byte) (h : ∀ ch : Fin 4, (S[ch]).length = 1) :
    frameMatches S x = true ↔ firstSamplesAre S x := by
  have one : ∀ ch : Fin 4, sampleMatches ((S[ch]).headD 0) x = true ↔ (S[ch]).head? = some x := by
    intro ch
    obtain ⟨b, hb⟩ := List.length_eq_one_iff.mp (h ch)
    rw [hb, List.headD_cons, List.head?_cons, Option.some_inj]
    unfold sampleMatches
    rw [decide_eq_true_eq]
    exact ⟨sext8_injective, fun e => e ▸ rfl⟩
  unfold frameMatches firstSamplesAre
  rw [List.all_eq_true]
  constructor
  · intro hall ch
    refine (one ch).mp (hall ch ?_)
    revert ch
    decide
  · exact fun hall ch _ => (one ch).mpr (hall ch)

/-- From `s` to `t`, in the synchronization of chip `c`, `k` bitslips and `k + 1` captures of one sample, in
turn; of the block's registers only the phase, the working registers and SYNC_STATUS may differ
(rules R240, R242). -/
structure SyncSpan (c : ChipId) (k : Nat) (s t : State) : Prop where
  inst : t.inst = s.inst
  ctl : t.ctl = s.ctl
  status : t.status = s.status
  response : t.response = s.response
  port : t.port = s.port
  programmed : t.env.programmed = s.env.programmed
  word0 : t.env.word0 = s.env.word0
  captures : t.env.captures = s.env.captures.drop (k + 1)
  events : t.events = s.events ++ syncChipEvents s.inst.layout c k
  slips : InstanceOk s.inst → c.val < s.inst.nchips →
    ∀ d : ChipId, t.board.slips[d] = s.board.slips[d] + if d = c then k else 0

/-- The state in which capture number `k` is asked for, in the phase `f` (rule R240). -/
def syncAsking (f : Fsm) (k : Nat) (s : State) : State :=
  (s.setFsm f).mapWork (fun w => { w with retry := BitVec.ofNat 5 k })

theorem syncRounds_zero (c : ChipId) (s : State) : syncRounds c 0 s =
    captureOrAbort c 1 (syncAsking .syncRecheck s.inst.syncRetries s) (fun S s' =>
      .done (s'.setSyncStatus c (if frameMatches S s'.ctl.cfgSync then .synced else .unsynced))) :=
  rfl

theorem syncRounds_succ (c : ChipId) (j : Nat) (s : State) : syncRounds c (j + 1) s =
    captureOrAbort c 1 (syncAsking .syncRound (s.inst.syncRetries - (j + 1)) s) (fun S s' =>
      if frameMatches S s'.ctl.cfgSync then .done (s'.setSyncStatus c .synced)
      else syncRounds c j (s'.bitslipPulse c)) :=
  rfl

/-- One capture. -/
theorem SyncSpan.one (c : ChipId) (s : State) (f : Fsm) (k : Nat) :
    SyncSpan c 0 s ((syncAsking f k s).takeCapture c 1) := by
  constructor <;> first | rfl | simp [syncChipEvents, syncAsking]

/-- One more capture and bitslip before. -/
theorem SyncSpan.before {c : ChipId} {k : Nat} {s u t : State} (h : SyncSpan c 0 s u)
    (h' : SyncSpan c k (u.bitslipPulse c) t) : SyncSpan c (k + 1) s t := by
  constructor
  · rw [h'.inst, State.bitslipPulse_inst, h.inst]
  · rw [h'.ctl, State.bitslipPulse_ctl, h.ctl]
  · rw [h'.status, State.bitslipPulse_status, h.status]
  · rw [h'.response, State.bitslipPulse_response, h.response]
  · rw [h'.port, State.bitslipPulse_port, h.port]
  · rw [h'.programmed, State.bitslipPulse_env, h.programmed]
  · rw [h'.word0, State.bitslipPulse_env, h.word0]
  · rw [h'.captures, State.bitslipPulse_env, h.captures, List.drop_drop]
    congr 1
    omega
  · rw [h'.events, bitslipPulse_bitslipEvents, State.bitslipPulse_inst, h.events, h.inst]
    simp [syncChipEvents, List.replicate_succ]
  · intro hI hc d
    rw [h'.slips (by rw [State.bitslipPulse_inst, h.inst]; exact hI)
      (by rw [State.bitslipPulse_inst, h.inst]; exact hc) d,
      bitslipPulse_slips c u (by rw [h.inst]; exact hI) (by rw [h.inst]; exact hc), h.slips hI hc d]
    by_cases hd : d = c
    · simp only [hd, if_true]
      omega
    · simp only [hd, if_false]

/-- After an update of SYNC_STATUS. -/
theorem SyncSpan.set {c : ChipId} {k : Nat} {s t : State} (h : SyncSpan c k s t) (v : SyncStatus) :
    SyncSpan c k s (t.setSyncStatus c v) := by
  obtain ⟨h1, h2, h3, h4, h5, h6, h7, h8, h9, h10⟩ := h
  exact ⟨h1, h2, h3, h4, h5, h6, h7, h8, h9, h10⟩

/-- The phase of capture number `k` (rule R240). -/
def syncPhase (I : Instance) (k : Nat) : Fsm := if k < I.syncRetries then .syncRound else .syncRecheck

/-- The information word of its failure (rule R285). -/
theorem captureInfo_asking {f : Fsm} {k : Nat} (I : Instance) (c : ChipId) (s : State) (hk : k < 32)
    (hf : f = syncPhase I k) :
    captureInfo c (syncAsking f k s).fsm (syncAsking f k s).work = syncFailure I c k := by
  have hr : (syncAsking f k s).work.retry.toNat = k := by
    show (BitVec.ofNat 5 k).toNat = k
    rw [BitVec.toNat_ofNat, Nat.mod_eq_of_lt (by omega)]
  rw [captureInfo_eq, hr, show (syncAsking f k s).fsm = f from rfl, hf]
  unfold syncPhase syncFailure
  split <;> rfl

/-- All the synchronization of a chip can do, `j` rounds before its end: it aborts at a failed capture,
after `k` bitslips, or it goes on after `k` bitslips with SYNCED or UNSYNCED, and SYNCED where it did
not use up its rounds (rules R240, R241, R242). -/
theorem syncRounds_cases (c : ChipId) (j : Nat) (s : State) (hj : j ≤ s.inst.syncRetries)
    (h32 : s.inst.syncRetries < 32) :
    (∃ k t, k ≤ j ∧ syncRounds c j s =
        .abort .captureFailed (syncFailure s.inst c (s.inst.syncRetries - j + k)) t ∧
      SyncSpan c k s t ∧ t.tables = s.tables) ∨
    (∃ k t v, k ≤ j ∧ syncRounds c j s = .done t ∧ SyncSpan c k s t ∧
      t.tables = { s.tables with syncStatus := s.tables.syncStatus.set c v } ∧
      v ≠ .notAttempted ∧ (k < j → v = .synced)) := by
  induction j generalizing s with
  | zero =>
    have first := SyncSpan.one c s .syncRecheck s.inst.syncRetries
    rcases captureOrAbort_cases c 1 (syncAsking .syncRecheck s.inst.syncRetries s) (fun S s' =>
        .done (s'.setSyncStatus c
          (if frameMatches S s'.ctl.cfgSync then .synced else .unsynced))) with ⟨-, e⟩ | ⟨S, -, e⟩
    · refine .inl ⟨0, _, Nat.le_refl 0, ?_, first, rfl⟩
      rw [syncRounds_zero, e, Nat.sub_zero, Nat.add_zero,
        captureInfo_asking s.inst c s h32 (if_neg (Nat.lt_irrefl _)).symm]
    · refine .inr ⟨0, _, _, Nat.le_refl 0, (syncRounds_zero c s).trans e, first.set _, rfl, ?_,
        fun h => absurd h (Nat.lt_irrefl 0)⟩
      split <;> decide
  | succ j ih =>
    have first := SyncSpan.one c s .syncRound (s.inst.syncRetries - (j + 1))
    rcases captureOrAbort_cases c 1 (syncAsking .syncRound (s.inst.syncRetries - (j + 1)) s)
        (fun S s' => if frameMatches S s'.ctl.cfgSync then .done (s'.setSyncStatus c .synced)
          else syncRounds c j (s'.bitslipPulse c)) with ⟨-, e⟩ | ⟨S, -, e⟩
    · refine .inl ⟨0, _, Nat.zero_le _, ?_, first, rfl⟩
      rw [syncRounds_succ, e, captureInfo_asking s.inst c s (by omega) (if_pos (by omega)).symm]
      rfl
    · have tab1 : ((syncAsking .syncRound (s.inst.syncRetries - (j + 1)) s).takeCapture c 1).tables =
          s.tables := rfl
      rw [syncRounds_succ, e]
      generalize (syncAsking .syncRound (s.inst.syncRetries - (j + 1)) s).takeCapture c 1 = u
        at first tab1
      split
      · refine .inr ⟨0, _, .synced, Nat.zero_le _, rfl, first.set _, ?_, by decide, fun _ => rfl⟩
        rw [← tab1]
        rfl
      · have hin : (u.bitslipPulse c).inst = s.inst := by rw [State.bitslipPulse_inst, first.inst]
        have htab : (u.bitslipPulse c).tables = s.tables := by rw [State.bitslipPulse_tables, tab1]
        have next := ih (u.bitslipPulse c) (by rw [hin]; omega) (by rw [hin]; exact h32)
        rw [hin, htab] at next
        rcases next with ⟨k, t, hk, hr, hs, ht⟩ | ⟨k, t, v, hk, hr, hs, ht, hv, hv'⟩
        · refine .inl ⟨k + 1, t, by omega, ?_, first.before hs, ht⟩
          rw [hr]
          congr 2
          omega
        · exact .inr ⟨k + 1, t, v, by omega, hr, first.before hs, ht, hv, fun h => hv' (by omega)⟩

/-- All `SyncChip(c)` can do (rules R240, R242, R243, R247). -/
theorem syncChip_cases (c : ChipId) (s : State) (h32 : s.inst.syncRetries < 32) :
    (∃ k t, k ≤ s.inst.syncRetries ∧
      syncChip c s = .abort .captureFailed (syncFailure s.inst c k) t ∧
      SyncSpan c k s t ∧ t.tables = s.tables) ∨
    (∃ k t v, k ≤ s.inst.syncRetries ∧ syncChip c s = .done t ∧ SyncSpan c k s t ∧
      t.tables = { s.tables with syncStatus := s.tables.syncStatus.set c v } ∧
      v ≠ .notAttempted ∧ (k < s.inst.syncRetries → v = .synced)) := by
  have cast : ∀ {k : Nat} {t : State},
      SyncSpan c k (s.mapWork (fun w => { w with curChip := chipBits c })) t → SyncSpan c k s t := by
    intro k t h
    obtain ⟨h1, h2, h3, h4, h5, h6, h7, h8, h9, h10⟩ := h
    exact ⟨h1, h2, h3, h4, h5, h6, h7, h8, h9, h10⟩
  unfold syncChip
  rcases syncRounds_cases c s.inst.syncRetries
      (s.mapWork (fun w => { w with curChip := chipBits c })) (Nat.le_refl _) h32 with
    ⟨k, t, hk, hr, hs, ht⟩ | ⟨k, t, v, hk, hr, hs, ht, hv, hv'⟩
  · refine .inl ⟨k, t, hk, ?_, cast hs, ht⟩
    rw [hr, State.mapWork_inst, Nat.sub_self, Nat.zero_add]
  · exact .inr ⟨k, t, v, hk, hr, cast hs, ht, hv, hv'⟩

/-! ## Chip after chip -/

/-- From `s` to `t`, the whole synchronizations of the chips `cs`, with `n c` bitslips for chip `c`: each of
them is SYNCED, or UNSYNCED with all its retries used up (rules R240, R243). -/
structure SyncedEach (n : ChipId → Nat) (cs : List ChipId) (s t : State) : Prop where
  inst : t.inst = s.inst
  ctl : t.ctl = s.ctl
  status : t.status = s.status
  port : t.port = s.port
  retries : ∀ c ∈ cs, n c ≤ s.inst.syncRetries
  events : t.events = s.events ++ cs.flatMap (fun c => syncChipEvents s.inst.layout c (n c))
  others : ∃ v, t.tables = { s.tables with syncStatus := v }
  attempted : ∀ c ∈ cs, t.tables.syncStatus[c] ≠ .notAttempted ∧
    (n c < s.inst.syncRetries → t.tables.syncStatus[c] = .synced)
  rest : ∀ c : ChipId, c ∉ cs → t.tables.syncStatus[c] = s.tables.syncStatus[c]
  slips : InstanceOk s.inst → (∀ c ∈ cs, c.val < s.inst.nchips) →
    ∀ c : ChipId, t.board.slips[c] = s.board.slips[c] + if c ∈ cs then n c else 0

theorem SyncedEach.nil (n : ChipId → Nat) (s : State) : SyncedEach n [] s s := by
  constructor <;> first | rfl | exact ⟨_, rfl⟩ | simp

/-- The rows of SYNC_STATUS beside the one that is written. -/
theorem setSync_other (v : Chips SyncStatus) (c d : ChipId) (x : SyncStatus) (h : d ≠ c) :
    (v.set c x)[d] = v[d] :=
  Vector.getElem_set_ne c.isLt d.isLt (fun e => h (Fin.ext e.symm))

/-- One chip before. -/
theorem SyncedEach.cons {n : ChipId → Nat} {c : ChipId} {cs : List ChipId} {s u t : State}
    {v : SyncStatus} (hn : c ∉ cs) (hk : n c ≤ s.inst.syncRetries) (h : SyncSpan c (n c) s u)
    (ht : u.tables = { s.tables with syncStatus := s.tables.syncStatus.set c v })
    (hv : v ≠ .notAttempted) (hv' : n c < s.inst.syncRetries → v = .synced)
    (r : SyncedEach n cs u t) : SyncedEach n (c :: cs) s t := by
  have row : t.tables.syncStatus[c] = v := by
    rw [r.rest c hn, ht]
    exact Vector.getElem_set_self c.isLt
  constructor
  · rw [r.inst, h.inst]
  · rw [r.ctl, h.ctl]
  · rw [r.status, h.status]
  · rw [r.port, h.port]
  · intro d hd
    rcases List.mem_cons.mp hd with rfl | hd
    · exact hk
    · rw [← h.inst]
      exact r.retries d hd
  · rw [r.events, h.events, h.inst, List.flatMap_cons, List.append_assoc]
  · obtain ⟨w, hw⟩ := r.others
    exact ⟨w, by rw [hw, ht]⟩
  · intro d hd
    rcases List.mem_cons.mp hd with rfl | hd
    · rw [row]
      exact ⟨hv, hv'⟩
    · rw [← h.inst]
      exact r.attempted d hd
  · intro d hd
    rw [r.rest d (fun e => hd (List.mem_cons_of_mem _ e)), ht]
    exact setSync_other _ _ _ _ (fun e => hd (e ▸ List.mem_cons_self ..))
  · intro hI hc d
    rw [r.slips (by rw [h.inst]; exact hI)
      (fun e he => by rw [h.inst]; exact hc e (List.mem_cons_of_mem _ he)) d,
      h.slips hI (hc c (List.mem_cons_self ..)) d]
    by_cases hd : d = c
    · subst hd
      rw [if_pos rfl, if_neg hn, if_pos (List.mem_cons_self ..), Nat.add_zero]
    · rw [if_neg hd, Nat.add_zero]
      simp only [List.mem_cons, hd, false_or]

/-- All the synchronization of a list of chips can do: it goes on to the end of the list, or it aborts at
a failed capture of one of its chips, after those before it (rules R243, R247). -/
theorem syncEach_cases (cs : List ChipId) (hd : cs.Nodup) (s : State)
    (h32 : s.inst.syncRetries < 32) :
    (∃ n t, syncEach cs s = .done t ∧ SyncedEach n cs s t) ∨
    (∃ n pre c post k u t, cs = pre ++ c :: post ∧ k ≤ s.inst.syncRetries ∧
      syncEach cs s = .abort .captureFailed (syncFailure s.inst c k) t ∧
      SyncedEach n pre s u ∧ SyncSpan c k u t ∧ t.tables = u.tables) := by
  induction cs generalizing s with
  | nil => exact .inl ⟨fun _ => 0, s, rfl, SyncedEach.nil _ s⟩
  | cons c cs ih =>
    obtain ⟨hn, hd'⟩ := List.nodup_cons.mp hd
    have other : ∀ (n : ChipId → Nat) (k : Nat) (l : List ChipId), c ∉ l → ∀ {u t : State},
        SyncedEach n l u t → SyncedEach (fun d => if d = c then k else n d) l u t := by
      intro n k l hl u t h
      have e : ∀ d ∈ l, (if d = c then k else n d) = n d :=
        fun d hd => if_neg (fun e : d = c => hl (e ▸ hd))
      obtain ⟨h1, h2, h3, h4, h5, h6, h7, h8, h9, h10⟩ := h
      refine ⟨h1, h2, h3, h4, ?_, ?_, h7, ?_, h9, ?_⟩
      · exact fun d hd => by rw [e d hd]; exact h5 d hd
      · rw [h6]
        congr 1
        refine List.flatMap_congr ?_
        intro d hd
        rw [e d hd]
      · exact fun d hd => by rw [e d hd]; exact h8 d hd
      · intro hI hc d
        rw [h10 hI hc d]
        by_cases hm : d ∈ l
        · rw [if_pos hm, if_pos hm, e d hm]
        · rw [if_neg hm, if_neg hm]
    unfold syncEach
    rcases syncChip_cases c s h32 with ⟨k, t, hk, hr, hs, ht⟩ | ⟨k, u, v, hk, hr, hs, ht, hv, hv'⟩
    · refine .inr ⟨fun _ => 0, [], c, cs, k, s, t, rfl, hk, ?_, SyncedEach.nil _ s, hs, ht⟩
      rw [hr, Run.abort_andThen]
    · rw [hr, Run.done_andThen]
      rcases ih hd' u (by rw [hs.inst]; exact h32) with
        ⟨n, t, hr', hs'⟩ | ⟨n, pre, d, post, j, w, t, hcs, hj, hr', hs', hw, hwt⟩
      · refine .inl ⟨fun d => if d = c then k else n d, t, hr', ?_⟩
        exact SyncedEach.cons (v := v) hn (by rw [if_pos rfl]; exact hk) (by rw [if_pos rfl]; exact hs)
          ht hv (by rw [if_pos rfl]; exact hv') (other n k cs hn hs')
      · have hn' : c ∉ pre := fun e => hn (by rw [hcs]; exact List.mem_append_left _ e)
        refine .inr ⟨fun d => if d = c then k else n d, c :: pre, d, post, j, w, t, by rw [hcs]; rfl,
          by rw [← hs.inst]; exact hj, by rw [hr', hs.inst], ?_, hw, hwt⟩
        exact SyncedEach.cons (v := v) hn' (by rw [if_pos rfl]; exact hk)
          (by rw [if_pos rfl]; exact hs) ht hv (by rw [if_pos rfl]; exact hv') (other n k pre hn' hs')

/-! ## With scripted captures -/

/-- A capture of the next scripted frame of one sample. -/
theorem syncAsking_scripted (c : ChipId) (f : Fsm) (n : Nat) (s : State) (k : Samples → State → Run)
    (S : Samples) (rest : List CaptureAnswer) (hc : s.env.captures = .ok S :: rest)
    (h : ∀ ch : Fin 4, (S[ch]).length = 1) :
    captureOrAbort c 1 (syncAsking f n s) k = k S ((syncAsking f n s).takeCapture c 1) := by
  unfold captureOrAbort
  rw [nextCapture_ok c 1 (syncAsking f n s) S rest hc, fullSamples_eq _ _ _ h]

/-- After frames that do not match, a failed capture aborts the synchronization (rules R240, R247). -/
theorem syncRounds_fails (c : ChipId) (j : Nat) (s : State) (bad : List Samples)
    (rest : List CaptureAnswer) (hj : j ≤ s.inst.syncRetries) (h32 : s.inst.syncRetries < 32)
    (hl : bad.length ≤ j) (hs : ∀ S ∈ bad, ∀ ch : Fin 4, (S[ch]).length = 1)
    (hb : ∀ S ∈ bad, ¬ firstSamplesAre S s.ctl.cfgSync)
    (hc : s.env.captures = bad.map .ok ++ .fail :: rest) :
    ∃ t, syncRounds c j s = .abort .captureFailed
      (syncFailure s.inst c (s.inst.syncRetries - j + bad.length)) t := by
  induction bad generalizing j s with
  | nil =>
    have hf : ∀ f k, (syncAsking f k s).nextCapture c 1 = .fail := by
      intro f k
      unfold State.nextCapture syncAsking
      rw [State.mapWork_env, State.setFsm_env, hc]
      rfl
    rw [List.length_nil, Nat.add_zero]
    cases j with
    | zero =>
      rw [syncRounds_zero, captureOrAbort, hf, Nat.sub_zero]
      exact ⟨_, by rw [captureInfo_asking s.inst c s h32 (if_neg (Nat.lt_irrefl _)).symm]⟩
    | succ j =>
      rw [syncRounds_succ, captureOrAbort, hf]
      exact ⟨_, by rw [captureInfo_asking s.inst c s (by omega) (if_pos (by omega)).symm]⟩
  | cons S bad ih =>
    cases j with
    | zero => simp at hl
    | succ j =>
      have hS := hs S (List.mem_cons_self ..)
      rw [syncRounds_succ, syncAsking_scripted c _ _ s _ S (bad.map .ok ++ .fail :: rest)
        (by rw [hc]; rfl) hS]
      have first := SyncSpan.one c s .syncRound (s.inst.syncRetries - (j + 1))
      generalize (syncAsking .syncRound (s.inst.syncRetries - (j + 1)) s).takeCapture c 1 = u at first
      rw [first.ctl, if_neg (fun e => hb S (List.mem_cons_self ..) ((frameMatches_iff S _ hS).mp e))]
      have hin : (u.bitslipPulse c).inst = s.inst := by rw [State.bitslipPulse_inst, first.inst]
      have hct : (u.bitslipPulse c).ctl = s.ctl := by rw [State.bitslipPulse_ctl, first.ctl]
      obtain ⟨t, ht⟩ := ih j (u.bitslipPulse c) (by rw [hin]; omega) (by rw [hin]; exact h32)
        (by simpa using hl) (fun S' h' => hs S' (List.mem_cons_of_mem _ h'))
        (by rw [hct]; exact fun S' h' => hb S' (List.mem_cons_of_mem _ h'))
        (by rw [State.bitslipPulse_env, first.captures, hc]; rfl)
      rw [hin] at ht
      refine ⟨t, ht.trans ?_⟩
      rw [List.length_cons]
      congr 2
      omega

/-- The frames of a whole synchronization, and the script goes on after them (rules R240, R241). -/
theorem syncRounds_scripted (c : ChipId) (j : Nat) (s : State) (frames : List Samples)
    (rest : List CaptureAnswer) (hf : SyncFrames j s.ctl.cfgSync frames)
    (hs : ∀ S ∈ frames, ∀ ch : Fin 4, (S[ch]).length = 1)
    (hc : s.env.captures = frames.map .ok ++ rest) :
    ∃ t, syncRounds c j s = .done t ∧ t.env.captures = rest := by
  obtain ⟨bad, last, rfl, hl, hb, hlast⟩ := hf
  induction bad generalizing j s with
  | nil =>
    have hS := hs last (by simp)
    cases j with
    | zero =>
      rw [syncRounds_zero, syncAsking_scripted c _ _ s _ last rest hc hS]
      refine ⟨_, rfl, ?_⟩
      exact congrArg List.tail hc
    | succ j =>
      rw [syncRounds_succ, syncAsking_scripted c _ _ s _ last rest hc hS]
      have first := SyncSpan.one c s .syncRound (s.inst.syncRetries - (j + 1))
      rw [first.ctl,
        if_pos ((frameMatches_iff last _ hS).mpr (hlast.resolve_right (by simp)))]
      refine ⟨_, rfl, ?_⟩
      exact congrArg List.tail hc
  | cons S bad ih =>
    cases j with
    | zero => simp at hl
    | succ j =>
      have hS := hs S (by simp)
      rw [syncRounds_succ, syncAsking_scripted c _ _ s _ S ((bad ++ [last]).map .ok ++ rest)
        (by rw [hc]; rfl) hS]
      have first := SyncSpan.one c s .syncRound (s.inst.syncRetries - (j + 1))
      generalize (syncAsking .syncRound (s.inst.syncRetries - (j + 1)) s).takeCapture c 1 = u at first
      rw [first.ctl, if_neg (fun e => hb S (List.mem_cons_self ..) ((frameMatches_iff S _ hS).mp e))]
      have hct : (u.bitslipPulse c).ctl = s.ctl := by rw [State.bitslipPulse_ctl, first.ctl]
      refine ih j (u.bitslipPulse c) (fun S' h' => hs S' (List.mem_cons_of_mem _ h')) ?_
        (by simpa using hl) ?_ ?_
      · rw [State.bitslipPulse_env, first.captures, hc]
        rfl
      · rw [hct]
        exact fun S' h' => hb S' (List.mem_cons_of_mem _ h')
      · rw [hct]
        simpa using hlast

/-- The synchronization of a list of chips aborts at a failed capture (rules R240, R243, R247). -/
theorem syncEach_fails (pre post : List ChipId) (c : ChipId) (frames : ChipId → List Samples)
    (bad : List Samples) (rest : List CaptureAnswer) (s : State) (h32 : s.inst.syncRetries < 32)
    (hs : ∀ S ∈ pre.flatMap frames ++ bad, ∀ ch : Fin 4, (S[ch]).length = 1)
    (hf : ∀ d ∈ pre, SyncFrames s.inst.syncRetries s.ctl.cfgSync (frames d))
    (hb : ∀ S ∈ bad, ¬ firstSamplesAre S s.ctl.cfgSync) (hl : bad.length ≤ s.inst.syncRetries)
    (hc : s.env.captures = (pre.flatMap frames ++ bad).map .ok ++ .fail :: rest) :
    ∃ t, syncEach (pre ++ c :: post) s =
      .abort .captureFailed (syncFailure s.inst c bad.length) t := by
  induction pre generalizing s with
  | nil =>
    obtain ⟨t, ht⟩ := syncRounds_fails c s.inst.syncRetries
      (s.mapWork (fun w => { w with curChip := chipBits c })) bad rest (Nat.le_refl _) h32 hl hs hb hc
    rw [State.mapWork_inst, Nat.sub_self, Nat.zero_add] at ht
    refine ⟨t, ?_⟩
    rw [List.nil_append, syncEach, syncChip, ht, Run.abort_andThen]
  | cons d pre ih =>
    obtain ⟨u, hu, hcap⟩ := syncRounds_scripted d s.inst.syncRetries
      (s.mapWork (fun w => { w with curChip := chipBits d })) (frames d)
      ((pre.flatMap frames ++ bad).map .ok ++ .fail :: rest) (hf d (List.mem_cons_self ..))
      (fun S hS => hs S (by simp [hS])) (by rw [State.mapWork_env, hc]; simp)
    have hin : u.inst = s.inst ∧ u.ctl = s.ctl := by
      rcases syncChip_cases d s h32 with ⟨k, t, -, hr, -⟩ | ⟨k, t, v, -, hr, hs', -⟩
      · rw [syncChip, hu] at hr
        cases hr
      · rw [syncChip, hu] at hr
        cases hr
        exact ⟨hs'.inst, hs'.ctl⟩
    obtain ⟨t, ht⟩ := ih u (by rw [hin.1]; exact h32)
      (fun S hS => hs S (by
        rw [List.flatMap_cons, List.append_assoc]
        exact List.mem_append_right _ hS))
      (by rw [hin.1, hin.2]; exact fun e he => hf e (List.mem_cons_of_mem _ he))
      (by rw [hin.2]; exact hb) (by rw [hin.1]; exact hl) hcap
    rw [hin.1] at ht
    refine ⟨t, ?_⟩
    rw [List.cons_append, syncEach, syncChip, hu, Run.done_andThen, ht]

end Sys2Proof.Machine
end

