-- ==== Sys2Proof/Laws/Calibrate.lean ====
section
/-! SUPPORT. The chips of a mask, and the tap calibrations of a list of chips (rules R105, R253,
R254). -/

namespace Sys2Proof.Machine

open Sys2Proof.Safety

/-! ## The chips of a mask -/

/-- Every chip position, in ascending order. -/
theorem mem_chips (c : ChipId) : c ∈ ([0, 1, 2, 3, 4, 5, 6, 7] : List ChipId) := by
  revert c
  decide

theorem mem_chipsBelow {m : Byte} {n : Nat} {c : ChipId} :
    c ∈ chipsBelow m n ↔ m.getLsbD c.val = true ∧ c.val < n := by
  unfold chipsBelow
  rw [List.mem_filter, Bool.and_eq_true, decide_eq_true_eq]
  exact ⟨fun h => h.2, fun h => ⟨mem_chips c, h⟩⟩

theorem chipsBelow_nodup (m : Byte) (n : Nat) : (chipsBelow m n).Nodup :=
  List.Nodup.filter _ (by decide)

/-- The chips of a mask, in the terms of the rules (rule R105). -/
theorem chipsOf_eq (I : Instance) (m : Byte) : chipsOf I m = chipsBelow m I.nchips := by
  unfold chipsOf chipsBelow
  apply List.filter_congr
  intro c _
  rw [Bool.and_comm]

/-- A list in ascending order, filtered, divides at each of its members. -/
theorem filter_split (l : List ChipId) (hl : l.Pairwise (fun a b => a.val < b.val))
    (P : ChipId → Bool) (c : ChipId) (hc : c ∈ l) (hp : P c = true) :
    l.filter P = l.filter (fun d => P d && decide (d.val < c.val)) ++
      c :: l.filter (fun d => P d && decide (c.val < d.val)) := by
  induction l with
  | nil => simp at hc
  | cons a l ih =>
    rw [List.pairwise_cons] at hl
    rcases List.mem_cons.mp hc with h | h
    · rw [← h] at hl ⊢
      have e1 : l.filter (fun d => P d && decide (d.val < c.val)) = [] := by
        rw [List.filter_eq_nil_iff]
        intro d hd
        have := hl.1 d hd
        rw [Bool.and_eq_true, decide_eq_true_eq]
        omega
      have e2 : l.filter (fun d => P d && decide (c.val < d.val)) = l.filter P := by
        apply List.filter_congr
        intro d hd
        rw [decide_eq_true (hl.1 d hd), Bool.and_true]
      rw [List.filter_cons, if_pos hp, List.filter_cons, if_neg (by simp), List.filter_cons,
        if_neg (by simp), e1, e2]
      rfl
    · have hac := hl.1 c h
      have hca : ¬ c.val < a.val := by omega
      have rest := ih hl.2 h
      by_cases ha : P a = true
      · rw [List.filter_cons, if_pos ha, List.filter_cons, if_pos (by simp [ha, hac]),
          List.filter_cons, if_neg (by rw [decide_eq_false hca]; simp), rest]
        rfl
      · rw [List.filter_cons, if_neg ha, List.filter_cons, if_neg (by simp [ha]), List.filter_cons,
          if_neg (by simp [ha]), rest]

/-- The chips of a mask divide at each of them: those below it come before it (rules R253, R254). -/
theorem chipsBelow_split {m : Byte} {n : Nat} {c : ChipId} (h : c ∈ chipsBelow m n) :
    ∃ post, chipsBelow m n = chipsBelow m c.val ++ c :: post := by
  unfold chipsBelow at h
  obtain ⟨hm, hp⟩ := List.mem_filter.mp h
  refine ⟨_, (filter_split _ (by decide) _ c hm hp).trans (congrArg (· ++ _) ?_)⟩
  have hlt : c.val < n := of_decide_eq_true (Bool.and_eq_true_iff.mp hp).2
  unfold chipsBelow
  apply List.filter_congr
  intro d _
  by_cases hd : d.val < c.val
  · have hdn : d.val < n := by omega
    simp [hd, hdn]
  · simp [hd]

/-- And in no other way. -/
theorem chipsBelow_before {m : Byte} {n : Nat} {c : ChipId} {pre post : List ChipId}
    (h : chipsBelow m n = pre ++ c :: post) : pre = chipsBelow m c.val := by
  have nodup := chipsBelow_nodup m n
  obtain ⟨post', h'⟩ := chipsBelow_split (m := m) (n := n) (c := c) (by rw [h]; simp)
  rw [h, List.nodup_append] at nodup
  have n1 : c ∉ pre := fun e => nodup.2.2 c e c (List.mem_cons_self ..) rfl
  have n2 : c ∉ chipsBelow m c.val := fun e => Nat.lt_irrefl _ (mem_chipsBelow.mp e).2
  rw [h] at h'
  clear nodup h
  generalize chipsBelow m c.val = q at h' n2
  induction pre generalizing q with
  | nil =>
    cases q with
    | nil => rfl
    | cons b q => exact absurd (List.cons.inj h').1 (fun e => n2 (e ▸ List.mem_cons_self ..))
  | cons a pre ih =>
    cases q with
    | nil => exact absurd (List.cons.inj h').1 (fun e => n1 (e ▸ List.mem_cons_self ..))
    | cons b q =>
      obtain ⟨e1, e2⟩ := List.cons.inj h'
      rw [e1, ih (fun e => n1 (List.mem_cons_of_mem _ e)) q e2
        (fun e => n2 (List.mem_cons_of_mem _ e))]

/-! ## Chip after chip -/

/-- What a tap calibration of chip `c` that goes on leaves of the rest of the machine (rule R210). -/
structure TapCalled (c : ChipId) (s t : State) : Prop where
  inst : t.inst = s.inst
  ctl : t.ctl = s.ctl
  captures : t.env.captures = s.env.captures.drop (34 * s.ctl.cfgIter.toNat)
  syncStatus : t.tables.syncStatus = s.tables.syncStatus
  calResult : ∀ d : ChipId, d ≠ c → t.tables.calResult[d] = s.tables.calResult[d]
  heurSlip : ∀ d : ChipId, d ≠ c →
    t.tables.heurSlip.getLsbD d.val = s.tables.heurSlip.getLsbD d.val
  events : t.events = s.events ++
    tapCalEvents s.inst s.ctl c (t.tables.heurSlip.getLsbD c.val) t.tables.calResult[c]

theorem tapCalBody_called (c : ChipId) (s t : State) (h : tapCalBody c s = .done t) :
    TapCalled c s t := by
  obtain ⟨s0, s31, q, A0, A31, Ss, P⟩ := tapCalBody_done _ _ _ h
  obtain ⟨pi, pc, pe, -, pt, -⟩ := tapCalProbing_eq c s
  have c0 : s0.ctl = s.ctl := P.probe0.ctl.trans pc
  have i31 : s31.inst = s.inst := P.probe31.inst.trans (P.probe0.inst.trans pi)
  have c31 : s31.ctl = s.ctl := P.probe31.ctl.trans c0
  have t31 : s31.tables = s.tables.tapCalStart c :=
    P.probe31.tables.trans (P.probe0.tables.trans pt)
  obtain ⟨hi, hc, he, ht⟩ := heuristic_eq c (s31.mapWork (fun w => { w with acc31 := w.acc }))
  obtain ⟨di, dc, -, de, -⟩ := decideAndApply_rest c (q.mapWork (fun w => { w with tapCnt := 32 }))
  have dt := decideAndApply_tables c (q.mapWork (fun w => { w with tapCnt := 32 }))
  rw [← P.final] at di dc de dt
  have capq := P.swept.captures
  rw [State.setFsm_env, State.setFsm_ctl, he, hc, State.mapWork_env, State.mapWork_ctl,
    P.probe31.captures, State.mapWork_env, State.mapWork_ctl, P.probe0.captures, pc, c0, pe, c31,
    List.drop_drop, List.drop_drop, List.length_finRange] at capq
  have qt := P.swept.tables
  rw [State.setFsm_tables, ht, State.mapWork_tables, t31] at qt
  have other : ∀ {α : Type} (v : Chips α) (x : α) (d : ChipId), d ≠ c → (v.set c x)[d] = v[d] :=
    fun v x d hd => Vector.getElem_set_ne c.isLt d.isLt (fun e => hd (Fin.ext e.symm))
  constructor
  · exact di.trans (P.swept.inst.trans (hi.trans i31))
  · exact dc.trans (P.swept.ctl.trans (hc.trans c31))
  · rw [de, State.mapWork_env, capq]
    congr 1
    omega
  · rw [dt, State.mapWork_tables]
    refine qt.syncStatus.trans ?_
    split <;> rfl
  · intro d hd
    rw [dt, other _ _ d hd, State.mapWork_tables, qt.calResult]
    have : (s.tables.tapCalStart c).calResult[d] = s.tables.calResult[d] := other _ _ d hd
    split <;> exact this
  · intro d hd
    have e1 := writeMaskBit_getLsbD (s.tables.tapCalStart c).heurSlip c d true
    have e2 := writeMaskBit_getLsbD s.tables.heurSlip c d false
    rw [if_neg hd] at e1 e2
    rw [dt, State.mapWork_tables]
    show q.tables.heurSlip.getLsbD d.val = _
    rw [qt.heurSlip]
    split
    · exact e1.trans e2
    · exact e2
  · exact P.events

/-- What the tap calibrations of a list of chips that go on leave (rule R254). -/
structure TapCalledEach (cs : List ChipId) (s t : State) : Prop where
  inst : t.inst = s.inst
  ctl : t.ctl = s.ctl
  captures : t.env.captures = s.env.captures.drop (cs.length * (34 * s.ctl.cfgIter.toNat))
  syncStatus : t.tables.syncStatus = s.tables.syncStatus
  calResult : ∀ d : ChipId, d ∉ cs → t.tables.calResult[d] = s.tables.calResult[d]
  heurSlip : ∀ d : ChipId, d ∉ cs →
    t.tables.heurSlip.getLsbD d.val = s.tables.heurSlip.getLsbD d.val
  events : t.events = s.events ++ cs.flatMap (fun c =>
    tapCalEvents s.inst s.ctl c (t.tables.heurSlip.getLsbD c.val) t.tables.calResult[c])

theorem tapCalEach_called (cs : List ChipId) (hn : cs.Nodup) (s t : State)
    (h : tapCalEach cs s = .done t) : TapCalledEach cs s t := by
  induction cs generalizing s with
  | nil =>
    unfold tapCalEach at h
    cases h
    constructor <;> simp
  | cons c cs ih =>
    obtain ⟨hc, hn⟩ := List.nodup_cons.mp hn
    unfold tapCalEach at h
    obtain ⟨u, h1, h2⟩ := Run.andThen_eq_done.mp h
    have a := tapCalBody_called c s u h1
    have b := ih hn u h2
    have out : ∀ d : ChipId, d ∉ c :: cs → d ≠ c ∧ d ∉ cs :=
      fun d hd => ⟨fun e => hd (e ▸ List.mem_cons_self ..),
        fun e => hd (List.mem_cons_of_mem _ e)⟩
    constructor
    · exact b.inst.trans a.inst
    · exact b.ctl.trans a.ctl
    · rw [b.captures, a.ctl, a.captures, List.drop_drop, List.length_cons, Nat.succ_mul cs.length]
      congr 1
      exact Nat.add_comm _ _
    · exact b.syncStatus.trans a.syncStatus
    · exact fun d hd => (b.calResult d (out d hd).2).trans (a.calResult d (out d hd).1)
    · exact fun d hd => (b.heurSlip d (out d hd).2).trans (a.heurSlip d (out d hd).1)
    · rw [b.events, a.events, a.inst, a.ctl, List.flatMap_cons, b.calResult c hc, b.heurSlip c hc,
        List.append_assoc]

/-- Tap calibrations whose captures are scripted successes go on. -/
theorem tapCalEach_total (cs : List ChipId) (s : State)
    (h : cs.length * (34 * s.ctl.cfgIter.toNat) ≤ s.env.captures.length ∧
      ∀ a ∈ s.env.captures.take (cs.length * (34 * s.ctl.cfgIter.toNat)), a ≠ .fail) :
    ∃ t, tapCalEach cs s = .done t := by
  induction cs generalizing s with
  | nil => exact ⟨s, rfl⟩
  | cons d cs ih =>
    obtain ⟨h1, h2⟩ := h
    rw [List.length_cons, Nat.succ_mul cs.length] at h1 h2
    obtain ⟨u, hu⟩ := tapCalBody_total d s ⟨by omega,
      fun a ha => h2 a ((List.take_prefix_take_left (by omega)).subset ha)⟩
    have a := tapCalBody_called d s u hu
    obtain ⟨t, ht⟩ := ih u (by
      rw [a.ctl, a.captures, List.length_drop]
      refine ⟨by omega, ?_⟩
      intro x hx
      rw [List.take_drop, Nat.add_comm] at hx
      exact h2 x (List.mem_of_mem_drop hx))
    refine ⟨t, ?_⟩
    rw [tapCalEach, hu]
    exact ht

/-- The tap calibrations of a list of chips abort at a failed capture (rules R195, R228, R254). -/
theorem tapCalEach_fails (pre post : List ChipId) (c : ChipId) (s : State) (k : Nat)
    (hk : k < 34 * s.ctl.cfgIter.toNat)
    (h : FailsAfter (pre.length * (34 * s.ctl.cfgIter.toNat) + k) s.env.captures) :
    ∃ t, tapCalEach (pre ++ c :: post) s =
      .abort .captureFailed (tapCalFailure c (k / s.ctl.cfgIter.toNat)) t := by
  induction pre generalizing s with
  | nil =>
    obtain ⟨t, ht⟩ := tapCalBody_fails c s k hk (by simpa using h)
    refine ⟨t, ?_⟩
    rw [List.nil_append, tapCalEach, ht]
    rfl
  | cons d pre ih =>
    rw [List.length_cons, Nat.succ_mul pre.length] at h
    obtain ⟨u, hu⟩ := tapCalBody_total d s (failsAfter_succeeds h (by omega))
    have a := tapCalBody_called d s u hu
    have h' := failsAfter_drop h (m := 34 * s.ctl.cfgIter.toNat) (by omega)
    rw [show pre.length * (34 * s.ctl.cfgIter.toNat) + 34 * s.ctl.cfgIter.toNat + k -
      34 * s.ctl.cfgIter.toNat = pre.length * (34 * s.ctl.cfgIter.toNat) + k by omega] at h'
    obtain ⟨t, ht⟩ := ih u (by rw [a.ctl]; exact hk) (by rw [a.ctl, a.captures]; exact h')
    rw [a.ctl] at ht
    refine ⟨t, ?_⟩
    rw [List.cons_append, tapCalEach, hu]
    exact ht

end Sys2Proof.Machine
end

