-- ==== Sys2Proof/Laws/Decode.lean ====
section
/-! SUPPORT. The decoder, opcode by opcode. -/

namespace Sys2Proof

/-- Decoding of one whole command, by its opcode: all that `decodeCommand` can answer (rules R101,
R102). -/
theorem decodeCommand_eq (w : Word) (ps : List Word) : decodeCommand w ps =
    match (opcode w).toNat with
    | 0 => .illegal w
    | 1 =>
      if w &&& 0xFF000000 = 0x10000000 then .writeReg (w.extractLsb' 16 8) (w.extractLsb' 0 16)
      else .illegal w
    | 2 => if w &&& 0xFFFFFF00 = 0x20000000 then .setCsMask (w.extractLsb' 0 8) else .illegal w
    | 3 =>
      if w &&& 0xF8FF0000 = 0x30000000 then
        .setDelayTap (w.extractLsb' 24 3) (w.extractLsb' 8 8) (w.extractLsb' 0 8)
      else .illegal w
    | 4 => if w &&& 0xFFFFFF00 = 0x40000000 then .bitslip (w.extractLsb' 0 8) else .illegal w
    | 5 => if w = 0x50000000 then .chipReset else .illegal w
    | 6 => if w = 0x60000000 then .powerCycle else .illegal w
    | 7 => if w &&& 0xFFFFFFF0 = 0x70000000 then .selectPattern (w.extractLsb' 0 4) else .illegal w
    | 8 =>
      if w &&& 0xFFFFF000 = 0x80000000 then
        .setCustomPattern (w.extractLsb' 8 4) (w.extractLsb' 0 8)
      else .illegal w
    | 9 => if w &&& 0xFFFF0000 = 0x90000000 then buildInit ps else .illegal w
    | 10 =>
      if w &&& 0xF8FF0000 = 0xA0000000 then .capture (w.extractLsb' 24 3) (w.extractLsb' 0 16)
      else .illegal w
    | 11 => if w &&& 0xF8FFFFFF = 0xB0000000 then .tapCal (w.extractLsb' 24 3) else .illegal w
    | 12 => if w &&& 0xFFFFFF00 = 0xC0000000 then .syncVerify (w.extractLsb' 0 8) else .illegal w
    | 13 => if w &&& 0xFFFFFF00 = 0xD0000000 then .calibrate (w.extractLsb' 0 8) else .illegal w
    | 14 =>
      if w &&& 0xFFFF0000 = 0xE0000000 then .readStatus (w.extractLsb' 8 8) (w.extractLsb' 0 8)
      else .illegal w
    | _ =>
      if w &&& 0xF0FF0000 = 0xF0000000 then .setConfig (w.extractLsb' 24 4) (w.extractLsb' 0 16)
      else .illegal w := by
  have h5 : w &&& 0xFFFFFFFF#32 = w := BitVec.and_allOnes (x := w)
  have all : ∀ r : OpcodeRow, w &&& (0xFFFFFFFF : Word) = r.bits ↔ w = r.bits := by
    intro r
    rw [show w &&& (0xFFFFFFFF : Word) = w from h5]
  unfold decodeCommand
  generalize opcode w = o
  have cases16 : ∀ o : BitVec 4, o = 0 ∨ o = 1 ∨ o = 2 ∨ o = 3 ∨ o = 4 ∨ o = 5 ∨ o = 6 ∨ o = 7 ∨
      o = 8 ∨ o = 9 ∨ o = 10 ∨ o = 11 ∨ o = 12 ∨ o = 13 ∨ o = 14 ∨ o = 15 := by decide
  rcases cases16 o with rfl | rfl | rfl | rfl | rfl | rfl | rfl | rfl | rfl | rfl | rfl | rfl | rfl |
    rfl | rfl | rfl
  · show (if w &&& 0xF0000000 = 0 then _ else _) = _
    split <;> rfl
  · rfl
  · rfl
  · rfl
  · rfl
  · exact if_congr (all ⟨"", 0x50000000, 0, fun w _ => .illegal w⟩) rfl rfl
  · exact if_congr (all ⟨"", 0x60000000, 0, fun w _ => .illegal w⟩) rfl rfl
  · rfl
  · rfl
  · rfl
  · rfl
  · rfl
  · rfl
  · rfl
  · rfl
  · rfl

/-- A command of one word. -/
theorem decode_one (w : Word) (rest : List Word) (h : payloadCount w = 0) :
    decode (w :: rest) = .ok (decodeCommand w [], rest) := by
  simp [decode, h]

/-- A command with all its payload words presented. -/
theorem decode_whole (w : Word) (ps rest : List Word) (h : payloadCount w = ps.length) :
    decode (w :: (ps ++ rest)) = .ok (decodeCommand w ps, rest) := by
  simp [decode, h]

end Sys2Proof
end

