-- ==== Sys2Proof/Laws/PerInstr.lean ====
section
/-! SUPPORT. The statements made for every command, one lemma per constructor of Instr. -/

namespace Sys2Proof.Laws

open Sys2Proof

/-- The words of a command are as many as its first word says: one, or 1 + cmd[15:0] when the opcode is
0x9 (rule R100). -/
def CommandLength.Statement (i : Instr) : Prop :=
  WellFormed i → (encode i).length = 1 + payloadCount (commandWord i)

/-- A command of one word whose opcode is not 0x9 has the length its word says. -/
theorem commandLength_of_one (i : Instr) (w : Word) (he : encode i = [w]) (h : opcode w ≠ 9) :
    CommandLength.Statement i := by
  intro _
  unfold commandWord
  rw [he]
  show 1 = 1 + payloadCount w
  rw [payloadCount, if_neg h]

/-- The opcode is the four highest bits of the word. -/
theorem opcode_eq (w : Word) (o : BitVec 4) (h0 : w.getLsbD 28 = o.getLsbD 0)
    (h1 : w.getLsbD 29 = o.getLsbD 1) (h2 : w.getLsbD 30 = o.getLsbD 2)
    (h3 : w.getLsbD 31 = o.getLsbD 3) : opcode w = o := by
  apply BitVec.eq_of_getLsbD_eq
  intro i hi
  have hcase : i = 0 ∨ i = 1 ∨ i = 2 ∨ i = 3 := by omega
  unfold opcode
  rw [BitVec.getLsbD_extractLsb']
  rcases hcase with rfl | rfl | rfl | rfl
  · simpa using h0
  · simpa using h1
  · simpa using h2
  · simpa using h3

theorem CommandLength.illegal (word : Word) : CommandLength.Statement (.illegal word) := by
  intro _
  show (encodeIllegal word).length = 1 + payloadCount ((encodeIllegal word).headD 0)
  unfold encodeIllegal
  split
  · rw [List.length_cons, List.length_replicate, List.headD_cons, Nat.add_comm]
  · show 2 = 1 + payloadCount 0x90000001
    decide

theorem CommandLength.writeReg (addr : Byte) (value : Half) :
    CommandLength.Statement (.writeReg addr value) := by
  have h : opcode (0x10#8 ++ addr ++ value) = 1 := by
    apply opcode_eq <;> rw [BitVec.getLsbD_append, if_neg (by decide)] <;>
      rw [BitVec.getLsbD_append, if_neg (by decide)] <;> rfl
  exact commandLength_of_one _ _ rfl (by rw [h]; decide)

theorem CommandLength.setCsMask (mask : Byte) :
    CommandLength.Statement (.setCsMask mask) := by
  have h : opcode (0x200000#24 ++ mask) = 2 := by
    apply opcode_eq <;> rw [BitVec.getLsbD_append, if_neg (by decide)] <;> rfl
  exact commandLength_of_one _ _ rfl (by rw [h]; decide)

theorem CommandLength.setDelayTap (chip : BitVec 3) (tap lm : Byte) :
    CommandLength.Statement (.setDelayTap chip tap lm) := by
  have h : opcode (0x06#5 ++ chip ++ 0#8 ++ tap ++ lm) = 3 := by
    apply opcode_eq <;> rw [BitVec.getLsbD_append, if_neg (by decide)] <;>
      rw [BitVec.getLsbD_append, if_neg (by decide)] <;>
      rw [BitVec.getLsbD_append, if_neg (by decide)] <;>
      rw [BitVec.getLsbD_append, if_neg (by decide)] <;> rfl
  exact commandLength_of_one _ _ rfl (by rw [h]; decide)

theorem CommandLength.bitslip (mask : Byte) :
    CommandLength.Statement (.bitslip mask) := by
  have h : opcode (0x400000#24 ++ mask) = 4 := by
    apply opcode_eq <;> rw [BitVec.getLsbD_append, if_neg (by decide)] <;> rfl
  exact commandLength_of_one _ _ rfl (by rw [h]; decide)

theorem CommandLength.chipReset : CommandLength.Statement .chipReset :=
  commandLength_of_one _ _ rfl (by decide)

theorem CommandLength.powerCycle : CommandLength.Statement .powerCycle :=
  commandLength_of_one _ _ rfl (by decide)

theorem CommandLength.selectPattern (kind : BitVec 4) :
    CommandLength.Statement (.selectPattern kind) := by
  have h : opcode (0x7000000#28 ++ kind) = 7 := by
    apply opcode_eq <;> rw [BitVec.getLsbD_append, if_neg (by decide)] <;> rfl
  exact commandLength_of_one _ _ rfl (by rw [h]; decide)

theorem CommandLength.setCustomPattern (slot : BitVec 4) (byte : Byte) :
    CommandLength.Statement (.setCustomPattern slot byte) := by
  have h : opcode (0x80000#20 ++ slot ++ byte) = 8 := by
    apply opcode_eq <;> rw [BitVec.getLsbD_append, if_neg (by decide)] <;>
      rw [BitVec.getLsbD_append, if_neg (by decide)] <;> rfl
  exact commandLength_of_one _ _ rfl (by rw [h]; decide)

theorem CommandLength.capture (chip : BitVec 3) (len : Half) :
    CommandLength.Statement (.capture chip len) := by
  have h : opcode (0x14#5 ++ chip ++ 0#8 ++ len) = 10 := by
    apply opcode_eq <;> rw [BitVec.getLsbD_append, if_neg (by decide)] <;>
      rw [BitVec.getLsbD_append, if_neg (by decide)] <;>
      rw [BitVec.getLsbD_append, if_neg (by decide)] <;> rfl
  exact commandLength_of_one _ _ rfl (by rw [h]; decide)

theorem CommandLength.tapCal (chip : BitVec 3) :
    CommandLength.Statement (.tapCal chip) := by
  have h : opcode (0x16#5 ++ chip ++ 0#24) = 11 := by
    apply opcode_eq <;> rw [BitVec.getLsbD_append, if_neg (by decide)] <;>
      rw [BitVec.getLsbD_append, if_neg (by decide)] <;> rfl
  exact commandLength_of_one _ _ rfl (by rw [h]; decide)

theorem CommandLength.syncVerify (mask : Byte) :
    CommandLength.Statement (.syncVerify mask) := by
  have h : opcode (0xC00000#24 ++ mask) = 12 := by
    apply opcode_eq <;> rw [BitVec.getLsbD_append, if_neg (by decide)] <;> rfl
  exact commandLength_of_one _ _ rfl (by rw [h]; decide)

theorem CommandLength.calibrate (mask : Byte) :
    CommandLength.Statement (.calibrate mask) := by
  have h : opcode (0xD00000#24 ++ mask) = 13 := by
    apply opcode_eq <;> rw [BitVec.getLsbD_append, if_neg (by decide)] <;> rfl
  exact commandLength_of_one _ _ rfl (by rw [h]; decide)

theorem CommandLength.readStatus (sel idx : Byte) :
    CommandLength.Statement (.readStatus sel idx) := by
  have h : opcode (0xE000#16 ++ sel ++ idx) = 14 := by
    apply opcode_eq <;> rw [BitVec.getLsbD_append, if_neg (by decide)] <;>
      rw [BitVec.getLsbD_append, if_neg (by decide)] <;> rfl
  exact commandLength_of_one _ _ rfl (by rw [h]; decide)

theorem CommandLength.setConfig (field : BitVec 4) (value : Half) :
    CommandLength.Statement (.setConfig field value) := by
  have h : opcode (0xF#4 ++ field ++ 0#8 ++ value) = 15 := by
    apply opcode_eq <;> rw [BitVec.getLsbD_append, if_neg (by decide)] <;>
      rw [BitVec.getLsbD_append, if_neg (by decide)] <;>
      rw [BitVec.getLsbD_append, if_neg (by decide)] <;> rfl
  exact commandLength_of_one _ _ rfl (by rw [h]; decide)

theorem CommandLength.initializeChips (overrides : List RegWrite) :
    CommandLength.Statement (.initializeChips overrides) := by
  intro h
  have hl : overrides.length < 65536 := h
  have ho : opcode (0x9000#16 ++ BitVec.ofNat 16 overrides.length) = 9 := by
    apply opcode_eq <;> rw [BitVec.getLsbD_append, if_neg (by decide)] <;> rfl
  have hn : (0x9000#16 ++ BitVec.ofNat 16 overrides.length : Word).extractLsb' 0 16 =
      BitVec.ofNat 16 overrides.length := by
    apply BitVec.eq_of_getLsbD_eq
    intro i hi
    rw [BitVec.getLsbD_extractLsb', BitVec.getLsbD_append, Nat.zero_add, if_pos hi]
    simp [hi]
  show (_ :: overrides.map encodePair).length =
    1 + payloadCount (0x9000#16 ++ BitVec.ofNat 16 overrides.length)
  rw [List.length_cons, List.length_map, Nat.add_comm, payloadCount, if_pos ho, hn,
    BitVec.toNat_ofNat, Nat.mod_eq_of_lt hl]

end Sys2Proof.Laws
end

