-- ==== Sys2Proof/Tests/Slice0.lean ====
section
/-! SUPPORT. Tests on fixed values, from 95_test_vectors.md (its vector is named in each comment), and,
at the end, one witness for every statement that has hypotheses. -/

open Sys2Proof Sys2Proof.Machine Sys2Proof.Safety

namespace Sys2Proof.Tests

/-! ## The instance -/

theorem test_exampleInstance_ok : InstanceOk exampleInstance := by decide +kernel

/-- EX8 and EXR on a board of 4 chips. -/
def fourChips : Instance := { exampleInstance with nchips := 4 }

theorem test_fourChips_ok : InstanceOk fourChips := by decide +kernel

/-- R6: NCHIPS is 4 or 8. -/
theorem test_refuses_nchips : failedCheck { exampleInstance with nchips := 6 } = some .nchips := by
  decide +kernel

theorem test_refuses_snapDepth :
    failedCheck { exampleInstance with snapDepth := 1 } = some .snapDepth := by
  decide +kernel

theorem test_refuses_wrapSpan :
    failedCheck { exampleInstance with wrapSpan := 32 } = some .wrapSpan := by
  decide +kernel

theorem test_refuses_syncRetries :
    failedCheck { exampleInstance with syncRetries := 32 } = some .syncRetries := by
  decide +kernel

theorem test_refuses_ncustom :
    failedCheck { exampleInstance with ncustom := 0 } = some .ncustom := by
  decide +kernel

/-- R64: tapLsb is 0..27. -/
theorem test_refuses_ranges :
    failedCheck { exampleInstance with layout := { exampleLayout with tapLsb := 28 } }
      = some .ranges := by
  decide +kernel

/-- R65, L1: SDATA on the SCLK bit. -/
theorem test_refuses_word0Disjoint :
    failedCheck { exampleInstance with layout := { exampleLayout with sdataBit := 9 } }
      = some .word0Disjoint := by
  decide +kernel

/-- R65, L2: the bitslip bits over the tap field. -/
theorem test_refuses_word1Disjoint :
    failedCheck { exampleInstance with layout := { exampleLayout with slipLsb := 4 } }
      = some .word1Disjoint := by
  decide +kernel

/-- R65, L3: word 1 among the strobe words. -/
theorem test_refuses_strobeWords :
    failedCheck { exampleInstance with layout := { exampleLayout with strobeWords := [2, 3, 1] } }
      = some .strobeWords := by
  decide +kernel

/-- R65, L4: two lanes on one strobe bit. -/
theorem test_refuses_strobeInjective :
    failedCheck { exampleInstance with layout :=
        { exampleLayout with strobeBit := everyChip (everyLane ⟨2, 0⟩) } }
      = some .strobeInjective := by
  decide +kernel

/-- R65, L5: a strobe bit in a word that is no strobe word. -/
theorem test_refuses_strobeInWords :
    failedCheck { exampleInstance with layout := { exampleLayout with strobeWords := [2] } }
      = some .strobeInWords := by
  decide +kernel

/-- R60: strobe word 3 of an interface of 3 words. -/
theorem test_refuses_rwiWords :
    failedCheck { exampleInstance with rwiWords := 3 } = some .rwiWords := by
  decide +kernel

/-- R66: a reset write to address 0x57. -/
theorem test_refuses_chipRegs :
    failedCheck { exampleInstance with chipRegs :=
        { exampleChipRegs with resetWrites := [⟨0x57, 0⟩] } } = some .chipRegs := by
  decide +kernel

/-- R6, R65: the step refuses such an instance by the name of the check. -/
theorem test_step_refuses_instance :
    step (State.resetOf { exampleInstance with nchips := 6 }) =
      .refused (.illFormedInstance .nchips) := by
  have h : failedCheck (State.resetOf { exampleInstance with nchips := 6 }).inst = some .nchips :=
    test_refuses_nchips
  unfold step
  rw [h]

/-! ## Well-formed commands -/

/-- R112: the payload count is 16 bits wide, so an INITIALIZE of 65536 overrides is refused. -/
theorem test_wellFormed_refuses_overlong :
    ¬ WellFormed (.initializeChips (List.replicate 65536 ⟨0, 0⟩)) := by
  show ¬ (List.replicate 65536 _).length < 65536
  rw [List.length_replicate]
  exact Nat.lt_irrefl _

theorem test_wellFormed_accepts : wellFormed (.initializeChips [⟨0x31, 1⟩]) = true := by decide

/-! ## Decoding: one word of every command, from the formats of R101 -/

/-- E-1: opcode 0. -/
theorem test_decode_illegal :
    decode [0b00000000000000000000000000000000] = .ok (.illegal 0, []) := rfl

/-- E-2: opcode 1, reserved 0000, addr 0x25, value 0x0010. -/
theorem test_decode_writeReg :
    decode [0b00010000001001010000000000010000] = .ok (.writeReg 0x25 0x0010, []) := rfl

/-- S-5: opcode 2, reserved zeros, mask 0x05. -/
theorem test_decode_setCsMask :
    decode [0b00100000000000000000000000000101] = .ok (.setCsMask 0x05, []) := rfl

/-- E-9: opcode 3, reserved 0, chip 111, reserved zeros, tap 0xFF, lane mask 0x01. -/
theorem test_decode_setDelayTap :
    decode [0b00110111000000001111111100000001] = .ok (.setDelayTap 7 0xFF 0x01, []) := rfl

/-- B-1: opcode 4, mask 0x80. -/
theorem test_decode_bitslip :
    decode [0b01000000000000000000000010000000] = .ok (.bitslip 0x80, []) := rfl

theorem test_decode_chipReset :
    decode [0b01010000000000000000000000000000] = .ok (.chipReset, []) := rfl

theorem test_decode_powerCycle :
    decode [0b01100000000000000000000000000000] = .ok (.powerCycle, []) := rfl

/-- G-3: opcode 7, kind 2. -/
theorem test_decode_selectPattern :
    decode [0b01110000000000000000000000000010] = .ok (.selectPattern 2, []) := rfl

/-- G-5: opcode 8, slot 0, byte 0xA5. -/
theorem test_decode_setCustomPattern :
    decode [0b10000000000000000000000010100101] = .ok (.setCustomPattern 0 0xA5, []) := rfl

/-- R123: opcode 9, two payload words; the word after them is the next command's. -/
theorem test_decode_initialize :
    decode [0b10010000000000000000000000000010, 0b00000000001100010000000000000001,
        0b00000000010101110001001000110100, 0x50000000] =
      .ok (.initializeChips [⟨0x31, 0x0001⟩, ⟨0x57, 0x1234⟩], [0x50000000]) := rfl

/-- E-11: opcode 10, chip 0, length 1024. -/
theorem test_decode_capture :
    decode [0b10100000000000000000010000000000] = .ok (.capture 0 1024, []) := rfl

/-- E-13: opcode 11, chip 7. -/
theorem test_decode_tapCal :
    decode [0b10110111000000000000000000000000] = .ok (.tapCal 7, []) := rfl

theorem test_decode_syncVerify :
    decode [0b11000000000000000000000000000011] = .ok (.syncVerify 0x03, []) := rfl

theorem test_decode_calibrate :
    decode [0b11010000000000000000000011111111] = .ok (.calibrate 0xFF, []) := rfl

/-- E-16: opcode 14, selector 4, index 63. -/
theorem test_decode_readStatus :
    decode [0b11100000000000000000010000111111] = .ok (.readStatus 4 63, []) := rfl

/-- E-22: opcode 15, field 3, value 2. -/
theorem test_decode_setConfig :
    decode [0b11110011000000000000000000000010] = .ok (.setConfig 3 2, []) := rfl

/-- E-3, E-4, E-6, E-7, E-8, E-14, E-24: a reserved bit at 1. -/
theorem test_decode_reserved :
    decodeCommand 0x11000000 [] = .illegal 0x11000000 ∧
    decodeCommand 0x50000001 [] = .illegal 0x50000001 ∧
    decodeCommand 0x70000010 [] = .illegal 0x70000010 ∧
    decodeCommand 0x38000000 [] = .illegal 0x38000000 ∧
    decodeCommand 0x30010000 [] = .illegal 0x30010000 ∧
    decodeCommand 0xB0000001 [] = .illegal 0xB0000001 ∧
    decodeCommand 0xF0010000 [] = .illegal 0xF0010000 := by
  refine ⟨rfl, rfl, rfl, rfl, rfl, rfl, rfl⟩

/-- E-25: a payload word with a bit of 31:24 at 1. -/
theorem test_decode_payload :
    decode [0x90000001, 0x01310001] = .ok (.illegal 0x01310001, []) := rfl

/-- R112: the block waits for the second payload word. -/
theorem test_decode_waits :
    decode [0x90000002, 0x00310001] = .error (.payloadIncomplete 1) := rfl

/-- The opcode table's numbering: the second word is bits 63:32. -/
theorem test_tableWord :
    decodeTableWord 64 0x0031000190000001 = some (.initializeChips [⟨0x31, 1⟩]) ∧
    decodeTableWord 32 0x90000001 = some (.initializeChips [⟨0, 0⟩]) := by
  decide +kernel

/-! ## Helpers -/

/-- The example machine with known device contents, so that every field can be computed: word 0 holds the
idle frame. -/
def start : State :=
  { State.reset with board := { Board.reset with
      rwi := [(0, 0x2FF)]
      sentRegs := everyChip (Vector.replicate 256 0)
      taps := everyChip (everyLane 0)
      receivers := everyChip { count := 0, shift := 0 } } }

/-- The same with every chip selected by word 0, and `n` bits clocked into each of them. -/
def selectedAfter (n : Nat) : State :=
  { start with board := { start.board with
      rwi := [(0, 0x200)]
      receivers := everyChip { count := n, shift := 0 } } }

/-- A state with scripted captures, programmed answers and word-0 values. -/
def scripted (captures : List CaptureAnswer) (programmed : List Bool) (word0 : List Word) : State :=
  { start with env :=
      { programmed := programmed, word0 := word0, captures := captures, draws := 0 } }

/-- The same with CFG_SNAPLEN = 2. -/
def shortScript (captures : List CaptureAnswer) : State :=
  (scripted captures [] []).mapCtl (fun c => { c with cfgSnapLen := 2 })

/-- A property of the state after a command. -/
def after (i : Instr) (s : State) (p : State → Bool) : Bool :=
  match exec i s with
  | .next t => p t
  | .fault _ => false
  | .refused _ => false

/-- The same bytes on the four channels. -/
def uniform (bytes : List Byte) : CaptureAnswer := .ok (Vector.replicate 4 bytes)

/-- The word-0 values written, in order. -/
def word0Writes (s : State) : List Word :=
  s.events.filterMap (fun e =>
    match e with
    | .memWrite w v => if w = 0 then some v else none
    | .memRead _ => none
    | .capture _ _ => none
    | .isProgrammed => none
    | .settle => none)

/-! ## Commands -/

/-- E-10: CAPTURE of length 0; R117. -/
theorem test_illegal_value : after (.capture 0 0) start (fun t =>
    t.status = { lastErr := .illegalCommand, warnSec := false, errInfo := 0xA0000000 }
      && t.events == []) = true := by
  decide +kernel

/-- E-1: a word that spells no command. -/
theorem test_illegal : after (.illegal 0) start (fun t =>
    t.response = some { code := .illegalCommand, info := 0, data := .none }) = true := by
  decide +kernel

/-- P1: the 50 words of WRITE_REG 0x25, 0x0010 with CS_MASK = 0x02. -/
theorem test_writeReg_trace :
    after (.writeReg 0x25 0x0010) (start.mapCtl (fun c => { c with csMask := 0x02 })) (fun t =>
      word0Writes t ==
        [0x2FF, 0x0FD, 0x2FD, 0x0FD, 0x2FD, 0x1FD, 0x3FD, 0x0FD, 0x2FD, 0x0FD, 0x2FD, 0x1FD, 0x3FD,
         0x0FD, 0x2FD, 0x1FD, 0x3FD, 0x0FD, 0x2FD, 0x0FD, 0x2FD, 0x0FD, 0x2FD, 0x0FD, 0x2FD, 0x0FD,
         0x2FD, 0x0FD, 0x2FD, 0x0FD, 0x2FD, 0x0FD, 0x2FD, 0x0FD, 0x2FD, 0x0FD, 0x2FD, 0x0FD, 0x2FD,
         0x1FD, 0x3FD, 0x0FD, 0x2FD, 0x0FD, 0x2FD, 0x0FD, 0x2FD, 0x0FD, 0x2FD, 0x2FF]) = true := by
  decide +kernel

/-- S-4: chips 0 and 7, and no other chip, store 0x8001 in register 0x80. -/
theorem test_writeReg_chips :
    after (.writeReg 0x80 0x8001) (start.mapCtl (fun c => { c with csMask := 0x81 })) (fun t =>
      allChips.all (fun c => t.board.chipReg c 0x80 ==
        if c = 0 ∨ c = 7 then (0x8001 : Half) else 0)) = true := by
  decide +kernel

/-- S-5 and S-6: SET_CS_MASK, and a mask with a chip the board of 4 does not have. -/
theorem test_setCsMask :
    after (.setCsMask 0x05) start (fun t => t.ctl.csMask == 0x05 && t.events == []) = true ∧
    after (.setCsMask 0x10) (State.resetOf fourChips) (fun t => t.ctl.csMask == 0x0F
      && t.status = { lastErr := .invalidChipSpecifier, warnSec := false, errInfo := 0x10 })
      = true := by
  decide +kernel

/-- T-1 and T-2: the events of SET_DELAY_TAP. -/
theorem test_setDelayTap :
    after (.setDelayTap 0 5 0x01) start (fun t => t.events ==
      [.memWrite 2 0, .memWrite 3 0, .memWrite 1 0x05, .memWrite 2 1, .memWrite 3 0, .memWrite 2 0,
       .memWrite 3 0, .settle]) = true ∧
    after (.setDelayTap 7 33 0xF0) start (fun t => t.events ==
      [.memWrite 2 0, .memWrite 3 0, .memWrite 1 0x01, .memWrite 2 0, .memWrite 3 0xF0000000,
       .memWrite 2 0, .memWrite 3 0, .settle]) = true := by
  decide +kernel

/-- T-3: all eight lanes of chip 3, and no lane of chip 2, hold tap 31. -/
theorem test_setDelayTap_taps : after (.setDelayTap 3 0xFF 0xFF) start (fun t =>
    t.board.taps[3] == everyLane 31 && t.board.taps[2] == everyLane 0) = true := by
  decide +kernel

/-- B-3: chips 0 and 2 advance by one. -/
theorem test_bitslip : after (.bitslip 0x05) start (fun t =>
    t.events == [.memWrite 1 0, .memWrite 1 0x100, .memWrite 1 0, .settle, .memWrite 1 0,
      .memWrite 1 0x400, .memWrite 1 0, .settle]
    && t.board.slips == #v[1, 0, 1, 0, 0, 0, 0, 0]) = true := by
  decide +kernel

/-- G-1 with EXR: register 0 holds 0x0001 on every chip; I13: nothing is known of the others. -/
theorem test_chipReset : after .chipReset start (fun t =>
    t.events.length == 50 && allChips.all (fun c => t.board.chipReg c 0x00 == (1 : Half)
      && t.board.upsets[c] == some { stamp := 48, stored := [0x00] })) = true := by
  decide +kernel

/-- I12: a write of the idle frame takes a chip that was reset out of a selection after 0, 23, 24 or 25
bits. Only after 24 is the record of the reset kept; its receiver is between two frames. -/
theorem test_malformed_selection :
    ([0, 23, 24, 25].map fun n =>
      let b := ({ (selectedAfter n).board with
        upsets := everyChip (some { stamp := 0, stored := [] }) }).write exampleInstance 0 0x2FF
      (b.upsets[7].isSome, b.receivers[7].count)) =
    [(false, 0), (false, 0), (true, 0), (false, 0)] := by
  decide +kernel

/-- R81: the bits of a selection are counted from where the chip becomes selected, whatever the receiver
of a chip that is not selected holds. -/
theorem test_selection_starts :
    (({ start.board with receivers := everyChip { count := 5, shift := 0 } }).write exampleInstance
      0 0x200).receivers[7].count = 0 := by
  decide +kernel

/-- I13: a register that no write stored since the reset of its chip is a free value. -/
theorem test_chipReg_free (b : Board) (h : b.upsets[3] = some { stamp := 48, stored := [0x00] }) :
    b.chipReg 3 0x45 = Config.freeChipReg 48 3 0x45 :=
  chipReg_of_not_mem (c := 3) h (by decide)

/-- G-2: 100 writes, no settle. -/
theorem test_powerCycle : after .powerCycle start (fun t =>
    (word0Writes t).length == 100 && t.events.length == 100) = true := by
  decide +kernel

/-- G-3: register 0x45 holds 0x0002; E-5: kind 4 is illegal. -/
theorem test_selectPattern :
    after (.selectPattern 2) start (fun t => t.board.chipReg 1 0x45 == (2 : Half)) = true ∧
    after (.selectPattern 4) start (fun t => t.status.errInfo == 0x70000004) = true := by
  decide +kernel

/-- G-5 and G-6: SET_CUSTOM_PATTERN of slot 0, and of slot 2 when there are two. -/
theorem test_setCustomPattern :
    after (.setCustomPattern 0 0xA5) start (fun t => t.board.chipReg 0 0x26 == (0xA500 : Half))
      = true ∧
    after (.setCustomPattern 2 0) start (fun t =>
      t.status.errInfo == 0x80000200 && t.events == []) = true := by
  decide +kernel

/-- I-1: not programmed; I-3: 150 writes, both pairs skipped. -/
theorem test_initialize :
    after (.initializeChips [⟨0x31, 1⟩]) (scripted [] [false] []) (fun t =>
      t.events == [.isProgrammed] && decide (t.status.lastErr = .notProgrammed)) = true ∧
    after (.initializeChips [⟨0x57, 3⟩, ⟨0xFF, 0⟩]) (scripted [] [true] []) (fun t =>
      (word0Writes t).length == 150 && decide (t.status.lastErr = .ok)) = true := by
  decide +kernel

/-- X-6 and X-7. -/
theorem test_capture :
    after (.capture 0 2) (scripted [uniform [0x2A, 0xD5]] [] []) (fun t =>
      t.response = some ⟨.ok, 0, .samples [ [42, -43], [42, -43], [42, -43], [42, -43] ]⟩) = true ∧
    after (.capture 1 1) (scripted [.fail] [] []) (fun t =>
      t.status = { lastErr := .captureFailed, warnSec := false, errInfo := 0x00013F01 })
      = true := by
  decide +kernel

/-- X-4: counts 9 in the even lanes and 6 in the odd ones after three captures of 5 zeros. -/
theorem test_countErrors :
    (match countErrors 0 0x2A ((scripted (List.replicate 3 (uniform [0, 0, 0, 0, 0])) [] []).mapCtl
        (fun c => { c with cfgIter := 3, cfgSnapLen := 5 })) with
      | .done t => t.work.acc == #v[9, 9, 9, 9, 6, 6, 6, 6]
      | .abort _ _ _ => false) = true := by
  decide +kernel

/-- W-1, W-2, W-5, W-7, W-8, W-9, W-13 with WRAP_SPAN = 16. -/
theorem test_window :
    [0x00000000, 0x00000001, 0x0003FFFF, 0x00FFFF80, 0x00000C00, 0xE0000007, 0x00100050].map
        (window 16) =
      [.indEmpty, .tap 0, .indWrapped, .tap 15, .tap 11, .indWrapped, .tap 6] := by
  decide +kernel

/-- The captures of program P2: sample k of channel ch is 0x2A when the tap is good for the lane. -/
def p2Capture (tap : Nat) : CaptureAnswer :=
  let good (ok : Bool) : Byte := if ok then 0x2A else 0
  .ok #v[[good (decide (7 ≤ tap ∧ tap ≤ 23)), good (decide (tap = 12))],
    [good false, good (decide (tap = 12))],
    [good (decide (tap ≤ 2 ∨ 29 ≤ tap)), good (decide (tap = 12))],
    [good (decide (tap = 10 ∨ tap = 11)), good (decide (tap = 12))]]

/-- P2: the results, HEUR_SLIP and LAST_SWEEP of one tap calibration. -/
theorem test_tapCal : after (.tapCal 0)
    (shortScript ([p2Capture 0, p2Capture 31] ++ (List.range 32).map p2Capture)) (fun t =>
      t.tables.calResult[0] == #v[.tap 15, .indEmpty, .indWrapped, .tap 11, .tap 12, .tap 12,
        .tap 12, .tap 12]
      && t.tables.heurSlip == 0x01 && t.tables.lastSweep.byte == 0x80
      && t.events.length == 383 + 41 + 34) = true := by
  decide +kernel

/-- P7: the capture at sweep tap 5 fails. -/
theorem test_tapCal_abort : after (.tapCal 2)
    (shortScript (List.replicate 7 (uniform [0, 0]) ++ [.fail])) (fun t =>
      t.status = { lastErr := .captureFailed, warnSec := false, errInfo := 0x00050502 }
      && t.tables.calResult[2] == everyLane .none && t.tables.errCount[4] == everyLane 1
      && t.tables.errCount[5] == everyLane 0 && t.tables.lastSweep.byte == 0x82
      && t.board.rwi == [(0, 0x2FF), (1, 0x05), (2, 0), (3, 0)] && t.events.length == 156 + 8 + 8) = true := by
  decide +kernel

/-- Y-4: the first match after three bitslips. -/
theorem test_syncVerify : after (.syncVerify 0x02)
    (scripted [uniform [0], uniform [0], uniform [0], uniform [0x70]] [] []) (fun t =>
      t.board.slips == #v[0, 3, 0, 0, 0, 0, 0, 0]
      && t.response = some { code := .ok, info := 0, data := .syncStatus 0x0004 }) = true := by
  decide +kernel

/-- Y-7: the capture after two bitslips fails. -/
theorem test_syncVerify_abort : after (.syncVerify 0x02)
    (scripted [uniform [0], uniform [0], .fail] [] []) (fun t =>
      t.status = { lastErr := .captureFailed, warnSec := false, errInfo := 0x000A0201 }) = true := by
  decide +kernel

/-- Q-2: the primary clock is not locked. -/
theorem test_calibrate_clock : after (.calibrate 0xFF) (scripted [] [true] [0x00080000]) (fun t =>
    t.events == [.isProgrammed, .memRead 0]
      && t.status = { lastErr := .clockNotLocked, warnSec := false, errInfo := 0x00080000 })
      = true := by
  decide +kernel

/-- P6: one chip, the window 8..20, and the warning that the secondary clock is not locked. -/
theorem test_calibrate :
    let sample (tap : Nat) : CaptureAnswer :=
      uniform (List.replicate 2 (if 8 ≤ tap ∧ tap ≤ 20 then 0x2A else 0x55))
    after (.calibrate 0x01)
      ((scripted ([sample 0, sample 31] ++ (List.range 32).map sample ++ [uniform [0x70]]) [true]
        [0x01080000]).mapCtl (fun c => { c with cfgSnapLen := 2 })) (fun t =>
      statusWord t.status t.fsm == 0x10 && t.tables.calResult[0] == everyLane (.tap 14)
      && t.board.taps[0] == everyLane 14 && syncStatusWord t.tables.syncStatus == 0x1
      && t.events.length == 494 + 42 + 35 + 2) = true := by
  decide +kernel

/-- R-2 and the chip count of R-4. -/
theorem test_readStatus :
    after (.readStatus 2 3) start (fun t =>
      t.response = some { code := .ok, info := 0, data := .value 0x400 }) = true ∧
    after (.readStatus 7 2) (scripted [] [] [0x03180000]) (fun t =>
      t.response = some { code := .ok, info := 0, data := .value 8 }
        && t.events == [.memRead 0]) = true := by
  decide +kernel

/-- C-1 and C-2. -/
theorem test_setConfig :
    after (.setConfig 0 0xD6) start (fun t => t.ctl.cfgDeskew == 0xD6) = true ∧
    after (.setConfig 3 1) start (fun t =>
      t.ctl.cfgSnapLen == 1024 && t.status.errInfo == 0xF3000001) = true := by
  decide +kernel

/-! ## The step -/

/-- The first instruction after reset: SET_CS_MASK 5, placed where the step takes its next command. -/
theorem test_step_runs :
    (match step (State.reset.withFetchWord 32 0x20000005) with
      | .next t => t.ctl.csMask == 5 && t.port == []
      | .fault _ => false
      | .refused _ => false) = true := by
  decide +kernel

/-- B-1 event by event (R7): acceptance, the update to EXEC, the write of 0, the write of the bitslip
bit. In between, the bit is at 1 on the bus and the chip has advanced; the command is not over. -/
theorem test_atomic_between :
    (match atomicRun 4 ⟨start.setPort [0x40000080], []⟩ with
      | .next p => p.now.board.rwi == [(0, 0x2FF), (1, 0x8000)] && p.now.board.slips[7] == 1
          && decide (p.now.fsm = .exec) && decide (p.now.response = .none) && p.ahead.length == 3
      | .fault _ => false
      | .refused _ => false) = true := by
  decide +kernel

/-- The same command to its end: seven atomic steps leave what one step leaves. -/
theorem test_atomic_ends :
    (match atomicRun 7 ⟨start.setPort [0x40000080], []⟩, step (start.setPort [0x40000080]) with
      | .next p, .next t => p.ahead == [] && p.now.board.rwi == t.board.rwi
          && p.now.events == t.events && p.now.status == t.status && p.now.response == t.response
          && decide (p.now.fsm = .idle)
      | _, _ => false) = true := by
  decide +kernel

/-- With no command presented the block waits. -/
theorem test_step_waits : step State.reset = .next State.reset := by
  unfold step
  rw [failedCheck_none State.reset.inst test_exampleInstance_ok]
  rfl

/-! ## The assembler -/

/-- K-1, K-3, K-5, K-6, K-9, K-11. -/
theorem test_canonicalize :
    canonicalize 8 ['0'] = .ok 0 ∧ canonicalize 8 ['8'] = .error .invalidChipSpecifier ∧
    canonicalize 8 ['H'] = .ok 7 ∧ canonicalize 8 [':', 'c'] = .ok 2 ∧
    canonicalize 8 ['a', 'b'] = .error .invalidChipSpecifier ∧
    canonicalize 4 ['e'] = .error .invalidChipSpecifier := by
  refine ⟨rfl, rfl, rfl, rfl, rfl, rfl⟩

/-! ## Witnesses

For every statement that has hypotheses, a state and operands that meet all of them together; where a
statement has several clauses, each clause, at a boundary of its range. -/

/-- A command that answers a next state with a property. -/
theorem after_next {i : Instr} {s : State} {p : State → Bool} (h : after i s p = true) :
    ∃ t, exec i s = .next t ∧ p t = true := by
  unfold after at h
  split at h
  · exact ⟨_, ‹_›, h⟩
  · exact absurd h (by decide)
  · exact absurd h (by decide)

theorem reset_inv : Inv State.reset where
  idle := rfl
  memory := by decide
  control := ⟨by decide +kernel, by decide +kernel, by decide +kernel⟩
  tables := by
    refine ⟨fun c li => .inl ?_, ?_, ?_, ?_, ?_⟩
    · revert c li
      decide +kernel
    · decide +kernel
    · decide +kernel
    · decide +kernel
    · decide +kernel
  quiet := ⟨fun w _ v h => (by cases h), fun c _ v h => (by cases h)⟩
  atRest := fun h => absurd rfl h

theorem witness_DecodeInvertsEncode :
    WellFormed (.initializeChips []) ∧
      WellFormed (.initializeChips (List.replicate 65535 ⟨0, 0⟩)) := by
  refine ⟨Nat.zero_lt_succ _, ?_⟩
  show (List.replicate 65535 _).length < 65536
  rw [List.length_replicate]
  exact Nat.lt_succ_self _

theorem witness_EncodeInvertsDecode :
    decode [0x90000001, 0x00FFFFFF] = .ok (.initializeChips [⟨0xFF, 0xFFFF⟩], []) ∧
      ∀ w, Instr.initializeChips [⟨0xFF, 0xFFFF⟩] ≠ .illegal w := by
  refine ⟨rfl, ?_⟩
  intro w h
  cases h

theorem witness_OpcodeRowsDisjoint : ∃ r ∈ opcodeMap, (0x10250010 : Word) &&& r.mask = r.bits :=
  ⟨⟨"WRITE_REG", 0x10000000, 0xFF000000,
    fun w _ => .writeReg (w.extractLsb' 16 8) (w.extractLsb' 0 16)⟩,
    .tail _ (.head _), by decide⟩

theorem witness_UnspelledWordDecodesToIllegal :
    payloadCount 0x91000001 ≤ [(0 : Word)].length ∧
      ∀ r ∈ opcodeMap, r.mnemonic ≠ "ILLEGAL" → (0x91000001 : Word) &&& r.mask ≠ r.bits := by
  decide +kernel

theorem witness_StepRunsTheDecodedCommand :
    InstanceOk State.reset.inst ∧ State.reset.fsm = .idle ∧
      decode (State.reset.withFetchWord 32 0x20000005).port = .ok (.setCsMask 5, []) :=
  ⟨test_exampleInstance_ok, rfl, rfl⟩

theorem witness_PresentedCommandRuns :
    InstanceOk State.reset.inst ∧ State.reset.fsm = .idle ∧ WellFormed (.initializeChips []) :=
  ⟨test_exampleInstance_ok, rfl, Nat.zero_lt_succ _⟩

theorem witness_StepWaitsForAWholeCommand :
    InstanceOk State.reset.inst ∧ decode State.reset.port = .error .noCommand ∧
      decode (State.reset.setPort [0x90000001]).port = .error (.payloadIncomplete 1) :=
  ⟨test_exampleInstance_ok, rfl, rfl⟩

theorem witness_StepRefusesOnlyWhatTheSpecDoesNotRun :
    ¬ InstanceOk (State.resetOf { exampleInstance with syncRetries := 32 }).inst ∧
      (InstanceOk (State.reset.setFsm .exec).inst ∧ (State.reset.setFsm .exec).fsm ≠ .idle ∧
        decode ((State.reset.setFsm .exec).setPort [0x50000000]).port = .ok (.chipReset, [])) ∧
      (InstanceOk State.reset.inst ∧ State.reset.fsm = .idle) := by
  refine ⟨?_, ⟨test_exampleInstance_ok, by decide, rfl⟩, test_exampleInstance_ok, rfl⟩
  decide +kernel

/-- Also of ResetMeetsTheInvariant. -/
theorem witness_ResetLeavesTheStatedValues : InstanceOk exampleInstance ∧ InstanceOk fourChips :=
  ⟨test_exampleInstance_ok, test_fourChips_ok⟩

theorem witness_EveryStepKeepsTheInvariant :
    Inv State.reset ∧ step State.reset = .next State.reset :=
  ⟨reset_inv, test_step_waits⟩

theorem witness_RunsNeverStop : InstanceOk State.reset.inst ∧ Inv State.reset :=
  ⟨test_exampleInstance_ok, reset_inv⟩

theorem witness_EveryCommandReportsItsEnd : State.reset.fsm = .idle := rfl

/-- Also of TraceGrowsAndExplainsTheWords. -/
theorem witness_ControlWrittenOnlyByItsCommands :
    (∃ t, exec (.bitslip 1) start = .next t) ∧ (∀ mask, Instr.bitslip 1 ≠ .setCsMask mask) ∧
      (∀ f v, Instr.bitslip 1 ≠ .setConfig f v) := by
  refine ⟨⟨_, rfl⟩, ?_, ?_⟩
  · intro m h
    cases h
  · intro f v h
    cases h

theorem witness_ResultsWrittenOnlyByTheirCommands :
    (∃ t, exec (.setDelayTap 0 5 1) start = .next t) ∧
      (∀ m, Instr.setDelayTap 0 5 1 ≠ .calibrate m) ∧
      (∀ m, Instr.setDelayTap 0 5 1 ≠ .syncVerify m) ∧
      (∀ c, Instr.setDelayTap 0 5 1 ≠ .tapCal c) := by
  refine ⟨⟨_, rfl⟩, ?_, ?_, ?_⟩ <;>
  · intro x h
    cases h

theorem witness_IllegalPayloadWordAborts :
    InstanceOk State.reset.inst ∧ State.reset.fsm = .idle ∧
      (([0x00310001] : List Word) ++ (0x01000000 : Word) :: [0x02000000]).length = (3#16).toNat ∧
      (∀ p ∈ ([0x00310001] : List Word), p.extractLsb' 24 8 = 0) ∧
      (0x01000000 : Word).extractLsb' 24 8 ≠ 0 ∧
      (State.reset.setPort [0x90000003, 0x00310001, 0x01000000, 0x02000000]).port =
        (0x9000#16 ++ 3#16) :: ((([0x00310001] : List Word) ++ (0x01000000 : Word) :: [0x02000000])
          ++ []) :=
  ⟨test_exampleInstance_ok, rfl, rfl, List.forall_mem_singleton.mpr rfl, by decide, rfl⟩

theorem witness_IllegalValuesAbort :
    3 < (4#4).toNat ∧ start.inst.ncustom ≤ (2#4).toNat ∧
      ((0 : Half) = 0 ∧ start.inst.snapDepth < (1025#16).toNat) ∧
      (1 < (2 : Byte).toNat ∧ (9 : Byte) ∈ ([1, 3, 8, 9] : List Byte) ∧ (1 : Byte) ≠ 0 ∧
        (7 : Byte) ∈ ([2, 7] : List Byte) ∧ 3 < (4 : Byte).toNat ∧
        (5 : Byte) ∈ ([4, 5] : List Byte) ∧ 8 * start.inst.nchips ≤ (64 : Byte).toNat ∧
        10 ≤ (10 : Byte).toNat) ∧
      ((0#4).toNat ≤ 1 ∧ 0xFF < (0x100#16).toNat) ∧ ((1#4).toNat ≤ 1 ∧ 0xFF < (0x100#16).toNat) ∧
      ((3#4 = 3 ∧ (1#16).toNat < 2) ∧ start.inst.snapDepth < (1025#16).toNat) ∧
      3 < (4#4).toNat := by
  decide

theorem witness_InvalidMaskAborts :
    (State.resetOf fourChips).inst.nchips ≤ (4 : ChipId).val ∧
      (0x10 : Byte).getLsbD (4 : ChipId).val = true := by
  decide

theorem witness_InvalidChipAborts :
    (State.resetOf fourChips).inst.nchips ≤ (4#3).toNat ∧
      (1 ≤ (1#16).toNat ∧ (1#16).toNat ≤ (State.resetOf fourChips).inst.snapDepth) ∧
      (1 ≤ (1024#16).toNat ∧ (1024#16).toNat ≤ (State.resetOf fourChips).inst.snapDepth) := by
  decide

theorem witness_WriteRegSendsOneTransaction : InstanceOk start.inst := test_exampleInstance_ok

/-- Also of PowerCycleSendsDownThenUp. Every chip is selected, or none is, and then it is not in a
malformed selection. -/
theorem witness_ChipResetSendsTheResetWrites :
    InstanceOk start.inst ∧
      (maskValid start.inst start.ctl.csMask ∧ start.ctl.csMask.getLsbD 7 = true) ∧
      (maskValid start.inst 0 ∧ (0 : Byte).getLsbD 7 = false ∧
        start.board.receivers[(7 : ChipId)].endsMalformed start.inst.layout
          (start.board.held 0) 7 = false) ∧
      start.inst.chipRegs.resetWrites.getLast? = some ⟨0x00, 0x0001⟩ :=
  ⟨test_exampleInstance_ok, ⟨by decide +kernel, by decide +kernel⟩,
    ⟨by decide +kernel, by decide, by decide⟩, rfl⟩

/-- Also of WriteRegFramesCarryTheBits. A write that leaves the chip's other registers alone, one that
resets the chip, and one that powers it down; every chip is selected, or none is; the chips are
de-selected, or in a selection after no bit, 23 bits, 24 or 25. -/
theorem witness_WriteRegReachesTheSelectedChips :
    InstanceOk start.inst ∧
      (maskValid start.inst start.ctl.csMask ∧ start.ctl.csMask.getLsbD 7 = true) ∧
      (maskValid start.inst 0 ∧ (0 : Byte).getLsbD 7 = false) ∧
      start.board.receivers[(7 : ChipId)].endsMalformed start.inst.layout (start.board.held 0) 7
        = false ∧
      ([0, 23, 24, 25].map fun n => (selectedAfter n).board.receivers[(7 : ChipId)].endsMalformed
        start.inst.layout ((selectedAfter n).board.held 0) 7) = [true, true, false, true] ∧
      (∃ t, exec (.writeReg 0xFF 0xFFFF) start = .next t) ∧
      ∀ n, (chipUpset exampleChipRegs ⟨0xFF, 0xFFFF⟩ = false ∧
          ∃ t, exec (.writeReg 0xFF 0xFFFF) (selectedAfter n) = .next t) ∧
        (chipUpset exampleChipRegs ⟨0x00, 0x0001⟩ = true ∧
          ∃ t, exec (.writeReg 0x00 0x0001) (selectedAfter n) = .next t) ∧
        (chipUpset exampleChipRegs ⟨0x0F, 0x0200⟩ = true ∧
          ∃ t, exec (.writeReg 0x0F 0x0200) (selectedAfter n) = .next t) :=
  ⟨test_exampleInstance_ok, ⟨by decide +kernel, by decide +kernel⟩, ⟨by decide +kernel, by decide⟩,
    by decide +kernel, by decide +kernel, ⟨_, rfl⟩, fun _ => ⟨⟨by decide, _, rfl⟩, ⟨by decide, _, rfl⟩, by decide, _, rfl⟩⟩

theorem witness_SetCsMaskWritesTheMask :
    (∀ c : ChipId, (0xFF : Byte).getLsbD c.val = true → c.val < start.inst.nchips) ∧
      (∀ c : ChipId, (0x0F : Byte).getLsbD c.val = true →
        c.val < (State.resetOf fourChips).inst.nchips) := by
  decide +kernel

theorem witness_SelectPatternSendsTheKindsWrites :
    InstanceOk start.inst ∧
      ((0#4 = 0 ∧ start.inst.chipRegs.normalWrites = exampleChipRegs.normalWrites) ∧
       (1#4 = 1 ∧ start.inst.chipRegs.deskewWrites = exampleChipRegs.deskewWrites) ∧
       (2#4 = 2 ∧ start.inst.chipRegs.syncWrites = exampleChipRegs.syncWrites) ∧
       (3#4 = 3 ∧ start.inst.chipRegs.customWrites = exampleChipRegs.customWrites)) :=
  ⟨test_exampleInstance_ok, ⟨rfl, rfl⟩, ⟨rfl, rfl⟩, ⟨rfl, rfl⟩, rfl, rfl⟩

theorem witness_SetCustomPatternSendsTheSlotsWrites :
    InstanceOk start.inst ∧ (1#4).toNat < start.inst.ncustom ∧
      ∃ row ps, start.inst.chipRegs.customPattern[(1#4).toNat]? = some row ∧
        row[(0xFF : Byte).toNat]? = some ps :=
  ⟨test_exampleInstance_ok, by decide, _, _, rfl, rfl⟩

theorem witness_InitializeSendsTheOverrides :
    InstanceOk (scripted [] [true] []).inst ∧ (scripted [] [true] []).nextProgrammed = true ∧
      maskValid (scripted [] [true] []).inst (scripted [] [true] []).ctl.csMask :=
  ⟨test_exampleInstance_ok, rfl, by decide +kernel⟩

theorem witness_InitializeNeedsAProgrammedFpga :
    (scripted [] [false] []).nextProgrammed = false := rfl

/-- Also of SetDelayTapLatchesTheAddressedLanes. -/
theorem witness_SetDelayTapStrobesTheTap :
    InstanceOk start.inst ∧ (7#3).toNat < start.inst.nchips ∧
      ∃ t, exec (.setDelayTap 7 0xFF 0xFF) start = .next t :=
  ⟨test_exampleInstance_ok, by decide, _, rfl⟩

theorem witness_BitslipPulsesTheMask :
    InstanceOk start.inst ∧ maskValid start.inst 0xFF ∧ maskValid start.inst 0 :=
  ⟨test_exampleInstance_ok, by decide +kernel, by decide +kernel⟩

/-- Also of CapturesAreNeverShort. -/
theorem witness_CaptureReturnsSignedSamples :
    1 ≤ (1#16).toNat ∧ (1#16).toNat ≤ start.inst.snapDepth ∧ (1#3).toNat < start.inst.nchips ∧
      ∃ S, (scripted [uniform [0x80]] [] []).nextCapture (chipOfBits 1) (1#16).toNat = .ok S :=
  ⟨by decide, by decide, by decide, _, rfl⟩

theorem witness_CaptureFailureAborts :
    1 ≤ (1024#16).toNat ∧ (1024#16).toNat ≤ start.inst.snapDepth ∧
      (7#3).toNat < start.inst.nchips ∧
      (scripted [.fail] [] []).nextCapture (chipOfBits 7) (1024#16).toNat = .fail :=
  ⟨by decide, by decide, by decide, rfl⟩

/-- `n` whole captures of two samples, all of them the deskew byte. -/
def goodAnswers (n : Nat) : List Samples := List.replicate n (Vector.replicate 4 [0x2A, 0x2A])

/-- The state they are scripted in. -/
def goodState (n : Nat) : State := shortScript ((goodAnswers n).map .ok)

theorem goodState_scripted (n : Nat) :
    Scripted (goodAnswers n) (goodState n).ctl.cfgSnapLen.toNat (goodState n) := by
  refine ⟨⟨[], (List.append_nil _).symm⟩, ?_⟩
  intro S hS
  rw [List.eq_of_mem_replicate hS]
  intro ch
  rw [Fin.getElem_fin, Vector.getElem_replicate]
  rfl

theorem witness_CountErrorsCountsTheMismatches :
    Scripted (goodAnswers 1) (goodState 1).ctl.cfgSnapLen.toNat (goodState 1) ∧
      (goodAnswers 1).length = (goodState 1).ctl.cfgIter.toNat :=
  ⟨goodState_scripted 1, rfl⟩

theorem witness_ErrorCountsAreBounded : ∃ t, countErrors 0 0x2A (goodState 1) = .done t :=
  countErrors_done _ _ _ ⟨by decide, by decide⟩

/-- Taps 7..23 are 16 apart at most; 0 and 17 are 17 apart. -/
theorem witness_WindowSelectsTheMiddleGoodTap :
    (0 < 32 ∧ 17 < 32 ∧ (0x0003FFFF : Word).getLsbD 0 = true ∧
      (0x0003FFFF : Word).getLsbD 17 = true ∧ 16 < 17 - 0) ∧
    ((0x00FFFF80 : Word) ≠ 0 ∧ ∀ a b : Nat, (0x00FFFF80 : Word).getLsbD a = true →
      (0x00FFFF80 : Word).getLsbD b = true → b - a ≤ 16) := by
  refine ⟨by decide, by decide, ?_⟩
  intro a b ha hb
  have lt : ∀ n, (0x00FFFF80 : Word).getLsbD n = true → n < 32 := by
    intro n hn
    by_contra h
    rw [BitVec.getLsbD_of_ge _ _ (by omega)] at hn
    exact absurd hn (by decide)
  have key : ∀ a b : Fin 32, (0x00FFFF80 : Word).getLsbD a.val = true →
      (0x00FFFF80 : Word).getLsbD b.val = true → b.val - a.val ≤ 16 := by decide +kernel
  exact key ⟨a, lt a ha⟩ ⟨b, lt b hb⟩ ha hb

theorem goodState_succeeds (n : Nat) : CapturesSucceed n (goodState n) := by
  refine ⟨by simp [goodState, goodAnswers, shortScript, scripted], ?_⟩
  intro a ha
  have h := List.mem_of_mem_take ha
  obtain ⟨S, -, rfl⟩ := List.mem_map.mp h
  intro hf
  cases hf

theorem witness_TapCalReportsTheWindows :
    InstanceOk (goodState 34).inst ∧ (7#3).toNat < (goodState 34).inst.nchips ∧
      CapturesSucceed (34 * (goodState 34).ctl.cfgIter.toNat) (goodState 34) :=
  ⟨test_exampleInstance_ok, by decide, goodState_succeeds 34⟩

theorem witness_TapCalGoodMapReflectsTheSamples :
    (7#3).toNat < (goodState 34).inst.nchips ∧
      Scripted (goodAnswers 34) (goodState 34).ctl.cfgSnapLen.toNat (goodState 34) ∧
      (goodAnswers 34).length = 34 * (goodState 34).ctl.cfgIter.toNat ∧
      ∃ t, exec (.tapCal 7) (goodState 34) = .next t :=
  ⟨by decide, goodState_scripted 34, rfl, _, rfl⟩

theorem witness_TapCalHeuristicCondition :
    InstanceOk (goodState 2).inst ∧ (7#3).toNat < (goodState 2).inst.nchips ∧
      Scripted (goodAnswers 1 ++ goodAnswers 1) (goodState 2).ctl.cfgSnapLen.toNat (goodState 2) ∧
      (goodAnswers 1).length = (goodState 2).ctl.cfgIter.toNat ∧
      ∃ t, exec (.tapCal 7) (goodState 2) = .next t :=
  ⟨test_exampleInstance_ok, by decide, goodState_scripted 2, rfl, _, rfl⟩

/-- Of TapCalSlipsAtMostOnce, TapCalEvents and TapCalLeavesTheChosenTaps. -/
theorem witness_TapCalCompletes :
    InstanceOk (goodState 34).inst ∧
      (7#3).toNat < (goodState 34).inst.nchips ∧
      ∃ t, exec (.tapCal 7) (goodState 34) = .next t ∧ t.status.lastErr = .ok := by
  refine ⟨test_exampleInstance_ok, by decide, ?_⟩
  have h : after (.tapCal 7) (goodState 34) (fun t => decide (t.status.lastErr = .ok)) = true := by
    decide +kernel
  obtain ⟨t, h1, h2⟩ := after_next h
  exact ⟨t, h1, of_decide_eq_true h2⟩

/-- A script of `n` whole captures and then a failure. -/
def failing (n : Nat) : List CaptureAnswer := List.replicate n (uniform [0, 0]) ++ [.fail]

theorem failing_failsAfter (n : Nat) : FailsAfter n (failing n) := by
  refine ⟨List.replicate n (uniform [0, 0]), [], rfl, List.length_replicate, ?_⟩
  intro a ha
  rw [List.eq_of_mem_replicate ha]
  intro h
  cases h

/-- The first capture fails, or the last one; and a command that aborts. -/
theorem witness_TapCalAbortsOnAFailedCapture :
    InstanceOk start.inst ∧ (7#3).toNat < start.inst.nchips ∧
      (0 < 34 * (shortScript (failing 0)).ctl.cfgIter.toNat ∧
        FailsAfter 0 (shortScript (failing 0)).env.captures) ∧
      (33 < 34 * (shortScript (failing 33)).ctl.cfgIter.toNat ∧
        FailsAfter 33 (shortScript (failing 33)).env.captures) ∧
      ∃ t, exec (.tapCal 7) (shortScript (failing 0)) = .next t ∧ t.status.lastErr ≠ .ok := by
  refine ⟨test_exampleInstance_ok, by decide, ⟨by decide, failing_failsAfter 0⟩,
    ⟨by decide, failing_failsAfter 33⟩, ?_⟩
  have h : after (.tapCal 7) (shortScript (failing 0)) (fun t => decide (t.status.lastErr ≠ .ok))
      = true := by
    decide +kernel
  obtain ⟨t, h1, h2⟩ := after_next h
  exact ⟨t, h1, of_decide_eq_true h2⟩

/-- One sample per channel that is not, and one that is, the sync byte. -/
def badFrame : Samples := Vector.replicate 4 [0]
def goodFrame : Samples := Vector.replicate 4 [0x70]

/-- The state whose captures are the frames of a list. -/
def frames (l : List Samples) : State := scripted (l.map .ok) [] []

/-- The first match at the first capture and at the last one, the re-check; and no match. -/
theorem witness_SyncVerifyStopsAtTheFirstMatch :
    InstanceOk start.inst ∧ (7 : ChipId).val < start.inst.nchips ∧
    (∀ S ∈ List.replicate 9 badFrame, ¬ firstSamplesAre S start.ctl.cfgSync) ∧
    (Scripted ([] ++ [goodFrame]) 1 (frames [goodFrame]) ∧ firstSamplesAre goodFrame 0x70) ∧
    (Scripted (List.replicate 8 badFrame ++ [goodFrame]) 1
        (frames (List.replicate 8 badFrame ++ [goodFrame])) ∧
      (List.replicate 8 badFrame).length ≤ start.inst.syncRetries) ∧
    (Scripted (List.replicate 9 badFrame) 1 (frames (List.replicate 9 badFrame)) ∧
      (List.replicate 9 badFrame).length = start.inst.syncRetries + 1) := by
  refine ⟨test_exampleInstance_ok, by decide, ?_, ⟨⟨⟨[], rfl⟩, ?_⟩, by decide⟩,
    ⟨⟨⟨[], rfl⟩, ?_⟩, by decide⟩, ⟨⟨[], rfl⟩, ?_⟩, by decide⟩
  · decide +kernel
  · decide
  · decide
  · decide

theorem witness_SyncVerifyReportsEveryChip :
    InstanceOk (goodState 72).inst ∧ maskValid (goodState 72).inst 0xFF ∧
      maskValid (goodState 72).inst 0 ∧
      CapturesSucceed (8 * ((goodState 72).inst.syncRetries + 1)) (goodState 72) :=
  ⟨test_exampleInstance_ok, by decide +kernel, by decide +kernel, goodState_succeeds 72⟩

/-- An abort of a command in a state, by a failed capture in the phase `f`. -/
def failsIn (f : Fsm) (i : Instr) (s : State) : Bool :=
  after i s (fun t => decide (t.status.lastErr = .captureFailed)
    && t.status.errInfo.extractLsb' 16 4 == f.code)

theorem failsIn_aborts {f : Fsm} {i : Instr} {s : State} (h : failsIn f i s = true) :
    ∃ t, exec i s = .next t ∧ t.status.lastErr ≠ .ok := by
  obtain ⟨t, h1, h2⟩ := after_next h
  have h3 := of_decide_eq_true (Bool.and_eq_true_iff.mp h2).1
  exact ⟨t, h1, by rw [h3]; decide⟩

/-- For each chip of a list one frame, which matches; then `k` frames that do not match; then a
failure. -/
def syncScript (cs : List ChipId) (k : Nat) : List CaptureAnswer :=
  (cs.flatMap (fun _ => [goodFrame]) ++ List.replicate k badFrame).map .ok ++ [.fail]

theorem syncScript_fails (cs : List ChipId) (k : Nat) :
    FailsInSync 8 0x70 cs k (syncScript cs k) := by
  refine ⟨fun _ => [goodFrame], List.replicate k badFrame, [], rfl, ?_, ?_, ?_,
    List.length_replicate⟩
  · intro S hS
    rcases List.mem_append.mp hS with h | h
    · obtain ⟨c, -, hc⟩ := List.mem_flatMap.mp h
      rw [List.mem_singleton.mp hc]
      decide
    · rw [List.eq_of_mem_replicate h]
      decide
  · exact fun c _ => ⟨[], goodFrame, rfl, Nat.zero_le _, by simp, .inl (by decide)⟩
  · intro S hS
    rw [List.eq_of_mem_replicate hS]
    decide

/-- Chip 7 fails in its first round, after chip 0; chip 0 fails at its re-check. -/
theorem witness_SyncVerifyAbortsOnAFailedCapture :
    InstanceOk start.inst ∧ maskValid start.inst 0x81 ∧ start.inst.syncRetries = 8 ∧
      start.ctl.cfgSync = 0x70 ∧
      ((0x81 : Byte).getLsbD (7 : ChipId).val = true ∧ chipsBelow 0x81 (7 : ChipId).val = [0] ∧
        FailsInSync 8 0x70 [0] 0 (syncScript [0] 0)) ∧
      ((0x81 : Byte).getLsbD (0 : ChipId).val = true ∧ chipsBelow 0x81 (0 : ChipId).val = [] ∧
        FailsInSync 8 0x70 [] 8 (syncScript [] 8)) ∧
      (∃ t, exec (.syncVerify 0x81) (scripted (syncScript [0] 0) [] []) = .next t ∧
        t.status.lastErr ≠ .ok) ∧
      ∃ t, exec (.syncVerify 0x81) (scripted (syncScript [] 8) [] []) = .next t ∧
        t.status.lastErr ≠ .ok := by
  refine ⟨test_exampleInstance_ok, by decide +kernel, rfl, rfl, ⟨by decide, by decide,
    syncScript_fails [0] 0⟩, ⟨by decide, by decide, syncScript_fails [] 8⟩,
    failsIn_aborts (f := .syncRound) ?_, failsIn_aborts (f := .syncRecheck) ?_⟩
  · decide +kernel
  · decide +kernel

/-- A programmed FPGA, a word 0 with eight chips and the clock locked, and captures of two samples. -/
def calibrating (captures : List CaptureAnswer) : State :=
  (scripted captures [true] [0x01080000]).mapCtl (fun c => { c with cfgSnapLen := 2 })

/-- A capture that fails in the first probe of chip 7, at the end of its sweep, in its first round and at
its re-check. -/
theorem witness_CalibrateAborts :
    InstanceOk start.inst ∧ maskValid start.inst 0x80 ∧
      (scripted [] [false] []).nextProgrammed = false ∧
      (scripted [] [true] [0x00080000]).nextProgrammed = true ∧
      (scripted [] [true] [0x00080000]).env.word0 = [0x00080000] ∧
      (0x00080000 : Word).getLsbD start.inst.layout.primaryLockBit = false ∧
      (∀ l, (calibrating l).nextProgrammed = true ∧ (calibrating l).env.word0 = [0x01080000] ∧
        (calibrating l).env.captures = l ∧ 34 * (calibrating l).ctl.cfgIter.toNat = 34) ∧
      (0x01080000 : Word).getLsbD start.inst.layout.primaryLockBit = true ∧
      chipsBelow 0x80 (min ((0x01080000 : Word).extractLsb' start.inst.layout.chipCountLsb
        start.inst.layout.chipCountWidth).toNat start.inst.nchips) = [7] ∧
      chipsBelow 0x80 (7 : ChipId).val = [] ∧
      FailsAfter 0 (failing 0) ∧ FailsAfter 33 (failing 33) ∧
      ((goodAnswers 34).map CaptureAnswer.ok).length = 34 ∧
      (∀ a ∈ (goodAnswers 34).map CaptureAnswer.ok, a ≠ .fail) ∧
      FailsInSync 8 0x70 [] 0 (syncScript [] 0) ∧ FailsInSync 8 0x70 [] 8 (syncScript [] 8) ∧
      ∀ l ∈ [failing 0, failing 33, (goodAnswers 34).map CaptureAnswer.ok ++ syncScript [] 0,
          (goodAnswers 34).map CaptureAnswer.ok ++ syncScript [] 8],
        ∃ t, exec (.calibrate 0x80) (calibrating l) = .next t ∧ t.status.lastErr ≠ .ok := by
  refine ⟨test_exampleInstance_ok, by decide +kernel, rfl, rfl, rfl, by decide,
    fun l => ⟨rfl, rfl, rfl, rfl⟩, by decide, by decide +kernel, by decide, failing_failsAfter 0,
    failing_failsAfter 33, rfl, ?_, syncScript_fails [] 0, syncScript_fails [] 8, ?_⟩
  · intro a ha
    obtain ⟨S, -, rfl⟩ := List.mem_map.mp ha
    intro h
    cases h
  · intro l hl
    have all : ([failing 0, failing 33, (goodAnswers 34).map CaptureAnswer.ok ++ syncScript [] 0,
        (goodAnswers 34).map CaptureAnswer.ok ++ syncScript [] 8].all (fun l =>
          after (.calibrate 0x80) (calibrating l) (fun t => decide (t.status.lastErr ≠ .ok))))
        = true := by
      decide +kernel
    obtain ⟨t, h1, h2⟩ := after_next (List.all_eq_true.mp all l hl)
    exact ⟨t, h1, of_decide_eq_true h2⟩

/-- Captures for eight chips, a programmed FPGA, and a word 0 with eight chips and the clock
locked. -/
def calibrateState : State :=
  { goodState 344 with env := { (goodState 344).env with programmed := [true], word0 := [0x01080000] } }

theorem witness_CalibrateReportsTheSupportedChips :
    InstanceOk calibrateState.inst ∧ maskValid calibrateState.inst 0xFF ∧
      maskValid calibrateState.inst 0 ∧ calibrateState.nextProgrammed = true ∧ calibrateState.env.word0 = [0x01080000] ∧
      (0x01080000 : Word).getLsbD calibrateState.inst.layout.primaryLockBit = true ∧
      CapturesSucceed (8 * (34 * calibrateState.ctl.cfgIter.toNat
        + calibrateState.inst.syncRetries + 1)) calibrateState :=
  ⟨test_exampleInstance_ok, by decide +kernel, by decide +kernel, rfl, rfl, by decide,
    goodState_succeeds 344⟩

/-- Q-8: five chips, mask 0xE0. -/
theorem witness_CalibrateOfNoChipOnlyReads :
    InstanceOk start.inst ∧ maskValid start.inst 0xE0 ∧
      (scripted [] [true] [0x03050000]).nextProgrammed = true ∧
      (0x03050000 : Word).getLsbD start.inst.layout.primaryLockBit = true ∧
      ∀ c : ChipId, (0xE0 : Byte).getLsbD c.val = true →
        ((0x03050000 : Word).extractLsb' start.inst.layout.chipCountLsb
          start.inst.layout.chipCountWidth).toNat ≤ c.val :=
  ⟨test_exampleInstance_ok, by decide +kernel, rfl, by decide, by decide +kernel⟩

theorem witness_ReadStatusReturnsTheRegister :
    (7 : ChipId).val < start.inst.nchips ∧ start.inst.nchips ≤ 8 := by
  decide

theorem witness_ReadStatusOfTheBoardIsLive :
    (scripted [] [] [0x03180000]).env.word0 = [0x03180000] := rfl

theorem witness_SetConfigWritesOneRegister :
    (0xFF#16).toNat ≤ 0xFF ∧ 1#16 ≠ 0 ∧ 0xFFFF#16 ≠ 0 ∧
      (2 ≤ (2#16).toNat ∧ (2#16).toNat ≤ start.inst.snapDepth) ∧
      (2 ≤ (1024#16).toNat ∧ (1024#16).toNat ≤ start.inst.snapDepth) := by
  decide

end Sys2Proof.Tests
end

/-! SUPPORT. Every command as a chain of atomic steps (rule R7): the operations of a command, one after
the other, keep the property that the state reached is explained by the recorded events. -/

namespace Sys2Proof.Machine

open Sys2Proof.Safety

/-! ## What an event, and a list of them performed again, does to the parameters and the words -/

/-- No event changes the parameters of the board (rule R5). -/
theorem perform_inst (e : Event) (s : State) : (s.perform e).inst = s.inst := by
  cases e <;> rfl

/-- A write event writes its word; no other event changes a word (rules R71, R72). -/
theorem perform_rwi (e : Event) (s : State) :
    (s.perform e).board.rwi = wordsAfter s.board.rwi [e] := by
  cases e <;> rfl

theorem wordsAfter_cons (m : WordMem) (e : Event) (es : List Event) :
    wordsAfter m (e :: es) = wordsAfter (wordsAfter m [e]) es := rfl

theorem replay_cons (s : State) (e : TraceEntry) (l : List TraceEntry) :
    s.replay (e :: l) = ((s.recall e).perform e.event).replay l := rfl

theorem replay_inst (s : State) (l : List TraceEntry) : (s.replay l).inst = s.inst := by
  induction l generalizing s with
  | nil => rfl
  | cons e l ih =>
    rw [replay_cons, ih, perform_inst]
    rfl

theorem replay_rwi (s : State) (l : List TraceEntry) :
    (s.replay l).board.rwi = wordsAfter s.board.rwi (l.map TraceEntry.event) := by
  induction l generalizing s with
  | nil => rfl
  | cons e l ih =>
    rw [replay_cons, ih, perform_rwi, List.map_cons, wordsAfter_cons]
    rfl

theorem Replays.inst {l : List TraceEntry} {s t : State} (h : Replays l s t) : t.inst = s.inst :=
  h.final.inst.trans (replay_inst s l)

theorem Replays.rwi {l : List TraceEntry} {s t : State} (h : Replays l s t) :
    t.board.rwi = wordsAfter s.board.rwi (l.map TraceEntry.event) := by
  rw [h.final.board, replay_rwi]

theorem Replays.events {l : List TraceEntry} {s t : State} (h : Replays l s t) :
    t.events = s.events ++ l.map TraceEntry.event := by
  simp [State.events, h.trace]

/-! ## States explained by recorded events -/

/-- `t` is reached from `s` by recorded events that access the block's own words only, and by internal
updates (rules R7, R60, R72, R76). -/
def Explained (s t : State) : Prop :=
  ∃ l, Replays l s t ∧ ∀ e ∈ l, usesOwnWords s.inst.layout e.event = true

namespace Explained

variable {s t : State}

theorem refl (s : State) : Explained s s :=
  ⟨[], internalUpdate_replays (internalUpdate_refl s), fun _ h => absurd h List.not_mem_nil⟩

theorem inst (h : Explained s t) : t.inst = s.inst := by
  obtain ⟨l, hr, -⟩ := h
  exact hr.inst

theorem update {u : State} (h : Explained s t) (hu : InternalUpdate t u) : Explained s u := by
  obtain ⟨l, hr, hw⟩ := h
  refine ⟨l, ?_, hw⟩
  simpa using hr.trans (internalUpdate_replays hu)

/-- One more event, recorded with the registers in force. -/
theorem event {u : State} {e : Event} (h : Explained s t) (hu : Replays [t.entry e] t u)
    (he : usesOwnWords s.inst.layout e = true) : Explained s u := by
  obtain ⟨l, hr, hw⟩ := h
  refine ⟨l ++ [t.entry e], hr.trans hu, ?_⟩
  intro x hx
  rcases List.mem_append.mp hx with hx | hx
  · exact hw x hx
  · rw [List.mem_singleton.mp hx]
    exact he

/-- A left fold of operations that keep the property keeps it. -/
theorem foldl {α : Type} {f : State → α → State} (l : List α) (h : Explained s t)
    (hf : ∀ a ∈ l, ∀ u, Explained s u → Explained s (f u a)) : Explained s (l.foldl f t) :=
  List.foldlRecOn l f h (fun u hu a ha => hf a ha u hu)

/-! ## Internal updates -/

theorem setFsm (h : Explained s t) (f : Fsm) : Explained s (t.setFsm f) :=
  h.update (by constructor <;> rfl)

theorem mapWork (h : Explained s t) (f : Work → Work) : Explained s (t.mapWork f) :=
  h.update (by constructor <;> rfl)

theorem mapCtl (h : Explained s t) (f : Control → Control) : Explained s (t.mapCtl f) :=
  h.update (by constructor <;> rfl)

theorem mapStatus (h : Explained s t) (f : Status → Status) : Explained s (t.mapStatus f) :=
  h.update (by constructor <;> rfl)

theorem mapTables (h : Explained s t) (f : Tables → Tables) : Explained s (t.mapTables f) :=
  h.update (by constructor <;> rfl)

theorem respond (h : Explained s t) (r : Response) : Explained s (t.respond r) :=
  h.update (by constructor <;> rfl)

theorem raise (h : Explained s t) (e : ErrCode) (info : Word) : Explained s (t.raise e info) :=
  h.update (by constructor <;> rfl)

theorem complete (h : Explained s t) (d : ResponseData) : Explained s (t.complete d) :=
  h.update (by constructor <;> rfl)

/-! ## Bus events -/

theorem memWrite (h : Explained s t) {w : Nat} (v : Word)
    (hw : w = 0 ∨ w = 1 ∨ w ∈ s.inst.layout.strobeWords) : Explained s (t.memWrite w v) :=
  h.event (memWrite_replays w v t) (decide_eq_true hw)

theorem settle (h : Explained s t) : Explained s t.settle :=
  h.event (settle_replays t) rfl

theorem readWord0 (h : Explained s t) : Explained s t.readWord0 :=
  h.event (readWord0_replays t) rfl

theorem takeCapture (h : Explained s t) (c : ChipId) (n : Nat) :
    Explained s (t.takeCapture c n) :=
  h.event (takeCapture_replays c n t) rfl

theorem askProgrammed (h : Explained s t) : Explained s t.askProgrammed :=
  h.event (askProgrammed_replays t) rfl

/-! ## The shared operations of the bus -/

theorem strobeEach (h : Explained s t) (v : Nat → Word) :
    Explained s (t.memWriteEach s.inst.layout.strobeWords v) :=
  h.foldl _ fun w hw _ hu => hu.memWrite (v w) (.inr (.inr hw))

theorem sendBit (h : Explained s t) (cs a : Byte) (v : Half) (j : Nat) :
    Explained s (t.sendBit cs a v j) :=
  ((h.mapWork _).memWrite _ (.inl rfl)).memWrite _ (.inl rfl)

theorem writeRegister (h : Explained s t) (a : Byte) (v : Half) :
    Explained s (t.writeRegister a v) := by
  have opened := (h.mapWork (fun w => { w with bitCnt := 0 })).memWrite (idleFrame t.inst)
    (.inl rfl)
  have sent := opened.foldl (List.range 24) fun j _ _ hu =>
    hu.sendBit (csActive t.inst t.ctl.csMask) a v j
  exact (sent.mapWork _).memWrite _ (.inl rfl)

theorem writeRegisters (h : Explained s t) (ps : List RegWrite) :
    Explained s (t.writeRegisters ps) :=
  h.foldl ps fun p _ _ hu => hu.writeRegister p.addr p.value

theorem setDelayTap (h : Explained s t) (c : ChipId) (tap lm : Byte) :
    Explained s (t.setDelayTap c tap lm) := by
  unfold State.setDelayTap
  simp only [h.inst]
  exact (((h.strobeEach _).memWrite _ (.inr (.inl rfl))).strobeEach _).strobeEach _ |>.settle

theorem bitslipPulse (h : Explained s t) (c : ChipId) : Explained s (t.bitslipPulse c) :=
  (((h.memWrite _ (.inr (.inl rfl))).memWrite _ (.inr (.inl rfl))).memWrite _
    (.inr (.inl rfl))).settle

theorem bitslipEach (h : Explained s t) (cs : List ChipId) : Explained s (t.bitslipEach cs) :=
  h.foldl cs fun c _ _ hu => (hu.mapWork _).bitslipPulse c

theorem chipReset (h : Explained s t) : Explained s t.chipReset :=
  h.writeRegisters _

theorem powerCycle (h : Explained s t) : Explained s t.powerCycle :=
  (h.writeRegister _ _).writeRegister _ _

theorem selectPattern (h : Explained s t) (k : PatternKind) : Explained s (t.selectPattern k) :=
  h.writeRegisters _

/-! ## The parts of a command that can abort -/

/-- A command that is a run ends explained when its last state is. -/
theorem finish {r : Run} (h : Explained s r.state) (d : State → ResponseData) :
    Explained s (r.finish d) := by
  rcases finish_cases r d with ⟨u, hr, e⟩ | ⟨err, info, u, hr, e⟩
  · rw [e]
    rw [hr] at h
    exact h.complete _
  · rw [e]
    rw [hr] at h
    exact h.raise _ _

/-- The operations of the calibration and synchronization loops keep the property. -/
theorem keptTables (s : State) (c : ChipId) : KeptTables c (Explained s) where
  setFsm f _ h := h.setFsm f
  mapWork f _ h := h.mapWork f
  setDelayTap tap lm _ h := h.setDelayTap c tap lm
  bitslipPulse _ h := h.bitslipPulse c
  takeCapture n _ h := h.takeCapture c n
  heurSlip _ h := h.mapTables _
  recordTap _ _ _ h := h.mapTables _

theorem tapCalBody (h : Explained s t) (c : ChipId) : Explained s (tapCalBody c t).state :=
  tapCalBody_state (keptTables s c) (fun _ hu => hu.mapTables _) (fun _ _ hu => hu.mapTables _)
    (fun _ hu => hu.selectPattern _) t h

theorem tapCalEach (h : Explained s t) (cs : List ChipId) : Explained s (tapCalEach cs t).state :=
  tapCalEach_state cs (fun c _ _ hu => hu.tapCalBody c) t h

theorem syncEach (h : Explained s t) (cs : List ChipId) : Explained s (syncEach cs t).state :=
  syncEach_state cs
    (fun c _ u hu => syncChip_state (keptTables s c).toKept (fun _ _ hv => hv.mapTables _) u hu) t h

theorem syncVerifyBody (h : Explained s t) (mask : Byte) :
    Explained s (syncVerifyBody mask t).state :=
  (((h.mapTables _).setFsm _).selectPattern _).syncEach _

theorem calibrateBody (h : Explained s t) (mask : Byte) (w0 : Word) :
    Explained s (calibrateBody mask w0 t).state := by
  unfold Machine.calibrateBody
  refine Run.andThen_state (Explained s) _ _ (((h.mapStatus _).mapTables _).tapCalEach _) ?_
  intro u _ hu
  split
  · exact hu.syncVerifyBody _
  · exact hu

end Explained

/-! ## Every command -/

/-- Every command answers a next state, and the events that it issued explain that state (rules R7,
R280, R289). -/
theorem exec_explained (i : Instr) (s : State) : ∃ t, exec i s = .next t ∧ Explained s t := by
  have start := Explained.refl s
  have running := start.setFsm .exec
  cases i <;> refine ⟨_, rfl, ?_⟩
  case illegal => exact start.raise _ _
  case writeReg => exact (running.writeRegister _ _).complete _
  case setCsMask =>
    split
    · exact (running.mapCtl _).complete _
    · exact running.raise _ _
  case setDelayTap =>
    split
    · exact ((running.mapWork _).setDelayTap _ _ _).complete _
    · exact start.raise _ _
  case bitslip =>
    split
    · exact (running.bitslipEach _).complete _
    · exact start.raise _ _
  case chipReset => exact running.chipReset.complete _
  case powerCycle => exact running.powerCycle.complete _
  case selectPattern =>
    split
    · exact start.raise _ _
    · exact (running.selectPattern _).complete _
  case setCustomPattern =>
    split
    · exact (running.writeRegisters _).complete _
    · exact start.raise _ _
  case initializeChips =>
    split
    · exact (running.askProgrammed.chipReset.writeRegisters _).powerCycle.complete _
    · exact running.askProgrammed.raise _ _
  case capture =>
    split
    · split
      · split
        · exact ((running.mapWork _).takeCapture _ _).raise _ _
        · exact ((running.mapWork _).takeCapture _ _).complete _
      · exact start.raise _ _
    · exact start.raise _ _
  case tapCal =>
    split
    · exact (start.tapCalBody _).finish _
    · exact start.raise _ _
  case syncVerify =>
    split
    · exact (start.syncVerifyBody _).finish _
    · exact start.raise _ _
  case calibrate =>
    have asked := (start.setFsm .precheck).askProgrammed
    split
    · split
      · split
        · exact (asked.readWord0.calibrateBody _ _).finish _
        · exact asked.readWord0.raise _ _
      · exact asked.raise _ _
    · exact start.raise _ _
  case readStatus =>
    split
    · split
      · exact start.readWord0.respond _
      · exact start.respond _
    · exact start.raise _ _
  case setConfig =>
    split
    · exact (start.mapCtl _).complete _
    · exact start.raise _ _

theorem commandStates_eq {i : Instr} {s t : State} (h : exec i s = .next t) :
    commandStates i s = statesThrough t (newEntries s t) s := by
  unfold commandStates
  rw [h]

/-- Settles O17: the recorded events of a command are the witnesses; performed again they lead to its
end, so they give the words and the chain of atomic steps. -/
theorem traceGrowsAndExplainsTheWords : Obligations.TraceGrowsAndExplainsTheWords := by
  intro i s t h
  obtain ⟨_, he, l, hr, hw⟩ := exec_explained i s
  cases he.symm.trans h
  obtain ⟨hnew, hchain⟩ := hr.isChain
  have hstates : commandStates i s = statesThrough t l s := by rw [commandStates_eq h, hnew]
  refine ⟨l.map TraceEntry.event, hr.events, ?_, hr.rwi, ?_, ?_⟩
  · intro e he
    obtain ⟨x, hx, rfl⟩ := List.mem_map.mp he
    exact hw x hx
  · rw [hstates]
    exact statesThrough_getLast? t l s
  · rw [hstates]
    exact hchain

end Sys2Proof.Machine

/-! SUPPORT. What a step does in each of its cases: the named checks, the port, the phase
(rules R6, R65, R300, R310). -/

namespace Sys2Proof.Machine

/-- Where not every named check passes, there is a first one that fails (rules R6, R65; log 19). -/
theorem failedCheck_some {I : Instance} (h : ¬ InstanceOk I) :
    ∃ k, failedCheck I = some k ∧ passes I k = false := by
  obtain ⟨k, hk⟩ : ∃ k, failedCheck I = some k := by
    rw [← Option.isSome_iff_exists, failedCheck, List.find?_isSome]
    simpa [InstanceOk] using h
  have failed := List.find?_some hk
  exact ⟨k, hk, by simpa using failed⟩

theorem nextCommand_ok {s : State} {i : Instr} {rest : List Word}
    (h : decode s.port = .ok (i, rest)) : s.nextCommand = some (i, rest) := by
  rw [State.nextCommand, h]

theorem step_of_failedCheck {s : State} {k : InstanceCheck} (h : failedCheck s.inst = some k) :
    step s = .refused (.illFormedInstance k) := by
  rw [step, h]

theorem step_of_no_command {s : State} (hI : InstanceOk s.inst) (h : s.nextCommand = none) :
    step s = .next s := by
  rw [step, failedCheck_none s.inst hI, h]

theorem step_of_command {s : State} {i : Instr} {rest : List Word} (hI : InstanceOk s.inst)
    (h : s.nextCommand = some (i, rest)) :
    step s = if s.fsm = .idle then exec i (s.setPort rest) else .refused .commandWhileBusy := by
  rw [step, failedCheck_none s.inst hI, h]

/-- Settles O9: the three cases of `step`; in the last one either no whole command is presented, or
the command's own meaning answers a next state. -/
theorem stepRefusesOnlyWhatTheSpecDoesNotRun :
    Obligations.StepRefusesOnlyWhatTheSpecDoesNotRun := by
  intro s
  refine ⟨?illFormed, ?busy, ?idle⟩
  case illFormed =>
    intro hI
    obtain ⟨k, hk, failed⟩ := failedCheck_some hI
    exact ⟨k, failed, step_of_failedCheck hk⟩
  case busy =>
    intro hI hf i rest hd
    rw [step_of_command hI (nextCommand_ok hd), if_neg hf]
  case idle =>
    intro hI hf
    cases hc : s.nextCommand with
    | none => exact ⟨s, step_of_no_command hI hc⟩
    | some command =>
      obtain ⟨i, rest⟩ := command
      rw [step_of_command hI hc, if_pos hf]
      obtain ⟨t, ht, -⟩ := exec_explained i (s.setPort rest)
      exact ⟨t, ht⟩

end Sys2Proof.Machine

/-! SUPPORT. CAPTURE: the samples in signed form, and the command with a legal length and chip
(rules R8, R190, R200). -/

namespace Sys2Proof.Machine

open Sys2Proof.Safety

/-- The signed form of a byte is its two's complement value (rule R8). -/
theorem sext8_eq_toInt (b : Byte) : sext8 b = b.toInt := by
  unfold sext8
  rw [BitVec.toInt_eq_toNat_cond]
  split <;> split <;> omega

/-- The response data of CAPTURE, channel by channel (rule R200). -/
theorem signedSamples_eq (S : Samples) :
    signedSamples S = .samples [(S[0]).map BitVec.toInt, (S[1]).map BitVec.toInt,
      (S[2]).map BitVec.toInt, (S[3]).map BitVec.toInt] := by
  have channels : S.toList = [S[0], S[1], S[2], S[3]] := by
    apply List.ext_getElem
    · simp
    · intro k h _
      have : k = 0 ∨ k = 1 ∨ k = 2 ∨ k = 3 := by simp at h; omega
      rcases this with rfl | rfl | rfl | rfl <;> simp
  rw [signedSamples, channels, funext sext8_eq_toInt]
  rfl

/-- The state in which CAPTURE asks the sampler: the phase EXEC, CURCHIP and TAPCNT set
(rule R200). -/
def capturing (chip : BitVec 3) (s : State) : State :=
  (s.setFsm .exec).mapWork (fun w => { w with curChip := chip, tapCnt := 0x3F })

/-- CAPTURE with a legal length and chip, of a capture that succeeds (rule R200). -/
theorem execCapture_ok {s : State} {chip : BitVec 3} {len : Half} {S : Samples}
    (hl : lenLegal s.inst len) (hc : chipValid s.inst chip)
    (hS : s.nextCapture (chipOfBits chip) len.toNat = .ok S) :
    execCapture chip len s = .next
      (((capturing chip s).takeCapture (chipOfBits chip) len.toNat).complete (signedSamples S)) := by
  have asked : (capturing chip s).nextCapture (chipOfBits chip) len.toNat = .ok S := hS
  unfold capturing at asked
  simp only [execCapture, if_pos hl, if_pos hc, asked, capturing]

/-- Settles O36, from the end of a CAPTURE whose capture succeeds. -/
theorem captureReturnsSignedSamples : Obligations.CaptureReturnsSignedSamples := by
  intro s chip len S h1 hlen hc hS
  have hl : lenLegal s.inst len := ⟨Nat.one_le_iff_ne_zero.mp h1, hlen⟩
  refine ⟨_, execCapture_ok hl hc hS, ?_, ?_, rfl, ?_, rfl, rfl, rfl⟩
  · rw [signedSamples_eq, complete_eq]
    exact ⟨rfl, rfl, rfl, rfl⟩
  · exact ⟨⟨rfl, rfl, rfl⟩, rfl, rfl⟩
  · rw [complete_events, takeCapture_events]
    rfl

end Sys2Proof.Machine

/-! SUPPORT. The packed registers: the fields of STATUS, SYNC_STATUS, CAL_RESULT and LAST_SWEEP
(rules R28, R30, R31, R34). -/

namespace Sys2Proof.Machine

/-- A field above the low part of a packed word is a field of the high part. -/
theorem extractLsb'_append_add {v w : Nat} (x : BitVec v) (y : BitVec w) (k len : Nat) :
    (x ++ y).extractLsb' (w + k) len = x.extractLsb' k len := by
  rw [BitVec.extractLsb'_append_eq_of_le (Nat.le_add_right w k), Nat.add_sub_cancel_left]

/-- The same for a single bit. -/
theorem getLsbD_append_add {v w : Nat} (x : BitVec v) (y : BitVec w) (k : Nat) :
    (x ++ y).getLsbD (w + k) = x.getLsbD k := by
  rw [BitVec.getLsbD_append, if_neg (by omega), Nat.add_sub_cancel_left]

/-- The fields of the packed STATUS, from bit 0 up (rule R28). -/
theorem statusWord_fields (st : Status) (f : Fsm) :
    (statusWord st f).extractLsb' 0 4 = st.lastErr.code ∧
    (statusWord st f).getLsbD 4 = st.warnSec ∧ (statusWord st f).extractLsb' 5 3 = 0 ∧
    (statusWord st f).extractLsb' 8 4 = f.code ∧ (statusWord st f).extractLsb' 12 20 = 0 := by
  refine ⟨BitVec.extractLsb'_append_eq_right, ?_, ?_, ?_, ?_⟩
  · calc (statusWord st f).getLsbD 4
      _ = (0#20 ++ f.code ++ 0#3 ++ BitVec.ofBool st.warnSec).getLsbD 0 := getLsbD_append_add _ _ 0
      _ = st.warnSec := by rw [BitVec.getLsbD_append]; simp
  · calc (statusWord st f).extractLsb' 5 3
      _ = (0#20 ++ f.code ++ 0#3 ++ BitVec.ofBool st.warnSec).extractLsb' 1 3 :=
        extractLsb'_append_add _ _ 1 3
      _ = (0#20 ++ f.code ++ 0#3).extractLsb' 0 3 := extractLsb'_append_add _ _ 0 3
      _ = 0 := BitVec.extractLsb'_append_eq_right
  · calc (statusWord st f).extractLsb' 8 4
      _ = (0#20 ++ f.code ++ 0#3 ++ BitVec.ofBool st.warnSec).extractLsb' 4 4 :=
        extractLsb'_append_add _ _ 4 4
      _ = (0#20 ++ f.code ++ 0#3).extractLsb' 3 4 := extractLsb'_append_add _ _ 3 4
      _ = (0#20 ++ f.code).extractLsb' 0 4 := extractLsb'_append_add _ _ 0 4
      _ = f.code := BitVec.extractLsb'_append_eq_right
  · calc (statusWord st f).extractLsb' 12 20
      _ = (0#20 ++ f.code ++ 0#3 ++ BitVec.ofBool st.warnSec).extractLsb' 8 20 :=
        extractLsb'_append_add _ _ 8 20
      _ = (0#20 ++ f.code ++ 0#3).extractLsb' 7 20 := extractLsb'_append_add _ _ 7 20
      _ = (0#20 ++ f.code).extractLsb' 4 20 := extractLsb'_append_add _ _ 4 20
      _ = 0 := BitVec.extractLsb'_append_eq_left

/-- The 2-bit fields of a word packed of eight of them. -/
theorem extractLsb'_of_eight (f : Fin 8 → BitVec 2) (c : Fin 8) :
    (f 7 ++ f 6 ++ f 5 ++ f 4 ++ f 3 ++ f 2 ++ f 1 ++ f 0).extractLsb' (2 * c.val) 2 = f c := by
  fin_cases c <;> simp (disch := decide) only [BitVec.extractLsb'_append_eq_of_le]
  iterate 7
    · exact BitVec.extractLsb'_append_eq_right
  · exact BitVec.extractLsb'_eq_self

/-- The field of each chip in the packed SYNC_STATUS (rule R30). -/
theorem syncStatusWord_field (v : Chips SyncStatus) (c : ChipId) :
    (syncStatusWord v).extractLsb' (2 * c.val) 2 = (v[c]).code :=
  extractLsb'_of_eight (fun d => (v[d]).code) c

/-- The fields of a TAP result (rule R31). -/
theorem calResult_byte_tap (t : Tap) :
    (CalResult.tap t).byte.getLsbD 5 = false ∧ (CalResult.tap t).byte.extractLsb' 6 2 = 1 ∧
      (CalResult.tap t).byte.extractLsb' 0 5 = t :=
  ⟨getLsbD_append_add (1#2 ++ 0#1) t 0, extractLsb'_append_add (1#2 ++ 0#1) t 1 2,
    BitVec.extractLsb'_append_eq_right⟩

/-- The fields of the packed LAST_SWEEP (rule R34). -/
theorem lastSweep_byte_fields (l : LastSweep) :
    l.byte.getLsbD 7 = l.valid ∧ l.byte.extractLsb' 3 4 = 0 ∧ l.byte.extractLsb' 0 3 = l.chip := by
  refine ⟨?_, ?_, BitVec.extractLsb'_append_eq_right⟩
  · calc l.byte.getLsbD 7
      _ = (BitVec.ofBool l.valid ++ 0#4).getLsbD 4 := getLsbD_append_add _ _ 4
      _ = (BitVec.ofBool l.valid).getLsbD 0 := getLsbD_append_add _ _ 0
      _ = l.valid := by simp
  · calc l.byte.extractLsb' 3 4
      _ = (BitVec.ofBool l.valid ++ 0#4).extractLsb' 0 4 := extractLsb'_append_add _ _ 0 4
      _ = 0 := BitVec.extractLsb'_append_eq_right

/-- Settles O58, from the fields of each packed register; the two lists of codes are finite. -/
theorem statusAndResultFields : Obligations.StatusAndResultFields := by
  refine ⟨?status, by decide, by decide, ?sync, ?result, lastSweep_byte_fields⟩
  case status =>
    intro st f
    obtain ⟨err, warn, gap, phase, top⟩ := statusWord_fields st f
    exact ⟨err, warn, gap, phase, top, fun hf => by rw [phase, hf]; rfl⟩
  case sync =>
    intro v c
    rw [syncStatusWord_field]
    cases v[c] <;> rfl
  case result =>
    intro r
    cases r with
    | tap t =>
      obtain ⟨gap, kind, tap⟩ := calResult_byte_tap t
      exact ⟨gap, Prod.ext kind tap⟩
    | none => decide
    | indEmpty => decide
    | indWrapped => decide

end Sys2Proof.Machine

/-! SUPPORT. READ_STATUS over the register map (rules R36, R260, R261). -/

namespace Sys2Proof.Machine

/-- READ_STATUS of a register of the map other than the board status (rule R260). -/
theorem execReadStatus_register {s : State} {sel idx : Byte} {d : Word}
    (hm : inMap s.inst sel idx = true) (h7 : sel ≠ 7) (hd : registerValue s sel idx = d) :
    exec (.readStatus sel idx) s =
      .next { s with response := some { code := .ok, info := 0, data := .value d } } := by
  simp only [exec, execReadStatus, if_pos hm, if_neg h7, hd]
  rfl

/-- Zero extension, as a field of zeros above the value (rules R8, R260). -/
theorem setWidth_eq_zeros_append (k : Nat) {n : Nat} (x : BitVec n) :
    x.setWidth (k + n) = 0#k ++ x := by
  apply BitVec.eq_of_toNat_eq
  rw [BitVec.toNat_append, BitVec.toNat_setWidth, BitVec.toNat_ofNat, Nat.zero_mod,
    Nat.zero_shiftLeft, Nat.zero_or, Nat.mod_eq_of_lt]
  exact x.isLt.trans_le (Nat.pow_le_pow_right (by decide) (Nat.le_add_left n k))

/-- The tap and the lane that an index of ERR_COUNT names (rule R260). -/
theorem idx_of_tap (u : Fin 32) (li : LaneId) :
    idxTap (BitVec.ofNat 8 (8 * u.val + li.val)) = u ∧
      idxLane (BitVec.ofNat 8 (8 * u.val + li.val)) = li := by
  revert u li
  decide

/-- The chip and the lane that an index of CAL_RESULT or GOOD_MAP names (rule R260). -/
theorem idx_of_chip (c : ChipId) (li : LaneId) :
    idxChip (BitVec.ofNat 8 (8 * c.val + li.val)) = c ∧
      idxLane (BitVec.ofNat 8 (8 * c.val + li.val)) = li := by
  revert c li
  decide

/-- Settles O56: each register of the map by `execReadStatus_register`; the index of a table names its
row and lane. -/
theorem readStatusReturnsTheRegister : Obligations.ReadStatusReturnsTheRegister := by
  intro s
  refine ⟨?status, ?errInfo, ?csMask, ?deskew, ?sync, ?iter, ?snapLen, ?syncStatus, ?chipTables,
    ?counts, ?lastSweep, ?heurSlip⟩
  case chipTables =>
    intro c li hc _
    obtain ⟨hrow, hlane⟩ := idx_of_chip c li
    have below :
        decide ((BitVec.ofNat 8 (8 * c.val + li.val)).toNat < 8 * s.inst.nchips) = true := by
      rw [decide_eq_true_eq, BitVec.toNat_ofNat]
      omega
    refine ⟨execReadStatus_register below (by decide) ?_,
      execReadStatus_register below (by decide) ?_⟩
    · refine (setWidth_eq_zeros_append 24 _).trans ?_
      simp only [hrow, hlane]
    · show s.tables.goodMap[idxChip _][idxLane _] = _
      simp only [hrow, hlane]
  case counts =>
    intro u li
    obtain ⟨hrow, hlane⟩ := idx_of_tap u li
    refine execReadStatus_register rfl (by decide) ?_
    show s.tables.errCount[idxTap _][idxLane _] = _
    simp only [hrow, hlane]
  case status => exact execReadStatus_register rfl (by decide) rfl
  case errInfo => exact execReadStatus_register rfl (by decide) rfl
  case csMask =>
    exact execReadStatus_register rfl (by decide) (setWidth_eq_zeros_append 24 s.ctl.csMask)
  case deskew =>
    exact execReadStatus_register rfl (by decide) (setWidth_eq_zeros_append 24 s.ctl.cfgDeskew)
  case sync =>
    exact execReadStatus_register rfl (by decide) (setWidth_eq_zeros_append 24 s.ctl.cfgSync)
  case iter =>
    exact execReadStatus_register rfl (by decide) (setWidth_eq_zeros_append 16 s.ctl.cfgIter)
  case snapLen =>
    exact execReadStatus_register rfl (by decide) (setWidth_eq_zeros_append 16 s.ctl.cfgSnapLen)
  case syncStatus =>
    exact execReadStatus_register rfl (by decide) (setWidth_eq_zeros_append 16 _)
  case lastSweep =>
    exact execReadStatus_register rfl (by decide) (setWidth_eq_zeros_append 24 _)
  case heurSlip =>
    exact execReadStatus_register rfl (by decide) (setWidth_eq_zeros_append 24 _)

end Sys2Proof.Machine

/-! SUPPORT. What every command keeps: a property of states kept by the operations that all commands
share is kept by every command, its own register updates aside (rules R280, R289, R290). -/

namespace Sys2Proof.Machine

/-- `P` is kept by the operations that all commands are made of; the updates of the control registers,
of WARN_SEC and of the result tables are the commands' own. -/
structure KeptByParts (P : State → Prop) : Prop where
  setFsm : ∀ f {s}, P s → P (s.setFsm f)
  mapWork : ∀ f {s}, P s → P (s.mapWork f)
  mapEnv : ∀ f {s}, P s → P (s.mapEnv f)
  emit : ∀ e {s}, P s → P (s.emit e)
  respond : ∀ r {s}, P s → P (s.respond r)
  ended : ∀ e info {s}, P s → P (s.mapStatus (Status.ended e info))
  writeRegister : ∀ a v {s}, P s → P (s.writeRegister a v)
  setDelayTap : ∀ c tap lm {s}, P s → P (s.setDelayTap c tap lm)
  bitslipPulse : ∀ c {s}, P s → P (s.bitslipPulse c)

/-- How a command that starts in `s` ends: by a completion or an abort in a state with `P`, or, as a
status read does, by the response alone (rules R260, R280, R289). -/
inductive CommandEnd (P : State → Prop) (s : State) : State → Prop where
  | complete {u : State} (d : ResponseData) (h : P u) : CommandEnd P s (u.complete d)
  | raise {u : State} (e : ErrCode) (info : Word) (h : P u) : CommandEnd P s (u.raise e info)
  | read {u : State} (r : Response) (h : P u) (hf : u.fsm = s.fsm) : CommandEnd P s (u.respond r)

theorem CommandEnd.idle {P : State → Prop} {s t : State} (h : CommandEnd P s t)
    (hs : s.fsm = .idle) : t.fsm = .idle := by
  cases h with
  | complete d h => rfl
  | raise e info h => rfl
  | read r h hf => exact hf.trans hs

/-- The end of a command that is a run (rule R280). -/
theorem CommandEnd.finish {P : State → Prop} {r : Run} (s : State) (h : P r.state)
    (d : State → ResponseData) : CommandEnd P s (r.finish d) := by
  cases r with
  | done u => exact .complete (d u) h
  | abort e info u => exact .raise e info h

/-- CALIBRATE keeps what its update of WARN_SEC, its tap calibrations and its synchronization pass keep
(rules R250, R252 to R254). -/
theorem calibrateBody_state {P : State → Prop} {u : State} {mask : Byte} {w0 : Word}
    (hwarn : P (u.mapStatus (fun st => { st with warnSec := warnSecondary u.inst w0 })).clearSync)
    (htap : ∀ c ∈ chipsOf u.inst (calibrateMask u.inst mask w0), ∀ t, P t →
      P (tapCalBody c t).state)
    (hsync : ∀ t, P t → P (syncVerifyBody (calibrateMask u.inst mask w0) t).state) :
    P (calibrateBody mask w0 u).state := by
  unfold calibrateBody
  refine Run.andThen_state P _ _ (tapCalEach_state _ htap _ hwarn) ?_
  intro t _ ht
  split
  · exact hsync t ht
  · exact ht

/-- `P` is kept by the updates of the registers that are a command's own: those of the control registers,
and the bodies of the commands that write result tables and WARN_SEC. -/
structure OwnUpdates (P : State → Prop) (i : Instr) (s : State) : Prop where
  csMask : ∀ mask, i = .setCsMask mask → maskValid s.inst mask →
    ∀ u, P u → P (u.mapCtl (fun c => { c with csMask := mask }))
  config : ∀ f v, i = .setConfig f v → configLegal s.inst f v = true →
    ∀ u, P u → P (u.mapCtl (Control.setField f v))
  tapCal : ∀ chip, i = .tapCal chip → chipValid s.inst chip →
    P (tapCalBody (chipOfBits chip) s).state
  syncVerify : ∀ mask, i = .syncVerify mask → P (syncVerifyBody mask s).state
  calibrate : ∀ mask w0, i = .calibrate mask → ∀ u, P u → P (calibrateBody mask w0 u).state

namespace KeptByParts

variable {P Q : State → Prop}

theorem and (h : KeptByParts P) (k : KeptByParts Q) : KeptByParts (fun u => P u ∧ Q u) where
  setFsm f _ hu := ⟨h.setFsm f hu.1, k.setFsm f hu.2⟩
  mapWork f _ hu := ⟨h.mapWork f hu.1, k.mapWork f hu.2⟩
  mapEnv f _ hu := ⟨h.mapEnv f hu.1, k.mapEnv f hu.2⟩
  emit e _ hu := ⟨h.emit e hu.1, k.emit e hu.2⟩
  respond r _ hu := ⟨h.respond r hu.1, k.respond r hu.2⟩
  ended e info _ hu := ⟨h.ended e info hu.1, k.ended e info hu.2⟩
  writeRegister a v _ hu := ⟨h.writeRegister a v hu.1, k.writeRegister a v hu.2⟩
  setDelayTap c tap lm _ hu := ⟨h.setDelayTap c tap lm hu.1, k.setDelayTap c tap lm hu.2⟩
  bitslipPulse c _ hu := ⟨h.bitslipPulse c hu.1, k.bitslipPulse c hu.2⟩

/-- The shared operations leave the parameters, the control registers, WARN_SEC, the result tables and the
port as they are. -/
theorem of_registers (Q : Instance → Control → Bool → Tables → List Word → Prop) :
    KeptByParts (fun u => Q u.inst u.ctl u.status.warnSec u.tables u.port) where
  setFsm _ _ hu := hu
  mapWork _ _ hu := hu
  mapEnv _ _ hu := hu
  emit _ _ hu := hu
  respond _ _ hu := hu
  ended _ _ _ hu := hu
  writeRegister a v u hu := by simpa using hu
  setDelayTap c tap lm u hu := by simpa using hu
  bitslipPulse c u hu := by simpa using hu

variable {s u : State} (h : KeptByParts P)
include h

theorem complete (d : ResponseData) (hu : P u) : P (u.complete d) := by
  unfold State.complete State.endCommand
  exact h.mapEnv _ (h.mapWork _ (h.setFsm _ (h.respond _ (h.ended _ _ hu))))

theorem raise (e : ErrCode) (info : Word) (hu : P u) : P (u.raise e info) := by
  unfold State.raise State.endCommand
  exact h.mapEnv _ (h.mapWork _ (h.setFsm _ (h.respond _ (h.ended _ _ hu))))

theorem of_commandEnd {t : State} (ht : CommandEnd P s t) : P t := by
  cases ht with
  | complete d hu => exact h.complete d hu
  | raise e info hu => exact h.raise e info hu
  | read r hu _ => exact h.respond r hu

theorem takeCapture (c : ChipId) (n : Nat) (hu : P u) : P (u.takeCapture c n) :=
  h.mapEnv _ (h.emit _ hu)

theorem askProgrammed (hu : P u) : P u.askProgrammed := h.mapEnv _ (h.emit _ hu)

theorem readWord0 (hu : P u) : P u.readWord0 := h.mapEnv _ (h.emit _ hu)

theorem writeRegisters (ps : List RegWrite) (hu : P u) : P (u.writeRegisters ps) :=
  writeRegisters_keeps P ps u (fun _ a v ht => h.writeRegister a v ht) hu

theorem selectPattern (k : PatternKind) (hu : P u) : P (u.selectPattern k) := h.writeRegisters _ hu

theorem chipReset (hu : P u) : P u.chipReset := h.writeRegisters _ hu

theorem powerCycle (hu : P u) : P u.powerCycle := h.writeRegister _ _ (h.writeRegister _ _ hu)

theorem bitslipEach (cs : List ChipId) (hu : P u) : P (u.bitslipEach cs) :=
  List.foldlRecOn cs _ hu fun _ ht c _ => h.bitslipPulse c (h.mapWork _ ht)

theorem kept (c : ChipId) : Kept c P where
  setFsm f _ hu := h.setFsm f hu
  mapWork f _ hu := h.mapWork f hu
  setDelayTap tap lm _ hu := h.setDelayTap c tap lm hu
  bitslipPulse _ hu := h.bitslipPulse c hu
  takeCapture n _ hu := h.takeCapture c n hu

/-- A tap calibration keeps what its updates of the result tables keep (rules R211, R214, R216, R222). -/
theorem tapCalBody_keeps {c : ChipId}
    (hstart : ∀ u, P u → P (u.mapTables (Tables.tapCalStart c)))
    (hslip : ∀ u, P u →
      P (u.mapTables (fun T => { T with heurSlip := writeMaskBit T.heurSlip c true })))
    (hrecord : ∀ tap acc u, P u → P (u.mapTables (Tables.recordTap c tap acc)))
    (hresult : ∀ R u, P u →
      P (u.mapTables (fun T => { T with calResult := T.calResult.set c R })))
    (hs : P s) : P (tapCalBody c s).state :=
  tapCalBody_state { h.kept c with heurSlip := hslip, recordTap := hrecord } hstart hresult
    (fun _ => h.selectPattern .deskew) s hs

/-- A synchronization pass keeps what its updates of SYNC_STATUS keep (rules R243, R247). -/
theorem syncVerifyBody_keeps {mask : Byte} (hclear : P u.clearSync)
    (hset : ∀ c ∈ chipsOf u.inst mask, ∀ v t, P t → P (t.setSyncStatus c v)) :
    P (syncVerifyBody mask u).state :=
  syncEach_state _ (fun c hc t ht => syncChip_state (h.kept c) (hset c hc) t ht) _
    (h.selectPattern _ (h.setFsm _ hclear))

/-- Every command ends in one of the three ways, and keeps what its own register updates keep
(rules R260, R280, R289). -/
theorem exec_ends {i : Instr} (own : OwnUpdates P i s) (hs : P s) :
    ∃ t, exec i s = .next t ∧ CommandEnd P s t := by
  have running := h.setFsm .exec hs
  cases i <;> refine ⟨_, rfl, ?_⟩
  case illegal => exact .raise _ _ hs
  case writeReg => exact .complete _ (h.writeRegister _ _ running)
  case setCsMask mask =>
    split
    · rename_i hm
      exact .complete _ (own.csMask mask rfl hm _ running)
    · exact .raise _ _ running
  case setDelayTap =>
    split
    · exact .complete _ (h.setDelayTap _ _ _ (h.mapWork _ running))
    · exact .raise _ _ hs
  case bitslip =>
    split
    · exact .complete _ (h.bitslipEach _ running)
    · exact .raise _ _ hs
  case chipReset => exact .complete _ (h.chipReset running)
  case powerCycle => exact .complete _ (h.powerCycle running)
  case selectPattern =>
    split
    · exact .raise _ _ hs
    · exact .complete _ (h.selectPattern _ running)
  case setCustomPattern =>
    split
    · exact .complete _ (h.writeRegisters _ running)
    · exact .raise _ _ hs
  case initializeChips =>
    have asked := h.askProgrammed running
    split
    · exact .complete _ (h.powerCycle (h.writeRegisters _ (h.chipReset asked)))
    · exact .raise _ _ asked
  case capture =>
    have taken := fun c n f => h.takeCapture c n (h.mapWork f running)
    split
    · split
      · split
        · exact .raise _ _ (taken _ _ _)
        · exact .complete _ (taken _ _ _)
      · exact .raise _ _ hs
    · exact .raise _ _ hs
  case tapCal chip =>
    split
    · rename_i hc
      exact .finish s (own.tapCal chip rfl hc) _
    · exact .raise _ _ hs
  case syncVerify mask =>
    split
    · exact .finish s (own.syncVerify mask rfl) _
    · exact .raise _ _ hs
  case calibrate mask =>
    have asked := h.askProgrammed (h.setFsm .precheck hs)
    split
    · split
      · split
        · exact .finish s (own.calibrate mask _ rfl _ (h.readWord0 asked)) _
        · exact .raise _ _ (h.readWord0 asked)
      · exact .raise _ _ asked
    · exact .raise _ _ hs
  case readStatus =>
    split
    · split
      · exact .read _ (h.readWord0 hs) rfl
      · exact .read _ hs rfl
    · exact .raise _ _ hs
  case setConfig f v =>
    split
    · rename_i hv
      exact .complete _ (own.config f v rfl hv _ hs)
    · exact .raise _ _ hs

theorem exec_keeps {i : Instr} {t : State} (own : OwnUpdates P i s) (he : exec i s = .next t)
    (hs : P s) : P t := by
  obtain ⟨_, he', ht⟩ := h.exec_ends own hs
  cases he'.symm.trans he
  exact h.of_commandEnd ht

end KeptByParts

/-- Every command ends idle (rules R21, R280). -/
theorem exec_idle {i : Instr} {s t : State} (he : exec i s = .next t) (hs : s.fsm = .idle) :
    t.fsm = .idle := by
  have h : KeptByParts (fun _ => True) := .of_registers (fun _ _ _ _ _ => True)
  have own : OwnUpdates (fun _ => True) i s := by constructor <;> simp
  obtain ⟨_, he', ht⟩ := h.exec_ends own trivial
  cases he'.symm.trans he
  exact ht.idle hs

end Sys2Proof.Machine

/-! SUPPORT. Which commands write the control registers, WARN_SEC and the result tables (rules R23 to
R28, R30 to R35, R141). -/

namespace Sys2Proof.Machine

open Sys2Proof.Safety

namespace KeptByParts

variable {P : State → Prop} (h : KeptByParts P)
include h

/-- Where every update of the result tables keeps `P`, only the updates of the control registers and of
WARN_SEC are left to look at. -/
theorem ownUpdates_of_tables {i : Instr} {s : State} (htab : ∀ f u, P u → P (u.mapTables f))
    (hmask : ∀ mask, i = .setCsMask mask →
      ∀ u, P u → P (u.mapCtl (fun c => { c with csMask := mask })))
    (hconfig : ∀ f v, i = .setConfig f v → ∀ u, P u → P (u.mapCtl (Control.setField f v)))
    (hwarn : ∀ mask, i = .calibrate mask → ∀ b u, P u →
      P (u.mapStatus (fun st => { st with warnSec := b }))) (hs : P s) : OwnUpdates P i s where
  csMask mask e _ := hmask mask e
  config f v e _ := hconfig f v e
  tapCal _ _ _ := h.tapCalBody_keeps (htab _) (htab _) (fun _ _ => htab _) (fun _ => htab _) hs
  syncVerify _ _ := h.syncVerifyBody_keeps (htab _ _ hs) (fun _ _ _ => htab _)
  calibrate mask _ e u hu := calibrateBody_state (htab _ _ (hwarn mask e _ u hu))
    (fun _ _ _ ht => h.tapCalBody_keeps (htab _) (htab _) (fun _ _ => htab _) (fun _ => htab _) ht)
    (fun t ht => h.syncVerifyBody_keeps (htab _ t ht) (fun _ _ _ => htab _))

end KeptByParts

theorem setField_csMask (f : BitVec 4) (v : Half) (K : Control) :
    (K.setField f v).csMask = K.csMask := by
  unfold Control.setField
  split <;> rfl

/-- Settles O15: CS_MASK is kept by every update but that of SET_CS_MASK, and the configuration registers
by every update but those of SET_CONFIG. -/
theorem controlWrittenOnlyByItsCommands : Obligations.ControlWrittenOnlyByItsCommands := by
  intro i s t he
  refine ⟨?csMask, ?cfg⟩
  case csMask =>
    intro hi
    have h := KeptByParts.of_registers (fun _ K _ _ _ => K.csMask = s.ctl.csMask)
    refine h.exec_keeps (h.ownUpdates_of_tables ?_ ?_ ?_ ?_ rfl) he rfl
    · exact fun _ _ hu => hu
    · exact fun mask e => absurd e (hi mask)
    · exact fun f v _ u hu => (setField_csMask f v u.ctl).trans hu
    · exact fun _ _ _ _ hu => hu
  case cfg =>
    intro hi
    have h := KeptByParts.of_registers (fun _ K _ _ _ => ∃ m, K = { s.ctl with csMask := m })
    have own := h.ownUpdates_of_tables (i := i) (s := s) ?_ ?_ ?_ ?_ ⟨s.ctl.csMask, rfl⟩
    · obtain ⟨m, hm⟩ := h.exec_keeps own he ⟨s.ctl.csMask, rfl⟩
      rw [hm]
      exact ⟨rfl, rfl, rfl, rfl⟩
    · exact fun _ _ hu => hu
    · rintro mask - u ⟨_, hm⟩
      exact ⟨mask, congrArg (fun K : Control => { K with csMask := mask }) hm⟩
    · exact fun f v e => absurd e (hi f v)
    · exact fun _ _ _ _ hu => hu

/-- Every command but CALIBRATE leaves the parameters, the port and WARN_SEC as they are (rules R5, R28,
R300). -/
theorem exec_keepsSetting {i : Instr} {s t : State} (he : exec i s = .next t)
    (hi : ∀ m, i ≠ .calibrate m) : KeepsSetting s t := by
  have h := KeptByParts.of_registers
    (fun I _ w _ ws => I = s.inst ∧ ws = s.port ∧ w = s.status.warnSec)
  have own := h.ownUpdates_of_tables (i := i) (s := s) (fun _ _ hu => hu) (fun _ _ _ hu => hu)
    (fun _ _ _ _ hu => hu) (fun m e => absurd e (hi m)) ⟨rfl, rfl, rfl⟩
  obtain ⟨hinst, hport, hwarn⟩ := h.exec_keeps own he ⟨rfl, rfl, rfl⟩
  exact ⟨hinst, hport, hwarn⟩

/-- Settles O16: the tables that a command's body writes are updated field by field, and the others keep
their value through it. -/
theorem resultsWrittenOnlyByTheirCommands : Obligations.ResultsWrittenOnlyByTheirCommands := by
  intro i s t he hcal
  refine ⟨(exec_keepsSetting he hcal).warnSec, ?sync, ?cal⟩
  case sync =>
    intro hi
    have h := KeptByParts.of_registers (fun _ _ _ T _ => T.syncStatus = s.tables.syncStatus)
    exact h.exec_keeps (s := s)
      { csMask := fun _ _ _ _ hu => hu
        config := fun _ _ _ _ _ hu => hu
        tapCal := fun _ _ _ => h.tapCalBody_keeps (fun _ hu => hu) (fun _ hu => hu)
          (fun _ _ _ hu => hu) (fun _ _ hu => hu) rfl
        syncVerify := fun mask e => absurd e (hi mask)
        calibrate := fun mask _ e => absurd e (hcal mask) } he rfl
  case cal =>
    intro hi
    have h := KeptByParts.of_registers
      (fun _ _ _ T _ => ∃ v, T = { s.tables with syncStatus := v })
    have set (w : Chips SyncStatus → Chips SyncStatus) (T : Tables)
        (hT : ∃ v, T = { s.tables with syncStatus := v }) :
        ∃ v, { T with syncStatus := w T.syncStatus } = { s.tables with syncStatus := v } := by
      obtain ⟨v, rfl⟩ := hT
      exact ⟨w v, rfl⟩
    have start : ∃ v, s.tables = { s.tables with syncStatus := v } := ⟨s.tables.syncStatus, rfl⟩
    have sync (mask : Byte) := h.syncVerifyBody_keeps (mask := mask)
      (set (fun _ => everyChip .notAttempted) s.tables start)
      (fun c _ x u hu => set (fun v => v.set c x) u.tables hu)
    obtain ⟨v, hv⟩ := h.exec_keeps (s := s)
      { csMask := fun _ _ _ _ hu => hu
        config := fun _ _ _ _ _ hu => hu
        tapCal := fun chip e => absurd e (hi chip)
        syncVerify := fun mask _ => sync mask
        calibrate := fun mask _ e => absurd e (hcal mask) } he start
    constructor <;> rw [hv]

end Sys2Proof.Machine

/-! SUPPORT. The invariant, its phase aside, through the operations of a command (rules R23, R26, R27,
R30, R31, R35, R220, R228, R290). -/

namespace Sys2Proof.Machine

open Sys2Proof.Safety

/-- What `Inv` says of a state, its phase aside, with the parameters fixed: it holds throughout a command,
while the phase does not. -/
structure Sound (I : Instance) (s : State) : Prop where
  inst : s.inst = I
  memory : s.board.rwi.wf
  control : ControlLegal s
  tables : TablesLegal s
  quiet : Quiet s
  atRest : s.board.rwi.read 0 ≠ none → ReceiversAtRest s

theorem Sound.of_inv {s : State} (h : Inv s) : Sound s.inst s :=
  ⟨rfl, h.memory, h.control, h.tables, h.quiet, h.atRest⟩

theorem Sound.inv {I : Instance} {s : State} (h : Sound I s) (hf : s.fsm = .idle) : Inv s :=
  ⟨hf, h.memory, h.control, h.tables, h.quiet, h.atRest⟩

/-! ## The parts that an update leaves alone -/

theorem controlLegal_congr {s t : State} (h : ControlLegal s) (hi : t.inst = s.inst)
    (hc : t.ctl = s.ctl) : ControlLegal t := by
  obtain ⟨h1, h2, h3⟩ := h
  constructor <;> simpa only [hi, hc]

theorem tablesLegal_congr {s t : State} (h : TablesLegal s) (hi : t.inst = s.inst)
    (ht : t.tables = s.tables) : TablesLegal t := by
  obtain ⟨h1, h2, h3, h4, h5⟩ := h
  constructor <;> simpa only [hi, ht]

theorem quiet_congr {s t : State} (h : Quiet s) (hi : t.inst = s.inst)
    (hr : ∀ w, w = 1 ∨ w ∈ s.inst.layout.strobeWords →
      t.board.rwi.read w = s.board.rwi.read w) : Quiet t where
  strobes := by
    rw [hi]
    intro w hw
    rw [hr w (.inr hw)]
    exact h.strobes w hw
  slips := by
    rw [hi, hr 1 (.inl rfl)]
    exact h.slips

theorem receiversAtRest_congr {s t : State} (h : ReceiversAtRest s) (hi : t.inst = s.inst)
    (h0 : t.board.rwi.read 0 = s.board.rwi.read 0)
    (hr : t.board.receivers = s.board.receivers) : ReceiversAtRest t := by
  intro c hc
  rw [hi] at hc ⊢
  rw [hr, Board.held_congr h0]
  exact h c hc

namespace Sound

variable {I : Instance} {s t : State}

theorem congr (h : Sound I s) (hi : t.inst = s.inst) (hc : t.ctl = s.ctl)
    (ht : t.tables = s.tables) (hb : t.board = s.board) : Sound I t where
  inst := hi.trans h.inst
  memory := by rw [hb]; exact h.memory
  control := controlLegal_congr h.control hi hc
  tables := tablesLegal_congr h.tables hi ht
  quiet := quiet_congr h.quiet hi (fun _ _ => by rw [hb])
  atRest := by
    rw [hb]
    exact fun h0 => receiversAtRest_congr (h.atRest h0) hi (by rw [hb]) (by rw [hb])

/-- An update of the control registers. -/
theorem mapCtl (h : Sound I s) {f : Control → Control} (hc : ControlLegal (s.mapCtl f)) :
    Sound I (s.mapCtl f) :=
  ⟨h.inst, h.memory, hc, tablesLegal_congr h.tables rfl rfl,
    quiet_congr h.quiet rfl (fun _ _ => rfl),
    fun h0 => receiversAtRest_congr (h.atRest h0) rfl rfl rfl⟩

/-- An update of the result tables. -/
theorem mapTables (h : Sound I s) {f : Tables → Tables} (ht : TablesLegal (s.mapTables f)) :
    Sound I (s.mapTables f) :=
  ⟨h.inst, h.memory, controlLegal_congr h.control rfl rfl, ht,
    quiet_congr h.quiet rfl (fun _ _ => rfl),
    fun h0 => receiversAtRest_congr (h.atRest h0) rfl rfl rfl⟩

/-- An operation of the bus: what it does to the words and to the serial receivers decides. -/
theorem onlyBus (h : Sound I s) (ho : OnlyBus s t) (hm : t.board.rwi.wf) (hq : Quiet t)
    (hr : t.board.rwi.read 0 ≠ none → ReceiversAtRest t) : Sound I t :=
  ⟨ho.inst.trans h.inst, hm, controlLegal_congr h.control ho.inst ho.ctl,
    tablesLegal_congr h.tables ho.inst ho.tables, hq, hr⟩

/-! ## The operations of the bus -/

/-- A serial transaction ends with the idle frame, which de-selects every chip (rules R131, R132). -/
theorem writeRegister (hI : InstanceOk I) (h : Sound I s) (a : Byte) (v : Half) :
    Sound I (s.writeRegister a v) := by
  obtain rfl := h.inst
  obtain ⟨-, -, hw⟩ := strobeWordsOk_of _ hI
  refine h.onlyBus (writeRegister_onlyBus a v s) (writeRegister_wf a v s h.memory) ?quiet ?rest
  case quiet =>
    refine quiet_congr h.quiet (State.writeRegister_inst a v s) ?_
    intro w hws
    refine writeRegister_read_other a v s w ?_
    rintro rfl
    exact hws.elim (by decide) (fun hws => (hw 0 hws).1 rfl)
  case rest =>
    intro _ c hc
    rw [State.writeRegister_inst] at hc ⊢
    obtain ⟨hcount, hsel, -⟩ := writeRegister_chip a v s hI h.control.csMask c hc
    exact ⟨hsel, hcount⟩

/-- SetDelayTap leaves the strobe words at 0 and the tap word in word 1, which has no bitslip bit
(rules R171, R172). -/
theorem setDelayTap (hI : InstanceOk I) (h : Sound I s) (c : ChipId) (tap lm : Byte) :
    Sound I (s.setDelayTap c tap lm) := by
  obtain rfl := h.inst
  obtain ⟨-, -, hw⟩ := strobeWordsOk_of _ hI
  have h0 : 0 ∉ s.inst.layout.strobeWords := fun e => (hw 0 e).1 rfl
  have h1 : 1 ∉ s.inst.layout.strobeWords := fun e => (hw 1 e).2 rfl
  have read0 : (s.setDelayTap c tap lm).board.rwi.read 0 = s.board.rwi.read 0 := by
    rw [setDelayTap_read, if_neg h0, if_neg (by decide)]
  refine h.onlyBus (setDelayTap_onlyBus c tap lm s) (setDelayTap_wf c tap lm s h.memory)
    ?quiet ?rest
  case quiet =>
    constructor
    · rw [State.setDelayTap_inst]
      intro w hws v hv
      rw [setDelayTap_read, if_pos hws] at hv
      exact (Option.some.inj hv).symm
    · rw [State.setDelayTap_inst]
      intro d hd v hv
      rw [setDelayTap_read, if_neg h1, if_pos rfl] at hv
      rw [← Option.some.inj hv]
      exact tapWord_apart _ _ _ (slipBit_apart _ hI d hd).2
  case rest =>
    rw [read0]
    exact fun hr => receiversAtRest_congr (h.atRest hr) (State.setDelayTap_inst c tap lm s) read0
      (setDelayTap_devices c tap lm s hI).1

/-- BitslipPulse leaves word 1 at 0 (rule R177). -/
theorem bitslipPulse (hI : InstanceOk I) (h : Sound I s) (c : ChipId) :
    Sound I (s.bitslipPulse c) := by
  obtain rfl := h.inst
  obtain ⟨-, -, hw⟩ := strobeWordsOk_of _ hI
  have other : ∀ w, w ≠ 1 → (s.bitslipPulse c).board.rwi.read w = s.board.rwi.read w :=
    fun w h1 => by rw [bitslipPulse_read, if_neg h1]
  refine h.onlyBus (bitslipPulse_onlyBus c s) (bitslipPulse_wf c s h.memory) ?quiet ?rest
  case quiet =>
    constructor
    · rw [State.bitslipPulse_inst]
      intro w hws
      rw [other w (hw w hws).2]
      exact h.quiet.strobes w hws
    · rw [State.bitslipPulse_inst]
      intro d _ v hv
      rw [bitslipPulse_read, if_pos rfl] at hv
      rw [← Option.some.inj hv]
      exact BitVec.getLsbD_zero
  case rest =>
    rw [other 0 (by decide)]
    exact fun hr => receiversAtRest_congr (h.atRest hr) (State.bitslipPulse_inst c s)
      (other 0 (by decide)) (bitslipPulse_devices c s).1

theorem keptByParts (hI : InstanceOk I) : KeptByParts (Sound I) where
  setFsm _ _ h := h.congr rfl rfl rfl rfl
  mapWork _ _ h := h.congr rfl rfl rfl rfl
  mapEnv _ _ h := h.congr rfl rfl rfl rfl
  emit _ _ h := h.congr rfl rfl rfl rfl
  respond _ _ h := h.congr rfl rfl rfl rfl
  ended _ _ _ h := h.congr rfl rfl rfl rfl
  writeRegister a v _ h := h.writeRegister hI a v
  setDelayTap c tap lm _ h := h.setDelayTap hI c tap lm
  bitslipPulse c _ h := h.bitslipPulse hI c

end Sound

/-! ## The control registers -/

/-- A legal SET_CONFIG leaves legal control registers (rules R111, R265). -/
theorem setField_legal {s : State} (h : ControlLegal s) {f : BitVec 4} {v : Half}
    (hv : configLegal s.inst f v = true) : ControlLegal (s.mapCtl (Control.setField f v)) := by
  have cfg : (s.ctl.setField f v).cfgIter ≠ 0 ∧ 2 ≤ (s.ctl.setField f v).cfgSnapLen.toNat ∧
      (s.ctl.setField f v).cfgSnapLen.toNat ≤ s.inst.snapDepth := by
    unfold configLegal at hv
    split at hv
    next hf =>
      rw [Control.setField, hf]
      exact ⟨h.cfgIter, h.cfgSnapLen⟩
    next hf =>
      rw [Control.setField, hf]
      exact ⟨h.cfgIter, h.cfgSnapLen⟩
    next hf =>
      rw [Control.setField, hf]
      refine ⟨fun e => of_decide_eq_true hv ?_, h.cfgSnapLen⟩
      rw [show v = 0 from e]
      rfl
    next hf =>
      rw [Control.setField, hf]
      exact ⟨h.cfgIter, of_decide_eq_true hv⟩
    next => exact absurd hv Bool.false_ne_true
  obtain ⟨iter, snapLen⟩ := cfg
  exact ⟨(setField_csMask f v s.ctl).symm ▸ h.csMask, iter, snapLen⟩

/-! ## The result tables -/

/-- A row of a table that is not the one written is as before. -/
theorem row_set_other {α : Type} (v : Chips α) {c d : ChipId} (x : α) (h : d ≠ c) :
    (v.set c x)[d] = v[d] :=
  Vector.getElem_set_ne c.isLt d.isLt (fun e => h (Fin.ext e.symm))

theorem row_set_same {α : Type} (v : Chips α) (c : ChipId) (x : α) : (v.set c x)[c] = x :=
  Vector.getElem_set_self c.isLt

theorem everyLane_getElem {α : Type} (a : α) (li : LaneId) : (everyLane a)[li] = a := by
  simp [everyLane]

/-- A mask bit of a chip of the board is written in a valid mask (rule R105). -/
theorem writeMaskBit_valid {I : Instance} {m : Byte} {c : ChipId} (b : Bool) (h8 : I.nchips ≤ 8)
    (hc : c.val < I.nchips) (h : maskValid I m) : maskValid I (writeMaskBit m c b) := by
  rw [maskValid_iff I _ h8] at h ⊢
  intro i hi
  by_cases hlt : i < 8
  · have := writeMaskBit_getLsbD m c ⟨i, hlt⟩ b
    rw [if_neg (fun e => absurd (Fin.val_eq_of_eq e) (by simp; omega))] at this
    exact this.trans (h i hi)
  · exact BitVec.getLsbD_of_ge _ _ (by omega)

/-- The rows of the chips other than `c` are the same in two result tables. -/
structure OtherRows (c : ChipId) (T U : Tables) : Prop where
  syncStatus : ∀ d : ChipId, d ≠ c → U.syncStatus[d] = T.syncStatus[d]
  calResult : ∀ d : ChipId, d ≠ c → U.calResult[d] = T.calResult[d]
  goodMap : ∀ d : ChipId, d ≠ c → U.goodMap[d] = T.goodMap[d]

/-- Tables of which only the row of a chip of the board has changed are legal when that row is. -/
theorem tablesLegal_of_row {s : State} {c : ChipId} {f : Tables → Tables} (h : TablesLegal s)
    (hc : c.val < s.inst.nchips) (ho : OtherRows c s.tables (f s.tables))
    (results : ∀ li : LaneId, (f s.tables).calResult[c][li] = .none ∨
      (f s.tables).calResult[c][li] = window s.inst.wrapSpan (f s.tables).goodMap[c][li])
    (heurSlip : maskValid s.inst (f s.tables).heurSlip)
    (lastSweep : (f s.tables).lastSweep.chip.toNat < s.inst.nchips) :
    TablesLegal (s.mapTables f) := by
  have absent : ∀ d : ChipId, s.inst.nchips ≤ d.val → d ≠ c := by
    rintro d hd rfl
    exact Nat.not_lt.mpr hd hc
  refine ⟨?results, ?absentSync, ?absentResults, heurSlip, lastSweep⟩
  case results =>
    intro d li
    by_cases hd : d = c
    · rw [hd]
      exact results li
    · show (f s.tables).calResult[d][li] = .none ∨ (f s.tables).calResult[d][li] =
        window s.inst.wrapSpan (f s.tables).goodMap[d][li]
      rw [ho.calResult d hd, ho.goodMap d hd]
      exact h.results d li
  case absentSync =>
    intro d hd
    exact (ho.syncStatus d (absent d hd)).trans (h.absentSync d hd)
  case absentResults =>
    intro d li hd
    show (f s.tables).calResult[d][li] = .none ∧ (f s.tables).goodMap[d][li] = 0
    rw [ho.calResult d (absent d hd), ho.goodMap d (absent d hd)]
    exact h.absentResults d li hd

/-- TapCalStart sets the results of its chip to NONE (rule R211). -/
theorem tapCalStart_calResult (T : Tables) (c : ChipId) (li : LaneId) :
    (T.tapCalStart c).calResult[c][li] = .none := by
  show ((T.calResult.set c (everyLane .none))[c])[li] = .none
  rw [row_set_same, everyLane_getElem]

section

variable {s : State} {c : ChipId} (h : TablesLegal s) (hc : c.val < s.inst.nchips)
include h hc

theorem tapCalStart_legal (h8 : s.inst.nchips ≤ 8) :
    TablesLegal (s.mapTables (Tables.tapCalStart c)) := by
  refine tablesLegal_of_row h hc ⟨?_, ?_, ?_⟩ ?_ (writeMaskBit_valid false h8 hc h.heurSlip) ?_
  · exact fun _ _ => rfl
  · exact fun d hd => row_set_other _ _ hd
  · exact fun d hd => row_set_other _ _ hd
  · exact fun li => .inl (tapCalStart_calResult s.tables c li)
  · show (chipBits c).toNat < s.inst.nchips
    rw [chipBits, BitVec.toNat_ofNat]
    omega

/-- The heuristic sets the HEUR_SLIP bit of its chip (rules R35, R214). -/
theorem heurSlip_legal (h8 : s.inst.nchips ≤ 8) : TablesLegal
    (s.mapTables (fun T => { T with heurSlip := writeMaskBit T.heurSlip c true })) :=
  tablesLegal_of_row h hc ⟨fun _ _ => rfl, fun _ _ => rfl, fun _ _ => rfl⟩ (h.results c)
    (writeMaskBit_valid true h8 hc h.heurSlip) h.lastSweep

/-- The good map of a chip may change while its results are NONE (rules R211, R216, R228). -/
theorem recordTap_legal (hn : ∀ li : LaneId, s.tables.calResult[c][li] = .none) (tap : Fin 32)
    (acc : Lanes Word) : TablesLegal (s.mapTables (Tables.recordTap c tap acc)) :=
  tablesLegal_of_row h hc ⟨fun _ _ => rfl, fun _ _ => rfl, fun _ hd => row_set_other _ _ hd⟩
    (fun li => .inl (hn li)) h.heurSlip h.lastSweep

/-- The decision writes the windows of the good maps (rules R220, R222). -/
theorem decide_legal : TablesLegal
    (s.mapTables (fun T => { T with calResult := T.calResult.set c (decideLanes c s) })) := by
  refine tablesLegal_of_row h hc
    ⟨fun _ _ => rfl, fun _ hd => row_set_other _ _ hd, fun _ _ => rfl⟩ ?_ h.heurSlip h.lastSweep
  intro li
  right
  show ((s.tables.calResult.set c (decideLanes c s))[c])[li] = _
  rw [row_set_same, decideLanes, tabulate_getElem]

theorem setSyncStatus_legal (v : SyncStatus) : TablesLegal (s.setSyncStatus c v) :=
  tablesLegal_of_row h hc ⟨fun _ hd => row_set_other _ _ hd, fun _ _ => rfl, fun _ _ => rfl⟩
    (h.results c) h.heurSlip h.lastSweep

end

theorem clearSync_legal {s : State} (h : TablesLegal s) : TablesLegal s.clearSync where
  results := h.results
  absentSync d _ := by simp [State.clearSync, everyChip]
  absentResults := h.absentResults
  heurSlip := h.heurSlip
  lastSweep := h.lastSweep

/-! ## The commands -/

/-- The invariant, its phase aside, between the start of a tap calibration of chip `c` and its decision
(rules R211, R222, R228). -/
def Undecided (I : Instance) (c : ChipId) (s : State) : Prop :=
  Sound I s ∧ ∀ li : LaneId, s.tables.calResult[c][li] = .none

theorem mem_chipsOf {I : Instance} {mask : Byte} {c : ChipId} (h : c ∈ chipsOf I mask) :
    c.val < I.nchips := by
  rw [chipsOf_eq] at h
  exact (mem_chipsBelow.mp h).2

namespace Sound

variable {I : Instance} {s : State} (hI : InstanceOk I)
include hI

theorem undecided_keptByParts (c : ChipId) : KeptByParts (Undecided I c) :=
  (keptByParts hI).and
    (.of_registers (fun _ _ _ T _ => ∀ li : LaneId, T.calResult[c][li] = .none))

/-- A tap calibration of a chip of the board: the results of the chip are NONE from its start to its
decision, which writes the windows of the good maps (rules R211, R220, R228). -/
theorem tapCalBody {c : ChipId} (hc : c.val < I.nchips) (h : Sound I s) :
    Sound I (tapCalBody c s).state := by
  have h8 := (nchips_le I hI).2
  have sound := keptByParts hI
  have undecided := undecided_keptByParts hI c
  have kept : KeptTables c (Undecided I c) := by
    refine { undecided.kept c with heurSlip := ?_, recordTap := ?_ }
    · rintro u ⟨hu, hn⟩
      obtain rfl := hu.inst
      exact ⟨hu.mapTables (heurSlip_legal hu.tables hc h8), hn⟩
    · rintro tap acc u ⟨hu, hn⟩
      obtain rfl := hu.inst
      exact ⟨hu.mapTables (recordTap_legal hu.tables hc hn tap acc), hn⟩
  obtain rfl := h.inst
  have named := sound.mapWork (fun w => { w with curChip := chipBits c }) h
  have start : Sound s.inst ((s.mapWork (fun w => { w with curChip := chipBits c })).mapTables
      (Tables.tapCalStart c)) := named.mapTables (tapCalStart_legal named.tables hc h8)
  rcases tapCalBody_run kept (fun _ => undecided.selectPattern .deskew) s
    ⟨start, tapCalStart_calResult s.tables c⟩ with
    ⟨q, ⟨hq, -⟩, e⟩ | ⟨e, i, t, ⟨ht, -⟩, e'⟩
  · rw [e, Run.state_done]
    have decided := sound.setFsm .calDecide hq
    refine decideAndApply_keeps (sound.kept c) q (decided.mapTables ?_)
    exact decide_legal decided.tables (by rw [decided.inst]; exact hc)
  · rw [e']
    exact ht

theorem syncVerifyBody (mask : Byte) (h : Sound I s) : Sound I (syncVerifyBody mask s).state := by
  obtain rfl := h.inst
  refine (keptByParts hI).syncVerifyBody_keeps (h.mapTables (clearSync_legal h.tables)) ?_
  intro c hc v t ht
  exact ht.mapTables (setSyncStatus_legal ht.tables (by rw [ht.inst]; exact mem_chipsOf hc) v)

theorem calibrateBody (mask : Byte) (w0 : Word) (h : Sound I s) :
    Sound I (calibrateBody mask w0 s).state := by
  obtain rfl := h.inst
  refine calibrateBody_state ?_ (fun c hc t ht => ht.tapCalBody hI (mem_chipsOf hc))
    (fun t ht => ht.syncVerifyBody hI _)
  have warned : Sound s.inst
      (s.mapStatus (fun st => { st with warnSec := warnSecondary s.inst w0 })) :=
    h.congr rfl rfl rfl rfl
  exact warned.mapTables (clearSync_legal warned.tables)

theorem ownUpdates (i : Instr) (h : Sound I s) : OwnUpdates (Sound I) i s := by
  obtain rfl := h.inst
  constructor
  case csMask =>
    intro mask _ hm u hu
    refine hu.mapCtl ⟨?_, hu.control.cfgIter, hu.control.cfgSnapLen⟩
    rw [State.mapCtl_inst, hu.inst]
    exact hm
  case config =>
    intro f v _ hv u hu
    exact hu.mapCtl (setField_legal hu.control (by rw [hu.inst]; exact hv))
  case tapCal => exact fun chip _ hc => h.tapCalBody hI hc
  case syncVerify => exact fun mask _ => h.syncVerifyBody hI mask
  case calibrate => exact fun mask w0 _ u hu => hu.calibrateBody hI mask w0

end Sound

/-- Settles O12: a step that answers a next state waits, or runs a command from an idle state; every
operation of a command keeps the invariant, its phase aside, and every command ends idle. -/
theorem everyStepKeepsTheInvariant : Obligations.EveryStepKeepsTheInvariant := by
  intro s t hinv hstep
  have hI : InstanceOk s.inst := by
    by_contra hbad
    obtain ⟨k, hk, -⟩ := failedCheck_some hbad
    rw [step_of_failedCheck hk] at hstep
    cases hstep
  cases hc : s.nextCommand with
  | none =>
    rw [step_of_no_command hI hc] at hstep
    cases hstep
    exact ⟨hinv, rfl⟩
  | some command =>
    obtain ⟨i, rest⟩ := command
    rw [step_of_command hI hc, if_pos hinv.idle] at hstep
    have start : Sound s.inst (s.setPort rest) := (Sound.of_inv hinv).congr rfl rfl rfl rfl
    have done := (Sound.keptByParts hI).exec_keeps (start.ownUpdates hI i) hstep start
    exact ⟨done.inv (exec_idle hstep hinv.idle), done.inst⟩

end Sys2Proof.Machine

/-! SUPPORT. Error counts as numbers: the accumulators and ERR_COUNT hold the mismatches of the scripted
captures, without wrapping (rules R33, R191, R195, R196). -/

namespace Sys2Proof.Machine

open Sys2Proof.Safety

/-- The mismatches of a list of whole captures, in the terms of the rules (rules R191, R195). -/
theorem mismatches_eq {Ss : List Samples} {n : Nat}
    (h : ∀ S ∈ Ss, ∀ ch : Fin 4, (S[ch]).length = n) (x : Byte) (li : LaneId) :
    mismatches Ss x li = (Ss.map (fun S => laneMismatches S n x li)).sum := by
  unfold mismatches
  rw [List.map_congr_left (fun S hS => laneErrors_eq S x li n (h S hS _))]

section

variable {Ss : List Samples} {k n : Half} (hl : Ss.length = k.toNat)
  (h : ∀ S ∈ Ss, ∀ ch : Fin 4, (S[ch]).length = n.toNat) (x : Byte) (li : LaneId)
include hl h

/-- A 32-bit count of at most 65535 captures of at most 65535 samples does not wrap (rule R196). -/
theorem count_toNat : (BitVec.ofNat 32 (mismatches Ss x li)).toNat =
    (Ss.map (fun S => laneMismatches S n.toNat x li)).sum := by
  have fits := mismatches_lt Ss x li n.toNat h (by rw [hl]; exact k.isLt) n.isLt
  rw [BitVec.toNat_ofNat, Nat.mod_eq_of_lt fits, mismatches_eq h]

/-- A count is 0 exactly when no capture has a mismatch in the lane (rules R214, R217). -/
theorem count_eq_zero : BitVec.ofNat 32 (mismatches Ss x li) = 0 ↔
    ∀ S ∈ Ss, laneMismatches S n.toNat x li = 0 := by
  rw [← BitVec.toNat_inj, count_toNat hl h]
  show _ = 0 ↔ _
  rw [List.sum_eq_zero_iff, List.forall_mem_map]

end

/-- The captures of a script succeed (rule R190). -/
theorem scripted_succeeds {answers : List Samples} {n m : Nat} {s : State}
    (h : Scripted answers n s) (hm : m ≤ answers.length) : CapturesSucceed m s := by
  obtain ⟨⟨rest, hcap⟩, -⟩ := h
  unfold CapturesSucceed
  rw [hcap]
  refine ⟨by simp; omega, ?_⟩
  rw [List.take_append_of_le_length (by simpa using hm), ← List.map_take]
  intro a ha
  obtain ⟨S, -, rfl⟩ := List.mem_map.mp ha
  exact CaptureAnswer.noConfusion

/-- Settles O40: the count goes on, its captures are the scripted ones, and their sum fits. -/
theorem countErrorsCountsTheMismatches : Obligations.CountErrorsCountsTheMismatches := by
  intro s c x answers hs hl
  obtain ⟨t, ht⟩ := countErrors_done c x s (scripted_succeeds hs hl.ge)
  obtain ⟨⟨rest, hcap⟩, hlen⟩ := hs
  rcases countErrors_cases c x s with ⟨k, u, -, hr, -⟩ | ⟨u, Ss, hr, only, -, -, raw, hacc⟩
  · cases hr.symm.trans ht
  · obtain rfl := raw answers rest hcap hl hlen
    refine ⟨u, hr, only.events, only.board, only.tables, ?_⟩
    intro li
    rw [hacc li, count_toNat hl hlen]

end Sys2Proof.Machine

/-! SUPPORT. TAP_CAL: the tables that a calibration leaves when it goes on to its end, and the condition
of the heuristic (rules R210 to R224). -/

namespace Sys2Proof.Machine

open Sys2Proof.Safety

/-- `t` has the parameters of `s`, and the words other than 0, 1 and the strobe words as in `s`
(rules R60, R71). -/
def OwnWordsOnly (s t : State) : Prop :=
  t.inst = s.inst ∧ KeepsWords (0 :: 1 :: s.inst.layout.strobeWords) s t

theorem ownWordsOnly_keptByParts (s : State) : KeptByParts (OwnWordsOnly s) where
  setFsm _ _ hu := hu
  mapWork _ _ hu := hu
  mapEnv _ _ hu := hu
  emit _ _ hu := hu
  respond _ _ hu := hu
  ended _ _ _ hu := hu
  writeRegister a v u := by
    rintro ⟨hi, hw⟩
    refine ⟨(State.writeRegister_inst a v u).trans hi, fun w hm => ?_⟩
    rw [writeRegister_read_other a v u w (List.ne_of_not_mem_cons hm)]
    exact hw w hm
  setDelayTap c tap lm u := by
    rintro ⟨hi, hw⟩
    refine ⟨(State.setDelayTap_inst c tap lm u).trans hi, fun w hm => ?_⟩
    have old := hw w hm
    simp only [List.mem_cons, not_or] at hm
    obtain ⟨-, h1, hs⟩ := hm
    rw [setDelayTap_read, hi, if_neg hs, if_neg h1]
    exact old
  bitslipPulse c u := by
    rintro ⟨hi, hw⟩
    refine ⟨(State.bitslipPulse_inst c u).trans hi, fun w hm => ?_⟩
    rw [bitslipPulse_read, if_neg (List.ne_of_not_mem_cons (List.not_mem_of_not_mem_cons hm))]
    exact hw w hm

/-- No command writes another word than words 0, 1 and the strobe words (rule R60). -/
theorem exec_keepsWords {i : Instr} {s t : State} (he : exec i s = .next t) :
    KeepsWords (0 :: 1 :: s.inst.layout.strobeWords) s t := by
  have h := ownWordsOnly_keptByParts s
  have start : OwnWordsOnly s s := ⟨rfl, fun _ _ => rfl⟩
  have own : OwnUpdates (OwnWordsOnly s) i s := h.ownUpdates_of_tables (fun _ _ hu => hu)
    (fun _ _ _ hu => hu) (fun _ _ _ _ hu => hu) (fun _ _ _ _ hu => hu) start
  exact (h.exec_keeps own he start).2

/-- What a tap calibration that goes on to its end leaves in the tables of its chip: the captures `Ss u`
were taken at tap `u` of the sweep (rules R33, R34, R216, R217, R222). -/
structure TapCalTables (c : ChipId) (s t : State) (Ss : Fin 32 → List Samples) : Prop where
  length : ∀ u, (Ss u).length = s.ctl.cfgIter.toNat
  lengths : ∀ u, ∀ S ∈ Ss u, ∀ ch : Fin 4, (S[ch]).length = s.ctl.cfgSnapLen.toNat
  scripted : ∀ (raw : List Samples) (rest : List CaptureAnswer),
    s.env.captures = raw.map CaptureAnswer.ok ++ rest →
    raw.length = 34 * s.ctl.cfgIter.toNat →
    (∀ S ∈ raw, ∀ ch : Fin 4, (S[ch]).length = s.ctl.cfgSnapLen.toNat) →
    ∀ u, Ss u = (raw.drop ((2 + u.val) * s.ctl.cfgIter.toNat)).take s.ctl.cfgIter.toNat
  errCount : ∀ (u : Fin 32) (li : LaneId),
    t.tables.errCount[u][li] = BitVec.ofNat 32 (mismatches (Ss u) s.ctl.cfgDeskew li)
  goodMap : ∀ (u : Fin 32) (li : LaneId), t.tables.goodMap[c][li].getLsbD u.val = true ↔
    t.tables.errCount[u][li] = 0
  otherMaps : ∀ d : ChipId, d ≠ c → t.tables.goodMap[d] = s.tables.goodMap[d]
  windows : ∀ li : LaneId,
    t.tables.calResult[c][li] = window s.inst.wrapSpan t.tables.goodMap[c][li]
  lastSweep : t.tables.lastSweep = { valid := true, chip := chipBits c }

/-- The state in which the sweep starts, after the probes and the heuristic (rules R213, R214, R216). -/
theorem TapCalParts.sweepStart {c : ChipId} {s t s0 s31 q : State} {A0 A31 : List Samples}
    {Ss : Fin 32 → List Samples} (P : TapCalParts c s t s0 s31 q A0 A31 Ss) :
    let u := ((s31.mapWork (fun w => { w with acc31 := w.acc })).heuristic c).setFsm .calSweep
    u.inst = s.inst ∧ u.ctl = s.ctl ∧
      u.env.captures = s.env.captures.drop (2 * s.ctl.cfgIter.toNat) ∧
      u.tables.goodMap = (s.tables.tapCalStart c).goodMap ∧
      u.tables.lastSweep = (s.tables.tapCalStart c).lastSweep := by
  obtain ⟨pi, pc, pe, -, pt, -⟩ := tapCalProbing_eq c s
  obtain ⟨hi, hc, he, ht⟩ := heuristic_eq c (s31.mapWork (fun w => { w with acc31 := w.acc }))
  have c0 : s0.ctl = s.ctl := P.probe0.ctl.trans pc
  have t31 : s31.tables = s.tables.tapCalStart c :=
    P.probe31.tables.trans (P.probe0.tables.trans pt)
  refine ⟨?_, ?_, ?_, ?_, ?_⟩
  · exact hi.trans (P.probe31.inst.trans (P.probe0.inst.trans pi))
  · exact hc.trans (P.probe31.ctl.trans c0)
  · rw [State.setFsm_env, he, State.mapWork_env, P.probe31.captures, State.mapWork_env,
      State.mapWork_ctl, P.probe0.captures, pc, c0, pe, List.drop_drop, Nat.two_mul]
  · rw [State.setFsm_tables, ht, State.mapWork_tables, t31]
    split <;> rfl
  · rw [State.setFsm_tables, ht, State.mapWork_tables, t31]
    split <;> rfl

theorem TapCalParts.tables {c : ChipId} {s t s0 s31 q : State} {A0 A31 : List Samples}
    {Ss : Fin 32 → List Samples} (P : TapCalParts c s t s0 s31 q A0 A31 Ss) :
    TapCalTables c s t Ss := by
  obtain ⟨ui, uc, ucap, umap, usweep⟩ := P.sweepStart
  have swept := P.swept
  generalize ((s31.mapWork (fun w => { w with acc31 := w.acc })).heuristic c).setFsm .calSweep = u
    at ui uc ucap umap usweep swept
  have final : t.tables = { q.tables with
      calResult := q.tables.calResult.set c (decideLanes c q) } := by
    rw [P.final, decideAndApply_tables]
    rfl
  constructor
  case length =>
    intro v
    rw [swept.length v (List.mem_finRange v), uc]
  case lengths =>
    intro v
    rw [← uc]
    exact swept.lengths v (List.mem_finRange v)
  case scripted =>
    intro raw rest hcap hl hlen v
    have tail := swept.scripted (raw.drop (2 * s.ctl.cfgIter.toNat)) rest ?_ ?_ ?_ v.val (by simp)
    · rw [List.getElem_finRange, uc, List.drop_drop, ← Nat.add_mul] at tail
      exact tail
    · rw [ucap, hcap, List.drop_append_of_le_length (by simp; omega), List.map_drop]
    · rw [List.length_drop, hl, uc, List.length_finRange]
      omega
    · intro S hS
      rw [uc]
      exact hlen S (List.mem_of_mem_drop hS)
  case errCount =>
    intro v li
    rw [final]
    show q.tables.errCount[v][li] = _
    rw [swept.tables.errCount, if_pos (List.mem_finRange v), uc]
  case goodMap =>
    intro v li
    rw [final]
    show q.tables.goodMap[c][li].getLsbD v.val = true ↔ q.tables.errCount[v][li] = 0
    rw [swept.tables.errCount, swept.tables.goodMap, if_pos (List.mem_finRange v),
      if_pos (List.mem_finRange v), beq_iff_eq]
  case otherMaps =>
    intro d hd
    rw [final]
    show q.tables.goodMap[d] = _
    rw [swept.tables.otherMaps d hd, umap]
    exact row_set_other _ _ hd
  case windows =>
    intro li
    rw [final]
    show ((q.tables.calResult.set c (decideLanes c q))[c])[li] = window _ q.tables.goodMap[c][li]
    rw [row_set_same, decideLanes, tabulate_getElem, swept.inst, ui]
  case lastSweep =>
    rw [final]
    exact swept.tables.lastSweep.trans usweep

/-- TAP_CAL of a chip of the board (rule R210). -/
theorem execTapCal_valid {s : State} {chip : BitVec 3} (hc : chipValid s.inst chip) :
    exec (.tapCal chip) s = .next ((tapCalBody (chipOfBits chip) s).finish
      (calResultData (chipOfBits chip))) := by
  simp only [exec, execTapCal, if_pos hc]

/-- The same when the calibration goes on to its end (rule R224). -/
theorem execTapCal_done {s t : State} {chip : BitVec 3} (hc : chipValid s.inst chip)
    (ht : tapCalBody (chipOfBits chip) s = .done t) :
    exec (.tapCal chip) s = .next (t.complete (calResultData (chipOfBits chip) t)) := by
  rw [execTapCal_valid hc, ht]
  rfl

/-- The end of a command writes no result table (rules R289, R290). -/
theorem finish_tables (r : Run) (d : State → ResponseData) :
    (r.finish d).tables = r.state.tables := by
  cases r <;> rfl

/-- Settles O43, from the parts of a tap calibration whose captures succeed. -/
theorem tapCalReportsTheWindows : Obligations.TapCalReportsTheWindows := by
  intro s chip _ hc hs
  obtain ⟨t, ht⟩ := tapCalBody_total (chipOfBits chip) s hs
  obtain ⟨s0, s31, q, A0, A31, Ss, P⟩ := tapCalBody_done _ _ _ ht
  have T := P.tables
  have called := tapCalBody_called _ _ _ ht
  have he := execTapCal_done hc ht
  refine ⟨_, he, ⟨rfl, rfl, rfl, rfl⟩, exec_keepsSetting he (by simp), called.ctl,
    called.syncStatus, T.lastSweep.trans ?_, ?_, T.windows, T.goodMap, exec_keepsWords he⟩
  · simp [chipBits, chipOfBits]
  · exact fun d hd => ⟨called.calResult d hd, T.otherMaps d hd, called.heurSlip d hd⟩

/-- Settles O44: the counts are those of the captures at each tap, and they do not wrap. -/
theorem tapCalGoodMapReflectsTheSamples : Obligations.TapCalGoodMapReflectsTheSamples := by
  intro s t chip answers hc hs hl he u li
  obtain ⟨t', ht⟩ := tapCalBody_total (chipOfBits chip) s (scripted_succeeds hs hl.ge)
  obtain ⟨s0, s31, q, A0, A31, Ss, P⟩ := tapCalBody_done _ _ _ ht
  have T := P.tables
  obtain ⟨⟨rest, hcap⟩, hlen⟩ := hs
  cases (execTapCal_done hc ht).symm.trans he
  have taken := T.scripted answers rest hcap hl hlen u
  have length := T.length u
  have lengths := T.lengths u
  have count := T.errCount u li
  rw [taken] at length lengths count
  refine ⟨?_, (T.goodMap u li).trans ?_⟩
  · exact (congrArg BitVec.toNat count).trans (count_toNat length lengths s.ctl.cfgDeskew li)
  · rw [count]
    exact count_eq_zero length lengths s.ctl.cfgDeskew li

/-! ## The heuristic -/

theorem straddles_iff (acc0 acc31 : Lanes Word) :
    straddles acc0 acc31 = true ↔ ∃ li : LaneId, acc0[li] = 0 ∨ acc31[li] = 0 := by
  simp [straddles, List.any_eq_true, mem_allLanes]

/-- The heuristic sets HEUR_SLIP of its chip, which TapCalStart cleared, when the counts straddle
(rules R35, R211, R214). -/
theorem heuristic_heurSlip (c : ChipId) (s : State)
    (h : s.tables.heurSlip.getLsbD c.val = false) :
    (s.heuristic c).tables.heurSlip.getLsbD c.val = straddles s.work.acc0 s.work.acc31 := by
  obtain ⟨-, -, -, ht⟩ := heuristic_eq c s
  rw [ht]
  split
  · rename_i hs
    rw [hs]
    exact (writeMaskBit_getLsbD _ c c true).trans (if_pos rfl)
  · rename_i hs
    rw [Bool.eq_false_iff.mpr hs]
    exact h

/-- A sweep does not write HEUR_SLIP, whether or not it goes on to its end (rule R216). -/
theorem sweep_heurSlip (c : ChipId) (s : State) :
    (sweep c s).state.tables.heurSlip = s.tables.heurSlip := by
  have h := KeptByParts.of_registers (fun _ _ _ T _ => T.heurSlip = s.tables.heurSlip)
  have taps : ∀ (ts : List (Fin 32)) (u : State), u.tables.heurSlip = s.tables.heurSlip →
      (sweepTaps c ts u).state.tables.heurSlip = s.tables.heurSlip := by
    intro ts
    induction ts with
    | nil => exact fun u hu => hu
    | cons tap ts ih =>
      intro u hu
      exact Run.andThen_state (fun u => u.tables.heurSlip = s.tables.heurSlip) _ _
        (probeTap_state (h.kept c) tap.val u hu) (fun v _ hv => ih _ hv)
  exact Run.andThen_state (fun u => u.tables.heurSlip = s.tables.heurSlip) _ _ (taps _ s rfl)
    (fun v _ hv => hv)

/-- A tap calibration after its probes, when their captures succeed: the heuristic, the sweep and the
decision are still to come (rules R210, R213). -/
theorem tapCalBody_probed (c : ChipId) (s : State)
    (h : CapturesSucceed (2 * s.ctl.cfgIter.toNat) s) :
    ∃ s0 s31 A0 A31, Probed c 0 (tapCalProbing c s) s0 A0 ∧
      Probed c 31 (s0.mapWork (fun w => { w with acc0 := w.acc })) s31 A31 ∧
      tapCalBody c s =
        (sweep c (((s31.mapWork (fun w => { w with acc31 := w.acc })).heuristic c).setFsm
          .calSweep)).andThen (fun q => .done (q.decideAndApply c)) := by
  obtain ⟨hl, hf⟩ := h
  obtain ⟨-, pc, pe, -, -, -⟩ := tapCalProbing_eq c s
  obtain ⟨s0, A0, h0, p0⟩ := probeTap_succeeds c 0 (tapCalProbing c s) (by
    rw [pc, pe]
    exact ⟨by omega, fun a ha => hf a ((List.take_prefix_take_left (by omega)).subset ha)⟩)
  have c0 : (s0.mapWork (fun w => { w with acc0 := w.acc })).ctl = s.ctl := p0.ctl.trans pc
  obtain ⟨s31, A31, h31, p31⟩ := probeTap_succeeds c 31
    (s0.mapWork (fun w => { w with acc0 := w.acc })) (by
      rw [c0, State.mapWork_env, p0.captures, pc, pe, List.length_drop, List.take_drop]
      exact ⟨by omega, fun a ha => hf a (by rw [Nat.two_mul]; exact List.mem_of_mem_drop ha)⟩)
  refine ⟨s0, s31, A0, A31, p0, p31, ?_⟩
  unfold tapCalBody probeExtremes
  unfold tapCalProbing at h0
  simp only [h0, h31, Run.done_andThen]

/-- HEUR_SLIP after a tap calibration whose probes succeed, whether or not its sweep does
(rules R35, R214). -/
theorem tapCalBody_heurSlip (c : ChipId) (s : State)
    (h : CapturesSucceed (2 * s.ctl.cfgIter.toNat) s) :
    ∃ s0 s31 A0 A31, Probed c 0 (tapCalProbing c s) s0 A0 ∧
      Probed c 31 (s0.mapWork (fun w => { w with acc0 := w.acc })) s31 A31 ∧
      (tapCalBody c s).state.tables.heurSlip.getLsbD c.val =
        straddles s0.work.acc s31.work.acc := by
  obtain ⟨s0, s31, A0, A31, p0, p31, e⟩ := tapCalBody_probed c s h
  refine ⟨s0, s31, A0, A31, p0, p31, ?_⟩
  obtain ⟨-, -, -, -, pt, -⟩ := tapCalProbing_eq c s
  have t31 : s31.tables = s.tables.tapCalStart c := p31.tables.trans (p0.tables.trans pt)
  have acc0 : s31.work.acc0 = s0.work.acc := p31.work.1
  have clear : s31.tables.heurSlip.getLsbD c.val = false := by
    rw [t31]
    exact (writeMaskBit_getLsbD _ c c false).trans (if_pos rfl)
  have slip := heuristic_heurSlip c (s31.mapWork (fun w => { w with acc31 := w.acc })) clear
  rw [e, ← acc0]
  refine Eq.trans ?_ slip
  congr 1
  refine Run.andThen_state (fun u => u.tables.heurSlip = _) _ _ (sweep_heurSlip c _) ?_
  intro q _ hq
  rw [Run.state_done, decideAndApply_tables]
  exact hq

/-- Settles O45: the counts of the two probes decide, and they are those of their captures. -/
theorem tapCalHeuristicCondition : Obligations.TapCalHeuristicCondition := by
  intro s t chip at0 at31 _ hc hs l0 l31 he
  obtain ⟨s0, s31, A0, A31, p0, p31, slip⟩ := tapCalBody_heurSlip (chipOfBits chip) s
    (scripted_succeeds hs (by rw [List.length_append]; omega))
  obtain ⟨⟨rest, hcap⟩, hlen⟩ := hs
  obtain ⟨-, pc, pe, -, -, -⟩ := tapCalProbing_eq (chipOfBits chip) s
  have len0 : ∀ S ∈ at0, ∀ ch : Fin 4, (S[ch]).length = s.ctl.cfgSnapLen.toNat :=
    fun S hS => hlen S (List.mem_append_left _ hS)
  have len31 : ∀ S ∈ at31, ∀ ch : Fin 4, (S[ch]).length = s.ctl.cfgSnapLen.toNat :=
    fun S hS => hlen S (List.mem_append_right _ hS)
  have c0 : s0.ctl = s.ctl := p0.ctl.trans pc
  rw [List.map_append, List.append_assoc] at hcap
  have e0 : A0 = at0 := p0.scripted at0 (at31.map .ok ++ rest) (by rw [pe, hcap])
    (by rw [pc, l0]) (by rw [pc]; exact len0)
  have cap31 : s0.env.captures = at31.map .ok ++ rest := by
    rw [p0.captures, pe, pc, hcap, ← l0, List.drop_append_of_le_length (by simp)]
    simp
  have e31 : A31 = at31 := p31.scripted at31 rest cap31 (by rw [State.mapWork_ctl, c0, l31])
    (by rw [State.mapWork_ctl, c0]; exact len31)
  have written : t.tables.heurSlip.getLsbD chip.toNat = straddles s0.work.acc s31.work.acc := by
    cases (execTapCal_valid hc).symm.trans he
    rw [finish_tables, ← slip]
    rfl
  rw [written, straddles_iff]
  refine exists_congr fun li => ?_
  rw [p0.acc li, p31.acc li, State.mapWork_ctl, c0, pc, e0, e31, count_eq_zero l0 len0,
    count_eq_zero l31 len31]

end Sys2Proof.Machine

/-! SUPPORT. The serial commands: the outcome of a list of transactions, and what a chip's registers
hold after one (rules R81, R132, R136, R331). -/

namespace Sys2Proof.Machine

open Sys2Proof.Safety

@[simp] theorem complete_board (d : ResponseData) (s : State) : (s.complete d).board = s.board := rfl

/-- A command that sends a list of register writes and completes has their serial outcome
(rules R132, R136). -/
theorem writeRegisters_serialOutcome (ps : List RegWrite) {s : State} (hI : InstanceOk s.inst) :
    SerialOutcome [] ps s (((s.setFsm .exec).writeRegisters ps).complete .none) := by
  obtain ⟨-, -, hw⟩ := strobeWordsOk_of _ hI
  have bus := writeRegisters_onlyBus ps (s.setFsm .exec)
  constructor
  case toKeepsRegisters =>
    exact ⟨⟨bus.inst, bus.port, (congrArg Status.warnSec bus.status :)⟩, bus.ctl, bus.tables⟩
  case events =>
    rw [complete_events, writeRegisters_serialEvents, List.append_nil]
    rfl
  case words =>
    exact fun w h0 => writeRegisters_read_other ps (s.setFsm .exec) w (List.ne_of_not_mem_cons h0)
  case word0 => exact writeRegisters_read_zero ps (s.setFsm .exec)
  case taps => exact writeRegisters_taps ps (s.setFsm .exec) (fun h0 => (hw 0 h0).1 rfl)
  case slips => exact writeRegisters_slips ps (s.setFsm .exec)
  case word0Answers => exact (congrArg Env.word0 bus.env :)
  case captures => exact (congrArg Env.captures bus.env :)

/-- The writes of a slot and a byte are an entry of the table (rule R66; log 17). -/
theorem customPatternWrites_eq {R : ChipRegs} {slot : BitVec 4} {byte : Byte}
    {row : List (List RegWrite)} {ps : List RegWrite} (hrow : R.customPattern[slot.toNat]? = some row)
    (hps : row[byte.toNat]? = some ps) : customPatternWrites R slot byte = ps := by
  simp only [customPatternWrites, List.getD_eq_getElem?_getD, hrow, hps, Option.getD_some]

/-- Settles O30: the entry of the table is sent, with the outcome of a list of transactions. -/
theorem setCustomPatternSendsTheSlotsWrites : Obligations.SetCustomPatternSendsTheSlotsWrites := by
  intro s slot byte row ps hI hslot hrow hps
  have he : exec (.setCustomPattern slot byte) s =
      .next (((s.setFsm .exec).writeRegisters ps).complete .none) := by
    simp only [exec, execSetCustomPattern, if_pos hslot, customPatternWrites_eq hrow hps]
  exact ⟨_, he, ⟨rfl, rfl, rfl, rfl⟩, writeRegisters_serialOutcome ps hI,
    (congrArg Env.programmed (writeRegisters_onlyBus ps (s.setFsm .exec)).env :)⟩

/-! ## The registers of a chip -/

/-- What register `r` of chip `c` holds, from what the chip's registers were sent and the record of
its last reset or power cycle (rules R81, R331; log 12). -/
def regHeld (c : ChipId) (regs : Vector Half 256) (u : Option Upset) (r : Byte) : Half :=
  match u with
  | none => regs[r.toNat]'r.isLt
  | some x => if r ∈ x.stored then regs[r.toNat]'r.isLt else Config.freeChipReg x.stamp c r

theorem chipReg_eq_regHeld (b : Board) (c : ChipId) (r : Byte) :
    b.chipReg c r = regHeld c b.sentRegs[c] b.upsets[c] r := rfl

section

variable (c : ChipId) (regs : Vector Half 256) (u : Option Upset) {R : ChipRegs} (k : Nat)
  {a r : Byte} {v : Half}

/-- A stored register write leaves what every other register was sent (rule R81). -/
theorem set_sent_other (hr : r ≠ a) :
    (regs.set a.toNat v a.isLt)[r.toNat]'r.isLt = regs[r.toNat]'r.isLt :=
  Vector.getElem_set_ne a.isLt r.isLt (fun e => hr (BitVec.eq_of_toNat_eq e.symm))

/-- A write that neither resets nor power-cycles the chip leaves what every other register holds
(rule R81). -/
theorem regHeld_other (hk : chipUpset R ⟨a, v⟩ = false) (hr : r ≠ a) :
    regHeld c (regs.set a.toNat v a.isLt) (upsetAfter R k ⟨a, v⟩ u) r = regHeld c regs u r := by
  rw [upsetAfter, hk, if_neg Bool.false_ne_true]
  cases u with
  | none => exact set_sent_other regs hr
  | some x =>
    have stored : r ∈ x.stored.insert a ↔ r ∈ x.stored := by
      rw [List.mem_insert_iff]
      exact or_iff_right hr
    simp only [regHeld, Option.map_some, stored, set_sent_other regs hr]

/-- A reset or a power cycle leaves free values in the other registers (I13, rule R331; log 12). -/
theorem regHeld_upset (hk : chipUpset R ⟨a, v⟩ = true) (hr : r ≠ a) :
    regHeld c regs (upsetAfter R k ⟨a, v⟩ u) r = Config.freeChipReg k c r := by
  rw [upsetAfter, if_pos hk]
  exact if_neg (fun h => hr (List.mem_singleton.mp h))

end

/-- What WRITE_REG leaves in a chip of the board: `regs` and `u` are what its registers were sent, and
the record of its last reset, once the opening idle frame has de-selected it (rules R81, R134, R331). -/
structure RegWritten (a : Byte) (v : Half) (c : ChipId) (s t : State) (regs : Vector Half 256)
    (u : Option Upset) : Prop where
  /-- In a chip of CS_MASK the addressed register holds the value, which was sent to it. -/
  stored : s.ctl.csMask.getLsbD c.val = true →
    t.board.chipReg c a = v ∧ (t.board.sentRegs[c])[a.toNat]'a.isLt = v
  /-- Nothing else was sent. -/
  sent : ∀ r : Byte, s.ctl.csMask.getLsbD c.val = false ∨ r ≠ a →
    (t.board.sentRegs[c])[r.toNat]'r.isLt = regs[r.toNat]'r.isLt
  /-- Without a reset or a power cycle the other registers hold what they held. -/
  kept : (s.ctl.csMask.getLsbD c.val && chipUpset s.inst.chipRegs ⟨a, v⟩) = false →
    ∀ r : Byte, s.ctl.csMask.getLsbD c.val = false ∨ r ≠ a →
      t.board.chipReg c r = regHeld c regs u r
  /-- With one they are free values. -/
  upset : (s.ctl.csMask.getLsbD c.val && chipUpset s.inst.chipRegs ⟨a, v⟩) = true →
    ∃ n, ∀ r : Byte, r ≠ a → t.board.chipReg c r = Config.freeChipReg n c r

theorem writeRegister_regWritten (a : Byte) (v : Half) (s : State) (hI : InstanceOk s.inst)
    (hm : maskValid s.inst s.ctl.csMask) (c : ChipId) (hc : c.val < s.inst.nchips) :
    ∃ regs u, regs = (if s.board.receivers[c].endsMalformed s.inst.layout (s.board.held 0) c then
        Config.freeChipRegs s.board.writes c else s.board.sentRegs[c]) ∧
      u = (if s.board.receivers[c].endsMalformed s.inst.layout (s.board.held 0) c then none
        else s.board.upsets[c]) ∧
      RegWritten a v c s (s.writeRegister a v) regs u := by
  obtain ⟨-, -, regs, u, hregs, hu, h⟩ := writeRegister_chip a v s hI hm c hc
  refine ⟨regs, u, hregs, hu, ?_⟩
  by_cases hsel : s.ctl.csMask.getLsbD c.val = true
  case pos =>
    rw [if_pos hsel] at h
    obtain ⟨hr, k, hk⟩ := h
    constructor
    case stored =>
      refine fun _ => ⟨chipReg_stored hr hk, ?_⟩
      simp only [hr, Vector.getElem_set_self]
    case sent =>
      intro r hne
      simp only [hr]
      exact set_sent_other regs (hne.resolve_left (ne_false_of_eq_true hsel))
    case kept =>
      intro hup r hne
      rw [hsel, Bool.true_and] at hup
      rw [chipReg_eq_regHeld, hr, hk]
      exact regHeld_other c regs u k hup (hne.resolve_left (ne_false_of_eq_true hsel))
    case upset =>
      intro hup
      rw [hsel, Bool.true_and] at hup
      refine ⟨k, fun r hne => ?_⟩
      rw [chipReg_eq_regHeld, hk]
      exact regHeld_upset c _ u k hup hne
  case neg =>
    rw [if_neg hsel] at h
    obtain ⟨hr, hk⟩ := h
    constructor
    case stored => exact fun h => absurd h hsel
    case sent => exact fun r _ => by simp only [hr]
    case kept => exact fun _ r _ => by rw [chipReg_eq_regHeld, hr, hk]
    case upset => exact fun h => absurd (Bool.and_eq_true_iff.mp h).1 hsel

/-- The idle frame that ends a transaction de-selects every chip (rules R81, R131, R132). -/
theorem writeRegister_atRest (a : Byte) (v : Half) {s : State} (hI : InstanceOk s.inst)
    (hm : maskValid s.inst s.ctl.csMask) : ReceiversAtRest (s.writeRegister a v) := by
  intro c hc
  rw [State.writeRegister_inst] at hc ⊢
  obtain ⟨hcount, hsel, -⟩ := writeRegister_chip a v s hI hm c hc
  exact ⟨hsel, hcount⟩

theorem complete_atRest (d : ResponseData) {s : State} (h : ReceiversAtRest s) :
    ReceiversAtRest (s.complete d) :=
  receiversAtRest_congr h rfl rfl rfl

theorem execWriteReg_eq (addr : Byte) (value : Half) (s : State) : exec (.writeReg addr value) s =
    .next (((s.setFsm .exec).writeRegister addr value).complete .none) := rfl

/-- Settles O24: the registers that the transaction starts from are the chip's own, or, where its
opening idle frame ends a malformed selection, free values. -/
theorem writeRegReachesTheSelectedChips : Obligations.WriteRegReachesTheSelectedChips := by
  intro addr value s t hI hm he
  rw [execWriteReg_eq, Host.Outcome.next.injEq] at he
  subst he
  refine ⟨complete_atRest .none (writeRegister_atRest addr value hI hm), ?_⟩
  intro c hc
  obtain ⟨regs, u, hregs, hu, w⟩ :=
    writeRegister_regWritten addr value (s.setFsm .exec) hI hm c hc
  rw [State.setFsm_board, State.setFsm_inst] at hregs hu
  rw [complete_board]
  refine ⟨w.stored, ?wellFormed, w.upset, ?malformed⟩
  case wellFormed =>
    intro hbad r hr
    rw [hbad, if_neg Bool.false_ne_true] at hregs hu
    rw [chipReg_eq_regHeld s.board, ← hregs, ← hu]
    exact ⟨w.sent r hr, fun hup => w.kept hup r hr⟩
  case malformed =>
    intro hbad hup
    rw [hbad, if_pos rfl] at hregs hu
    refine ⟨s.board.writes, fun r hr => (w.kept hup r hr).trans ?_⟩
    rw [← hregs, hu]
    rfl

end Sys2Proof.Machine

/-! SUPPORT. SET_DELAY_TAP (rules R82, R174, R175). -/

namespace Sys2Proof.Machine

/-- Settles O34, from the delay elements after SetDelayTap. -/
theorem setDelayTapLatchesTheAddressedLanes : Obligations.SetDelayTapLatchesTheAddressedLanes := by
  intro s t chip tap lm hI hc he c li
  have hc' : chipValid s.inst chip := hc
  simp only [exec, execSetDelayTap, if_pos hc', Host.Outcome.next.injEq] at he
  subst he
  rw [complete_board, setDelayTap_taps]
  case hI => exact hI
  case hc => exact hc
  simp only [Fin.ext_iff]
  rfl

end Sys2Proof.Machine

/-! SUPPORT. What the writes among a command's events leave alone: the words that they do not write, and
the devices behind those words (rules R71, R81 to R83). -/

namespace Sys2Proof.Machine

open Sys2Proof.Safety

/-- What writes to no other words than those of `ws` leave alone (rules R71, R81, R82, R83). -/
structure WritesOnly (ws : List Nat) (s t : State) : Prop where
  inst : t.inst = s.inst
  words : KeepsWords ws s t
  adc : 0 ∉ ws → KeepsAdc s t
  taps : (∀ w ∈ ws, w ∉ s.inst.layout.strobeWords) → t.board.taps = s.board.taps
  slips : 1 ∉ ws → t.board.slips = s.board.slips

namespace WritesOnly

variable {ws : List Nat} {s t u : State}

theorem of_board (hi : t.inst = s.inst) (hb : t.board = s.board) : WritesOnly ws s t where
  inst := hi
  words _ _ := by rw [hb]
  adc _ := by constructor <;> rw [hb]
  taps _ := by rw [hb]
  slips _ := by rw [hb]

theorem trans (h : WritesOnly ws s t) (k : WritesOnly ws t u) : WritesOnly ws s u where
  inst := k.inst.trans h.inst
  words w hw := (k.words w hw).trans (h.words w hw)
  adc h0 := by
    obtain ⟨h1, h2, h3⟩ := h.adc h0
    obtain ⟨k1, k2, k3⟩ := k.adc h0
    exact ⟨k1.trans h1, k2.trans h2, k3.trans h3⟩
  taps hw := (k.taps (by rw [h.inst]; exact hw)).trans (h.taps hw)
  slips h1 := (k.slips h1).trans (h.slips h1)

theorem memWrite {w : Nat} (hw : w ∈ ws) (v : Word) (s : State) :
    WritesOnly ws s (s.memWrite w v) where
  inst := State.memWrite_inst w v s
  words x hx := WordMem.read_write_other _ _ (fun e => hx (e ▸ hw))
  adc h0 := by
    have ne : w ≠ 0 := fun e => h0 (e ▸ hw)
    obtain ⟨hregs, hups⟩ := memWrite_adc w v s ne
    exact ⟨memWrite_receivers w v s ne, hregs, hups⟩
  taps hs := memWrite_taps_of_not_mem w v s (hs w hw)
  slips h1 := memWrite_slips w v s (fun e => h1 (e ▸ hw))

/-- One event: only a write changes the board (rules R10, R80). -/
theorem perform (e : Event) (s : State) (h : ∀ w v, e = .memWrite w v → w ∈ ws) :
    WritesOnly ws s (s.perform e) := by
  cases e with
  | memWrite w v => exact memWrite (h w v rfl) v s
  | memRead w => exact of_board rfl rfl
  | capture c n => exact of_board rfl rfl
  | isProgrammed => exact of_board rfl rfl
  | settle => exact of_board rfl rfl

theorem replay (l : List TraceEntry) (s : State)
    (h : ∀ w v, .memWrite w v ∈ l.map TraceEntry.event → w ∈ ws) :
    WritesOnly ws s (s.replay l) := by
  induction l generalizing s with
  | nil => exact of_board rfl rfl
  | cons e l ih =>
    rw [replay_cons]
    have recalled : WritesOnly ws s (s.recall e) := of_board rfl rfl
    refine (recalled.trans (perform e.event _ ?_)).trans (ih _ ?_)
    · exact fun w v he => h w v (he ▸ List.mem_cons_self ..)
    · exact fun w v hm => h w v (List.mem_cons_of_mem _ hm)

end WritesOnly

/-- The events of a command tell what it leaves alone: what its write events leave alone
(rules R7, R71, R80). -/
theorem exec_writesOnly {i : Instr} {s t : State} {es : List Event} {ws : List Nat}
    (he : exec i s = .next t) (hes : t.events = s.events ++ es)
    (hw : ∀ w v, .memWrite w v ∈ es → w ∈ ws) : WritesOnly ws s t := by
  obtain ⟨_, he', l, hr, -⟩ := exec_explained i s
  cases he'.symm.trans he
  have events : l.map TraceEntry.event = es := List.append_cancel_left (hr.events.symm.trans hes)
  exact (WritesOnly.replay l s (by rw [events]; exact hw)).trans
    (.of_board hr.final.inst hr.final.board)

/-- A transaction writes word 0 alone (rule R132). -/
theorem serialEvents_writes {I : Instance} {m : Byte} {p : RegWrite} {w : Nat} {v : Word}
    (h : .memWrite w v ∈ serialEvents I m p) : w = 0 := by
  rw [serialEvents_eq] at h
  obtain ⟨_, -, e⟩ := List.mem_map.mp h
  cases e
  rfl

/-- A bitslip pulse writes word 1 alone (rule R177). -/
theorem bitslipEvents_writes {L : Layout} {c : ChipId} {w : Nat} {v : Word}
    (h : .memWrite w v ∈ bitslipEvents L c) : w = 1 := by
  simp only [bitslipEvents, List.mem_cons, Event.memWrite.injEq, reduceCtorEq, List.not_mem_nil,
    or_false] at h
  obtain ⟨hw, -⟩ | ⟨hw, -⟩ | ⟨hw, -⟩ := h <;> exact hw

end Sys2Proof.Machine

/-! SUPPORT. BITSLIP: one pulse for each chip of a list (rules R83, R177, R178, R180). -/

namespace Sys2Proof.Machine

open Sys2Proof.Safety

/-- The chips of a valid mask are those whose bit it has (rule R105). -/
theorem mem_chipsOf_iff {I : Instance} {mask : Byte} (hI : InstanceOk I) (hm : maskValid I mask)
    (c : ChipId) : c ∈ chipsOf I mask ↔ mask.getLsbD c.val = true := by
  rw [chipsOf_eq, mem_chipsBelow, and_iff_left_of_imp]
  intro hb
  by_contra hc
  rw [(maskValid_iff I mask (nchips_le I hI).2).mp hm c.val (Nat.le_of_not_lt hc)] at hb
  exact Bool.false_ne_true hb

theorem chipsOf_eq_filter {I : Instance} {mask : Byte} (hI : InstanceOk I) (hm : maskValid I mask) :
    chipsOf I mask = ([0, 1, 2, 3, 4, 5, 6, 7] : List ChipId).filter
      (fun c => mask.getLsbD c.val) := by
  refine List.filter_congr fun c _ => ?_
  rw [Bool.and_eq_right_iff_imp, decide_eq_true_eq]
  exact fun hb => mem_chipsOf ((mem_chipsOf_iff hI hm c).mpr hb)

theorem chipsOf_nodup (I : Instance) (mask : Byte) : (chipsOf I mask).Nodup :=
  allChips_nodup.filter _

/-- Only the mask 0 has no chip (rule R105). -/
theorem chipsOf_eq_nil_iff {I : Instance} {mask : Byte} (hI : InstanceOk I) (hm : maskValid I mask) :
    chipsOf I mask = [] ↔ mask = 0 := by
  rw [List.eq_nil_iff_forall_not_mem]
  simp only [mem_chipsOf_iff hI hm, Bool.not_eq_true]
  refine ⟨fun h => BitVec.eq_of_getLsbD_eq fun i hi => ?_, fun h c => ?_⟩
  · rw [h ⟨i, hi⟩]
    exact BitVec.getLsbD_zero.symm
  · rw [h]
    exact BitVec.getLsbD_zero

theorem bitslipEach_cons (c : ChipId) (cs : List ChipId) (s : State) : s.bitslipEach (c :: cs) =
    ((s.mapWork (fun w => { w with curChip := chipBits c })).bitslipPulse c).bitslipEach cs := rfl

theorem bitslipEach_bitslipEvents (cs : List ChipId) (s : State) :
    (s.bitslipEach cs).events = s.events ++ cs.flatMap (bitslipEvents s.inst.layout) :=
  State.bitslipEach_events cs s

/-- Word 1 is left at 0 by the last pulse (rule R177). -/
theorem bitslipEach_read_one (cs : List ChipId) (s : State) :
    (s.bitslipEach cs).board.rwi.read 1 = if cs = [] then s.board.rwi.read 1 else some 0 := by
  induction cs generalizing s with
  | nil => rfl
  | cons c cs ih =>
    rw [bitslipEach_cons, ih, bitslipPulse_read, if_pos rfl, if_neg (List.cons_ne_nil c cs), ite_self]

/-- Each deserializer of the list advances once (rules R83, R178). -/
theorem bitslipEach_slips (cs : List ChipId) (s : State) (hI : InstanceOk s.inst)
    (hn : cs.Nodup) (hc : ∀ c ∈ cs, c.val < s.inst.nchips) (d : ChipId) :
    (s.bitslipEach cs).board.slips[d] = s.board.slips[d] + if d ∈ cs then 1 else 0 := by
  induction cs generalizing s with
  | nil => rfl
  | cons c cs ih =>
    obtain ⟨hnot, hn⟩ := List.nodup_cons.mp hn
    obtain ⟨hc0, hcs⟩ := List.forall_mem_cons.mp hc
    rw [bitslipEach_cons, ih _ (by rwa [State.bitslipPulse_inst]) hn
      (by rwa [State.bitslipPulse_inst]), bitslipPulse_slips c (s.mapWork _) hI hc0,
      State.mapWork_board]
    by_cases hd : d = c
    · subst hd
      rw [if_pos rfl, if_neg hnot, if_pos (List.mem_cons_self ..)]
    · simp only [hd, if_false, List.mem_cons, false_or, Nat.add_zero]

theorem execBitslip_valid {s : State} {mask : Byte} (hm : maskValid s.inst mask) :
    exec (.bitslip mask) s =
      .next (((s.setFsm .exec).bitslipEach (chipsOf s.inst mask)).complete .none) := by
  simp only [exec, execBitslip, if_pos hm]

/-- Settles O35: the events and the deserializers by induction on the chips of the mask; the rest of the
board is what writes to word 1 leave alone. -/
theorem bitslipPulsesTheMask : Obligations.BitslipPulsesTheMask := by
  intro s mask hI hm
  have bus := bitslipEach_onlyBus (chipsOf s.inst mask) (s.setFsm .exec)
  have events := bitslipEach_bitslipEvents (chipsOf s.inst mask) (s.setFsm .exec)
  have word1 := bitslipEach_read_one (chipsOf s.inst mask) (s.setFsm .exec)
  have slips := bitslipEach_slips (chipsOf s.inst mask) (s.setFsm .exec) hI (chipsOf_nodup _ _)
    (fun _ => mem_chipsOf)
  obtain ⟨-, -, strobes⟩ := strobeWordsOk_of _ hI
  have frame : WritesOnly [1] s _ := exec_writesOnly (execBitslip_valid hm) events (by
    intro w v h
    obtain ⟨c, -, hc⟩ := List.mem_flatMap.mp h
    exact List.mem_singleton.mpr (bitslipEvents_writes hc))
  refine ⟨_, execBitslip_valid hm, ⟨rfl, rfl, rfl, rfl⟩,
    ⟨⟨bus.inst, bus.port, (congrArg Status.warnSec bus.status :)⟩, bus.ctl, bus.tables⟩,
    ⟨(congrArg Env.programmed bus.env :), (congrArg Env.word0 bus.env :),
      (congrArg Env.captures bus.env :)⟩,
    frame.adc (by decide), frame.taps ?_, ?_, frame.words, ?_, ?_⟩
  · intro w hw hs
    exact (strobes w hs).2 (List.mem_singleton.mp hw)
  · rw [← chipsOf_eq_filter hI hm]
    exact events
  · refine word1.trans ?_
    simp only [chipsOf_eq_nil_iff hI hm]
    rfl
  · intro c
    refine (slips c).trans ?_
    simp only [mem_chipsOf_iff hI hm]
    rfl

end Sys2Proof.Machine

/-! SUPPORT. SYNC_VERIFY whose captures succeed: the pass over the chips goes on to its end (rules R240,
R243, R245). -/

namespace Sys2Proof.Machine

open Sys2Proof.Safety

/-! ## Captures that succeed -/

theorem capturesSucceed_drop {n m k : Nat} {s t : State} (h : CapturesSucceed n s)
    (ht : t.env.captures = s.env.captures.drop k) (hk : k + m ≤ n) : CapturesSucceed m t := by
  obtain ⟨hl, hf⟩ := h
  unfold CapturesSucceed
  rw [ht, List.length_drop, List.take_drop]
  refine ⟨by omega, fun a ha => hf a ?_⟩
  exact (List.take_prefix_take_left hk).subset (List.mem_of_mem_drop ha)

/-- A capture that succeeds goes on with its samples (rule R190). -/
theorem captureOrAbort_succeeds (c : ChipId) (n : Nat) {m : Nat} {s : State}
    (k : Samples → State → Run) (h : CapturesSucceed (m + 1) s) :
    ∃ S, captureOrAbort c n s k = k S (s.takeCapture c n) := by
  rcases captureOrAbort_cases c n s k with ⟨hfail, -⟩ | ⟨S, -, e⟩
  · obtain ⟨hl, hf⟩ := h
    unfold State.nextCapture at hfail
    cases hcap : s.env.captures with
    | nil => simp [hcap] at hl
    | cons a rest =>
      rw [hcap] at hfail hf
      cases a with
      | fail => exact absurd rfl (hf .fail (List.mem_cons_self ..))
      | ok S => cases hfail
  · exact ⟨S, e⟩

theorem syncRounds_total (c : ChipId) (j : Nat) (s : State) (h : CapturesSucceed (j + 1) s) :
    ∃ t, syncRounds c j s = .done t := by
  induction j generalizing s with
  | zero =>
    rw [syncRounds_zero]
    obtain ⟨S, e⟩ := captureOrAbort_succeeds c 1 (s := syncAsking .syncRecheck s.inst.syncRetries s)
      _ h
    exact ⟨_, e⟩
  | succ j ih =>
    rw [syncRounds_succ]
    obtain ⟨S, e⟩ := captureOrAbort_succeeds c 1
      (s := syncAsking .syncRound (s.inst.syncRetries - (j + 1)) s) _ h
    rw [e]
    split
    · exact ⟨_, rfl⟩
    · refine ih _ (capturesSucceed_drop h (k := 1) ?_ (by omega))
      rw [State.bitslipPulse_env, takeCapture_captures, List.drop_one]
      rfl

/-- A pass over a list of chips, with a capture for each of their rounds and re-checks (rules R240,
R243). -/
theorem syncEach_total (cs : List ChipId) (s : State) (h32 : s.inst.syncRetries < 32)
    (h : CapturesSucceed (cs.length * (s.inst.syncRetries + 1)) s) :
    ∃ t, syncEach cs s = .done t := by
  induction cs generalizing s with
  | nil => exact ⟨s, rfl⟩
  | cons c cs ih =>
    rw [List.length_cons, Nat.succ_mul] at h
    obtain ⟨u, hu⟩ := syncRounds_total c s.inst.syncRetries
      (s.mapWork (fun w => { w with curChip := chipBits c }))
      (capturesSucceed_drop h (k := 0) rfl (by omega))
    rcases syncChip_cases c s h32 with ⟨k, t, -, e, -⟩ | ⟨k, t, v, hk, e, span, -⟩
    · cases e.symm.trans hu
    · obtain ⟨w, hw⟩ := ih t (by rwa [span.inst])
        (capturesSucceed_drop h span.captures (by rw [span.inst]; omega))
      exact ⟨w, by rw [syncEach, e, Run.done_andThen, hw]⟩

/-! ## The synchronization pass -/

/-- The state in which the chips are synchronized: SYNC_STATUS cleared, the SYNC pattern sent
(rule R243). -/
def syncVerifying (s : State) : State := (s.clearSync.setFsm .syncPattern).selectPattern .sync

theorem clearSync_syncStatus (s : State) (c : ChipId) :
    s.clearSync.tables.syncStatus[c] = .notAttempted := by
  simp [State.clearSync, everyChip]

theorem syncVerifying_onlyBus (s : State) :
    OnlyBus (s.clearSync.setFsm .syncPattern) (syncVerifying s) := selectPattern_onlyBus _ _

theorem syncVerifying_events (s : State) : (syncVerifying s).events =
    s.events ++ s.inst.chipRegs.syncWrites.flatMap (serialEvents s.inst s.ctl.csMask) :=
  writeRegisters_serialEvents _ _

theorem syncVerifying_slips (s : State) : (syncVerifying s).board.slips = s.board.slips :=
  writeRegisters_slips _ _

/-- A pass over the chips of a mask has at most eight of them to synchronize (rules R105, R240). -/
theorem syncVerifyBody_succeeds {s : State} (mask : Byte) (h32 : s.inst.syncRetries < 32)
    (h : CapturesSucceed (8 * (s.inst.syncRetries + 1)) s) :
    ∃ n t, syncVerifyBody mask s = .done t ∧
      SyncedEach n (chipsOf s.inst mask) (syncVerifying s) t := by
  have bus := syncVerifying_onlyBus s
  have inst : (syncVerifying s).inst = s.inst := bus.inst
  have length : (chipsOf s.inst mask).length ≤ 8 := List.length_filter_le _ allChips
  obtain ⟨t, ht⟩ := syncEach_total (chipsOf s.inst mask) (syncVerifying s) (by rwa [inst])
    (capturesSucceed_drop h (k := 0) (congrArg Env.captures bus.env) (by
      rw [inst, Nat.zero_add]
      exact Nat.mul_le_mul_right _ length))
  rcases syncEach_cases (chipsOf s.inst mask) (chipsOf_nodup _ _) (syncVerifying s)
      (by rwa [inst]) with ⟨n, u, e, synced⟩ | ⟨_, _, c, _, _, _, _, -, -, e, -⟩
  · exact ⟨n, u, e, synced⟩
  · cases e.symm.trans ht

/-- A synchronization pass writes words 0 and 1 alone (rules R132, R177). -/
theorem syncEvents_writes {I : Instance} {m : Byte} {k : ChipId → Nat} {cs : List ChipId} {w : Nat}
    {v : Word} (h : .memWrite w v ∈ syncEvents I m k cs) : w = 0 ∨ w = 1 := by
  rcases List.mem_append.mp h with h | h
  · obtain ⟨p, -, hp⟩ := List.mem_flatMap.mp h
    exact .inl (serialEvents_writes hp)
  · obtain ⟨c, -, hc⟩ := List.mem_flatMap.mp h
    obtain ⟨_, hl, hw⟩ := List.mem_flatten.mp ((List.mem_cons.mp hc).resolve_left (by simp))
    rw [List.eq_of_mem_replicate hl] at hw
    rcases List.mem_append.mp hw with hw | hw
    · exact .inr (bitslipEvents_writes hw)
    · simp at hw

/-- The events of a pass, with the bitslips that each chip took (rules R240, R243). -/
theorem SyncedEach.syncEvents {n k : ChipId → Nat} {cs : List ChipId} {s t : State}
    (h : SyncedEach n cs (syncVerifying s) t) (hk : ∀ c ∈ cs, k c = n c) :
    t.events = s.events ++ Safety.syncEvents s.inst s.ctl.csMask k cs := by
  have inst : (syncVerifying s).inst = s.inst := (syncVerifying_onlyBus s).inst
  rw [h.events, syncVerifying_events, inst, List.append_assoc]
  congr 2
  exact List.flatMap_congr fun c hc => by rw [hk c hc]

theorem execSyncVerify_done {s t : State} {mask : Byte} (hm : maskValid s.inst mask)
    (ht : syncVerifyBody mask s = .done t) :
    exec (.syncVerify mask) s = .next (t.complete (syncStatusData t)) := by
  simp only [exec, execSyncVerify, if_pos hm, ht]
  rfl

/-- Settles O51: the pass goes on to its end; the words and the delay taps are what writes to words 0
and 1 leave alone. -/
theorem syncVerifyReportsEveryChip : Obligations.SyncVerifyReportsEveryChip := by
  intro s mask hI hm hs
  obtain ⟨n, t, ht, synced⟩ :=
    syncVerifyBody_succeeds mask (Nat.lt_succ_of_le (syncRetriesOk_of _ hI)) hs
  have bus := syncVerifying_onlyBus s
  have inst : (syncVerifying s).inst = s.inst := bus.inst
  obtain ⟨k, bound, retries⟩ : ∃ k : ChipId → Nat, (∀ c, k c ≤ s.inst.syncRetries) ∧
      ∀ c ∈ chipsOf s.inst mask, k c = n c :=
    ⟨fun c => min (n c) s.inst.syncRetries, fun c => Nat.min_le_right ..,
      fun c hc => Nat.min_eq_left (inst ▸ synced.retries c hc)⟩
  have he := execSyncVerify_done hm ht
  have events := synced.syncEvents retries
  have frame : WritesOnly [0, 1] s _ := exec_writesOnly he events fun w v h => by
    rcases syncEvents_writes h with rfl | rfl <;> simp
  obtain ⟨-, -, strobes⟩ := strobeWordsOk_of _ hI
  obtain ⟨v, others⟩ := synced.others
  have slips := synced.slips (by rwa [inst]) (fun c hc => by rw [inst]; exact mem_chipsOf hc)
  refine ⟨_, k, he, ⟨rfl, rfl, rfl, rfl⟩,
    exec_keepsSetting he (by simp), synced.ctl.trans bus.ctl, ?calTables, frame.taps ?strobes,
    ?attempted, frame.words, ?events, bound, ?bitslips⟩
  case calTables =>
    have tables : t.tables = { s.tables with syncStatus := v } := by rw [others, bus.tables]; rfl
    constructor <;> rw [complete_eq, tables]
  case strobes =>
    intro w hw hs
    obtain ⟨h0, h1⟩ := strobes w hs
    simp [h0, h1] at hw
  case attempted =>
    intro c
    rw [← mem_chipsOf_iff hI hm]
    by_cases hc : c ∈ chipsOf s.inst mask
    · exact iff_of_true (synced.attempted c hc).1 hc
    · refine iff_of_false (not_not_intro ((synced.rest c hc).trans ?_)) hc
      rw [bus.tables]
      exact clearSync_syncStatus s c
  case events =>
    rw [← chipsOf_eq]
    exact events
  case bitslips =>
    intro c
    have named := mem_chipsOf_iff hI hm c
    refine ⟨(slips c).trans ?_, fun hb hlt => (synced.attempted c (named.mpr hb)).2 ?_⟩
    · rw [syncVerifying_slips]
      by_cases hc : c ∈ chipsOf s.inst mask
      · rw [if_pos hc, if_pos (named.mp hc), retries c hc]
      · rw [if_neg hc, if_neg (mt named.mpr hc)]
    · rwa [inst, ← retries c (named.mpr hb)]

end Sys2Proof.Machine

/-! SUPPORT. Command words as fields: a masked comparison, field by field, and what each field of a word
reads (rules R8, R101, R102). -/

namespace Sys2Proof

theorem append_eq_append_iff {n k : Nat} {x a : BitVec n} {y b : BitVec k} :
    x ++ y = a ++ b ↔ x = a ∧ y = b := by
  refine ⟨fun h => ⟨?_, ?_⟩, fun ⟨hx, hy⟩ => by rw [hx, hy]⟩
  · simpa only [BitVec.extractLsb'_append_eq_left] using congrArg (BitVec.extractLsb' k n) h
  · simpa only [BitVec.extractLsb'_append_eq_right] using congrArg (BitVec.extractLsb' 0 k) h

theorem exists_eq_append {n k : Nat} (w : BitVec (n + k)) :
    ∃ (x : BitVec n) (y : BitVec k), w = x ++ y :=
  ⟨w.extractLsb' k n, w.extractLsb' 0 k, by
    rw [BitVec.extractLsb'_append_extractLsb'_eq_extractLsb' (Nat.zero_add k).symm,
      BitVec.extractLsb'_eq_self]⟩

/-- A masked comparison of a word of two fields compares each of them. -/
theorem masked_append_iff {n k : Nat} {w : BitVec (n + k)} {m a : BitVec n} {m' b : BitVec k} :
    w &&& (m ++ m') = a ++ b ↔
      ∃ (x : BitVec n) (y : BitVec k), w = x ++ y ∧ x &&& m = a ∧ y &&& m' = b := by
  obtain ⟨x, y, rfl⟩ := exists_eq_append w
  rw [BitVec.and_append, append_eq_append_iff]
  refine ⟨fun h => ⟨x, y, rfl, h⟩, ?_⟩
  rintro ⟨x', y', e, h⟩
  obtain ⟨rfl, rfl⟩ := append_eq_append_iff.mp e
  exact h

/-- An operand field below the fields `a`, whose mask is `m`. -/
theorem masked_operand_iff {n k : Nat} {w : BitVec (n + k)} (m a : BitVec n) :
    w &&& (m ++ 0#k) = a ++ 0#k ↔ ∃ (x : BitVec n) (y : BitVec k), w = x ++ y ∧ x &&& m = a := by
  rw [masked_append_iff]
  simp only [BitVec.and_zero, and_true]

/-- A fixed field and an operand (formats FM, FPAT, FINIT). -/
theorem fixed_operand_iff {n k : Nat} {w : BitVec (n + k)} (a : BitVec n) :
    w &&& (BitVec.allOnes n ++ 0#k) = a ++ 0#k ↔ ∃ y : BitVec k, w = a ++ y := by
  simp only [masked_operand_iff, BitVec.and_allOnes]
  exact ⟨fun ⟨_, y, e, hx⟩ => ⟨y, hx ▸ e⟩, fun ⟨y, e⟩ => ⟨_, y, e, rfl⟩⟩

/-- A fixed field and two operands (formats FWR, FCUST, FSTAT). -/
theorem fixed_operands_iff {n k l : Nat} {w : BitVec (n + k + l)} (a : BitVec n) :
    w &&& (BitVec.allOnes n ++ 0#k ++ 0#l) = a ++ 0#k ++ 0#l ↔
      ∃ (y : BitVec k) (z : BitVec l), w = a ++ y ++ z := by
  rw [masked_operand_iff]
  simp only [fixed_operand_iff]
  exact ⟨fun ⟨_, z, e, y, hx⟩ => ⟨y, z, hx ▸ e⟩, fun ⟨y, z, e⟩ => ⟨_, z, e, y, rfl⟩⟩

/-- A fixed field, an operand and reserved bits (format FC). -/
theorem fixed_operand_reserved_iff {n k r : Nat} {w : BitVec (n + k + r)} (a : BitVec n) :
    w &&& (BitVec.allOnes n ++ 0#k ++ BitVec.allOnes r) = a ++ 0#k ++ 0#r ↔
      ∃ y : BitVec k, w = a ++ y ++ 0#r := by
  rw [masked_append_iff]
  simp only [fixed_operand_iff, BitVec.and_allOnes]
  exact ⟨fun ⟨_, _, e, ⟨y, hx⟩, hz⟩ => ⟨y, hx ▸ hz ▸ e⟩, fun ⟨y, e⟩ => ⟨_, _, e, ⟨y, rfl⟩, rfl⟩⟩

/-- The same, and below it another operand (formats FTAP, FCAP, FCFG). -/
theorem fixed_operand_reserved_operand_iff {n k r l : Nat} {w : BitVec (n + k + r + l)}
    (a : BitVec n) :
    w &&& (BitVec.allOnes n ++ 0#k ++ BitVec.allOnes r ++ 0#l) = a ++ 0#k ++ 0#r ++ 0#l ↔
      ∃ (y : BitVec k) (z : BitVec l), w = a ++ y ++ 0#r ++ z := by
  rw [masked_operand_iff]
  simp only [fixed_operand_reserved_iff]
  exact ⟨fun ⟨_, z, e, y, hx⟩ => ⟨y, z, hx ▸ e⟩, fun ⟨y, z, e⟩ => ⟨_, z, e, y, rfl⟩⟩

end Sys2Proof

/-! SUPPORT. The rows of the opcode map: the words that each of them spells (rules R101, R102). -/

namespace Sys2Proof

/-- Row number `k` of the opcode map (rule R102). -/
def opcodeRow (k : Fin 16) : OpcodeRow := opcodeMap[k.val]'k.isLt

theorem opcodeRow_mem (k : Fin 16) : opcodeRow k ∈ opcodeMap := List.getElem_mem k.isLt

theorem exists_opcodeRow {r : OpcodeRow} (h : r ∈ opcodeMap) : ∃ k, opcodeRow k = r := by
  obtain ⟨k, hk, e⟩ := List.getElem_of_mem h
  exact ⟨⟨k, hk⟩, e⟩

/-- The word `w` matches the match/mask pair of row `k` (rule R102). -/
def Spells (k : Fin 16) (w : Word) : Prop := w &&& (opcodeRow k).mask = (opcodeRow k).bits

/-- Row `k` has opcode `k`, and its mask covers the opcode. -/
theorem opcodeRow_opcode : ∀ k : Fin 16,
    opcode (opcodeRow k).bits = BitVec.ofFin k ∧ opcode (opcodeRow k).mask = BitVec.allOnes 4 := by
  decide

theorem opcode_of_spells {k : Fin 16} {w : Word} (h : Spells k w) : opcode w = BitVec.ofFin k := by
  obtain ⟨hbits, hmask⟩ := opcodeRow_opcode k
  calc opcode w
    _ = opcode w &&& opcode (opcodeRow k).mask := by rw [hmask, BitVec.and_allOnes]
    _ = opcode (w &&& (opcodeRow k).mask) := BitVec.extractLsb'_and.symm
    _ = BitVec.ofFin k := by rw [h, hbits]

/-- No word matches two rows (rule R102). -/
theorem spells_unique {k k' : Fin 16} {w : Word} (h : Spells k w) (h' : Spells k' w) : k = k' :=
  BitVec.ofFin.inj ((opcode_of_spells h).symm.trans (opcode_of_spells h'))

theorem find_opcodeRow (k : Fin 16) :
    opcodeMap.find? (fun r => opcode r.bits = BitVec.ofFin k) = some (opcodeRow k) := by
  fin_cases k <;> rfl

/-- A word that a row spells decodes to the command of that row (rules R102, R119). -/
theorem decodeCommand_of_spells {k : Fin 16} {w : Word} (h : Spells k w) (ps : List Word) :
    decodeCommand w ps = (opcodeRow k).build w ps := by
  rw [decodeCommand, opcode_of_spells h, find_opcodeRow]
  exact if_pos h

/-- A word that no row spells is illegal (rule R116). -/
theorem decodeCommand_of_not_spells {w : Word} (h : ∀ k, ¬ Spells k w) (ps : List Word) :
    decodeCommand w ps = .illegal w := by
  have found := find_opcodeRow (opcode w).toFin
  rw [decodeCommand, found]
  exact if_neg (h _)

/-! ## The words of each row -/

theorem spells_writeReg {w : Word} :
    Spells 1 w ↔ ∃ (addr : Byte) (value : Half), w = 0x10#8 ++ addr ++ value :=
  fixed_operands_iff (w := w) (n := 8) (k := 8) (l := 16) 0x10

theorem spells_setCsMask {w : Word} : Spells 2 w ↔ ∃ mask : Byte, w = 0x200000#24 ++ mask :=
  fixed_operand_iff (w := w) (n := 24) (k := 8) 0x200000

theorem spells_setDelayTap {w : Word} : Spells 3 w ↔
    ∃ (chip : BitVec 3) (tap lm : Byte), w = 0x06#5 ++ chip ++ 0#8 ++ tap ++ lm := by
  refine (masked_operand_iff (w := w) (n := 24) (k := 8) 0xF8FF00 0x300000).trans ?_
  have upper {x : BitVec 24} : x &&& 0xF8FF00 = 0x300000 ↔
      ∃ (chip : BitVec 3) (tap : Byte), x = 0x06#5 ++ chip ++ 0#8 ++ tap :=
    fixed_operand_reserved_operand_iff (w := x) (n := 5) (k := 3) (r := 8) (l := 8) 0x06
  simp only [upper]
  exact ⟨fun ⟨_, lm, e, chip, tap, hx⟩ => ⟨chip, tap, lm, hx ▸ e⟩,
    fun ⟨chip, tap, lm, e⟩ => ⟨_, lm, e, chip, tap, rfl⟩⟩

theorem spells_bitslip {w : Word} : Spells 4 w ↔ ∃ mask : Byte, w = 0x400000#24 ++ mask :=
  fixed_operand_iff (w := w) (n := 24) (k := 8) 0x400000

theorem spells_chipReset {w : Word} : Spells 5 w ↔ w = 0x50000000 :=
  iff_of_eq (congrArg (· = (0x50000000 : Word)) (BitVec.and_allOnes (x := w)))

theorem spells_powerCycle {w : Word} : Spells 6 w ↔ w = 0x60000000 :=
  iff_of_eq (congrArg (· = (0x60000000 : Word)) (BitVec.and_allOnes (x := w)))

theorem spells_selectPattern {w : Word} :
    Spells 7 w ↔ ∃ kind : BitVec 4, w = 0x7000000#28 ++ kind :=
  fixed_operand_iff (w := w) (n := 28) (k := 4) 0x7000000

theorem spells_setCustomPattern {w : Word} :
    Spells 8 w ↔ ∃ (slot : BitVec 4) (byte : Byte), w = 0x80000#20 ++ slot ++ byte :=
  fixed_operands_iff (w := w) (n := 20) (k := 4) (l := 8) 0x80000

theorem spells_initialize {w : Word} : Spells 9 w ↔ ∃ n : Half, w = 0x9000#16 ++ n :=
  fixed_operand_iff (w := w) (n := 16) (k := 16) 0x9000

theorem spells_capture {w : Word} :
    Spells 10 w ↔ ∃ (chip : BitVec 3) (len : Half), w = 0x14#5 ++ chip ++ 0#8 ++ len :=
  fixed_operand_reserved_operand_iff (w := w) (n := 5) (k := 3) (r := 8) (l := 16) 0x14

theorem spells_tapCal {w : Word} : Spells 11 w ↔ ∃ chip : BitVec 3, w = 0x16#5 ++ chip ++ 0#24 :=
  fixed_operand_reserved_iff (w := w) (n := 5) (k := 3) (r := 24) 0x16

theorem spells_syncVerify {w : Word} : Spells 12 w ↔ ∃ mask : Byte, w = 0xC00000#24 ++ mask :=
  fixed_operand_iff (w := w) (n := 24) (k := 8) 0xC00000

theorem spells_calibrate {w : Word} : Spells 13 w ↔ ∃ mask : Byte, w = 0xD00000#24 ++ mask :=
  fixed_operand_iff (w := w) (n := 24) (k := 8) 0xD00000

theorem spells_readStatus {w : Word} :
    Spells 14 w ↔ ∃ sel idx : Byte, w = 0xE000#16 ++ sel ++ idx :=
  fixed_operands_iff (w := w) (n := 16) (k := 8) (l := 8) 0xE000

theorem spells_setConfig {w : Word} :
    Spells 15 w ↔ ∃ (field : BitVec 4) (value : Half), w = 0xF#4 ++ field ++ 0#8 ++ value :=
  fixed_operand_reserved_operand_iff (w := w) (n := 4) (k := 4) (r := 8) (l := 16) 0xF

/-- Settles O3: the mask of every row covers the opcode, and no two rows have the same opcode. -/
theorem opcodeRowsDisjoint : Obligations.OpcodeRowsDisjoint := by
  intro w r hr r' hr' h h'
  obtain ⟨k, rfl⟩ := exists_opcodeRow hr
  obtain ⟨k', rfl⟩ := exists_opcodeRow hr'
  rw [spells_unique (k := k) (k' := k') h h']

theorem decode_cons (w : Word) (rest : List Word) : decode (w :: rest) =
    if rest.length < payloadCount w then
      .error (.payloadIncomplete (payloadCount w - rest.length))
    else .ok (decodeCommand w (rest.take (payloadCount w)), rest.drop (payloadCount w)) := rfl

/-- Settles O4: either only the ILLEGAL row spells the word, or none does. -/
theorem unspelledWordDecodesToIllegal : Obligations.UnspelledWordDecodesToIllegal := by
  intro w rest hlen hw
  have decoded : decodeCommand w (rest.take (payloadCount w)) = .illegal w := by
    by_cases h : Spells 0 w
    · exact decodeCommand_of_spells h _
    · refine decodeCommand_of_not_spells (fun k hk => ?_) _
      have named : ∀ k : Fin 16, k ≠ 0 → (opcodeRow k).mnemonic ≠ "ILLEGAL" := by decide
      exact hw _ (opcodeRow_mem k) (named k fun e => h (e ▸ hk)) hk
  rw [decode_cons, if_neg (Nat.not_lt.mpr hlen), decoded]

end Sys2Proof

/-! SUPPORT. ILLEGAL and INITIALIZE: the payload words and the commands made of them (rules R100, R112,
R116). -/

namespace Sys2Proof

/-- The payload words are those with zeros in bits 31:24 (rule R112, format FPAY). -/
theorem highByte_eq_zero_iff {p : Word} : p.extractLsb' 24 8 = 0 ↔ ∃ q, encodePair q = p := by
  constructor
  · intro h
    obtain ⟨u, value, rfl⟩ := exists_eq_append (n := 16) (k := 16) p
    obtain ⟨z, addr, rfl⟩ := exists_eq_append (n := 8) (k := 8) u
    simp (disch := decide) only [BitVec.extractLsb'_append_eq_of_le, Nat.reduceSub,
      BitVec.extractLsb'_eq_self] at h
    exact ⟨⟨addr, value⟩, by rw [encodePair, h]; rfl⟩
  · rintro ⟨q, rfl⟩
    simp (disch := decide) only [encodePair, BitVec.extractLsb'_append_eq_of_le, Nat.reduceSub,
      BitVec.extractLsb'_eq_self]
    rfl

theorem payloadLegal_iff {p : Word} : payloadLegal p = true ↔ p.extractLsb' 24 8 = 0 :=
  decide_eq_true_iff

@[simp] theorem payloadLegal_encodePair (q : RegWrite) : payloadLegal (encodePair q) = true :=
  payloadLegal_iff.mpr (highByte_eq_zero_iff.mpr ⟨q, rfl⟩)

@[simp] theorem payloadPair_encodePair (q : RegWrite) : payloadPair (encodePair q) = q := by
  simp (disch := decide) only [payloadPair, encodePair, BitVec.extractLsb'_append_eq_of_le,
    Nat.reduceSub, BitVec.extractLsb'_append_eq_right]

/-- A payload word has opcode 0 (rule R100). -/
theorem opcode_encodePair (q : RegWrite) : opcode (encodePair q) = 0 := by
  simp (disch := decide) only [opcode, encodePair, BitVec.extractLsb'_append_eq_of_le, Nat.reduceSub]
  rfl

/-- INITIALIZE from the words of its overrides (rules R101, R112). -/
theorem buildInit_encodePairs (qs : List RegWrite) :
    buildInit (qs.map encodePair) = .initializeChips qs := by
  have legal : (qs.map encodePair).find? (fun p => !payloadLegal p) = none := by
    simp [List.find?_eq_none]
  rw [buildInit, legal]
  simp [Function.comp_def]

/-- The first payload word that is not legal makes the command illegal (rules R112, R116, R288). -/
theorem buildInit_bad {before after : List Word} {bad : Word}
    (hbefore : ∀ p ∈ before, p.extractLsb' 24 8 = 0) (hbad : bad.extractLsb' 24 8 ≠ 0) :
    buildInit (before ++ bad :: after) = .illegal bad := by
  have legal : before.find? (fun p => !payloadLegal p) = none := by
    simpa [List.find?_eq_none, payloadLegal_iff] using hbefore
  have first : (bad :: after).find? (fun p => !payloadLegal p) = some bad :=
    List.find?_cons_of_pos (by
      rw [Bool.not_eq_true', ← Bool.not_eq_true, payloadLegal_iff]
      exact hbad)
  rw [buildInit, List.find?_append, legal, first]
  rfl

/-- Where INITIALIZE is not illegal, its payload words are those of some overrides (rule R112). -/
theorem exists_encodePairs {ps : List Word} (h : ∀ v, buildInit ps ≠ .illegal v) :
    ∃ qs : List RegWrite, qs.map encodePair = ps := by
  have legal : ∀ p ∈ ps, p ∈ Set.range encodePair := by
    intro p hp
    refine highByte_eq_zero_iff.mp (payloadLegal_iff.mp ?_)
    cases hf : ps.find? (fun p => !payloadLegal p) with
    | none => simpa using List.find?_eq_none.mp hf p hp
    | some bad => exact absurd (by rw [buildInit, hf]) (h bad)
  exact (Set.range_list_map encodePair).ge legal

theorem payloadCount_initialize (n : Half) : payloadCount (0x9000#16 ++ n) = n.toNat := by
  have nine : opcode (0x9000#16 ++ n) = 0x9 := opcode_of_spells (spells_initialize.mpr ⟨n, rfl⟩)
  rw [payloadCount, if_pos nine]
  exact congrArg BitVec.toNat BitVec.extractLsb'_append_eq_right

theorem payloadCount_of_opcode {w : Word} (h : opcode w ≠ 9) : payloadCount w = 0 := if_neg h

theorem decodeCommand_initialize (n : Half) (ps : List Word) :
    decodeCommand (0x9000#16 ++ n) ps = buildInit ps :=
  decodeCommand_of_spells (spells_initialize.mpr ⟨n, rfl⟩) ps

/-- Only INITIALIZE looks at its payload words (rule R112). -/
theorem build_payload_irrelevant {k : Fin 16} (hk : k ≠ 9) (w : Word) (ps : List Word) :
    (opcodeRow k).build w ps = (opcodeRow k).build w [] := by
  fin_cases k
  pick_goal 10
  · exact absurd rfl hk
  all_goals rfl

/-- A word that is illegal alone is illegal whatever its payload (rules R100, R116; log 13). -/
theorem decodeCommand_illegal {w : Word} (h : decodeCommand w [] = .illegal w) (ps : List Word) :
    decodeCommand w ps = .illegal w := by
  by_cases hw : ∃ k, Spells k w
  · obtain ⟨k, hk⟩ := hw
    rw [decodeCommand_of_spells hk] at h ⊢
    have other : k ≠ 9 := by
      rintro rfl
      exact Instr.noConfusion h
    rw [build_payload_irrelevant other, h]
  · exact decodeCommand_of_not_spells (not_exists.mp hw) ps

/-- A word of opcode 0 is illegal (rule R102). -/
theorem decodeCommand_of_opcode_zero {w : Word} (h : opcode w = 0) (ps : List Word) :
    decodeCommand w ps = .illegal w := by
  rw [decodeCommand_eq, h]
  rfl

/-- The words of an ILLEGAL decode to it (rules R100, R116). -/
theorem decode_encodeIllegal (w : Word) (rest : List Word) :
    decode (encodeIllegal w ++ rest) = .ok (.illegal w, rest) := by
  unfold encodeIllegal
  split
  · rename_i h
    rw [List.cons_append, decode_whole _ _ _ List.length_replicate.symm, decodeCommand_illegal h]
  · rename_i h
    have bad : w.extractLsb' 24 8 ≠ 0 := by
      intro e
      obtain ⟨q, rfl⟩ := highByte_eq_zero_iff.mp e
      exact h (decodeCommand_of_opcode_zero (opcode_encodePair q) [])
    refine (decode_whole 0x90000001 [w] rest rfl).trans ?_
    rw [← buildInit_bad (before := []) (after := []) (by simp) bad]
    rfl

end Sys2Proof

/-! SUPPORT. The two directions of the encoding, command by command (rules R100, R101, R102). -/

namespace Sys2Proof

/-- The number of a command's row in the opcode map (rule R102). -/
def Instr.row : Instr → Fin 16
  | .illegal _ => 0
  | .writeReg _ _ => 1
  | .setCsMask _ => 2
  | .setDelayTap _ _ _ => 3
  | .bitslip _ => 4
  | .chipReset => 5
  | .powerCycle => 6
  | .selectPattern _ => 7
  | .setCustomPattern _ _ => 8
  | .initializeChips _ => 9
  | .capture _ _ => 10
  | .tapCal _ => 11
  | .syncVerify _ => 12
  | .calibrate _ => 13
  | .readStatus _ _ => 14
  | .setConfig _ _ => 15

/-- The row of a command spells its command word (rules R101, R102). -/
theorem spells_commandWord {i : Instr} (h : ∀ w, i ≠ .illegal w) : Spells i.row (commandWord i) := by
  cases i with
  | illegal w => exact absurd rfl (h w)
  | writeReg a v => exact spells_writeReg.mpr ⟨a, v, rfl⟩
  | setCsMask m => exact spells_setCsMask.mpr ⟨m, rfl⟩
  | setDelayTap c t lm => exact spells_setDelayTap.mpr ⟨c, t, lm, rfl⟩
  | bitslip m => exact spells_bitslip.mpr ⟨m, rfl⟩
  | chipReset => exact spells_chipReset.mpr rfl
  | powerCycle => exact spells_powerCycle.mpr rfl
  | selectPattern k => exact spells_selectPattern.mpr ⟨k, rfl⟩
  | setCustomPattern n b => exact spells_setCustomPattern.mpr ⟨n, b, rfl⟩
  | initializeChips qs => exact spells_initialize.mpr ⟨_, rfl⟩
  | capture c n => exact spells_capture.mpr ⟨c, n, rfl⟩
  | tapCal c => exact spells_tapCal.mpr ⟨c, rfl⟩
  | syncVerify m => exact spells_syncVerify.mpr ⟨m, rfl⟩
  | calibrate m => exact spells_calibrate.mpr ⟨m, rfl⟩
  | readStatus sel idx => exact spells_readStatus.mpr ⟨sel, idx, rfl⟩
  | setConfig f v => exact spells_setConfig.mpr ⟨f, v, rfl⟩

/-- The fields that a row reads in a command word are those it was made of (rule R101). -/
theorem build_commandWord {i : Instr} (h : ∀ w, i ≠ .illegal w) :
    (opcodeRow i.row).build (commandWord i) (encode i).tail = i := by
  cases i
  case illegal w => exact absurd rfl (h w)
  case initializeChips qs => exact buildInit_encodePairs qs
  case chipReset => rfl
  case powerCycle => rfl
  case' writeReg => show Instr.writeReg _ _ = _
  case' setCsMask => show Instr.setCsMask _ = _
  case' setDelayTap => show Instr.setDelayTap _ _ _ = _
  case' bitslip => show Instr.bitslip _ = _
  case' selectPattern => show Instr.selectPattern _ = _
  case' setCustomPattern => show Instr.setCustomPattern _ _ = _
  case' capture => show Instr.capture _ _ = _
  case' tapCal => show Instr.tapCal _ = _
  case' syncVerify => show Instr.syncVerify _ = _
  case' calibrate => show Instr.calibrate _ = _
  case' readStatus => show Instr.readStatus _ _ = _
  case' setConfig => show Instr.setConfig _ _ = _
  all_goals simp (disch := decide) only [commandWord, encode, List.headD_cons,
    BitVec.extractLsb'_append_eq_of_le, Nat.reduceSub, BitVec.extractLsb'_append_eq_right]

/-- Every word that a row of one-word commands spells is the word of a command (rules R101, R102). -/
theorem exists_command {k : Fin 16} {w : Word} (h0 : k ≠ 0) (h9 : k ≠ 9) (h : Spells k w) :
    ∃ i, WellFormed i ∧ encode i = [w] := by
  fin_cases k
  · exact absurd rfl h0
  · obtain ⟨a, v, rfl⟩ := spells_writeReg.mp h
    exact ⟨.writeReg a v, trivial, rfl⟩
  · obtain ⟨m, rfl⟩ := spells_setCsMask.mp h
    exact ⟨.setCsMask m, trivial, rfl⟩
  · obtain ⟨c, t, lm, rfl⟩ := spells_setDelayTap.mp h
    exact ⟨.setDelayTap c t lm, trivial, rfl⟩
  · obtain ⟨m, rfl⟩ := spells_bitslip.mp h
    exact ⟨.bitslip m, trivial, rfl⟩
  · obtain rfl := spells_chipReset.mp h
    exact ⟨.chipReset, trivial, rfl⟩
  · obtain rfl := spells_powerCycle.mp h
    exact ⟨.powerCycle, trivial, rfl⟩
  · obtain ⟨n, rfl⟩ := spells_selectPattern.mp h
    exact ⟨.selectPattern n, trivial, rfl⟩
  · obtain ⟨n, b, rfl⟩ := spells_setCustomPattern.mp h
    exact ⟨.setCustomPattern n b, trivial, rfl⟩
  · exact absurd rfl h9
  · obtain ⟨c, n, rfl⟩ := spells_capture.mp h
    exact ⟨.capture c n, trivial, rfl⟩
  · obtain ⟨c, rfl⟩ := spells_tapCal.mp h
    exact ⟨.tapCal c, trivial, rfl⟩
  · obtain ⟨m, rfl⟩ := spells_syncVerify.mp h
    exact ⟨.syncVerify m, trivial, rfl⟩
  · obtain ⟨m, rfl⟩ := spells_calibrate.mp h
    exact ⟨.calibrate m, trivial, rfl⟩
  · obtain ⟨sel, idx, rfl⟩ := spells_readStatus.mp h
    exact ⟨.readStatus sel idx, trivial, rfl⟩
  · obtain ⟨f, v, rfl⟩ := spells_setConfig.mp h
    exact ⟨.setConfig f v, trivial, rfl⟩

/-- The words of a command are as many as its command word says (rule R100). -/
theorem encode_length (i : Instr) : Laws.CommandLength.Statement i := by
  cases i with
  | illegal w => exact Laws.CommandLength.illegal w
  | writeReg a v => exact Laws.CommandLength.writeReg a v
  | setCsMask m => exact Laws.CommandLength.setCsMask m
  | setDelayTap c t lm => exact Laws.CommandLength.setDelayTap c t lm
  | bitslip m => exact Laws.CommandLength.bitslip m
  | chipReset => exact Laws.CommandLength.chipReset
  | powerCycle => exact Laws.CommandLength.powerCycle
  | selectPattern k => exact Laws.CommandLength.selectPattern k
  | setCustomPattern n b => exact Laws.CommandLength.setCustomPattern n b
  | initializeChips qs => exact Laws.CommandLength.initializeChips qs
  | capture c n => exact Laws.CommandLength.capture c n
  | tapCal c => exact Laws.CommandLength.tapCal c
  | syncVerify m => exact Laws.CommandLength.syncVerify m
  | calibrate m => exact Laws.CommandLength.calibrate m
  | readStatus sel idx => exact Laws.CommandLength.readStatus sel idx
  | setConfig f v => exact Laws.CommandLength.setConfig f v

/-- A command's words: its command word, then its payload words (rules R100, R112). -/
theorem encode_eq_cons {i : Instr} (h : WellFormed i) :
    encode i = commandWord i :: (encode i).tail ∧
      payloadCount (commandWord i) = (encode i).tail.length := by
  have length := encode_length i h
  unfold commandWord at length ⊢
  cases he : encode i with
  | nil => rw [he, List.length_nil] at length; omega
  | cons w ps =>
    rw [he, List.length_cons] at length
    exact ⟨rfl, by simpa [Nat.add_comm] using length.symm⟩

/-- Settles O1: the row of the command spells its command word, and reads its fields back; an ILLEGAL
is spelled by its own word or by a payload word. -/
theorem decodeInvertsEncode : Obligations.DecodeInvertsEncode := by
  intro i rest hwf
  by_cases hi : ∃ w, i = .illegal w
  case pos =>
    obtain ⟨w, rfl⟩ := hi
    exact decode_encodeIllegal w rest
  case neg =>
    have hi := not_exists.mp hi
    obtain ⟨words, count⟩ := encode_eq_cons hwf
    rw [words, List.cons_append, decode_whole _ _ _ count,
      decodeCommand_of_spells (spells_commandWord hi), build_commandWord hi]

/-- What decodes whole is one command word with its payload words (rules R100, R112). -/
theorem decode_whole_inv {ws : List Word} {i : Instr} (h : decode ws = .ok (i, [])) :
    ∃ w ps, ws = w :: ps ∧ payloadCount w = ps.length ∧ decodeCommand w ps = i := by
  cases ws with
  | nil => cases h
  | cons w ps =>
    rw [decode_cons] at h
    split at h
    case isTrue => cases h
    case isFalse hlen =>
      obtain ⟨hi, hrest⟩ := Prod.mk.inj (Except.ok.inj h)
      have count : payloadCount w = ps.length :=
        Nat.le_antisymm (Nat.not_lt.mp hlen) (List.drop_eq_nil_iff.mp hrest)
      rw [count, List.take_length] at hi
      exact ⟨w, ps, rfl, count, hi⟩

/-- A list of words that decodes whole, to a command that is not ILLEGAL, is spelled by some command
(rules R100, R101, R112). -/
theorem exists_encode_of_decode {ws : List Word} {i : Instr} (hd : decode ws = .ok (i, []))
    (hi : ∀ w, i ≠ .illegal w) : ∃ i', WellFormed i' ∧ encode i' = ws := by
  obtain ⟨w, ps, rfl, count, rfl⟩ : ∃ w ps, ws = w :: ps ∧ payloadCount w = ps.length ∧
      decodeCommand w ps = i := decode_whole_inv hd
  obtain ⟨k, hk⟩ : ∃ k, Spells k w := by
    by_contra unspelled
    exact hi w (decodeCommand_of_not_spells (not_exists.mp unspelled) ps)
  rw [decodeCommand_of_spells hk] at hi
  by_cases h9 : k = 9
  case pos =>
    subst h9
    obtain ⟨n, rfl⟩ := spells_initialize.mp hk
    obtain ⟨qs, rfl⟩ := exists_encodePairs hi
    rw [payloadCount_initialize, List.length_map] at count
    refine ⟨.initializeChips qs, (count ▸ n.isLt : qs.length < 65536), ?_⟩
    rw [encode, ← count, BitVec.ofNat_toNat, BitVec.setWidth_eq]
  case neg =>
    have one : payloadCount w = 0 := payloadCount_of_opcode (by
      rw [opcode_of_spells hk]
      exact fun e => h9 (BitVec.ofFin.inj e))
    obtain rfl : ps = [] := List.eq_nil_of_length_eq_zero (count.symm.trans one)
    refine exists_command (fun h0 => ?_) h9 hk
    subst h0
    exact hi w rfl

/-- Settles O2: some command is spelled by the words, and they decode to that command alone. -/
theorem encodeInvertsDecode : Obligations.EncodeInvertsDecode := by
  intro ws i hd hi
  obtain ⟨i', hwf, rfl⟩ := exists_encode_of_decode hd hi
  have same := decodeInvertsEncode i' [] hwf
  rw [List.append_nil, hd] at same
  cases same
  rfl

/-- Settles O5: the worked encodings are the words of their commands, which decode to them. -/
theorem workedEncodingsDecode : Obligations.WorkedEncodingsDecode := by
  have worked (i : Instr) (h : WellFormed i) : decode (encode i) = .ok (i, []) := by
    rw [← decodeInvertsEncode i [] h, List.append_nil]
  exact ⟨worked (.writeReg 0x25 0x0010) trivial, worked (.setCsMask 0x02) trivial,
    worked (.setDelayTap 3 15 0xFF) trivial, worked (.bitslip 0x01) trivial,
    worked .chipReset trivial, worked .powerCycle trivial, worked (.selectPattern 1) trivial,
    worked (.setCustomPattern 1 0x55) trivial,
    worked (.initializeChips [⟨0x31, 0x0001⟩, ⟨0x57, 0x1234⟩]) (by decide : 2 < 65536),
    worked (.capture 0 1024) trivial, worked (.tapCal 2) trivial, worked (.syncVerify 0x03) trivial,
    worked (.calibrate 0xFF) trivial, worked (.readStatus 4 3) trivial,
    worked (.setConfig 2 1) trivial⟩

end Sys2Proof

/-! SUPPORT. Commands at the port: what a step does with them (rules R112, R288, R300, R310). -/

namespace Sys2Proof.Machine

open Sys2Proof.Safety

/-- Settles O7, by the round trip of the encoding. -/
theorem presentedCommandRuns : Obligations.PresentedCommandRuns := by
  intro s i hI hf hwf
  exact (step_of_command (s := { s with port := encode i ++ s.port }) hI
    (nextCommand_ok (decodeInvertsEncode i s.port hwf))).trans (if_pos hf)

/-- Settles O8. -/
theorem stepWaitsForAWholeCommand : Obligations.StepWaitsForAWholeCommand := by
  intro s e hI hd
  exact step_of_no_command hI (by rw [State.nextCommand, hd])

/-! ## Aborts before any event -/

theorem raise_aborted (e : ErrCode) (info : Word) (s : State) : Aborted (s.raise e info) e info :=
  ⟨rfl, rfl, rfl, rfl⟩

theorem raise_keepsRegisters (e : ErrCode) (info : Word) (s : State) :
    KeepsRegisters s (s.raise e info) :=
  ⟨⟨rfl, rfl, rfl⟩, rfl, rfl⟩

theorem raise_noEvents (e : ErrCode) (info : Word) (s : State) : NoEvents s (s.raise e info) :=
  ⟨rfl, rfl, rfl, rfl, rfl⟩

/-- A command that raises at once aborts with no event and no register changed (rules R117, R289). -/
theorem aborts_of_raise {i : Instr} {s : State} {e : ErrCode} {info : Word}
    (h : exec i s = .next (s.raise e info)) :
    ∃ t, exec i s = .next t ∧ Aborted t e info ∧ KeepsRegisters s t ∧ NoEvents s t :=
  ⟨_, h, raise_aborted e info s, raise_keepsRegisters e info s, raise_noEvents e info s⟩

theorem execIllegal_eq (word : Word) (s : State) :
    exec (.illegal word) s = .next (s.raise .illegalCommand word) := rfl

/-- Settles O18. -/
theorem illegalCommandAborts : Obligations.IllegalCommandAborts :=
  fun word s => aborts_of_raise (execIllegal_eq word s)

/-- Settles O19: the step runs the ILLEGAL of the first illegal payload word. -/
theorem illegalPayloadWordAborts : Obligations.IllegalPayloadWordAborts := by
  intro s n before after rest bad hI hf hlen hbefore hbad hport
  have decoded : decode s.port = .ok (.illegal bad, rest) := by
    rw [hport, decode_whole _ _ _ ((payloadCount_initialize n).trans hlen.symm),
      decodeCommand_initialize, buildInit_bad hbefore hbad]
  obtain ⟨t, ht, aborted, kept, silent⟩ := illegalCommandAborts bad (s.setPort rest)
  refine ⟨t, ?_, aborted, ⟨silent.trace, silent.board, silent.programmed, silent.word0,
    silent.captures⟩, kept.port, kept.ctl, kept.tables⟩
  rw [step_of_command hI (nextCommand_ok decoded), if_pos hf, ht]

/-! ## Values outside their ranges -/

theorem execSelectPattern_illegal {kind : BitVec 4} (h : 3 < kind.toNat) (s : State) :
    exec (.selectPattern kind) s =
      .next (s.raise .illegalCommand (commandWord (.selectPattern kind))) := by
  have noKind : patternKind kind = none := by
    unfold patternKind
    split
    case h_5 => rfl
    all_goals omega
  simp only [exec, execSelectPattern, noKind]

theorem execSetCustomPattern_illegal {slot : BitVec 4} {s : State}
    (h : s.inst.ncustom ≤ slot.toNat) (byte : Byte) :
    exec (.setCustomPattern slot byte) s =
      .next (s.raise .illegalCommand (commandWord (.setCustomPattern slot byte))) := by
  have illegal : ¬ slotLegal s.inst slot := Nat.not_lt.mpr h
  simp only [exec, execSetCustomPattern, if_neg illegal]

theorem execCapture_illegal {len : Half} {s : State} (h : ¬ lenLegal s.inst len)
    (chip : BitVec 3) : exec (.capture chip len) s =
      .next (s.raise .illegalCommand (commandWord (.capture chip len))) := by
  simp only [exec, execCapture, if_neg h]

theorem execReadStatus_illegal {sel idx : Byte} {s : State} (h : inMap s.inst sel idx = false) :
    exec (.readStatus sel idx) s =
      .next (s.raise .illegalCommand (commandWord (.readStatus sel idx))) := by
  simp only [exec, execReadStatus, h, Bool.false_eq_true, if_false]

theorem execSetConfig_illegal {field : BitVec 4} {value : Half} {s : State}
    (h : configLegal s.inst field value = false) : exec (.setConfig field value) s =
      .next (s.raise .illegalCommand (commandWord (.setConfig field value))) := by
  simp only [exec, execSetConfig, h, Bool.false_eq_true, if_false]

/-- The pairs outside the list of rule R261 are outside the register map. -/
theorem inMap_eq_false {I : Instance} {sel idx : Byte}
    (h : (sel = 0 ∧ 1 < idx.toNat) ∨ (sel ∈ ([1, 3, 8, 9] : List Byte) ∧ idx ≠ 0) ∨
      (sel ∈ ([2, 7] : List Byte) ∧ 3 < idx.toNat) ∨
      (sel ∈ ([4, 5] : List Byte) ∧ 8 * I.nchips ≤ idx.toNat) ∨ 10 ≤ sel.toNat) :
    inMap I sel idx = false := by
  rcases h with ⟨rfl, hidx⟩ | ⟨hsel, hidx⟩ | ⟨hsel, hidx⟩ | ⟨hsel, hidx⟩ | hsel
  · exact decide_eq_false (Nat.not_le.mpr hidx)
  · have nonzero : decide (idx.toNat = 0) = false :=
      decide_eq_false fun e => hidx (BitVec.eq_of_toNat_eq e)
    simp only [List.mem_cons, List.not_mem_nil, or_false] at hsel
    rcases hsel with rfl | rfl | rfl | rfl <;> exact nonzero
  · simp only [List.mem_cons, List.not_mem_nil, or_false] at hsel
    rcases hsel with rfl | rfl <;> exact decide_eq_false (Nat.not_le.mpr hidx)
  · simp only [List.mem_cons, List.not_mem_nil, or_false] at hsel
    rcases hsel with rfl | rfl <;> exact decide_eq_false (Nat.not_lt.mpr hidx)
  · unfold inMap
    split
    case h_11 => rfl
    all_goals omega

/-- The values outside the ranges of rule R265 are not legal. -/
theorem configLegal_eq_false {I : Instance} {field : BitVec 4} {value : Half}
    (h : (field.toNat ≤ 1 ∧ 0xFF < value.toNat) ∨ (field = 2 ∧ value = 0) ∨
      (field = 3 ∧ (value.toNat < 2 ∨ I.snapDepth < value.toNat)) ∨ 3 < field.toNat) :
    configLegal I field value = false := by
  rcases h with ⟨hf, hv⟩ | ⟨rfl, rfl⟩ | ⟨rfl, hv⟩ | hf
  · have wide : decide (value.toNat ≤ 0xFF) = false := decide_eq_false (Nat.not_le.mpr hv)
    unfold configLegal
    split
    case h_1 => exact wide
    case h_2 => exact wide
    case h_5 => rfl
    all_goals omega
  · rfl
  · exact decide_eq_false (by omega)
  · unfold configLegal
    split
    case h_5 => rfl
    all_goals omega

/-- Settles O20: each of the five commands checks its value first, and raises. -/
theorem illegalValuesAbort : Obligations.IllegalValuesAbort := by
  intro s
  refine ⟨?kind, ?slot, ?len, ?pair, ?config⟩
  case kind => exact fun kind h => aborts_of_raise (execSelectPattern_illegal h s)
  case slot => exact fun slot byte h => aborts_of_raise (execSetCustomPattern_illegal h byte)
  case len =>
    intro chip len h
    refine aborts_of_raise (execCapture_illegal ?_ chip)
    rintro ⟨nonzero, deep⟩
    rcases h with rfl | h
    · exact nonzero rfl
    · exact Nat.not_lt.mpr deep h
  case pair => exact fun sel idx h => aborts_of_raise (execReadStatus_illegal (inMap_eq_false h))
  case config =>
    exact fun field value h => aborts_of_raise (execSetConfig_illegal (configLegal_eq_false h))

/-! ## Chips that the board does not have -/

theorem exec_invalidMask {s : State} {mask : Byte} (h : ¬ maskValid s.inst mask) :
    ∀ i ∈ [Instr.setCsMask mask, .bitslip mask, .syncVerify mask, .calibrate mask],
      exec i s = .next (s.raise .invalidChipSpecifier (mask.setWidth 32)) := by
  intro i hi
  simp only [List.mem_cons, List.not_mem_nil, or_false] at hi
  rcases hi with rfl | rfl | rfl | rfl
  · simp only [exec, execSetCsMask, if_neg h]
    rfl
  · simp only [exec, execBitslip, if_neg h]
  · simp only [exec, execSyncVerify, if_neg h]
  · simp only [exec, execCalibrate, if_neg h]

/-- Settles O21: the mask is not valid, and each of the four commands checks it first. -/
theorem invalidMaskAborts : Obligations.InvalidMaskAborts := by
  intro s mask c hc hbit i hi
  have invalid : ¬ maskValid s.inst mask := by
    rw [maskValid_iff _ _ (hc.trans c.isLt.le)]
    exact fun h => Bool.false_ne_true ((h c.val hc).symm.trans hbit)
  rw [← setWidth_eq_zeros_append 24 mask]
  exact aborts_of_raise (exec_invalidMask invalid i hi)

/-- Settles O22: each of the three commands checks its chip before any event, CAPTURE its length before
that. -/
theorem invalidChipAborts : Obligations.InvalidChipAborts := by
  intro s chip hc
  have invalid : ¬ chipValid s.inst chip := Nat.not_lt.mpr hc
  rw [← setWidth_eq_zeros_append 29 chip]
  refine ⟨fun tap lm => aborts_of_raise ?delayTap, aborts_of_raise ?tapCal,
    fun len h1 hlen => aborts_of_raise ?capture⟩
  case delayTap => simp only [exec, execSetDelayTap, if_neg invalid]
  case tapCal => simp only [exec, execTapCal, if_neg invalid]
  case capture =>
    have legal : lenLegal s.inst len := ⟨Nat.one_le_iff_ne_zero.mp h1, hlen⟩
    simp only [exec, execCapture, if_pos legal, if_neg invalid]

end Sys2Proof.Machine

/-! SUPPORT. SELECT_PATTERN (rules R108, R154). -/

namespace Sys2Proof.Machine

/-- SELECT_PATTERN of a kind that has a pattern (rule R154). -/
theorem execSelectPattern_eq {kind : BitVec 4} {k : PatternKind} (h : patternKind kind = some k)
    (s : State) : exec (.selectPattern kind) s =
      .next (((s.setFsm .exec).writeRegisters (patternWrites s.inst.chipRegs k)).complete .none) := by
  simp only [exec, execSelectPattern, h]
  rfl

/-- Settles O29: the writes of the kind are sent, with the outcome of a list of transactions. -/
theorem selectPatternSendsTheKindsWrites : Obligations.SelectPatternSendsTheKindsWrites := by
  intro s kind ps hI hkind
  obtain ⟨k, named, writes⟩ :
      ∃ k, patternKind kind = some k ∧ patternWrites s.inst.chipRegs k = ps := by
    rcases hkind with ⟨rfl, rfl⟩ | ⟨rfl, rfl⟩ | ⟨rfl, rfl⟩ | ⟨rfl, rfl⟩
    · exact ⟨.normal, rfl, rfl⟩
    · exact ⟨.deskew, rfl, rfl⟩
    · exact ⟨.sync, rfl, rfl⟩
    · exact ⟨.custom, rfl, rfl⟩
  refine ⟨_, execSelectPattern_eq named s, ⟨rfl, rfl, rfl, rfl⟩, ?_, ?_⟩
  · rw [writes]
    exact writeRegisters_serialOutcome ps hI
  · exact (congrArg Env.programmed (writeRegisters_onlyBus _ (s.setFsm .exec)).env :)

end Sys2Proof.Machine

/-! SUPPORT. Chip specifiers (rule R121). -/

namespace Sys2Proof.Machine

/-- The digit, the letters and the symbolic names of a chip stand for its number (rule R121). -/
theorem specifierNumber_form (c : ChipId) :
    ∀ f ∈ [[Char.ofNat (48 + c.val)], [Char.ofNat (97 + c.val)], [Char.ofNat (65 + c.val)],
        [':', Char.ofNat (97 + c.val)], [':', Char.ofNat (65 + c.val)]],
      specifierNumber f = some c.val := by
  revert c
  decide

/-- The ChipId of a specifier, by its number (rule R121). -/
theorem canonicalize_of_number {f : List Char} {c : ChipId} (h : specifierNumber f = some c.val)
    (nchips : Nat) : canonicalize nchips f =
      if c.val < nchips then .ok c else .error .invalidChipSpecifier := by
  simp only [canonicalize, h, dif_pos c.isLt]

/-- Settles O60: all forms of a chip stand for its number, and only the number decides. -/
theorem canonicalizeAgreesOnAllForms : Obligations.CanonicalizeAgreesOnAllForms :=
  fun nchips c f hf => canonicalize_of_number (specifierNumber_form c f hf) nchips

end Sys2Proof.Machine

/-! SUPPORT. WRITE_REG's transaction: its outcome, and the fields of its 50 frames (rules R130 to R136). -/

namespace Sys2Proof.Machine

/-- Settles O23: WRITE_REG is a list of one register write. -/
theorem writeRegSendsOneTransaction : Obligations.WriteRegSendsOneTransaction := by
  intro addr value s hI
  exact ⟨_, execWriteReg_eq addr value s, ⟨rfl, rfl, rfl, rfl⟩,
    writeRegisters_serialOutcome [⟨addr, value⟩] hI,
    (congrArg Env.programmed (writeRegister_onlyBus addr value (s.setFsm .exec)).env :)⟩

/-! ## The words of a transaction, by position -/

/-- In a list made of two entries for each element, entry `2 * j + h` is number `h` of the two for
element `j`. -/
theorem flatMap_pair_getElem? {α β : Type} (f : Bool → α → β) {h : Nat} (hh : h < 2) (l : List α)
    (j : Nat) : (l.flatMap (fun x => [f false x, f true x]))[2 * j + h]? =
      l[j]?.map (f (decide (h = 1))) := by
  induction l generalizing j with
  | nil => rfl
  | cons x l ih =>
    cases j with
    | zero =>
      obtain rfl | rfl : h = 0 ∨ h = 1 := by omega
      · rfl
      · rfl
    | succ j =>
      rw [show 2 * (j + 1) + h = 2 * j + h + 2 by omega]
      exact ih j

section

variable (I : Instance) (m a : Byte) (v : Half)

/-- One of the two frames of bit `j`: with the clock low, or high (rule R132). -/
def bitFrame (clock : Bool) (j : Nat) : Word :=
  frame I.layout clock (serialBit a v j) (csActive I m)

theorem serialWords_eq_bitFrames : serialWords I m a v = idleFrame I ::
    (((List.range 24).flatMap fun j => [bitFrame I m a v false j, bitFrame I m a v true j])
      ++ [idleFrame I]) := rfl

/-- A transaction begins and ends with the idle frame (rule R132). -/
theorem serialWords_idle : ∀ k ∈ [0, 49], (serialWords I m a v).getD k 0 = idleFrame I := by
  intro k hk
  obtain rfl | rfl : k = 0 ∨ k = 49 := by simpa using hk
  · rfl
  · rfl

/-- The two frames of bit `j`, clock low and then high, follow the opening idle frame and the frames
of the bits before it (rules R132, R133). -/
theorem serialWords_bit {j h : Nat} (hj : j < 24) (hh : h < 2) :
    (serialWords I m a v).getD (1 + 2 * j + h) 0 = bitFrame I m a v (decide (h = 1)) j := by
  have inBits : 2 * j + h < ((List.range 24).flatMap fun i =>
      [bitFrame I m a v false i, bitFrame I m a v true i]).length :=
    lt_of_lt_of_eq (b := 48) (by omega) rfl
  rw [serialWords_eq_bitFrames, show 1 + 2 * j + h = 2 * j + h + 1 by omega,
    List.getD_eq_getElem?_getD, List.getElem?_cons_succ, List.getElem?_append_left inBits,
    flatMap_pair_getElem? (bitFrame I m a v) hh, List.getElem?_range hj]
  rfl

end

/-! ## The fields of a frame -/

/-- The select lines of a transaction are those of chips of the board (rule R130). -/
theorem csActive_absent {I : Instance} {m : Byte} (hI : InstanceOk I) (hm : maskValid I m)
    (i : Nat) (hi : I.nchips ≤ i) : (csActive I m).getLsbD i = false := by
  have h8 : I.nchips ≤ 8 := (nchips_le I hI).2
  unfold csActive
  cases I.layout.csPolarity with
  | activeLow => simp [onesMask_getLsbD _ _ h8, Nat.not_lt.mpr hi]
  | activeHigh => exact (maskValid_iff I m h8).mp hm i hi

/-- Settles O25: the first and the last word are the idle frame, and the two frames of each bit carry
the clock, the bit and the select lines. -/
theorem writeRegFramesCarryTheBits : Obligations.WriteRegFramesCarryTheBits := by
  intro addr value s t hI hm he
  rw [execWriteReg_eq, Host.Outcome.next.injEq] at he
  subst he
  refine ⟨serialWords s.inst s.ctl.csMask addr value, serialWords_length .., ?events, ?idle, ?bits⟩
  case events =>
    rw [complete_events, State.writeRegister_events]
    rfl
  case idle =>
    intro k hk
    rw [serialWords_idle s.inst s.ctl.csMask addr value k hk]
    exact idleFrame_bits s.inst hI
  case bits =>
    intro j hj h hh
    rw [serialWords_bit s.inst s.ctl.csMask addr value hj hh]
    obtain ⟨clock, data, -⟩ := frame_bits s.inst hI (decide (h = 1)) (serialBit addr value j) _
      (csActive_absent hI hm)
    exact ⟨clock, data, frame_selects s.inst hI _ _ s.ctl.csMask hm⟩

end Sys2Proof.Machine

/-! SUPPORT. SET_CS_MASK (rules R105, R140). -/

namespace Sys2Proof.Machine

open Sys2Proof.Safety

/-- Bit `i` of `ones(n)` as a byte: also for `n` above 8, where no well-formedness bounds it
(rule R8). -/
theorem onesMask_bit (n : Nat) {i : Nat} (hi : i < 8) : (onesMask n).getLsbD i = decide (i < n) := by
  rw [onesMask, BitVec.getLsbD_ofNat, Nat.testBit_two_pow_sub_one, decide_eq_true hi, Bool.true_and]

/-- A mask that names only chips of the board is valid (rule R105). -/
theorem maskValid_of_present {I : Instance} {mask : Byte}
    (h : ∀ c : ChipId, mask.getLsbD c.val = true → c.val < I.nchips) : maskValid I mask := by
  refine BitVec.eq_of_getLsbD_eq fun i hi => ?_
  have present : mask.getLsbD i = true → i < I.nchips := h ⟨i, hi⟩
  rw [BitVec.getLsbD_and, BitVec.getLsbD_not, onesMask_bit _ hi]
  cases hb : mask.getLsbD i with
  | false => simp
  | true => simp [hi, present hb]

theorem execSetCsMask_valid {s : State} {mask : Byte} (hm : maskValid s.inst mask) :
    exec (.setCsMask mask) s =
      .next (((s.setFsm .exec).mapCtl (fun c => { c with csMask := mask })).complete .none) := by
  simp only [exec, execSetCsMask, if_pos hm]

/-- Settles O26: the mask is valid, and only CS_MASK is written. -/
theorem setCsMaskWritesTheMask : Obligations.SetCsMaskWritesTheMask := by
  intro mask s h
  exact ⟨_, execSetCsMask_valid (maskValid_of_present h), ⟨rfl, rfl, rfl, rfl⟩, ⟨rfl, rfl, rfl⟩,
    rfl, rfl, ⟨rfl, rfl, rfl, rfl, rfl⟩⟩

end Sys2Proof.Machine

/-! SUPPORT. The commands that reset or power-cycle the chips: CHIP_RESET, POWER_CYCLE and INITIALIZE
(rules R150, R152, R160, R161, R331). -/

namespace Sys2Proof.Machine

open Sys2Proof.Safety

/-! ## What a list of transactions leaves in the chips -/

theorem writeRegisters_append (ps qs : List RegWrite) (s : State) :
    s.writeRegisters (ps ++ qs) = (s.writeRegisters ps).writeRegisters qs :=
  List.foldl_append

/-- A command that sends register writes and completes uses up no IsProgrammed answer (rule R132). -/
theorem writeRegisters_complete_programmed (ps : List RegWrite) (s : State) (d : ResponseData) :
    ((s.writeRegisters ps).complete d).env.programmed = s.env.programmed :=
  (congrArg Env.programmed (writeRegisters_onlyBus ps s).env :)

/-- Chip `c`, if the board has it, is in no malformed selection, which the next transaction would end
(rule R81, I12). -/
def SelectionSound (c : ChipId) (s : State) : Prop :=
  c.val < s.inst.nchips →
    s.board.receivers[c].endsMalformed s.inst.layout (s.board.held 0) c = false

/-- A transaction leaves every chip de-selected (rules R81, R131). -/
theorem writeRegister_selectionSound (a : Byte) (v : Half) {s : State} (hI : InstanceOk s.inst)
    (hm : maskValid s.inst s.ctl.csMask) (c : ChipId) : SelectionSound c (s.writeRegister a v) :=
  fun hc => Receiver.endsMalformed_of_deselected (writeRegister_atRest a v hI hm c hc).1

/-- A transaction does not reach a chip outside CS_MASK (rules R81, R134). -/
theorem writeRegister_unselected (a : Byte) (v : Half) {s : State} (hI : InstanceOk s.inst)
    (hm : maskValid s.inst s.ctl.csMask) {c : ChipId} (hsel : s.ctl.csMask.getLsbD c.val = false)
    (hs : SelectionSound c s) (r : Byte) :
    (s.writeRegister a v).board.chipReg c r = s.board.chipReg c r := by
  by_cases hc : c.val < s.inst.nchips
  case pos =>
    obtain ⟨regs, u, hregs, hu, w⟩ := writeRegister_regWritten a v s hI hm c hc
    rw [hs hc, if_neg Bool.false_ne_true] at hregs hu
    have noUpset : (s.ctl.csMask.getLsbD c.val && chipUpset s.inst.chipRegs ⟨a, v⟩) = false := by
      rw [hsel, Bool.false_and]
    rw [w.kept noUpset r (.inl hsel), hregs, hu, ← chipReg_eq_regHeld]
  case neg =>
    obtain ⟨-, hregs, hu⟩ := writeRegister_absent a v s c (Nat.not_lt.mp hc)
    rw [chipReg_eq_regHeld, hregs, hu, ← chipReg_eq_regHeld]

/-- A list of transactions does not reach a chip outside CS_MASK (rules R81, R134). -/
theorem writeRegisters_unselected (ps : List RegWrite) {s : State} (hI : InstanceOk s.inst)
    (hm : maskValid s.inst s.ctl.csMask) {c : ChipId} (hsel : s.ctl.csMask.getLsbD c.val = false)
    (hs : SelectionSound c s) (r : Byte) :
    (s.writeRegisters ps).board.chipReg c r = s.board.chipReg c r := by
  induction ps generalizing s with
  | nil => rw [writeRegisters_nil]
  | cons p ps ih =>
    rw [writeRegisters_cons]
    have rest : ((s.writeRegister p.addr p.value).writeRegisters ps).board.chipReg c r =
        (s.writeRegister p.addr p.value).board.chipReg c r := by
      apply ih
      · rwa [State.writeRegister_inst]
      · rwa [State.writeRegister_inst, State.writeRegister_ctl]
      · rwa [State.writeRegister_ctl]
      · exact writeRegister_selectionSound p.addr p.value hI hm c
    exact rest.trans (writeRegister_unselected p.addr p.value hI hm hsel hs r)

theorem leavesOnly_complete (d : ResponseData) {p : RegWrite} {s t : State}
    (h : LeavesOnly p s t) : LeavesOnly p s (t.complete d) := by
  unfold LeavesOnly
  rw [complete_board]
  exact h

/-- A list of transactions whose last one resets or power-cycles the chips leaves only that one's
value: the last transaction decides in the chips of CS_MASK, and none reaches the others (rules R81,
R331, I13; log 12). -/
theorem writeRegisters_leavesOnly {ps : List RegWrite} {p : RegWrite} {s : State}
    (hI : InstanceOk s.inst) (hm : maskValid s.inst s.ctl.csMask) (hlast : ps.getLast? = some p)
    (hp : chipUpset s.inst.chipRegs p = true) : LeavesOnly p s (s.writeRegisters ps) := by
  obtain ⟨init, rfl⟩ := List.getLast?_eq_some_iff.mp hlast
  refine fun c => ⟨?selected, fun hsel hs => writeRegisters_unselected _ hI hm hsel (fun _ => hs)⟩
  case selected =>
    intro hsel
    have present : c.val < s.inst.nchips := by
      by_contra absent
      have clear := (maskValid_iff _ _ (nchips_le _ hI).2).mp hm c.val (Nat.not_lt.mp absent)
      exact Bool.false_ne_true (clear.symm.trans hsel)
    have bus := writeRegisters_onlyBus init s
    obtain ⟨regs, u, -, -, w⟩ := writeRegister_regWritten p.addr p.value (s.writeRegisters init)
      (by rwa [bus.inst]) (by rwa [bus.inst, bus.ctl]) c (by rwa [bus.inst])
    rw [writeRegisters_append, writeRegisters_cons, writeRegisters_nil]
    exact ⟨(w.stored (by rwa [bus.ctl])).1,
      w.upset (by rw [bus.ctl, bus.inst, hsel, Bool.true_and]; exact hp)⟩

/-! ## CHIP_RESET -/

theorem chipUpset_of_resetWrite {R : ChipRegs} {p : RegWrite} (h : p ∈ R.resetWrites) :
    chipUpset R p = true :=
  decide_eq_true (.inl h)

theorem execChipReset_eq (s : State) : exec .chipReset s =
    .next (((s.setFsm .exec).writeRegisters s.inst.chipRegs.resetWrites).complete .none) := rfl

/-- Settles O27: every reset write resets the chip that takes it, the last one too. -/
theorem chipResetSendsTheResetWrites : Obligations.ChipResetSendsTheResetWrites := by
  intro s hI
  refine ⟨_, execChipReset_eq s, ⟨rfl, rfl, rfl, rfl⟩, writeRegisters_serialOutcome _ hI,
    writeRegisters_complete_programmed _ _ _, ?_⟩
  intro hm p hp
  exact leavesOnly_complete .none (writeRegisters_leavesOnly (s := s.setFsm .exec) hI hm hp
    (chipUpset_of_resetWrite (List.mem_of_getLast? hp)))

/-! ## POWER_CYCLE -/

/-- The register write that takes the power-down value (rule R152). -/
abbrev powerDown (R : ChipRegs) : RegWrite := ⟨R.powerReg, R.powerDownValue⟩

/-- The register write that takes the power-up value (rule R152). -/
abbrev powerUp (R : ChipRegs) : RegWrite := ⟨R.powerReg, R.powerUpValue⟩

theorem chipUpset_powerUp (R : ChipRegs) : chipUpset R (powerUp R) = true :=
  decide_eq_true (.inr ⟨rfl, .inr rfl⟩)

theorem powerCycle_eq_writeRegisters (s : State) :
    s.powerCycle = s.writeRegisters [powerDown s.inst.chipRegs, powerUp s.inst.chipRegs] := by
  rw [writeRegisters_cons, writeRegisters_cons, writeRegisters_nil, State.powerCycle]

theorem execPowerCycle_eq (s : State) : exec .powerCycle s =
    .next (((s.setFsm .exec).writeRegisters
      [powerDown s.inst.chipRegs, powerUp s.inst.chipRegs]).complete .none) := by
  rw [exec, execPowerCycle, powerCycle_eq_writeRegisters, State.setFsm_inst]

/-- Settles O28: the power-up write, which comes last, ends a power cycle. -/
theorem powerCycleSendsDownThenUp : Obligations.PowerCycleSendsDownThenUp := by
  intro s hI
  refine ⟨_, execPowerCycle_eq s, ⟨rfl, rfl, rfl, rfl⟩, writeRegisters_serialOutcome _ hI,
    writeRegisters_complete_programmed _ _ _, ?_⟩
  exact fun hm => leavesOnly_complete .none
    (writeRegisters_leavesOnly (s := s.setFsm .exec) hI hm rfl (chipUpset_powerUp _))

/-! ## INITIALIZE -/

/-- The state of an INITIALIZE after its query (rule R160). -/
abbrev queried (s : State) : State := (s.setFsm .exec).askProgrammed

theorem queried_events (s : State) : (queried s).events = s.events ++ [.isProgrammed] := by
  rw [queried, State.askProgrammed, State.mapEnv_events, State.emit_events, State.setFsm_events]

/-- The register writes of an INITIALIZE that keeps the overrides `kept` (rule R160). -/
def initializeWrites (R : ChipRegs) (kept : List RegWrite) : List RegWrite :=
  R.resetWrites ++ kept ++ [powerDown R, powerUp R]

theorem initializeWrites_getLast? (R : ChipRegs) (kept : List RegWrite) :
    (initializeWrites R kept).getLast? = some (powerUp R) := by
  rw [initializeWrites, List.getLast?_append]
  rfl

/-- A chip reset, the overrides and a power cycle are one list of transactions (rule R160). -/
theorem writeRegisters_initializeWrites (kept : List RegWrite) (s : State) :
    s.writeRegisters (initializeWrites s.inst.chipRegs kept) =
      (s.chipReset.writeRegisters kept).powerCycle := by
  rw [powerCycle_eq_writeRegisters, State.writeRegisters_inst, State.chipReset_inst,
    State.chipReset, initializeWrites, writeRegisters_append, writeRegisters_append]

theorem execInitialize_programmed {s : State} (h : s.nextProgrammed = true)
    (overrides : List RegWrite) : exec (.initializeChips overrides) s =
      .next (((queried s).writeRegisters
        (initializeWrites s.inst.chipRegs (overrides.filter overrideKept))).complete .none) := by
  have writes := writeRegisters_initializeWrites (overrides.filter overrideKept) (queried s)
  simp only [exec, execInitialize, if_pos h]
  rw [← writes]
  rfl

theorem execInitialize_unprogrammed {s : State} (h : s.nextProgrammed = false)
    (overrides : List RegWrite) : exec (.initializeChips overrides) s =
      .next ((queried s).raise .notProgrammed 0) := by
  simp only [exec, execInitialize, h, Bool.false_eq_true, if_false]

/-- The outcome of a list of transactions after the query, seen from before the query: one more event
(rule R160). -/
theorem serialOutcome_of_queried {ps : List RegWrite} {s t : State}
    (h : SerialOutcome [] ps (queried s) t) : SerialOutcome [.isProgrammed] ps s t where
  inst := h.inst
  port := h.port
  warnSec := h.warnSec
  ctl := h.ctl
  tables := h.tables
  events := by
    rw [h.events, List.append_nil, queried_events]
    rfl
  words := h.words
  word0 := h.word0
  taps := h.taps
  slips := h.slips
  word0Answers := h.word0Answers
  captures := h.captures

/-- Settles O31: the query, and one list of transactions that the power-up write ends. -/
theorem initializeSendsTheOverrides : Obligations.InitializeSendsTheOverrides := by
  intro s overrides hI hprog
  refine ⟨_, execInitialize_programmed hprog overrides, ⟨rfl, rfl, rfl, rfl⟩,
    serialOutcome_of_queried (writeRegisters_serialOutcome (s := queried s) _ hI),
    writeRegisters_complete_programmed _ _ _, ?_⟩
  exact fun hm => leavesOnly_complete .none
    (writeRegisters_leavesOnly (s := queried s) hI hm (initializeWrites_getLast? _ _)
      (chipUpset_powerUp _))

/-- Settles O32: the raise that follows the query writes nothing. -/
theorem initializeNeedsAProgrammedFpga : Obligations.InitializeNeedsAProgrammedFpga := by
  intro s overrides hprog
  refine ⟨_, execInitialize_unprogrammed hprog overrides, raise_aborted _ _ _,
    ⟨⟨rfl, rfl, rfl⟩, rfl, rfl⟩, rfl, ?_⟩
  rw [raise_events, queried_events]

end Sys2Proof.Machine

/-! SUPPORT. SET_DELAY_TAP's words: the tap word stays in word 1, and the strobe words end at 0
(rules R106, R171, R172, R175). -/

namespace Sys2Proof.Machine

open Sys2Proof.Safety

/-- Masking the operand to 5 bits is taking the tap modulo 32 (rules R106, R171). -/
theorem tapWord_eq (L : Layout) (tap : Byte) :
    tapWord L tap = BitVec.ofNat 32 (tap.toNat % 32) <<< L.tapLsb := by
  have masked : (tap &&& 0x1F).toNat = tap.toNat % 32 := Nat.and_two_pow_sub_one_eq_mod tap.toNat 5
  rw [tapWord, ← masked, BitVec.ofNat_toNat]

theorem setDelayTap_read_one (c : ChipId) (tap lm : Byte) {s : State} (hI : InstanceOk s.inst) :
    (s.setDelayTap c tap lm).board.rwi.read 1 = some (tapWord s.inst.layout tap) := by
  obtain ⟨-, -, strobes⟩ := strobeWordsOk_of _ hI
  rw [setDelayTap_read, if_neg fun h => (strobes 1 h).2 rfl, if_pos rfl]

theorem setDelayTap_read_strobe (c : ChipId) (tap lm : Byte) {s : State} {w : Nat}
    (hw : w ∈ s.inst.layout.strobeWords) :
    (s.setDelayTap c tap lm).board.rwi.read w = some 0 := by
  rw [setDelayTap_read, if_pos hw]

theorem setDelayTap_keepsWords (c : ChipId) (tap lm : Byte) (s : State) :
    KeepsWords (1 :: s.inst.layout.strobeWords) s (s.setDelayTap c tap lm) := by
  intro w hw
  obtain ⟨h1, hstrobe⟩ := List.ne_and_not_mem_of_not_mem_cons hw
  rw [setDelayTap_read, if_neg hstrobe, if_neg h1]

/-- The state in which SET_DELAY_TAP starts its writes (rule R175). -/
def delaying (chip : BitVec 3) (s : State) : State :=
  (s.setFsm .exec).mapWork (fun w => { w with curChip := chip })

theorem execSetDelayTap_valid {s : State} {chip : BitVec 3} (hc : chipValid s.inst chip)
    (tap lm : Byte) : exec (.setDelayTap chip tap lm) s =
      .next (((delaying chip s).setDelayTap (chipOfBits chip) tap lm).complete .none) := by
  simp only [exec, execSetDelayTap, if_pos hc]
  rfl

/-- Settles O33: the command is one SetDelayTap, and its end changes neither the board nor the
registers. -/
theorem setDelayTapStrobesTheTap : Obligations.SetDelayTapStrobesTheTap := by
  intro s chip tap lm hI hc
  have bus := setDelayTap_onlyBus (chipOfBits chip) tap lm (delaying chip s)
  have events := setDelayTap_delayTapEvents (chipOfBits chip) tap lm (delaying chip s)
  have word1 := setDelayTap_read_one (s := delaying chip s) (chipOfBits chip) tap lm hI
  obtain ⟨receivers, ⟨sentRegs, upsets⟩, slips⟩ :=
    setDelayTap_devices (chipOfBits chip) tap lm (delaying chip s) hI
  refine ⟨_, execSetDelayTap_valid hc tap lm, ⟨rfl, rfl, rfl, rfl⟩,
    ⟨⟨bus.inst, bus.port, (congrArg Status.warnSec bus.status :)⟩, bus.ctl, bus.tables⟩,
    ⟨(congrArg Env.programmed bus.env :), (congrArg Env.word0 bus.env :),
      (congrArg Env.captures bus.env :)⟩,
    ⟨receivers, sentRegs, upsets⟩, slips, events,
    setDelayTap_keepsWords (chipOfBits chip) tap lm (delaying chip s), ?word1,
    fun w hw => setDelayTap_read_strobe (s := delaying chip s) (chipOfBits chip) tap lm hw⟩
  case word1 =>
    rw [← tapWord_eq]
    exact word1

end Sys2Proof.Machine

/-! SUPPORT. Snapshots and error counts: what a capture answers, a failed CAPTURE, and the size of a count
(rules R190 to R200). -/

namespace Sys2Proof.Machine

open Sys2Proof.Safety

/-- Settles O39: the comparison is of the signed forms, and these are equal for equal bytes alone. -/
theorem signedComparisonIsByteEquality : Obligations.SignedComparisonIsByteEquality := by
  intro b x
  rw [sampleMatches, decide_eq_true_eq]
  exact ⟨sext8_injective, congrArg sext8⟩

/-- Settles O38: every answer is a full capture, and the script's own where that is whole. -/
theorem capturesAreNeverShort : Obligations.CapturesAreNeverShort := by
  intro s c n S hS
  refine ⟨nextCapture_length c n s S hS, fun raw rest hcap hlen => ?_⟩
  rw [nextCapture_ok c n s raw rest hcap, fullSamples_eq _ _ _ hlen] at hS
  exact (CaptureAnswer.ok.inj hS).symm

/-- The information word of a CAPTURE that fails: the chip, the position 0x3F, the phase EXEC
(rules R200, R285). -/
theorem captureInfo_capturing (chip : BitVec 3) (s : State) :
    captureInfo (chipOfBits chip) (capturing chip s).fsm (capturing chip s).work =
      0x00013F00 + BitVec.ofNat 32 chip.toNat := by
  rw [captureInfo_eq]
  show BitVec.ofNat 32 (chip.toNat + 0x100 * 0x3F + 0x10000 * 1) =
    BitVec.ofNat 32 0x00013F00 + BitVec.ofNat 32 chip.toNat
  rw [← BitVec.ofNat_add]
  congr 1
  omega

/-- CAPTURE with a legal length and chip, of a capture that fails (rules R200, R290). -/
theorem execCapture_fail {s : State} {chip : BitVec 3} {len : Half}
    (hl : lenLegal s.inst len) (hc : chipValid s.inst chip)
    (hS : s.nextCapture (chipOfBits chip) len.toNat = .fail) :
    execCapture chip len s = .next
      (((capturing chip s).takeCapture (chipOfBits chip) len.toNat).raise .captureFailed
        (0x00013F00 + BitVec.ofNat 32 chip.toNat)) := by
  have asked : (capturing chip s).nextCapture (chipOfBits chip) len.toNat = .fail := hS
  rw [← captureInfo_capturing chip s]
  unfold capturing at asked ⊢
  simp only [execCapture, if_pos hl, if_pos hc, asked]

/-- Settles O37, from the end of a CAPTURE whose capture fails. -/
theorem captureFailureAborts : Obligations.CaptureFailureAborts := by
  intro s chip len h1 hlen hc hS
  refine ⟨_, execCapture_fail ⟨Nat.one_le_iff_ne_zero.mp h1, hlen⟩ hc hS,
    raise_aborted _ _ _, ⟨⟨rfl, rfl, rfl⟩, rfl, rfl⟩, rfl, ?_⟩
  rw [raise_events, takeCapture_events]
  rfl

/-- Settles O41: a count is the sum of its captures' mismatches, at most as many in each capture as the
lane has samples. -/
theorem errorCountsAreBounded : Obligations.ErrorCountsAreBounded := by
  intro s t c x ht li
  rcases countErrors_cases c x s with ⟨n, u, -, hr, -⟩ | ⟨u, Ss, hr, -, hl, hlen, -, hacc⟩
  · cases hr.symm.trans ht
  · cases hr.symm.trans ht
    rw [hacc li, BitVec.toNat_ofNat, ← hl]
    exact (Nat.mod_le _ _).trans (mismatches_le Ss x li s.ctl.cfgSnapLen.toNat hlen)

end Sys2Proof.Machine

/-! SUPPORT. A tap calibration that aborts: the probe that it is in, the captures taken so far, and what it
leaves (rules R195, R197, R211, R213, R216, R228, R285, R290). -/

namespace Sys2Proof.Machine

open Sys2Proof.Safety

/-! ## Captures among events -/

theorem captures_eq_nil {l : List Event} (h : ∀ e ∈ l, isCapture e = false) :
    l.filter isCapture = [] :=
  List.filter_eq_nil_iff.mpr fun e he => by rw [h e he]; exact Bool.false_ne_true

theorem captures_serialEvents (I : Instance) (m : Byte) (ps : List RegWrite) :
    (ps.flatMap (serialEvents I m)).filter isCapture = [] := by
  refine captures_eq_nil fun e he => ?_
  obtain ⟨p, -, hp⟩ := List.mem_flatMap.mp he
  rw [serialEvents_eq] at hp
  obtain ⟨v, -, rfl⟩ := List.mem_map.mp hp
  rfl

theorem captures_delayTapEvents (L : Layout) (c : ChipId) (tap lm : Byte) :
    (delayTapEvents L c tap lm).filter isCapture = [] := by
  refine captures_eq_nil fun e he => ?_
  simp only [delayTapEvents, List.mem_append, List.mem_map, List.mem_singleton] at he
  rcases he with (((⟨w, -, rfl⟩ | rfl) | ⟨w, -, rfl⟩) | ⟨w, -, rfl⟩) | rfl <;> rfl

theorem captures_replicate (n : Nat) (c : ChipId) (len : Nat) :
    (List.replicate n (Event.capture c len)).filter isCapture =
      List.replicate n (Event.capture c len) :=
  List.filter_replicate_of_pos rfl

/-- A probe takes its CFG_ITER captures and no other (rules R195, R213). -/
theorem captures_probeEvents (L : Layout) (c : ChipId) (n len u : Nat) :
    (probeEvents L c n len u).filter isCapture = List.replicate n (.capture c len) := by
  rw [probeEvents, List.filter_append, captures_delayTapEvents, captures_replicate, List.nil_append]

theorem captures_latchEvents (L : Layout) (c : ChipId) (R : Lanes CalResult) :
    (latchEvents L c R).filter isCapture = [] := by
  rw [latchEvents, List.filter_flatMap, List.flatMap_eq_nil_iff]
  intro li _
  cases R[li] with
  | tap u => exact captures_delayTapEvents L c _ _
  | none => rfl
  | indEmpty => rfl
  | indWrapped => rfl

/-- A whole tap calibration takes 34 * CFG_ITER captures of its chip (rules R210, R225). -/
theorem captures_tapCalEvents (I : Instance) (K : Control) (c : ChipId) (slip : Bool)
    (R : Lanes CalResult) : (tapCalEvents I K c slip R).filter isCapture =
      List.replicate (34 * K.cfgIter.toNat) (.capture c K.cfgSnapLen.toNat) := by
  have heuristic : (if slip then bitslipEvents I.layout c else []).filter isCapture = [] := by
    cases slip <;> rfl
  have sweep (ts : List Nat) : (ts.flatMap (probeEvents I.layout c K.cfgIter.toNat
      K.cfgSnapLen.toNat)).filter isCapture =
        List.replicate (ts.length * K.cfgIter.toNat) (.capture c K.cfgSnapLen.toNat) := by
    induction ts with
    | nil => simp
    | cons u ts ih =>
      rw [List.flatMap_cons, List.filter_append, ih, captures_probeEvents,
        List.replicate_append_replicate, List.length_cons, Nat.succ_mul, Nat.add_comm]
  simp only [tapCalEvents, List.filter_append, captures_serialEvents, captures_probeEvents,
    heuristic, sweep, captures_latchEvents, List.length_range, List.nil_append, List.append_nil,
    List.replicate_append_replicate]
  congr 1
  omega

/-! ## The probe that a tap calibration is in -/

/-- The tap of probe number `p` of the 34 (rules R213, R216). -/
def probeTapNumber (p : Nat) : Nat := if p = 0 then 0 else if p = 1 then 31 else p - 2

/-- The phase of probe number `p` (rules R213, R216). -/
def probePhase (p : Nat) : Fsm := if p < 2 then .calProbe else .calSweep

/-- The information word of a capture that fails in probe number `p` (rule R285). -/
theorem captureInfo_probe (c : ChipId) {p : Nat} (hp : p < 34) (w : Work) :
    captureInfo c (probePhase p) { w with tapCnt := BitVec.ofNat 6 (probeTapNumber p) } =
      tapCalFailure c p := by
  have phase : probePhase p ≠ .syncRound ∧ probePhase p ≠ .syncRecheck ∧
      (probePhase p).code.toNat = if p < 2 then 3 else 5 := by
    unfold probePhase
    split <;> decide
  obtain ⟨hround, hrecheck, hcode⟩ := phase
  have tap : (BitVec.ofNat 6 (probeTapNumber p)).toNat = probeTapNumber p := by
    rw [BitVec.toNat_ofNat, Nat.mod_eq_of_lt]
    unfold probeTapNumber
    split <;> [decide; split <;> omega]
  rw [captureInfo_eq, if_neg (by simp [hround, hrecheck]), tap, hcode]
  rfl

/-- In a tap calibration of chip `c` that starts in `s`, probe number `p` starts in `u`: the probes
before it took their captures (rules R195, R213, R216). -/
structure AtProbe (c : ChipId) (p : Nat) (s u : State) : Prop where
  inst : u.inst = s.inst
  ctl : u.ctl = s.ctl
  fsm : u.fsm = probePhase p
  events : ∃ l, u.events = s.events ++ l ∧ l.filter isCapture =
    List.replicate (p * s.ctl.cfgIter.toNat) (.capture c s.ctl.cfgSnapLen.toNat)

theorem AtProbe.first (c : ChipId) (s : State) : AtProbe c 0 s (tapCalProbing c s) := by
  obtain ⟨hinst, hctl, -, hfsm, -, hevents⟩ := tapCalProbing_eq c s
  refine ⟨hinst, hctl, hfsm, _, hevents, ?_⟩
  rw [captures_serialEvents, Nat.zero_mul]
  rfl

/-- The next probe starts where one has gone on, up to events without a capture. -/
theorem AtProbe.next {c : ChipId} {p : Nat} {s u t v : State} {Ss : List Samples} {l : List Event}
    (h : AtProbe c p s u) (hp : Probed c (probeTapNumber p) u t Ss) (hinst : v.inst = t.inst)
    (hctl : v.ctl = t.ctl) (hfsm : v.fsm = probePhase (p + 1)) (hevents : v.events = t.events ++ l)
    (hl : l.filter isCapture = []) : AtProbe c (p + 1) s v := by
  obtain ⟨before, hbefore, taken⟩ := h.events
  refine ⟨hinst.trans (hp.inst.trans h.inst), hctl.trans (hp.ctl.trans h.ctl), hfsm, ?_⟩
  refine ⟨before ++ (probeEvents u.inst.layout c u.ctl.cfgIter.toNat u.ctl.cfgSnapLen.toNat
    (probeTapNumber p) ++ l), ?_, ?_⟩
  · rw [hevents, hp.events, hbefore, List.append_assoc, List.append_assoc]
  · rw [List.filter_append, List.filter_append, hl, captures_probeEvents, taken, h.ctl,
      List.append_nil, List.replicate_append_replicate, Nat.succ_mul]

/-- A probe that does not abort goes on, and says so. -/
theorem probed_of_done {c : ChipId} {n : Nat} {s t : State} (h : probeTap c n s = .done t) :
    ∃ Ss, Probed c n s t Ss := by
  rcases probeTap_cases c n s with ⟨k, u, -, hr, -⟩ | ⟨u, Ss, hr, hp⟩
  · cases hr.symm.trans h
  · cases hr.symm.trans h
    exact ⟨Ss, hp⟩

/-- A sweep that aborts does so in one of its probes (rules R216, R228). -/
theorem sweepTaps_aborts {c : ChipId} {p : Nat} {s u t : State} {ts : List (Fin 32)} {e : ErrCode}
    {i : Word} (hat : AtProbe c (p + 2) s u) (hts : ∀ j (hj : j < ts.length), (ts[j]).val = p + j)
    (h : sweepTaps c ts u = .abort e i t) :
    ∃ q v, q < 34 ∧ AtProbe c q s v ∧ probeTap c (probeTapNumber q) v = .abort e i t := by
  induction ts generalizing p u with
  | nil => cases h
  | cons tap ts ih =>
    have htap : tap.val = p := hts 0 (Nat.zero_lt_succ _)
    have number : tap.val = probeTapNumber (p + 2) := by simp [probeTapNumber, htap]
    rcases Run.andThen_eq_abort.mp h with hr | ⟨w, hr, hrest⟩
    · exact ⟨p + 2, u, by omega, hat, by rw [← number]; exact hr⟩
    · obtain ⟨Ss, hp⟩ := probed_of_done hr
      rw [number] at hp
      refine ih (p := p + 1) (hat.next hp (v := w.mapTables (Tables.recordTap c tap w.work.acc))
        (l := []) rfl rfl ?_ (List.append_nil _).symm rfl) (fun j hj => ?_) hrest
      · rw [State.mapTables_fsm, hp.fsm, hat.fsm]
        simp [probePhase]
      · have := hts (j + 1) (Nat.succ_lt_succ hj)
        rw [List.getElem_cons_succ] at this
        omega

theorem AtProbe.second {c : ChipId} {s s0 : State} {A0 : List Samples}
    (p0 : Probed c 0 (tapCalProbing c s) s0 A0) :
    AtProbe c 1 s (s0.mapWork (fun w => { w with acc0 := w.acc })) :=
  (AtProbe.first c s).next p0 (l := []) rfl rfl (p0.fsm.trans (AtProbe.first c s).fsm)
    (List.append_nil _).symm rfl

/-- The sweep starts after both probes and the heuristic, which takes no capture (rule R214). -/
theorem AtProbe.sweep {c : ChipId} {s u s31 : State} {A31 : List Samples} (h : AtProbe c 1 s u)
    (p31 : Probed c 31 u s31 A31) : AtProbe c 2 s
      (((s31.mapWork (fun w => { w with acc31 := w.acc })).heuristic c).setFsm .calSweep) := by
  obtain ⟨hinst, hctl, -, -⟩ := heuristic_eq c (s31.mapWork (fun w => { w with acc31 := w.acc }))
  exact h.next p31 hinst hctl rfl (heuristic_events c _) (by split <;> rfl)

/-- A tap calibration that aborts does so in one of its probes (rules R210, R228). -/
theorem tapCalBody_aborts {c : ChipId} {s t : State} {e : ErrCode} {i : Word}
    (h : tapCalBody c s = .abort e i t) :
    ∃ p u, p < 34 ∧ AtProbe c p s u ∧ probeTap c (probeTapNumber p) u = .abort e i t := by
  rcases Run.andThen_eq_abort.mp h with hprobes | ⟨probed, hprobes, hrest⟩
  · rcases Run.andThen_eq_abort.mp hprobes with h0 | ⟨s0, h0, h1⟩
    · exact ⟨0, _, by decide, AtProbe.first c s, h0⟩
    · obtain ⟨A0, p0⟩ := probed_of_done (s := tapCalProbing c s) h0
      rcases Run.andThen_eq_abort.mp h1 with h31 | ⟨s31, -, hdone⟩
      · exact ⟨1, _, by decide, AtProbe.second p0, h31⟩
      · cases hdone
  · obtain ⟨s0, h0, h1⟩ := Run.andThen_eq_done.mp hprobes
    obtain ⟨s31, h31, hdone⟩ := Run.andThen_eq_done.mp h1
    cases hdone
    obtain ⟨A0, p0⟩ := probed_of_done (s := tapCalProbing c s) h0
    obtain ⟨A31, p31⟩ := probed_of_done h31
    rcases Run.andThen_eq_abort.mp hrest with hsweep | ⟨q, -, hdone⟩
    · rcases Run.andThen_eq_abort.mp hsweep with htaps | ⟨q, -, hdone⟩
      · exact sweepTaps_aborts (p := 0) ((AtProbe.second p0).sweep p31) (fun j hj => by simp) htaps
      · cases hdone
    · cases hdone

/-! ## What it leaves -/

/-- A probe that aborts does so at its capture of some index `k` (rules R195, R197). -/
theorem probeTap_aborts {c : ChipId} {n : Nat} {s t : State} {e : ErrCode} {i : Word}
    (h : probeTap c n s = .abort e i t) :
    ∃ k, k < s.ctl.cfgIter.toNat ∧ e = .captureFailed ∧
      i = captureInfo c s.fsm { s.work with tapCnt := BitVec.ofNat 6 n } ∧
      OnlyCaptures c s.ctl.cfgSnapLen.toNat (k + 1)
        ((s.mapWork (fun w => { w with tapCnt := BitVec.ofNat 6 n })).setDelayTap c
          (BitVec.ofNat 8 n) 0xFF) t := by
  rcases probeTap_cases c n s with ⟨k, u, hk, hr, only⟩ | ⟨u, Ss, hr, -⟩
  · cases hr.symm.trans h
    exact ⟨k, hk, rfl, rfl, only⟩
  · cases hr.symm.trans h

/-- SetDelayTap leaves no strobe bit and no bitslip bit at 1, whatever was there before (rules R171, R172,
R290). -/
theorem setDelayTap_quiet (c : ChipId) (tap lm : Byte) {s : State} (hI : InstanceOk s.inst) :
    Quiet (s.setDelayTap c tap lm) := by
  constructor <;> rw [State.setDelayTap_inst]
  · intro w hw v hv
    rw [setDelayTap_read_strobe c tap lm hw] at hv
    exact (Option.some.inj hv).symm
  · intro d hd v hv
    rw [setDelayTap_read_one c tap lm hI] at hv
    rw [← Option.some.inj hv]
    exact tapWord_apart _ _ _ (slipBit_apart _ hI d hd).2

/-- The tables `U` differ from `T` at most in the row of chip `c`, in ERR_COUNT and in LAST_SWEEP. -/
structure RowsBeside (c : ChipId) (T U : Tables) : Prop where
  syncStatus : U.syncStatus = T.syncStatus
  calResult : ∀ d : ChipId, d ≠ c → U.calResult[d] = T.calResult[d]
  goodMap : ∀ d : ChipId, d ≠ c → U.goodMap[d] = T.goodMap[d]
  heurSlip : ∀ d : ChipId, d ≠ c → U.heurSlip.getLsbD d.val = T.heurSlip.getLsbD d.val

theorem RowsBeside.refl (c : ChipId) (T : Tables) : RowsBeside c T T :=
  ⟨rfl, fun _ _ => rfl, fun _ _ => rfl, fun _ _ => rfl⟩

theorem RowsBeside.trans {c : ChipId} {T U V : Tables} (h : RowsBeside c T U)
    (k : RowsBeside c U V) : RowsBeside c T V where
  syncStatus := k.syncStatus.trans h.syncStatus
  calResult d hd := (k.calResult d hd).trans (h.calResult d hd)
  goodMap d hd := (k.goodMap d hd).trans (h.goodMap d hd)
  heurSlip d hd := (k.heurSlip d hd).trans (h.heurSlip d hd)

theorem RowsBeside.keepsChipRows {c : ChipId} {s t : State} (h : RowsBeside c s.tables t.tables)
    {d : ChipId} (hd : d ≠ c) : KeepsChipRows d s t :=
  ⟨h.calResult d hd, h.goodMap d hd, h.heurSlip d hd⟩

theorem keepsChipRows_trans {c : ChipId} {s t u : State} (h : KeepsChipRows c s t)
    (k : KeepsChipRows c t u) : KeepsChipRows c s u :=
  ⟨k.calResult.trans h.calResult, k.goodMap.trans h.goodMap, k.heurSlip.trans h.heurSlip⟩

theorem raise_rows {c : ChipId} {s t : State} {e : ErrCode} {i : Word} (h : KeepsChipRows c s t) :
    KeepsChipRows c s (t.raise e i) :=
  keepsChipRows_trans h ⟨rfl, rfl, rfl⟩

/-- A tap calibration of chip `c`, whether or not it goes on to its end, leaves the parameters, the control
registers, SYNC_STATUS and the rows of the other chips as they are (rules R210, R228). -/
theorem tapCalBody_beside (c : ChipId) (s : State) :
    (tapCalBody c s).state.inst = s.inst ∧ (tapCalBody c s).state.ctl = s.ctl ∧
      RowsBeside c s.tables (tapCalBody c s).state.tables := by
  have slip (T : Tables) (b : Bool) (d : ChipId) (hd : d ≠ c) :
      (writeMaskBit T.heurSlip c b).getLsbD d.val = T.heurSlip.getLsbD d.val :=
    (writeMaskBit_getLsbD T.heurSlip c d b).trans (if_neg hd)
  have parts := KeptByParts.of_registers
    (fun I K _ T _ => I = s.inst ∧ K = s.ctl ∧ RowsBeside c s.tables T)
  refine parts.tapCalBody_keeps ?start ?slip ?record ?result ⟨rfl, rfl, .refl _ _⟩
  case start =>
    rintro u ⟨hi, hk, hT⟩
    exact ⟨hi, hk, hT.trans ⟨rfl, fun _ hd => row_set_other _ _ hd,
      fun _ hd => row_set_other _ _ hd, slip u.tables false⟩⟩
  case slip =>
    rintro u ⟨hi, hk, hT⟩
    exact ⟨hi, hk, hT.trans ⟨rfl, fun _ _ => rfl, fun _ _ => rfl, slip u.tables true⟩⟩
  case record =>
    rintro tap acc u ⟨hi, hk, hT⟩
    exact ⟨hi, hk, hT.trans ⟨rfl, fun _ _ => rfl, fun _ hd => row_set_other _ _ hd,
      fun _ _ => rfl⟩⟩
  case result =>
    rintro R u ⟨hi, hk, hT⟩
    exact ⟨hi, hk, hT.trans ⟨rfl, fun _ hd => row_set_other _ _ hd, fun _ _ => rfl,
      fun _ _ => rfl⟩⟩

/-- A tap calibration that aborts has made no decision (rules R211, R228). -/
theorem tapCalBody_undecided {c : ChipId} {s t : State} {e : ErrCode} {i : Word}
    (h : tapCalBody c s = .abort e i t) (li : LaneId) : t.tables.calResult[c][li] = .none := by
  have parts := KeptByParts.of_registers
    (fun _ _ _ T _ => ∀ li : LaneId, T.calResult[c][li] = .none)
  rcases tapCalBody_run (c := c)
    { parts.kept c with heurSlip := fun _ hu => hu, recordTap := fun _ _ _ hu => hu }
    (fun _ hu => parts.selectPattern .deskew hu) s (tapCalStart_calResult s.tables c) with
    ⟨q, -, hr⟩ | ⟨_, _, u, hu, hr⟩
  · cases hr.symm.trans h
  · cases hr.symm.trans h
    exact hu li

/-- What a tap calibration of chip `c` leaves that aborts at its capture of index `k` (rules R211, R228,
R290). -/
structure TapCalStopped (c : ChipId) (k : Nat) (s t : State) : Prop where
  bound : k < 34 * s.ctl.cfgIter.toNat
  inst : t.inst = s.inst
  ctl : t.ctl = s.ctl
  events : ∃ l, t.events = s.events ++ l ∧
    l.filter isCapture = List.replicate (k + 1) (.capture c s.ctl.cfgSnapLen.toNat)
  undecided : ∀ li : LaneId, t.tables.calResult[c][li] = .none
  beside : RowsBeside c s.tables t.tables
  strobes : ∀ w ∈ s.inst.layout.strobeWords, t.board.rwi.read w = some 0
  quiet : InstanceOk s.inst → Quiet t

/-- A tap calibration aborts only at a failed capture: it was set up for the probe of that capture, whose
SetDelayTap is the last thing that wrote a word (rules R195, R213, R216, R228, R285). -/
theorem tapCalBody_stopped {c : ChipId} {s t : State} {e : ErrCode} {i : Word}
    (h : tapCalBody c s = .abort e i t) :
    ∃ k, e = .captureFailed ∧ i = tapCalFailure c (k / s.ctl.cfgIter.toNat) ∧
      TapCalStopped c k s t := by
  obtain ⟨p, u, hp, hat, hr⟩ := tapCalBody_aborts h
  obtain ⟨before, hbefore, taken⟩ := hat.events
  obtain ⟨j, hj, rfl, rfl, only⟩ := probeTap_aborts hr
  obtain ⟨hinst, hctl, beside⟩ := tapCalBody_beside c s
  rw [h, Run.state_abort] at hinst hctl beside
  rw [hat.ctl] at hj only
  generalize hv : (u.mapWork (fun w => { w with tapCnt := BitVec.ofNat 6 (probeTapNumber p) }))
    = v at only
  have vinst : v.inst = s.inst := by rw [← hv]; exact hat.inst
  have vevents : v.events = u.events := by rw [← hv]; rfl
  have position : (p * s.ctl.cfgIter.toNat + j) / s.ctl.cfgIter.toNat = p := by
    rw [Nat.mul_comm, Nat.mul_add_div (by omega), Nat.div_eq_of_lt hj, Nat.add_zero]
  refine ⟨p * s.ctl.cfgIter.toNat + j, rfl, ?_, ?bound, hinst, hctl, ?events,
    tapCalBody_undecided h, beside, ?strobes, ?quiet⟩
  · rw [position, hat.fsm, captureInfo_probe c hp]
  case bound =>
    have := Nat.mul_le_mul_right s.ctl.cfgIter.toNat (Nat.le_of_lt_succ hp)
    omega
  case events =>
    refine ⟨before ++ (delayTapEvents v.inst.layout c (BitVec.ofNat 8 (probeTapNumber p)) 0xFF ++
      List.replicate (j + 1) (.capture c s.ctl.cfgSnapLen.toNat)), ?_, ?_⟩
    · rw [only.events, setDelayTap_delayTapEvents, vevents, hbefore, List.append_assoc,
        List.append_assoc]
    · rw [List.filter_append, List.filter_append, taken, captures_delayTapEvents,
        captures_replicate, List.nil_append, List.replicate_append_replicate, Nat.add_assoc]
  case strobes =>
    intro w hw
    rw [only.board]
    exact setDelayTap_read_strobe c _ _ (by rw [vinst]; exact hw)
  case quiet =>
    intro hI
    exact quiet_congr (setDelayTap_quiet c _ _ (by rw [vinst]; exact hI)) only.inst
      (fun w _ => by rw [only.board])

/-- TAP_CAL of a chip of the board that aborts (rules R210, R290). -/
theorem execTapCal_abort {s t : State} {chip : BitVec 3} {e : ErrCode} {i : Word}
    (hc : chipValid s.inst chip) (ht : tapCalBody (chipOfBits chip) s = .abort e i t) :
    exec (.tapCal chip) s = .next (t.raise e i) := by
  rw [execTapCal_valid hc, ht]
  rfl

/-- Settles O49: a script that fails stops the calibration in the probe of its failure, and one that aborts
was stopped so. -/
theorem tapCalAbortsOnAFailedCapture : Obligations.TapCalAbortsOnAFailedCapture := by
  intro s chip hI hc
  refine ⟨?fails, ?aborts⟩
  case fails =>
    intro k hk hs
    obtain ⟨t, ht⟩ := tapCalBody_fails (chipOfBits chip) s k hk hs
    exact ⟨_, execTapCal_abort hc ht, raise_aborted _ _ t⟩
  case aborts =>
    intro t he herr
    cases hr : tapCalBody (chipOfBits chip) s with
    | done u =>
      cases (execTapCal_done hc hr).symm.trans he
      exact absurd rfl herr
    | abort e i u =>
      cases (execTapCal_abort hc hr).symm.trans he
      obtain ⟨k, rfl, rfl, stopped⟩ := tapCalBody_stopped hr
      obtain ⟨l, hevents, taken⟩ := stopped.events
      exact ⟨rfl, ⟨l, k, hevents, stopped.bound, taken, rfl⟩, stopped.undecided,
        quiet_congr (stopped.quiet hI) rfl (fun _ _ => rfl), stopped.strobes,
        fun d hd => raise_rows (stopped.beside.keepsChipRows hd)⟩

end Sys2Proof.Machine

/-! SUPPORT. CALIBRATE that aborts: its preconditions, the chips that it works on, and where a failed
capture stops its tap calibrations and its synchronization pass (rules R240, R243, R247, R250 to
R254, R284, R285). -/

namespace Sys2Proof.Machine

open Sys2Proof.Safety

/-! ## The chips -/

/-- `n` of CALIBRATE, from the compiled-count field of word 0 (rules R253, R262). -/
theorem calibrateCount_eq (I : Instance) (w0 : Word) : calibrateCount I w0 =
    min (w0.extractLsb' I.layout.chipCountLsb I.layout.chipCountWidth).toNat I.nchips := by
  have fits : (w0.extractLsb' I.layout.chipCountLsb I.layout.chipCountWidth).toNat < 2 ^ 32 := by
    rw [BitVec.extractLsb'_toNat, Nat.shiftRight_eq_div_pow]
    exact ((Nat.mod_le _ _).trans (Nat.div_le_self _ _)).trans_lt w0.isLt
  rw [calibrateCount, chipCount, wordField, BitVec.toNat_setWidth, Nat.mod_eq_of_lt fits]

/-- The chips CALIBRATE works on are those of the mask below the count (rules R250, R253). -/
theorem chipsOf_calibrateMask (I : Instance) (mask : Byte) (w0 : Word) :
    chipsOf I (calibrateMask I mask w0) = chipsBelow mask (calibrateCount I w0) := by
  have capped : calibrateCount I w0 ≤ I.nchips := Nat.min_le_right ..
  rw [chipsOf_eq]
  refine List.filter_congr fun c _ => ?_
  rw [calibrateMask, BitVec.getLsbD_and, onesMask_bit _ c.isLt, Bool.and_assoc, ← Bool.decide_and]
  congr 2
  rw [eq_iff_iff, and_iff_left_of_imp fun h => Nat.lt_of_lt_of_le h capped]

/-- A mask with a chip left is not 0 (rule R253). -/
theorem calibrateMask_ne_zero {I : Instance} {mask : Byte} {w0 : Word} {c : ChipId}
    (h : c ∈ chipsBelow mask (calibrateCount I w0)) : calibrateMask I mask w0 ≠ 0 := by
  intro h0
  rw [← chipsOf_calibrateMask, chipsOf_eq, mem_chipsBelow, h0] at h
  exact Bool.false_ne_true (BitVec.getLsbD_zero.symm.trans h.1)

/-! ## The preconditions -/

/-- The state of a CALIBRATE after its query and its read of word 0 (rule R250). -/
def prechecked (s : State) : State := (s.setFsm .precheck).askProgrammed.readWord0

theorem prechecked_events (s : State) :
    (prechecked s).events = s.events ++ [.isProgrammed, .memRead 0] := by
  simp [prechecked, State.readWord0, State.askProgrammed]

theorem nextWord0_of_script {s : State} {w0 : Word} {rest : List Word}
    (h : s.env.word0 = w0 :: rest) : s.nextWord0 = w0 := by
  rw [State.nextWord0, h]

section

variable {s : State} {mask : Byte} (hm : maskValid s.inst mask)
include hm

/-- CALIBRATE on an FPGA that is not programmed (rules R250, R284). -/
theorem execCalibrate_unprogrammed (hp : s.nextProgrammed = false) : exec (.calibrate mask) s =
    .next ((s.setFsm .precheck).askProgrammed.raise .notProgrammed 0) := by
  simp only [exec, execCalibrate, if_pos hm, hp, Bool.false_eq_true, if_false]

variable (hp : s.nextProgrammed = true) {w0 : Word} {rest : List Word}
  (hw : s.env.word0 = w0 :: rest)
include hp hw

/-- CALIBRATE with the primary clock unlocked (rule R251). -/
theorem execCalibrate_unlocked (hl : primaryLock s.inst.layout w0 = false) :
    exec (.calibrate mask) s = .next ((prechecked s).raise .clockNotLocked w0) := by
  have read := nextWord0_of_script (s := (s.setFsm .precheck).askProgrammed) hw
  simp only [exec, execCalibrate, if_pos hm, hp, if_true, read, hl, Bool.false_eq_true, if_false]
  rfl

/-- CALIBRATE with its preconditions met (rules R250, R252 to R254). -/
theorem execCalibrate_locked (hl : primaryLock s.inst.layout w0 = true) :
    exec (.calibrate mask) s =
      .next ((calibrateBody mask w0 (prechecked s)).finish syncStatusData) := by
  have read := nextWord0_of_script (s := (s.setFsm .precheck).askProgrammed) hw
  simp only [exec, execCalibrate, if_pos hm, hp, if_true, read, hl]
  rfl

end

/-! ## The tap calibrations -/

theorem hasWindows_congr {c : ChipId} {s t : State} (h : HasWindows c s) (hi : t.inst = s.inst)
    (k : KeepsChipRows c s t) : HasWindows c t := by
  intro li
  rw [k.calResult, k.goodMap, hi]
  exact h li

/-- A tap calibration that goes on to its end leaves the windows of its chip (rules R220, R222). -/
theorem tapCalBody_windows {c : ChipId} {s t : State} (h : tapCalBody c s = .done t) :
    HasWindows c t := by
  obtain ⟨s0, s31, q, A0, A31, Ss, P⟩ := tapCalBody_done c s t h
  intro li
  rw [(tapCalBody_called c s t h).inst]
  exact P.tables.windows li

/-- The tap calibrations of a list of chips, gone on to their end, leave the windows of those chips and the
rows of the others (rules R222, R254). -/
theorem tapCalEach_rows {cs : List ChipId} (hn : cs.Nodup) {s t : State}
    (h : tapCalEach cs s = .done t) :
    (∀ c ∈ cs, HasWindows c t) ∧ ∀ c : ChipId, c ∉ cs → KeepsChipRows c s t := by
  induction cs generalizing s with
  | nil =>
    cases h
    exact ⟨fun c hc => absurd hc List.not_mem_nil, fun c _ => ⟨rfl, rfl, rfl⟩⟩
  | cons a cs ih =>
    obtain ⟨ha, hn'⟩ := List.nodup_cons.mp hn
    obtain ⟨u, hu, hrest⟩ := Run.andThen_eq_done.mp h
    obtain ⟨windows, rows⟩ := ih hn' hrest
    obtain ⟨-, -, beside⟩ := tapCalBody_beside a s
    rw [hu, Run.state_done] at beside
    refine ⟨fun c hc => ?_, fun c hc => ?_⟩
    · rcases List.mem_cons.mp hc with rfl | hc
      · exact hasWindows_congr (tapCalBody_windows hu) (tapCalEach_called cs hn' u t hrest).inst
          (rows c ha)
      · exact windows c hc
    · obtain ⟨hca, hcs⟩ := List.ne_and_not_mem_of_not_mem_cons hc
      exact keepsChipRows_trans (beside.keepsChipRows hca) (rows c hcs)

/-- Tap calibrations of a list of chips that abort do so in that of one chip, after those before it
(rules R228, R254). -/
theorem tapCalEach_aborts {cs : List ChipId} {s t : State} {e : ErrCode} {i : Word}
    (h : tapCalEach cs s = .abort e i t) :
    ∃ pre c post u, cs = pre ++ c :: post ∧ tapCalEach pre s = .done u ∧
      tapCalBody c u = .abort e i t := by
  induction cs generalizing s with
  | nil => cases h
  | cons a cs ih =>
    rcases Run.andThen_eq_abort.mp h with ha | ⟨v, ha, hrest⟩
    · exact ⟨[], a, cs, s, rfl, rfl, ha⟩
    · obtain ⟨pre, c, post, u, rfl, hpre, hc⟩ := ih hrest
      exact ⟨a :: pre, c, post, u, rfl, by rw [tapCalEach, ha, Run.done_andThen, hpre], hc⟩

/-- The captures of whole tap calibrations (rules R210, R254). -/
theorem captures_tapCalEach (I : Instance) (K : Control) (slip : ChipId → Bool)
    (R : ChipId → Lanes CalResult) (cs : List ChipId) :
    (cs.flatMap (fun c => tapCalEvents I K c (slip c) (R c))).filter isCapture =
      tapCalCaptures (34 * K.cfgIter.toNat) K.cfgSnapLen.toNat cs := by
  rw [List.filter_flatMap]
  exact List.flatMap_congr fun c _ => captures_tapCalEvents I K c (slip c) (R c)

/-! ## The synchronization pass -/

/-- What a synchronization pass leaves that aborts at capture `k` of chip `c`, after the chips `pre`, with
`n d` bitslips for each chip `d` of them (rules R240, R243, R247). -/
structure SyncStopped (n : ChipId → Nat) (pre : List ChipId) (c : ChipId) (k : Nat) (s t : State) :
    Prop where
  bound : k ≤ s.inst.syncRetries
  retries : ∀ d, n d ≤ s.inst.syncRetries
  inst : t.inst = s.inst
  ctl : t.ctl = s.ctl
  events : t.events = s.events ++ syncEvents s.inst s.ctl.csMask n pre ++
    syncChipEvents s.inst.layout c k
  tables : ∃ v, t.tables = { s.tables with syncStatus := v }
  attempted : ∀ d : ChipId, t.tables.syncStatus[d] ≠ .notAttempted ↔ d ∈ pre

/-- A synchronization pass aborts only at a failed capture of one of its chips (rules R243, R247). -/
theorem syncVerifyBody_aborts {s t : State} {mask : Byte} {e : ErrCode} {i : Word}
    (h32 : s.inst.syncRetries < 32) (h : syncVerifyBody mask s = .abort e i t) :
    ∃ n pre c post k, chipsOf s.inst mask = pre ++ c :: post ∧ e = .captureFailed ∧
      i = syncFailure s.inst c k ∧ SyncStopped n pre c k s t := by
  have bus := syncVerifying_onlyBus s
  have inst : (syncVerifying s).inst = s.inst := bus.inst
  have ctl : (syncVerifying s).ctl = s.ctl := bus.ctl
  rcases syncEach_cases (chipsOf s.inst mask) (chipsOf_nodup _ _) (syncVerifying s)
      (by rwa [inst]) with ⟨n, u, hr, -⟩ | ⟨n, pre, c, post, k, u, v, hcs, hk, hr, synced, span, htab⟩
  · cases hr.symm.trans h
  · cases hr.symm.trans h
    rw [inst] at hk
    have retries : ∀ d ∈ pre, min (n d) s.inst.syncRetries = n d :=
      fun d hd => Nat.min_eq_left (inst ▸ synced.retries d hd)
    refine ⟨fun d => min (n d) s.inst.syncRetries, pre, c, post, k, hcs, rfl, by rw [inst], hk,
      fun d => Nat.min_le_right .., span.inst.trans (synced.inst.trans inst),
      span.ctl.trans (synced.ctl.trans ctl), ?events, ?tables, ?attempted⟩
    case events =>
      rw [span.events, synced.syncEvents retries, synced.inst, inst]
    case tables =>
      obtain ⟨w, others⟩ := synced.others
      exact ⟨w, by rw [htab, others, bus.tables]; rfl⟩
    case attempted =>
      intro d
      rw [htab]
      by_cases hd : d ∈ pre
      · exact iff_of_true (synced.attempted d hd).1 hd
      · refine iff_of_false (not_not_intro ((synced.rest d hd).trans ?_)) hd
        rw [bus.tables]
        exact clearSync_syncStatus s d

/-- A synchronization pass aborts where its script fails (rules R240, R247, R285). -/
theorem syncVerifyBody_fails {s : State} {mask : Byte} {pre post : List ChipId} {c : ChipId} {k : Nat}
    (h32 : s.inst.syncRetries < 32) (hcs : chipsOf s.inst mask = pre ++ c :: post)
    (hk : k ≤ s.inst.syncRetries)
    (h : FailsInSync s.inst.syncRetries s.ctl.cfgSync pre k s.env.captures) :
    ∃ t, syncVerifyBody mask s = .abort .captureFailed (syncFailure s.inst c k) t := by
  obtain ⟨frames, bad, rest, hcap, hlen, whole, differ, rfl⟩ := h
  have bus := syncVerifying_onlyBus s
  have inst : (syncVerifying s).inst = s.inst := bus.inst
  have ctl : (syncVerifying s).ctl = s.ctl := bus.ctl
  have env : (syncVerifying s).env = s.env := bus.env
  have fails := syncEach_fails pre post c frames bad rest (syncVerifying s) (by rwa [inst]) hlen
    (by rwa [inst, ctl]) (by rwa [ctl]) (by rwa [inst]) (by rwa [env])
  rw [inst, ← hcs] at fails
  exact fails

/-! ## The whole -/

/-- The state in which the tap calibrations of a CALIBRATE start: WARN_SEC computed, SYNC_STATUS cleared
(rules R250, R252). -/
def calibrating (w0 : Word) (s : State) : State :=
  ((prechecked s).mapStatus (fun st => { st with warnSec := warnSecondary s.inst w0 })).clearSync

theorem calibrateBody_eq (mask : Byte) (w0 : Word) (s : State) :
    calibrateBody mask w0 (prechecked s) =
      (tapCalEach (chipsBelow mask (calibrateCount s.inst w0)) (calibrating w0 s)).andThen
        (fun u => if calibrateMask s.inst mask w0 ≠ 0
          then syncVerifyBody (calibrateMask s.inst mask w0) u else .done u) := by
  rw [← chipsOf_calibrateMask]
  rfl

theorem calibrating_events (w0 : Word) (s : State) :
    (calibrating w0 s).events = s.events ++ [.isProgrammed, .memRead 0] :=
  prechecked_events s

theorem calibrating_rows (w0 : Word) (s : State) (c : ChipId) :
    KeepsChipRows c s (calibrating w0 s) :=
  ⟨rfl, rfl, rfl⟩

section

variable {s : State} {mask : Byte} {w0 : Word} {c : ChipId}

/-- A CALIBRATE whose script fails in the tap calibration of chip `c` (rules R195, R228, R254). -/
theorem calibrateBody_fails_tapCal (hc : c ∈ chipsBelow mask (calibrateCount s.inst w0)) {k : Nat}
    (hk : k < 34 * s.ctl.cfgIter.toNat)
    (h : FailsAfter ((chipsBelow mask c.val).length * (34 * s.ctl.cfgIter.toNat) + k)
      s.env.captures) :
    ∃ t, calibrateBody mask w0 (prechecked s) =
      .abort .captureFailed (tapCalFailure c (k / s.ctl.cfgIter.toNat)) t := by
  obtain ⟨post, hsplit⟩ := chipsBelow_split hc
  obtain ⟨t, ht⟩ := tapCalEach_fails (chipsBelow mask c.val) post c (calibrating w0 s) k hk h
  refine ⟨t, ?_⟩
  rw [calibrateBody_eq, hsplit, ht]
  rfl

/-- A CALIBRATE whose script fails in the synchronization of chip `c`, after all tap calibrations
(rules R240, R247, R254). -/
theorem calibrateBody_fails_sync (h32 : s.inst.syncRetries < 32)
    (hc : c ∈ chipsBelow mask (calibrateCount s.inst w0)) {k : Nat} (hk : k ≤ s.inst.syncRetries)
    {good frames : List CaptureAnswer} (hcap : s.env.captures = good ++ frames)
    (hl : good.length = (chipsBelow mask (calibrateCount s.inst w0)).length *
      (34 * s.ctl.cfgIter.toNat)) (hg : ∀ a ∈ good, a ≠ .fail)
    (h : FailsInSync s.inst.syncRetries s.ctl.cfgSync (chipsBelow mask c.val) k frames) :
    ∃ t, calibrateBody mask w0 (prechecked s) =
      .abort .captureFailed (syncFailure s.inst c k) t := by
  have succeeds : CapturesSucceed ((chipsBelow mask (calibrateCount s.inst w0)).length *
      (34 * s.ctl.cfgIter.toNat)) (calibrating w0 s) := by
    show _ ≤ s.env.captures.length ∧ ∀ a ∈ s.env.captures.take _, a ≠ .fail
    rw [← hl, hcap, List.take_left, List.length_append]
    exact ⟨Nat.le_add_right .., hg⟩
  obtain ⟨u, hu⟩ := tapCalEach_total _ (calibrating w0 s) succeeds
  have called := tapCalEach_called _ (chipsBelow_nodup _ _) _ u hu
  have inst : u.inst = s.inst := called.inst
  have ctl : u.ctl = s.ctl := called.ctl
  have left : u.env.captures = frames := by
    refine called.captures.trans ?_
    show s.env.captures.drop (_ * (34 * s.ctl.cfgIter.toNat)) = frames
    rw [← hl, hcap, List.drop_left]
  obtain ⟨post, hsplit⟩ := chipsBelow_split hc
  obtain ⟨t, ht⟩ := syncVerifyBody_fails (s := u) (mask := calibrateMask s.inst mask w0)
    (post := post) (c := c) (k := k) (by rwa [inst])
    (by rw [inst, chipsOf_calibrateMask, hsplit]) (by rwa [inst]) (by rwa [inst, ctl, left])
  refine ⟨t, ?_⟩
  rw [calibrateBody_eq, hu, Run.done_andThen, if_pos (calibrateMask_ne_zero hc), ht, inst]

/-- What a CALIBRATE leaves that aborts in the tap calibration of chip `c`, at its capture of index `k`
(rules R228, R254). -/
structure CalibrateStoppedInTapCal (mask : Byte) (c : ChipId) (k : Nat) (s t : State)
    (l : List Event) : Prop where
  bound : k < 34 * s.ctl.cfgIter.toNat
  captures : l.filter isCapture =
    tapCalCaptures (34 * s.ctl.cfgIter.toNat) s.ctl.cfgSnapLen.toNat (chipsBelow mask c.val) ++
      List.replicate (k + 1) (.capture c s.ctl.cfgSnapLen.toNat)
  syncStatus : ∀ d : ChipId, t.tables.syncStatus[d] = .notAttempted
  undecided : ∀ li : LaneId, t.tables.calResult[c][li] = .none
  windows : ∀ d ∈ chipsBelow mask c.val, HasWindows d t
  rows : ∀ d : ChipId, d ≠ c → d ∉ chipsBelow mask c.val → KeepsChipRows d s t

/-- What a CALIBRATE of the chips `cs` leaves that aborts in the synchronization of chip `c`, at its capture
of index `k` (rules R240, R243, R247, R254). -/
structure CalibrateStoppedInSync (mask : Byte) (cs : List ChipId) (c : ChipId) (k : Nat) (s t : State)
    (l : List Event) : Prop where
  bound : k ≤ s.inst.syncRetries
  events : ∃ n : ChipId → Nat, (∀ d, n d ≤ s.inst.syncRetries) ∧
    l = cs.flatMap (fun d => tapCalEvents s.inst s.ctl d (t.tables.heurSlip.getLsbD d.val)
        t.tables.calResult[d]) ++
      syncEvents s.inst s.ctl.csMask n (chipsBelow mask c.val) ++
      syncChipEvents s.inst.layout c k
  attempted : ∀ d : ChipId, t.tables.syncStatus[d] ≠ .notAttempted ↔ d ∈ chipsBelow mask c.val
  windows : ∀ d ∈ cs, HasWindows d t
  rows : ∀ d : ChipId, d ∉ cs → KeepsChipRows d s t

/-- The tap calibrations of a CALIBRATE abort only at a failed capture of one of its chips (rules R228,
R254). -/
theorem tapCalEach_stopped {t : State} {e : ErrCode} {i : Word}
    (h : tapCalEach (chipsBelow mask (calibrateCount s.inst w0)) (calibrating w0 s) =
      .abort e i t) :
    t.ctl = s.ctl ∧ e = .captureFailed ∧
      ∃ c ∈ chipsBelow mask (calibrateCount s.inst w0), ∃ l k,
        t.events = s.events ++ [.isProgrammed, .memRead 0] ++ l ∧
        i = tapCalFailure c (k / s.ctl.cfgIter.toNat) ∧
        CalibrateStoppedInTapCal mask c k s t l := by
  obtain ⟨pre, c, post, u, hsplit, hu, hc⟩ := tapCalEach_aborts h
  have nodup := chipsBelow_nodup mask (calibrateCount s.inst w0)
  rw [hsplit] at nodup
  obtain ⟨hpre, -, apart⟩ := List.nodup_append.mp nodup
  have hmem : c ∈ chipsBelow mask (calibrateCount s.inst w0) := by rw [hsplit]; simp
  obtain rfl := chipsBelow_before hsplit
  have called := tapCalEach_called _ hpre _ u hu
  obtain ⟨windows, rows⟩ := tapCalEach_rows hpre hu
  have inst : u.inst = s.inst := called.inst
  have ctl : u.ctl = s.ctl := called.ctl
  obtain ⟨k, rfl, rfl, stopped⟩ := tapCalBody_stopped hc
  obtain ⟨l, hevents, taken⟩ := stopped.events
  have bound := stopped.bound
  rw [ctl] at taken bound ⊢
  have beside (d : ChipId) (hd : d ≠ c) : KeepsChipRows d u t := stopped.beside.keepsChipRows hd
  rw [called.events, calibrating_events, List.append_assoc] at hevents
  refine ⟨stopped.ctl.trans ctl, rfl, c, hmem, _, k, hevents, rfl, bound, ?captures, ?syncStatus,
    stopped.undecided, ?windows, ?rows⟩
  case captures =>
    rw [List.filter_append, taken]
    exact congrArg (· ++ _) (captures_tapCalEach s.inst s.ctl _ _ _)
  case syncStatus =>
    intro d
    rw [stopped.beside.syncStatus, called.syncStatus]
    exact clearSync_syncStatus _ d
  case windows =>
    intro d hd
    exact hasWindows_congr (windows d hd) stopped.inst
      (beside d (apart d hd c (List.mem_cons_self ..)))
  case rows =>
    intro d hdc hd
    exact keepsChipRows_trans (calibrating_rows w0 s d) (keepsChipRows_trans (rows d hd) (beside d hdc))

/-- The synchronization pass of a CALIBRATE, after all its tap calibrations, aborts only at a failed capture
of one of its chips (rules R243, R247, R254). -/
theorem syncPass_stopped {u t : State} {e : ErrCode} {i : Word} (h32 : s.inst.syncRetries < 32)
    (hu : tapCalEach (chipsBelow mask (calibrateCount s.inst w0)) (calibrating w0 s) = .done u)
    (h : syncVerifyBody (calibrateMask s.inst mask w0) u = .abort e i t) :
    t.ctl = s.ctl ∧ e = .captureFailed ∧
      ∃ c ∈ chipsBelow mask (calibrateCount s.inst w0), ∃ l k,
        t.events = s.events ++ [.isProgrammed, .memRead 0] ++ l ∧
        i = syncFailure s.inst c k ∧
        CalibrateStoppedInSync mask (chipsBelow mask (calibrateCount s.inst w0)) c k s t l := by
  have nodup := chipsBelow_nodup mask (calibrateCount s.inst w0)
  have called := tapCalEach_called _ nodup _ u hu
  obtain ⟨windows, rows⟩ := tapCalEach_rows nodup hu
  have inst : u.inst = s.inst := called.inst
  have ctl : u.ctl = s.ctl := called.ctl
  obtain ⟨n, pre, c, post, k, hsplit, rfl, rfl, stopped⟩ :=
    syncVerifyBody_aborts (by rwa [inst]) h
  rw [inst, chipsOf_calibrateMask] at hsplit
  have hmem : c ∈ chipsBelow mask (calibrateCount s.inst w0) := by rw [hsplit]; simp
  obtain rfl := chipsBelow_before hsplit
  obtain ⟨v, htables⟩ := stopped.tables
  have kept (d : ChipId) : KeepsChipRows d u t := by constructor <;> rw [htables]
  have events := stopped.events
  have bound := stopped.bound
  have retries := stopped.retries
  rw [inst] at bound retries
  rw [inst, ctl] at events
  rw [inst]
  refine ⟨stopped.ctl.trans ctl, rfl, c, hmem, _, k, ?split, rfl, bound, ⟨n, retries, rfl⟩,
    stopped.attempted, fun d hd => hasWindows_congr (windows d hd) stopped.inst (kept d),
    fun d hd => keepsChipRows_trans (calibrating_rows w0 s d)
      (keepsChipRows_trans (rows d hd) (kept d))⟩
  case split =>
    rw [events, called.events, calibrating_events, htables]
    simp only [List.append_assoc]
    rfl

/-- A CALIBRATE with its preconditions met aborts only at a failed capture, in a tap calibration or in the
synchronization pass after them (rules R247, R250, R254). -/
theorem calibrateBody_stopped {t : State} {e : ErrCode} {i : Word} (h32 : s.inst.syncRetries < 32)
    (h : calibrateBody mask w0 (prechecked s) = .abort e i t) :
    t.ctl = s.ctl ∧ e = .captureFailed ∧
      ∃ c ∈ chipsBelow mask (calibrateCount s.inst w0), ∃ l k,
        t.events = s.events ++ [.isProgrammed, .memRead 0] ++ l ∧
        ((i = tapCalFailure c (k / s.ctl.cfgIter.toNat) ∧
            CalibrateStoppedInTapCal mask c k s t l) ∨
          (i = syncFailure s.inst c k ∧
            CalibrateStoppedInSync mask (chipsBelow mask (calibrateCount s.inst w0)) c k s t l)) := by
  rw [calibrateBody_eq] at h
  rcases Run.andThen_eq_abort.mp h with htap | ⟨u, hu, hsync⟩
  · obtain ⟨hctl, he, c, hc, l, k, hevents, hi, stopped⟩ := tapCalEach_stopped htap
    exact ⟨hctl, he, c, hc, l, k, hevents, .inl ⟨hi, stopped⟩⟩
  · by_cases h0 : calibrateMask s.inst mask w0 ≠ 0
    · rw [if_pos h0] at hsync
      obtain ⟨hctl, he, c, hc, l, k, hevents, hi, stopped⟩ := syncPass_stopped h32 hu hsync
      exact ⟨hctl, he, c, hc, l, k, hevents, .inr ⟨hi, stopped⟩⟩
    · rw [if_neg h0] at hsync
      cases hsync

end

/-- Settles O53: the preconditions, then the script that fails in a tap calibration or in the
synchronization pass; an abort is of one of these two kinds. -/
theorem calibrateAborts : Obligations.CalibrateAborts := by
  intro s mask hm
  refine ⟨?unprogrammed, fun hp w0 rest hw => ⟨?unlocked, ?locked⟩⟩
  case unprogrammed =>
    intro hp
    refine ⟨_, execCalibrate_unprogrammed hm hp, raise_aborted _ _ _, ⟨⟨rfl, rfl, rfl⟩, rfl, rfl⟩,
      rfl, ?_⟩
    simp [State.askProgrammed]
  case unlocked =>
    intro hl
    exact ⟨_, execCalibrate_unlocked hm hp hw hl, raise_aborted _ _ _,
      ⟨⟨rfl, rfl, rfl⟩, rfl, rfl⟩, rfl, prechecked_events s⟩
  case locked =>
    intro hI hl
    have he := execCalibrate_locked hm hp hw hl
    have h32 : s.inst.syncRetries < 32 := Nat.lt_succ_of_le (syncRetriesOk_of _ hI)
    have aborted {e : ErrCode} {i : Word}
        (h : ∃ t, calibrateBody mask w0 (prechecked s) = .abort e i t) :
        ∃ t, exec (.calibrate mask) s = .next t ∧ Aborted t e i := by
      obtain ⟨t, ht⟩ := h
      exact ⟨t.raise e i, by rw [he, ht]; rfl, raise_aborted e i t⟩
    dsimp only
    rw [← calibrateCount_eq]
    refine ⟨?inTapCal, ?inSync, ?converse⟩
    case inTapCal =>
      intro c hc k hk hs
      exact aborted (calibrateBody_fails_tapCal hc hk hs)
    case inSync =>
      intro c hc k hk good frames hcap hlen hg hs
      exact aborted (calibrateBody_fails_sync h32 hc hk hcap hlen hg hs)
    case converse =>
      intro t ht herr
      cases he.symm.trans ht
      cases hr : calibrateBody mask w0 (prechecked s) with
      | done u =>
        rw [hr] at herr
        exact absurd rfl herr
      | abort e i u =>
        obtain ⟨hctl, rfl, c, hc, l, k, hevents, ⟨rfl, stopped⟩ | ⟨rfl, stopped⟩⟩ :=
          calibrateBody_stopped h32 hr
        · exact ⟨rfl, hctl, c, hc, l, k, hevents, .inl ⟨stopped.bound, stopped.captures, rfl,
            stopped.syncStatus, stopped.undecided, stopped.windows,
            fun d hdc hd => raise_rows (stopped.rows d hdc hd)⟩⟩
        · exact ⟨rfl, hctl, c, hc, l, k, hevents, .inr ⟨stopped.bound, stopped.events, rfl,
            stopped.attempted, stopped.windows, fun d hd => raise_rows (stopped.rows d hd)⟩⟩

end Sys2Proof.Machine

/-! SUPPORT. The window detector: the good taps in ascending order, how far apart they lie, and the
middle one (rules R217, R220, R221). -/

namespace Sys2Proof.Machine

open Sys2Proof.Safety

/-! ## The good taps of a map -/

theorem mem_goodTaps {g : Word} {u : Nat} : u ∈ goodTaps g ↔ g.getLsbD u = true := by
  rw [goodTaps, List.mem_filter, List.mem_range]
  exact and_iff_right_of_imp BitVec.lt_of_getLsbD

theorem goodTaps_ascending (g : Word) : (goodTaps g).Pairwise (· < ·) :=
  List.pairwise_lt_range.filter _

theorem goodTaps_eq_nil_iff {g : Word} : goodTaps g = [] ↔ g = 0 := by
  rw [List.eq_nil_iff_forall_not_mem]
  simp only [mem_goodTaps, Bool.not_eq_true]
  constructor
  · exact fun h => BitVec.eq_of_getLsbD_eq fun i _ => (h i).trans BitVec.getLsbD_zero.symm
  · rintro rfl u
    exact BitVec.getLsbD_zero

theorem goodTaps_getElem_le {g : Word} {i j : Nat} (hij : i ≤ j) (hj : j < (goodTaps g).length) :
    (goodTaps g)[i] ≤ (goodTaps g)[j] := by
  rcases Nat.lt_or_eq_of_le hij with h | rfl
  · exact Nat.le_of_lt (List.pairwise_iff_getElem.mp (goodTaps_ascending g) i j _ hj h)
  · exact Nat.le_refl _

/-- The first and the last good tap are the two that lie furthest apart. -/
theorem goodTaps_spread {g : Word} (h : 0 < (goodTaps g).length) (span : Nat) :
    span < (goodTaps g)[(goodTaps g).length - 1] - (goodTaps g)[0] ↔
      ∃ a b, g.getLsbD a = true ∧ g.getLsbD b = true ∧ span < b - a := by
  constructor
  · intro hs
    exact ⟨_, _, mem_goodTaps.mp (List.getElem_mem h), mem_goodTaps.mp (List.getElem_mem _), hs⟩
  · rintro ⟨a, b, ha, hb, hs⟩
    obtain ⟨i, hi, rfl⟩ := List.mem_iff_getElem.mp (mem_goodTaps.mpr ha)
    obtain ⟨j, hj, rfl⟩ := List.mem_iff_getElem.mp (mem_goodTaps.mpr hb)
    have first := goodTaps_getElem_le (Nat.zero_le i) hi
    have last := goodTaps_getElem_le (g := g) (i := j) (j := (goodTaps g).length - 1) (by omega)
      (by omega)
    omega

/-- A good tap stands in the list right after the good taps below it. -/
theorem goodTaps_split {g : Word} {u : Nat} (h : g.getLsbD u = true) :
    ∃ above, goodTaps g = (List.range u).filter (fun v => g.getLsbD v) ++ u :: above := by
  obtain ⟨k, hk⟩ := Nat.exists_eq_add_of_lt (BitVec.lt_of_getLsbD h)
  refine ⟨(List.range' (u + 1) k).filter (fun v => g.getLsbD v), ?_⟩
  have taps : List.range 32 = List.range u ++ u :: List.range' (u + 1) k := by
    rw [hk, List.range_eq_range', List.range_eq_range', Nat.add_assoc u k 1,
      ← List.range'_append_1, Nat.zero_add, List.range'_succ]
  rw [goodTaps, taps, List.filter_append, List.filter_cons_of_pos h]

/-- The good tap of index `i` has `i` good taps below it. -/
theorem countP_below_goodTap {g : Word} {i : Nat} (hi : i < (goodTaps g).length) :
    (List.range (goodTaps g)[i]).countP (fun v => g.getLsbD v) = i := by
  obtain ⟨above, split⟩ := goodTaps_split (mem_goodTaps.mp (List.getElem_mem hi))
  generalize hu : (goodTaps g)[i] = u at split
  rw [List.countP_eq_length_filter]
  have place : (goodTaps g)[((List.range u).filter (fun v => g.getLsbD v)).length]? = some u := by
    rw [split]
    simp
  have nodup : (goodTaps g).Nodup := (goodTaps_ascending g).imp Nat.ne_of_lt
  obtain ⟨hj, hu'⟩ := List.getElem?_eq_some_iff.mp place
  exact (List.Nodup.getElem_inj_iff nodup).mp (hu'.trans hu.symm)

/-! ## The three results -/

theorem window_zero (span : Nat) : window span 0 = .indEmpty := by
  unfold window
  rw [goodTaps_eq_nil_iff.mpr rfl]
  rfl

/-- The result of a map with a good tap (rule R220). -/
theorem window_of_good (span : Nat) {g : Word} (h : 0 < (goodTaps g).length) : window span g =
    if span < (goodTaps g)[(goodTaps g).length - 1] - (goodTaps g)[0] then .indWrapped
    else .tap (BitVec.ofNat 5 (goodTaps g)[(goodTaps g).length / 2]) := by
  unfold window
  have entry (i : Nat) (hi : i < (goodTaps g).length) : (goodTaps g).getD i 0 = (goodTaps g)[i] :=
    (List.getElem_eq_getD 0).symm
  simp only [if_neg (Nat.ne_of_gt h), entry _ h, entry _ (Nat.sub_one_lt_of_lt h),
    entry _ (Nat.div_lt_self h Nat.one_lt_two), gt_iff_lt]

theorem window_ne_none (span : Nat) (g : Word) : window span g ≠ .none := by
  unfold window
  dsimp only
  split
  · exact CalResult.noConfusion
  · split <;> exact CalResult.noConfusion

/-- Settles O42: the ends of the list of good taps decide between the results, and its middle entry has
half of the list below it. -/
theorem windowSelectsTheMiddleGoodTap : Obligations.WindowSelectsTheMiddleGoodTap := by
  intro span g
  refine ⟨?empty, ?wrapped, ?middle⟩
  case empty =>
    rintro rfl
    exact window_zero span
  case wrapped =>
    intro a b _ _ ha hb hs
    have h : 0 < (goodTaps g).length := List.length_pos_of_mem (mem_goodTaps.mpr ha)
    rw [window_of_good span h, if_pos ((goodTaps_spread h span).mpr ⟨a, b, ha, hb, hs⟩)]
  case middle =>
    intro hg narrow
    have h : 0 < (goodTaps g).length := List.length_pos_of_ne_nil (mt goodTaps_eq_nil_iff.mp hg)
    have inside : ¬ span < (goodTaps g)[(goodTaps g).length - 1] - (goodTaps g)[0] := by
      rw [goodTaps_spread h]
      rintro ⟨a, b, ha, hb, hs⟩
      exact Nat.not_lt.mpr (narrow a b ha hb) hs
    have hi : (goodTaps g).length / 2 < (goodTaps g).length := Nat.div_lt_self h (by decide)
    have good := mem_goodTaps.mp (List.getElem_mem hi)
    have tap : (BitVec.ofNat 5 (goodTaps g)[(goodTaps g).length / 2]).toNat =
        (goodTaps g)[(goodTaps g).length / 2] := by
      rw [BitVec.toNat_ofNat, Nat.mod_eq_of_lt (BitVec.lt_of_getLsbD good)]
    refine ⟨_, (window_of_good span h).trans (if_neg inside), ?_, ?_⟩
    · rw [tap]
      exact good
    · rw [tap, countP_below_goodTap hi, List.countP_eq_length_filter]
      rfl

end Sys2Proof.Machine

/-! SUPPORT. The alignment of the deserializers in a tap calibration (rules R83, R214, R227). -/

namespace Sys2Proof.Machine

open Sys2Proof.Safety

/-- In a tap calibration of chip `c` from `s` to `u`: the chip's alignment has advanced once when
`slipped`, which is what HEUR_SLIP of the chip says, and no other alignment has changed (rules R214,
R227). -/
structure Aligned (c : ChipId) (slipped : Bool) (s u : State) : Prop where
  inst : u.inst = s.inst
  slips : ∀ d : ChipId, u.board.slips[d] =
    s.board.slips[d] + if d = c ∧ slipped = true then 1 else 0
  recorded : u.tables.heurSlip.getLsbD c.val = slipped

namespace Aligned

variable {c : ChipId} {b : Bool} {s u v : State}

/-- What touches no deserializer and no bit of HEUR_SLIP keeps the alignment. -/
theorem keep (h : Aligned c b s u) (hi : v.inst = u.inst) (hs : v.board.slips = u.board.slips)
    (ht : v.tables.heurSlip = u.tables.heurSlip) : Aligned c b s v where
  inst := hi.trans h.inst
  slips d := by rw [hs]; exact h.slips d
  recorded := by rw [ht]; exact h.recorded

/-- The probes start with the chip's bit of HEUR_SLIP cleared (rules R211, R212). -/
theorem probing (c : ChipId) (s : State) : Aligned c false s (tapCalProbing c s) := by
  obtain ⟨hinst, -, -, -, htables, -⟩ := tapCalProbing_eq c s
  have slips : (tapCalProbing c s).board.slips = s.board.slips := writeRegisters_slips _ _
  refine ⟨hinst, fun d => by simp [slips], ?_⟩
  rw [htables]
  exact (writeMaskBit_getLsbD _ c c false).trans (if_pos rfl)

variable (hI : InstanceOk s.inst)
include hI

theorem setDelayTap (h : Aligned c b s u) (tap lm : Byte) :
    Aligned c b s (u.setDelayTap c tap lm) := by
  obtain ⟨-, -, slips⟩ := setDelayTap_devices c tap lm u (by rw [h.inst]; exact hI)
  exact h.keep (State.setDelayTap_inst c tap lm u) slips
    (congrArg Tables.heurSlip (State.setDelayTap_tables c tap lm u))

/-- A probe, whether or not a capture of it fails, is a SetDelayTap and captures (rules R195, R213). -/
theorem probeTap (h : Aligned c b s u) (n : Nat) : Aligned c b s (probeTap c n u).state := by
  have set := (h.keep (v := u.mapWork (fun w => { w with tapCnt := BitVec.ofNat 6 n }))
    rfl rfl rfl).setDelayTap hI (BitVec.ofNat 8 n) 0xFF
  have captured {k : Nat} {t : State} (only : OnlyCaptures c u.ctl.cfgSnapLen.toNat k _ t) :
      Aligned c b s t := set.keep only.inst (congrArg Board.slips only.board)
    (congrArg Tables.heurSlip only.tables)
  rcases probeTap_cases c n u with ⟨k, t, -, hr, only⟩ | ⟨t, Ss, hr, probed⟩
  · rw [hr]
    exact captured only
  · rw [hr]
    exact captured probed.only

theorem probeExtremes (h : Aligned c b s u) : Aligned c b s (probeExtremes c u).state :=
  Run.andThen_state _ _ _ (h.probeTap hI 0) fun s0 _ h0 =>
    Run.andThen_state _ _ _
      ((h0.keep (v := s0.mapWork (fun w => { w with acc0 := w.acc })) rfl rfl rfl).probeTap hI 31)
      fun _ _ h31 => h31.keep rfl rfl rfl

theorem sweepTaps (ts : List (Fin 32)) (h : Aligned c b s u) :
    Aligned c b s (sweepTaps c ts u).state := by
  induction ts generalizing u with
  | nil => exact h
  | cons tap ts ih =>
    exact Run.andThen_state _ _ _ (h.probeTap hI tap.val) fun _ _ hv => ih (hv.keep rfl rfl rfl)

theorem sweep (h : Aligned c b s u) : Aligned c b s (sweep c u).state :=
  Run.andThen_state _ _ _ (h.sweepTaps hI _) fun _ _ hv => hv.keep rfl rfl rfl

theorem applyLane (h : Aligned c b s u) (R : Lanes CalResult) (li : LaneId) :
    Aligned c b s (u.applyLane c R li) := by
  have named := h.keep (v := u.mapWork (fun w => { w with liCnt := BitVec.ofNat 4 li.val }))
    rfl rfl rfl
  unfold State.applyLane
  cases R[li] with
  | tap t => exact named.setDelayTap hI _ _
  | none => exact named
  | indEmpty => exact named
  | indWrapped => exact named

theorem decideAndApply (h : Aligned c b s u) : Aligned c b s (u.decideAndApply c) := by
  have decided := h.keep (v := ((u.setFsm .calDecide).mapTables (fun T =>
    { T with calResult := T.calResult.set c (decideLanes c u) })).setFsm .calApply) rfl rfl rfl
  exact (List.foldlRecOn allLanes (State.applyLane c (decideLanes c u)) decided
    fun _ hv li _ => hv.applyLane hI _ li).keep rfl rfl rfl

/-- The one bitslip of a tap calibration is the heuristic's, which records it (rule R214). -/
theorem heuristic (hc : c.val < s.inst.nchips) (h : Aligned c false s u) :
    Aligned c (straddles u.work.acc0 u.work.acc31) s (u.heuristic c) := by
  unfold State.heuristic
  split
  · rename_i slipping
    rw [slipping]
    refine ⟨(State.bitslipPulse_inst c _).trans h.inst, fun d => ?_,
      (writeMaskBit_getLsbD _ c c true).trans (if_pos rfl)⟩
    have pulse := bitslipPulse_slips c (u.setFsm .calSlip)
      (by rw [State.setFsm_inst, h.inst]; exact hI) (by rw [State.setFsm_inst, h.inst]; exact hc) d
    rw [State.setFsm_board, h.slips d] at pulse
    show ((u.setFsm .calSlip).bitslipPulse c).board.slips[d] = _
    simpa using pulse
  · rename_i still
    rw [Bool.eq_false_iff.mpr still]
    exact h

end Aligned

/-- A tap calibration, whether or not it goes on to its end, advances the alignment of its chip by
HEUR_SLIP, and no other (rule R227). -/
theorem tapCalBody_aligned (c : ChipId) {s : State} (hI : InstanceOk s.inst)
    (hc : c.val < s.inst.nchips) : ∃ b, Aligned c b s (tapCalBody c s).state := by
  have probes := (Aligned.probing c s).probeExtremes hI
  refine Run.andThen_state (fun u => ∃ b, Aligned c b s u) _ _ ⟨false, probes⟩ fun u hu _ => ?_
  have probed : Aligned c false s u := by
    have e : probeExtremes c (tapCalProbing c s) = .done u := hu
    rw [e] at probes
    exact probes
  have slipped := (probed.heuristic hI hc).keep (v := (u.heuristic c).setFsm .calSweep) rfl rfl rfl
  exact ⟨_, Run.andThen_state _ _ _ (slipped.sweep hI) fun _ _ hq => hq.decideAndApply hI⟩

/-- The end of a command does not touch the board (rules R289, R290). -/
theorem finish_board (r : Run) (d : State → ResponseData) :
    (r.finish d).board = r.state.board := by
  cases r <;> rfl

/-- Settles O46: both ends of the calibration are aligned, and the end of the command changes neither the
board nor the tables. -/
theorem tapCalSlipsAtMostOnce : Obligations.TapCalSlipsAtMostOnce := by
  intro s t chip hI hc he d
  obtain ⟨b, aligned⟩ := tapCalBody_aligned (chipOfBits chip) hI hc
  cases (execTapCal_valid hc).symm.trans he
  have chosen : d = chipOfBits chip ↔ d.val = chip.toNat := Fin.ext_iff
  have recorded : ((tapCalBody (chipOfBits chip) s).finish
      (calResultData (chipOfBits chip))).tables.heurSlip.getLsbD chip.toNat = b := by
    rw [finish_tables]
    exact aligned.recorded
  rw [recorded, finish_board, aligned.slips d]
  simp only [chosen]

end Sys2Proof.Machine

/-! SUPPORT. The events of a tap calibration, counted (rules R132, R172, R177, R225). -/

namespace Sys2Proof.Machine

open Sys2Proof.Safety

/-- The list has `w` word writes, `e` settles, `k` captures and no other event. -/
structure Tally (w e k : Nat) (l : List Event) : Prop where
  writes : l.countP isWrite = w
  settles : l.count .settle = e
  captures : l.countP isCapture = k
  length : l.length = w + e + k

theorem Tally.append {w e k w' e' k' : Nat} {l l' : List Event} (h : Tally w e k l)
    (h' : Tally w' e' k' l') : Tally (w + w') (e + e') (k + k') (l ++ l') where
  writes := by rw [List.countP_append, h.writes, h'.writes]
  settles := by rw [List.count_append, h.settles, h'.settles]
  captures := by rw [List.countP_append, h.captures, h'.captures]
  length := by rw [List.length_append, h.length, h'.length]; omega

theorem Tally.cast {w e k w' e' k' : Nat} {l : List Event} (h : Tally w e k l) (hw : w = w')
    (he : e = e') (hk : k = k') : Tally w' e' k' l := by
  subst hw he hk
  exact h

theorem Tally.nil : Tally 0 0 0 [] := ⟨rfl, rfl, rfl, rfl⟩

/-- Lists with the same tally, one for each element of a list. -/
theorem Tally.flatMap {α : Type} {w e k : Nat} {f : α → List Event} (h : ∀ a, Tally w e k (f a))
    (as : List α) :
    Tally (as.length * w) (as.length * e) (as.length * k) (as.flatMap f) := by
  induction as with
  | nil => simpa using Tally.nil
  | cons a as ih =>
    simpa only [List.flatMap_cons, List.length_cons, Nat.succ_mul, Nat.add_comm] using
      (h a).append ih

/-- What the events between two states count is the tally of their list. -/
theorem EventDelta.tally {w e k : Nat} {s t : State} {l : List Event} (h : EventDelta w e k s t)
    (hl : t.events = s.events ++ l) : Tally w e k l := by
  obtain ⟨l', events, hw, he, hk, length⟩ := h.grows
  obtain rfl := List.append_cancel_left (hl.symm.trans events)
  exact ⟨hw, he, hk, length⟩

theorem tally_captures (c : ChipId) (n len : Nat) :
    Tally 0 0 n (List.replicate n (.capture c len)) where
  writes := by simp [List.countP_replicate, isWrite]
  settles := by simp [List.count_replicate]
  captures := by simp [List.countP_replicate, isCapture]
  length := by simp

section

variable (s : State) (c : ChipId)

/-- A probe: one SetDelayTap, and its captures (rules R213, R216). -/
theorem tally_probe (n len u : Nat) :
    Tally (tapWrites s.inst.layout) 1 n (probeEvents s.inst.layout c n len u) := by
  have set := (setDelayTap_delta c (BitVec.ofNat 8 u) 0xFF s).tally
    (setDelayTap_delayTapEvents c _ _ s)
  exact (set.append (tally_captures c n len)).cast rfl rfl (Nat.zero_add n)

/-- The heuristic bitslip (rules R177, R214). -/
theorem tally_slip (slip : Bool) : Tally (3 * if slip = true then 1 else 0)
    (if slip = true then 1 else 0) 0 (if slip then bitslipEvents s.inst.layout c else []) := by
  cases slip with
  | false => exact Tally.nil
  | true => exact (bitslipPulse_delta c s).tally (bitslipPulse_bitslipEvents c s)

/-- The numbers of rule R225, for any heuristic bit and any results. -/
theorem tally_tapCalEvents (slip : Bool) (R : Lanes CalResult) :
    Tally (50 * s.inst.chipRegs.deskewWrites.length + 34 * tapWrites s.inst.layout +
        3 * (if slip = true then 1 else 0) +
        R.toList.countP CalResult.determinate * tapWrites s.inst.layout)
      (34 + (if slip = true then 1 else 0) + R.toList.countP CalResult.determinate)
      (34 * s.ctl.cfgIter.toNat) (tapCalEvents s.inst s.ctl c slip R) := by
  have deskew := (writeRegisters_delta s.inst.chipRegs.deskewWrites s).tally
    (writeRegisters_serialEvents _ s)
  have probe := tally_probe s c s.ctl.cfgIter.toNat s.ctl.cfgSnapLen.toNat
  have sweep := Tally.flatMap probe (List.range 32)
  have latch := (applyTaps_delta c R s).tally (applyTaps_events c R s)
  have slipped := tally_slip s c slip
  generalize (if slip = true then 1 else 0) = h at slipped ⊢
  have all := ((((deskew.append (probe 0)).append (probe 31)).append slipped).append sweep).append latch
  rw [List.length_range] at all
  exact all.cast (by omega) (by omega) (by omega)

end

/-- Results that are windows are determinate unless they say otherwise (rules R220, R223). -/
theorem countP_determinate {R : Lanes CalResult} (h : ∀ li : LaneId, R[li] ≠ .none) :
    R.toList.countP CalResult.determinate =
      R.toList.countP (fun r => decide (r ≠ .indEmpty ∧ r ≠ .indWrapped)) := by
  refine List.countP_congr fun r hr => ?_
  obtain ⟨i, hi, rfl⟩ := Vector.mem_iff_getElem.mp (Vector.mem_toList_iff.mp hr)
  have decided : R[i] ≠ .none := h ⟨i, hi⟩
  cases hcase : R[i] with
  | tap u => simp [CalResult.determinate]
  | none => exact absurd hcase decided
  | indEmpty => simp [CalResult.determinate]
  | indWrapped => simp [CalResult.determinate]

/-- A TAP_CAL that ends without an error went on to its end (rules R224, R228). -/
theorem tapCalBody_of_ok {s t : State} {chip : BitVec 3} (hc : chipValid s.inst chip)
    (he : exec (.tapCal chip) s = .next t) (hok : t.status.lastErr = .ok) :
    ∃ u, tapCalBody (chipOfBits chip) s = .done u ∧
      t = u.complete (calResultData (chipOfBits chip) u) := by
  cases hr : tapCalBody (chipOfBits chip) s with
  | done u =>
    cases (execTapCal_done hc hr).symm.trans he
    exact ⟨u, rfl, rfl⟩
  | abort e i u =>
    cases (execTapCal_abort hc hr).symm.trans he
    obtain ⟨k, rfl, -, -⟩ := tapCalBody_stopped hr
    cases hok

/-- Settles O47: the events of the parts, counted. (In a namespace of its own: Safety.lean has a
`tapCalEvents`.) -/
theorem TapCal.tapCalEvents : Obligations.TapCalEvents := by
  intro s t chip _ hc he hok
  obtain ⟨u, hu, rfl⟩ := tapCalBody_of_ok hc he hok
  have called := tapCalBody_called _ _ _ hu
  have windows := tapCalBody_windows hu
  obtain ⟨writes, settles, captures, length⟩ := tally_tapCalEvents s (chipOfBits chip)
    (u.tables.heurSlip.getLsbD chip.toNat) u.tables.calResult[chipOfBits chip]
  rw [countP_determinate fun li => windows li ▸ window_ne_none _ _] at writes settles length
  refine ⟨called.events, writes, settles, captures, length.trans ?_⟩
  exact (congrArg₂ _ (congrArg₂ _ writes settles) captures).symm

end Sys2Proof.Machine

/-! SUPPORT. The delay taps after a tap calibration (rules R82, R174, R223, R226). -/

namespace Sys2Proof.Machine

open Sys2Proof.Safety

/-- The tap that a lane is left at: its result, or the last tap of the sweep (rule R226). -/
def CalResult.leftAt : CalResult → Tap
  | .tap u => u
  | .none => 31
  | .indEmpty => 31
  | .indWrapped => 31

section

variable {c : ChipId} {s : State} (hI : InstanceOk s.inst)
include hI

theorem tapCalProbing_taps : (tapCalProbing c s).board.taps = s.board.taps := by
  obtain ⟨-, -, strobes⟩ := strobeWordsOk_of _ hI
  exact writeRegisters_taps _ _ fun h0 => (strobes 0 h0).1 rfl

theorem heuristic_taps : (s.heuristic c).board.taps = s.board.taps := by
  obtain ⟨-, -, strobes⟩ := strobeWordsOk_of _ hI
  unfold State.heuristic
  split
  · obtain ⟨-, -, taps⟩ := bitslipPulse_devices c (s.setFsm .calSlip)
    exact taps fun h1 => (strobes 1 h1).2 rfl
  · rfl

/-- The latches of step 5, where the sweep has left every lane of the chip at 31 (rules R223, R226). -/
theorem decideAndApply_taps (hc : c.val < s.inst.nchips)
    (h : ∀ li : LaneId, s.board.taps[c][li] = 31) (d : ChipId) (li : LaneId) :
    (s.decideAndApply c).board.taps[d][li] =
      if d = c then (decideLanes c s)[li].leftAt else s.board.taps[d][li] := by
  obtain ⟨-, latched⟩ := applyLanes_taps hI c hc (decideLanes c s) allLanes
    (((s.setFsm .calDecide).mapTables (fun T =>
      { T with calResult := T.calResult.set c (decideLanes c s) })).setFsm .calApply) rfl
  refine (latched d li).trans ?_
  by_cases hd : d = c
  · subst hd
    rw [if_pos ⟨rfl, mem_allLanes li⟩, if_pos rfl]
    cases (decideLanes d s)[li] with
    | tap u => rfl
    | none => exact h li
    | indEmpty => exact h li
    | indWrapped => exact h li
  · rw [if_neg (fun e => hd e.1), if_neg hd]
    rfl

/-- Before step 5 the chip's lanes hold 31, the last tap of the sweep (rules R216, R226). -/
theorem TapCalParts.taps {t s0 s31 q : State} {A0 A31 : List Samples}
    {Ss : Fin 32 → List Samples} (hc : c.val < s.inst.nchips)
    (P : TapCalParts c s t s0 s31 q A0 A31 Ss) (d : ChipId) (li : LaneId) :
    t.board.taps[d][li] =
      if d = c then t.tables.calResult[c][li].leftAt else s.board.taps[d][li] := by
  obtain ⟨pi, -, -, -, -, -⟩ := tapCalProbing_eq c s
  obtain ⟨ui, -, -, -, -⟩ := P.sweepStart
  have i0 : s0.inst = s.inst := P.probe0.inst.trans pi
  have i31 : s31.inst = s.inst := P.probe31.inst.trans i0
  have probe0 := P.probe0.taps hI hc pi (by decide) d li
  have probe31 := P.probe31.taps hI hc i0 (by decide) d li
  have slip := heuristic_taps (c := c) (s := s31.mapWork (fun w => { w with acc31 := w.acc }))
    (by rw [State.mapWork_inst, i31]; exact hI)
  have swept (d : ChipId) (li : LaneId) := sweepTaps_taps hI c hc _ _ _ ui P.sweepRun d li
  have result : t.tables.calResult[c] =
      decideLanes c (q.mapWork (fun w => { w with tapCnt := 32 })) := by
    rw [P.final, decideAndApply_tables]
    exact row_set_same _ c _
  have qi : q.inst = s.inst := (swept d li).1
  have last : (List.finRange 32).getLast? = some 31 := by decide
  simp only [last] at swept
  have latched := decideAndApply_taps (s := q.mapWork (fun w => { w with tapCnt := 32 }))
    (by rw [State.mapWork_inst, qi]; exact hI) (by rw [State.mapWork_inst, qi]; exact hc)
    (fun li => (swept c li).2.trans (if_pos rfl)) d li
  rw [result, P.final, latched]
  by_cases hd : d = c
  · rw [if_pos hd, if_pos hd]
  · rw [if_neg hd, if_neg hd, State.mapWork_board, (swept d li).2, if_neg hd, State.setFsm_board,
      slip, State.mapWork_board, probe31, if_neg hd, State.mapWork_board, probe0, if_neg hd,
      tapCalProbing_taps hI]

end

/-- Settles O48: the taps that the parts of the calibration leave. -/
theorem tapCalLeavesTheChosenTaps : Obligations.TapCalLeavesTheChosenTaps := by
  intro s t chip hI hc he hok d li
  obtain ⟨u, hu, rfl⟩ := tapCalBody_of_ok hc he hok
  obtain ⟨s0, s31, q, A0, A31, Ss, P⟩ := tapCalBody_done _ _ _ hu
  refine (P.taps (c := chipOfBits chip) hI hc d li).trans ?_
  by_cases hd : d = chipOfBits chip
  · subst hd
    rw [if_pos rfl, if_pos rfl]
    rfl
  · rw [if_neg hd, if_neg hd]

end Sys2Proof.Machine

/-! SUPPORT. CALIBRATE whose captures succeed: its tap calibrations and its synchronization pass go on to
their end (rules R243, R250 to R255). -/

namespace Sys2Proof.Machine

open Sys2Proof.Safety

/-- `mask & ones(n)` names chips of the board alone (rules R105, R253). -/
theorem calibrateMask_valid (I : Instance) (mask : Byte) (w0 : Word) :
    maskValid I (calibrateMask I mask w0) := by
  refine maskValid_of_present fun c hc => ?_
  rw [calibrateMask, BitVec.getLsbD_and, onesMask_bit _ c.isLt, Bool.and_eq_true,
    decide_eq_true_eq] at hc
  exact Nat.lt_of_lt_of_le hc.2 (Nat.min_le_right ..)

/-- WARN_SEC, from the fields of word 0 (rule R252). -/
theorem warnSecondary_iff (I : Instance) (w0 : Word) : warnSecondary I w0 = true ↔
    5 ≤ calibrateCount I w0 ∧ w0.getLsbD I.layout.secondaryLockBit = false := by
  rw [warnSecondary, Bool.and_eq_true, decide_eq_true_eq, Bool.not_eq_true', secondaryLock]
  rfl

/-- What CALIBRATE writes of the control and status registers is WARN_SEC, whether or not it goes on to its
end (rules R250, R252, R255). -/
theorem calibrateBody_registers (mask : Byte) (w0 : Word) (s : State) :
    let t := (calibrateBody mask w0 (prechecked s)).state
    t.inst = s.inst ∧ t.port = s.port ∧ t.ctl = s.ctl ∧
      t.status.warnSec = warnSecondary s.inst w0 := by
  have parts := KeptByParts.of_registers (fun I K w _ ws =>
    I = s.inst ∧ ws = s.port ∧ K = s.ctl ∧ w = warnSecondary s.inst w0)
  refine calibrateBody_state (P := fun u => u.inst = s.inst ∧ u.port = s.port ∧ u.ctl = s.ctl ∧
    u.status.warnSec = warnSecondary s.inst w0) ⟨rfl, rfl, rfl, rfl⟩ (fun c _ u hu => ?_)
    (fun u hu => ?_)
  · exact parts.tapCalBody_keeps (fun _ hv => hv) (fun _ hv => hv) (fun _ _ _ hv => hv)
      (fun _ _ hv => hv) hu
  · exact parts.syncVerifyBody_keeps hu (fun _ _ _ _ hv => hv)

/-- What the synchronization of the chips `cs`, after their tap calibrations, leaves: nothing to do where
there is none (rules R243, R253, R254). -/
structure SyncPassed (k : ChipId → Nat) (cs : List ChipId) (s t : State) : Prop where
  retries : ∀ c, k c ≤ s.inst.syncRetries
  inst : t.inst = s.inst
  tables : ∃ v, t.tables = { s.tables with syncStatus := v }
  events : t.events = s.events ++
    if cs = [] then [] else syncEvents s.inst s.ctl.csMask k cs
  attempted : ∀ c : ChipId, t.tables.syncStatus[c] ≠ .notAttempted ↔ c ∈ cs

theorem SyncPassed.none {s : State} (h : ∀ c : ChipId, s.tables.syncStatus[c] = .notAttempted) :
    SyncPassed (fun _ => 0) [] s s where
  retries _ := Nat.zero_le _
  inst := rfl
  tables := ⟨_, rfl⟩
  events := by simp
  attempted c := by simp [h c]

/-- A synchronization pass over a chip or more whose captures succeed (rules R240, R243). -/
theorem syncVerifyBody_passes {s : State} (mask : Byte) (h32 : s.inst.syncRetries < 32)
    (hne : chipsOf s.inst mask ≠ []) (h : CapturesSucceed (8 * (s.inst.syncRetries + 1)) s) :
    ∃ k t, syncVerifyBody mask s = .done t ∧ SyncPassed k (chipsOf s.inst mask) s t := by
  obtain ⟨n, t, ht, synced⟩ := syncVerifyBody_succeeds mask h32 h
  have bus := syncVerifying_onlyBus s
  have inst : (syncVerifying s).inst = s.inst := bus.inst
  have retries : ∀ c ∈ chipsOf s.inst mask, min (n c) s.inst.syncRetries = n c :=
    fun c hc => Nat.min_eq_left (inst ▸ synced.retries c hc)
  refine ⟨fun c => min (n c) s.inst.syncRetries, t, ht, fun c => Nat.min_le_right ..,
    synced.inst.trans inst, ?tables, ?events, ?attempted⟩
  case tables =>
    obtain ⟨v, others⟩ := synced.others
    exact ⟨v, by rw [others, bus.tables]; rfl⟩
  case events =>
    rw [if_neg hne]
    exact synced.syncEvents retries
  case attempted =>
    intro c
    by_cases hc : c ∈ chipsOf s.inst mask
    · exact iff_of_true (synced.attempted c hc).1 hc
    · refine iff_of_false (not_not_intro ((synced.rest c hc).trans ?_)) hc
      rw [bus.tables]
      exact clearSync_syncStatus s c

/-- What a CALIBRATE of the chips `cs` leaves that goes on to its end (rules R250 to R254). -/
structure Calibrated (k : ChipId → Nat) (cs : List ChipId) (s t : State) : Prop where
  retries : ∀ c, k c ≤ s.inst.syncRetries
  attempted : ∀ c : ChipId, t.tables.syncStatus[c] ≠ .notAttempted ↔ c ∈ cs
  windows : ∀ c ∈ cs, HasWindows c t
  rows : ∀ c : ChipId, c ∉ cs → KeepsChipRows c s t
  events : t.events = s.events ++ [.isProgrammed, .memRead 0] ++
    cs.flatMap (fun c => tapCalEvents s.inst s.ctl c (t.tables.heurSlip.getLsbD c.val)
      t.tables.calResult[c]) ++
    if cs = [] then [] else syncEvents s.inst s.ctl.csMask k cs

section

variable {s : State} {mask : Byte} {w0 : Word}

/-- The tap calibrations of a CALIBRATE and the synchronization pass after them make the whole. -/
theorem SyncPassed.calibrated {k : ChipId → Nat} {cs : List ChipId} {u t : State} (hn : cs.Nodup)
    (hu : tapCalEach cs (calibrating w0 s) = .done u) (h : SyncPassed k cs u t) :
    Calibrated k cs s t := by
  have called := tapCalEach_called cs hn _ u hu
  obtain ⟨windows, rows⟩ := tapCalEach_rows hn hu
  have inst : u.inst = s.inst := called.inst
  have ctl : u.ctl = s.ctl := called.ctl
  obtain ⟨v, tables⟩ := h.tables
  have kept (c : ChipId) : KeepsChipRows c u t := by constructor <;> rw [tables]
  refine ⟨inst ▸ h.retries, h.attempted, fun c hc => hasWindows_congr (windows c hc) h.inst (kept c),
    fun c hc => keepsChipRows_trans (calibrating_rows w0 s c)
      (keepsChipRows_trans (rows c hc) (kept c)), ?_⟩
  rw [h.events, called.events, calibrating_events, inst, ctl, tables]
  rfl

/-- With enough captures that succeed, CALIBRATE goes on to its end: at most eight chips take the captures
of a tap calibration and of a synchronization each (rules R240, R250, R254, R328). -/
theorem calibrateBody_succeeds (hI : InstanceOk s.inst)
    (h : CapturesSucceed (8 * (34 * s.ctl.cfgIter.toNat + s.inst.syncRetries + 1)) s) :
    ∃ k t, calibrateBody mask w0 (prechecked s) = .done t ∧
      Calibrated k (chipsBelow mask (calibrateCount s.inst w0)) s t := by
  have chips := chipsOf_calibrateMask s.inst mask w0
  have nodup := chipsBelow_nodup mask (calibrateCount s.inst w0)
  rw [calibrateBody_eq]
  generalize chipsBelow mask (calibrateCount s.inst w0) = cs at chips nodup ⊢
  have few : cs.length ≤ 8 := chips ▸ List.length_filter_le _ allChips
  have taken : cs.length * (34 * s.ctl.cfgIter.toNat) ≤ 8 * (34 * s.ctl.cfgIter.toNat) :=
    Nat.mul_le_mul_right _ few
  obtain ⟨u, hu⟩ := tapCalEach_total cs (calibrating w0 s)
    (capturesSucceed_drop h (k := 0) rfl
      (show 0 + cs.length * (34 * s.ctl.cfgIter.toNat) ≤ _ by omega))
  have called := tapCalEach_called cs nodup _ u hu
  have inst : u.inst = s.inst := called.inst
  have empty := chipsOf_eq_nil_iff hI (calibrateMask_valid s.inst mask w0)
  rw [chips] at empty
  rw [hu, Run.done_andThen]
  by_cases h0 : calibrateMask s.inst mask w0 = 0
  · rw [if_neg (not_not_intro h0)]
    obtain rfl := empty.mpr h0
    refine ⟨_, u, rfl, (SyncPassed.none fun c => ?_).calibrated nodup hu⟩
    rw [called.syncStatus]
    exact clearSync_syncStatus _ c
  · rw [if_pos h0]
    have left : CapturesSucceed (8 * (u.inst.syncRetries + 1)) u :=
      capturesSucceed_drop h called.captures (by
        rw [inst]
        show cs.length * (34 * s.ctl.cfgIter.toNat) + _ ≤ _
        omega)
    obtain ⟨k, t, ht, passed⟩ := syncVerifyBody_passes (calibrateMask s.inst mask w0)
      (by rw [inst]; exact Nat.lt_succ_of_le (syncRetriesOk_of _ hI))
      (by rw [inst, chips]; exact mt empty.mp h0) left
    rw [inst, chips] at passed
    exact ⟨k, t, ht, passed.calibrated nodup hu⟩

end

/-- Settles O54: the tap calibrations and the synchronization pass go on, and the end of the command adds
only its response. -/
theorem calibrateReportsTheSupportedChips : Obligations.CalibrateReportsTheSupportedChips := by
  intro s mask w0 rest hI hm hp hw hl hs
  obtain ⟨k, t, ht, calibrated⟩ := calibrateBody_succeeds (mask := mask) (w0 := w0) hI hs
  obtain ⟨inst, port, ctl, warn⟩ := calibrateBody_registers mask w0 s
  rw [ht, Run.state_done] at inst port ctl warn
  have he : exec (.calibrate mask) s = .next (t.complete (syncStatusData t)) := by
    rw [execCalibrate_locked hm hp hw hl, ht]
    rfl
  refine ⟨_, he, ⟨rfl, rfl, rfl, rfl⟩, inst, port, ctl, ?_⟩
  dsimp only
  rw [← calibrateCount_eq]
  simp only [← mem_chipsBelow]
  exact ⟨warn ▸ warnSecondary_iff s.inst w0, calibrated.attempted, calibrated.windows,
    fun c hc => keepsChipRows_trans (calibrated.rows c hc) ⟨rfl, rfl, rfl⟩, exec_keepsWords he,
    k, calibrated.retries, calibrated.events⟩

end Sys2Proof.Machine

/-! SUPPORT. SYNC_VERIFY of one chip whose captures are scripted, and SYNC_VERIFY that aborts (rules R240
to R243, R247). -/

namespace Sys2Proof.Machine

open Sys2Proof.Safety

/-! ## One chip, frame by frame -/

theorem setSyncStatus_self (c : ChipId) (v : SyncStatus) (s : State) :
    (s.setSyncStatus c v).tables.syncStatus[c] = v :=
  row_set_same _ c v

/-- A scripted frame that does not match takes one round, which ends with a bitslip (rule R240). -/
theorem syncRounds_mismatch (c : ChipId) (j : Nat) (s : State) {S : Samples}
    {rest : List CaptureAnswer} (hc : s.env.captures = .ok S :: rest)
    (hS : ∀ ch : Fin 4, (S[ch]).length = 1) (hb : ¬ firstSamplesAre S s.ctl.cfgSync) :
    ∃ u, SyncSpan c 0 s u ∧ syncRounds c (j + 1) s = syncRounds c j (u.bitslipPulse c) := by
  refine ⟨_, SyncSpan.one c s .syncRound (s.inst.syncRetries - (j + 1)), ?_⟩
  rw [syncRounds_succ, syncAsking_scripted c _ _ s _ S rest hc hS]
  exact if_neg fun e => hb ((frameMatches_iff S _ hS).mp e)

/-- A scripted frame that matches, or that is the re-check's, is the last one (rules R240, R241). -/
theorem syncRounds_last (c : ChipId) (j : Nat) (s : State) {S : Samples}
    {rest : List CaptureAnswer} (hc : s.env.captures = .ok S :: rest)
    (hS : ∀ ch : Fin 4, (S[ch]).length = 1) (hlast : firstSamplesAre S s.ctl.cfgSync ∨ j = 0) :
    ∃ t, syncRounds c j s = .done t ∧ SyncSpan c 0 s t ∧
      t.tables.syncStatus[c] = if firstSamplesAre S s.ctl.cfgSync then .synced else .unsynced := by
  simp only [← frameMatches_iff S _ hS] at hlast ⊢
  cases j with
  | zero =>
    rw [syncRounds_zero, syncAsking_scripted c _ _ s _ S rest hc hS]
    exact ⟨_, rfl, (SyncSpan.one ..).set _, setSyncStatus_self ..⟩
  | succ j =>
    have found := hlast.resolve_right (Nat.succ_ne_zero j)
    rw [syncRounds_succ, syncAsking_scripted c _ _ s _ S rest hc hS, if_pos found]
    exact ⟨_, if_pos found, (SyncSpan.one ..).set _, setSyncStatus_self ..⟩

/-- The synchronization of a chip takes the frames of `bad`, a bitslip after each, and stops at the frame
after them, which decides (rules R240, R241, R242). -/
theorem syncRounds_stops (c : ChipId) (j : Nat) (s : State) (bad : List Samples) (last : Samples)
    (hs : Scripted (bad ++ [last]) 1 s) (hl : bad.length ≤ j)
    (hb : ∀ S ∈ bad, ¬ firstSamplesAre S s.ctl.cfgSync)
    (hlast : firstSamplesAre last s.ctl.cfgSync ∨ bad.length = j) :
    ∃ t, syncRounds c j s = .done t ∧ SyncSpan c bad.length s t ∧
      t.tables.syncStatus[c] =
        if firstSamplesAre last s.ctl.cfgSync then .synced else .unsynced := by
  obtain ⟨⟨rest, hc⟩, one⟩ := hs
  induction bad generalizing j s with
  | nil =>
    exact syncRounds_last c j s hc (one last (List.mem_singleton_self _)) (hlast.imp_right .symm)
  | cons S bad ih =>
    obtain ⟨j, rfl⟩ := Nat.exists_eq_add_one.mpr (Nat.lt_of_lt_of_le (Nat.succ_pos _) hl)
    obtain ⟨hS, one⟩ := List.forall_mem_cons.mp one
    obtain ⟨hS', hb⟩ := List.forall_mem_cons.mp hb
    obtain ⟨u, first, next⟩ := syncRounds_mismatch c j s hc hS hS'
    have ctl : (u.bitslipPulse c).ctl = s.ctl := by rw [State.bitslipPulse_ctl, first.ctl]
    have left : (u.bitslipPulse c).env.captures = (bad ++ [last]).map .ok ++ rest := by
      rw [State.bitslipPulse_env, first.captures, hc]
      rfl
    obtain ⟨t, ht, span, status⟩ := ih j (u.bitslipPulse c) (Nat.le_of_succ_le_succ hl)
      (by rwa [ctl]) (by rw [ctl]; exact hlast.imp_right Nat.succ.inj) one left
    rw [ctl] at status
    exact ⟨t, next.trans ht, first.before span, status⟩

/-! ## The command, for one chip -/

/-- The mask of one chip names that chip alone (rule R105). -/
theorem chipsBelow_one {c : ChipId} {n : Nat} (hc : c.val < n) :
    chipsBelow (1#8 <<< c.val) n = [c] := by
  have named (d : ChipId) :
      ((1#8 <<< c.val).getLsbD d.val && decide (d.val < n)) = decide (d = c) := by
    rw [laneBit c d, Bool.and_eq_left_iff_imp, decide_eq_true_eq]
    rintro rfl
    exact decide_eq_true hc
  unfold chipsBelow
  simp only [named]
  clear hc named
  revert c
  decide

theorem maskValid_one {I : Instance} {c : ChipId} (hc : c.val < I.nchips) :
    maskValid I (1#8 <<< c.val) := by
  refine maskValid_of_present fun d hd => ?_
  rw [laneBit c d, decide_eq_true_eq] at hd
  rwa [hd]

/-- SYNC_VERIFY of one chip, whose scripted captures are frames that do not match and then the one that
ends its synchronization (rules R240, R243, R245). -/
theorem execSyncVerify_one {s : State} {c : ChipId} {bad : List Samples} {last : Samples}
    (hI : InstanceOk s.inst) (hc : c.val < s.inst.nchips) (hs : Scripted (bad ++ [last]) 1 s)
    (hl : bad.length ≤ s.inst.syncRetries) (hb : ∀ S ∈ bad, ¬ firstSamplesAre S s.ctl.cfgSync)
    (hlast : firstSamplesAre last s.ctl.cfgSync ∨ bad.length = s.inst.syncRetries) :
    ∃ t, exec (.syncVerify (1#8 <<< c.val)) s = .next t ∧
      Completed t (.syncStatus (syncStatusWord t.tables.syncStatus)) ∧
      t.tables.syncStatus[c] =
        (if firstSamplesAre last s.ctl.cfgSync then .synced else .unsynced) ∧
      (∀ d : ChipId, t.board.slips[d] = s.board.slips[d] + if d = c then bad.length else 0) ∧
      t.events = s.events ++ syncEvents s.inst s.ctl.csMask (fun _ => bad.length) [c] := by
  have bus := syncVerifying_onlyBus s
  have inst : (syncVerifying s).inst = s.inst := bus.inst
  have ctl : (syncVerifying s).ctl = s.ctl := bus.ctl
  have env : (syncVerifying s).env = s.env := bus.env
  obtain ⟨t, ht, span, status⟩ := syncRounds_stops c s.inst.syncRetries
    ((syncVerifying s).mapWork (fun w => { w with curChip := chipBits c })) bad last
    (by rwa [Scripted, State.mapWork_env, env]) hl (by rwa [State.mapWork_ctl, ctl])
    (by rwa [State.mapWork_ctl, ctl])
  have body : syncVerifyBody (1#8 <<< c.val) s = .done t := by
    show syncEach _ (syncVerifying s) = _
    rw [chipsOf_eq, chipsBelow_one hc, syncEach, syncChip, inst, ht]
    rfl
  have slips := span.slips (by rwa [State.mapWork_inst, inst]) (by rwa [State.mapWork_inst, inst])
  have events := span.events
  rw [State.mapWork_board, syncVerifying_slips] at slips
  rw [State.mapWork_inst, State.mapWork_events, syncVerifying_events, inst, List.append_assoc]
    at events
  rw [State.mapWork_ctl, ctl] at status
  refine ⟨_, execSyncVerify_done (maskValid_one hc) body, ⟨rfl, rfl, rfl, rfl⟩, status, slips, ?_⟩
  rw [complete_events, events, syncEvents, List.flatMap_singleton]

/-- Settles O50: the first match ends the synchronization, and so does the re-check, matching or not. -/
theorem syncVerifyStopsAtTheFirstMatch : Obligations.SyncVerifyStopsAtTheFirstMatch := by
  intro s c bad hI hc hb
  refine ⟨fun good hs hl hgood => ?found, fun hs hl => ?exhausted⟩
  case found =>
    have stops := execSyncVerify_one hI hc hs hl hb (.inl hgood)
    rwa [if_pos hgood] at stops
  case exhausted =>
    have nonempty : bad ≠ [] := List.ne_nil_of_length_eq_add_one hl
    obtain ⟨frames, last, rfl⟩ := (List.eq_nil_or_concat' bad).resolve_left nonempty
    have count : frames.length = s.inst.syncRetries := by simpa using hl
    obtain ⟨differ, hlast⟩ := List.forall_mem_append.mp hb
    have stops := execSyncVerify_one hI hc hs count.le differ (.inr count)
    rwa [if_neg (hlast last (List.mem_singleton_self _)), count] at stops

/-! ## A failed capture -/

theorem execSyncVerify_abort {s t : State} {mask : Byte} {e : ErrCode} {i : Word}
    (hm : maskValid s.inst mask) (ht : syncVerifyBody mask s = .abort e i t) :
    exec (.syncVerify mask) s = .next (t.raise e i) := by
  simp only [exec, execSyncVerify, if_pos hm, ht]
  rfl

/-- Settles O52: the pass stops where its script fails, and a pass that aborts stopped at a failed capture;
the end of the command adds only its response. -/
theorem syncVerifyAbortsOnAFailedCapture : Obligations.SyncVerifyAbortsOnAFailedCapture := by
  intro s mask hI hm
  have h32 : s.inst.syncRetries < 32 := Nat.lt_succ_of_le (syncRetriesOk_of _ hI)
  refine ⟨?fails, ?aborts⟩
  case fails =>
    intro c k hbit hk hs
    obtain ⟨post, split⟩ := chipsBelow_split
      (chipsOf_eq s.inst mask ▸ (mem_chipsOf_iff hI hm c).mpr hbit)
    obtain ⟨t, ht⟩ := syncVerifyBody_fails h32 ((chipsOf_eq ..).trans split) hk hs
    exact ⟨_, execSyncVerify_abort hm ht, raise_aborted ..⟩
  case aborts =>
    intro t he herr
    cases hr : syncVerifyBody mask s with
    | done u =>
      cases (execSyncVerify_done hm hr).symm.trans he
      exact absurd rfl herr
    | abort e i u =>
      cases (execSyncVerify_abort hm hr).symm.trans he
      obtain ⟨n, pre, c, post, k, split, rfl, rfl, stopped⟩ := syncVerifyBody_aborts h32 hr
      rw [chipsOf_eq] at split
      obtain ⟨hbit, hc⟩ := mem_chipsBelow.mp
        (show c ∈ chipsBelow mask s.inst.nchips by rw [split]; simp)
      obtain rfl := chipsBelow_before split
      exact ⟨rfl, c, hbit, hc, ⟨n, k, stopped.bound, stopped.retries, stopped.events, rfl⟩,
        fun d => (stopped.attempted d).trans mem_chipsBelow⟩

end Sys2Proof.Machine

/-! SUPPORT. CALIBRATE with no chip to work on (rule R253). -/

namespace Sys2Proof.Machine

open Sys2Proof.Safety

/-- With no chip of the mask below the count, CALIBRATE neither calibrates nor synchronizes (rule R253). -/
theorem calibrateBody_of_no_chip {s : State} {mask : Byte} {w0 : Word} (hI : InstanceOk s.inst)
    (h : chipsBelow mask (calibrateCount s.inst w0) = []) :
    calibrateBody mask w0 (prechecked s) = .done (calibrating w0 s) := by
  have noMask : calibrateMask s.inst mask w0 = 0 := by
    rw [← chipsOf_eq_nil_iff hI (calibrateMask_valid ..), chipsOf_calibrateMask, h]
  rw [calibrateBody_eq, h, tapCalEach, Run.done_andThen, if_neg (not_not_intro noMask)]

theorem syncStatusWord_notAttempted : syncStatusWord (everyChip .notAttempted) = 0 := by
  decide

/-- Settles O55: there is no chip to work on, and what remains is the query, the read and the clearing of
SYNC_STATUS. -/
theorem calibrateOfNoChipOnlyReads : Obligations.CalibrateOfNoChipOnlyReads := by
  intro s mask w0 rest hI hm hp hw hl habove
  have noChip : chipsBelow mask (calibrateCount s.inst w0) = [] := by
    refine List.eq_nil_iff_forall_not_mem.mpr fun c hc => ?_
    obtain ⟨hbit, hlt⟩ := mem_chipsBelow.mp hc
    rw [calibrateCount_eq] at hlt
    exact Nat.not_lt.mpr (habove c hbit) (lt_min_iff.mp hlt).1
  have body := calibrateBody_of_no_chip hI noChip
  have he : exec (.calibrate mask) s = .next ((calibrating w0 s).complete (.syncStatus 0)) := by
    rw [execCalibrate_locked hm hp hw hl, body, ← syncStatusWord_notAttempted]
    rfl
  exact ⟨_, he, ⟨rfl, rfl, rfl, rfl⟩, calibrating_events w0 s, rfl, rfl, ⟨rfl, rfl, rfl, rfl, rfl⟩,
    clearSync_syncStatus _⟩

end Sys2Proof.Machine

/-! SUPPORT. READ_STATUS of the board status, and SET_CONFIG of a legal value (rules R262, R265). -/

namespace Sys2Proof.Machine

open Sys2Proof.Safety

/-! ## The board status -/

/-- One bit of a word, as a field of width 1 (rule R262). -/
theorem ofBool_getLsbD_eq_extractLsb' (w : Word) (b : Nat) :
    BitVec.ofBool (w.getLsbD b) = w.extractLsb' b 1 := by
  refine BitVec.eq_of_getLsbD_eq fun i hi => ?_
  obtain rfl := Nat.lt_one_iff.mp hi
  rw [BitVec.getLsbD_extractLsb']
  simp

/-- READ_STATUS of the board status: the read of word 0, and the response (rules R260, R262). -/
theorem execReadStatus_board {s : State} {w0 d : Word} {rest : List Word} {idx : Byte}
    (hw : s.env.word0 = w0 :: rest) (hidx : idx.toNat ≤ 3)
    (hd : boardField s.inst.layout w0 idx.toNat = d) :
    exec (.readStatus 7 idx) s = .next (s.readWord0.respond (readResponse d)) := by
  have mapped : inMap s.inst 7 idx = true := decide_eq_true hidx
  simp only [exec, execReadStatus, if_pos mapped, if_true, nextWord0_of_script hw, hd]

theorem readWord0_events (s : State) : s.readWord0.events = s.events ++ [.memRead 0] := by
  rw [State.readWord0, State.mapEnv_events, State.emit_events]

theorem readWord0_word0 {s : State} {w0 : Word} {rest : List Word}
    (hw : s.env.word0 = w0 :: rest) : s.readWord0.env.word0 = rest :=
  congrArg List.tail hw

/-- Settles O57: each index names its field, the two lock bits as fields of width 1; the state is that of
the read of word 0 with the response. -/
theorem readStatusOfTheBoardIsLive : Obligations.ReadStatusOfTheBoardIsLive := by
  rintro s w0 rest hw L ⟨idx, d⟩ hp
  obtain ⟨mapped, field⟩ : idx.toNat ≤ 3 ∧ boardField L w0 idx.toNat = d := by
    simp only [List.mem_cons, List.not_mem_nil, or_false, Prod.mk.injEq] at hp
    rcases hp with ⟨rfl, rfl⟩ | ⟨rfl, rfl⟩ | ⟨rfl, rfl⟩ | ⟨rfl, rfl⟩
    · exact ⟨by decide, congrArg (·.setWidth 32) (ofBool_getLsbD_eq_extractLsb' w0 _)⟩
    · exact ⟨by decide, congrArg (·.setWidth 32) (ofBool_getLsbD_eq_extractLsb' w0 _)⟩
    · exact ⟨by decide, rfl⟩
    · exact ⟨by decide, rfl⟩
  exact ⟨_, execReadStatus_board hw mapped field, rfl, readWord0_events s, readWord0_word0 hw, rfl,
    rfl, rfl, rfl, rfl, rfl, rfl, rfl⟩

/-! ## The configuration registers -/

/-- SET_CONFIG of a legal value is one write of the control registers (rule R265). -/
theorem execSetConfig_legal {field : BitVec 4} {value : Half} {s : State}
    (h : configLegal s.inst field value = true) : exec (.setConfig field value) s =
      .next ((s.mapCtl (Control.setField field value)).complete .none) := by
  simp only [exec, execSetConfig, if_pos h]

/-- Settles O59: the value is in the range of its field, and the field's register alone is written. -/
theorem setConfigWritesOneRegister : Obligations.SetConfigWritesOneRegister := by
  intro s field value ctl h
  obtain ⟨legal, written⟩ : configLegal s.inst field value = true ∧
      s.ctl.setField field value = ctl := by
    rcases h with ⟨rfl, fits, rfl⟩ | ⟨rfl, fits, rfl⟩ | ⟨rfl, nonzero, rfl⟩ | ⟨rfl, two, deep, rfl⟩
    · exact ⟨decide_eq_true fits, rfl⟩
    · exact ⟨decide_eq_true fits, rfl⟩
    · exact ⟨decide_eq_true fun zero => nonzero (BitVec.eq_of_toNat_eq zero), rfl⟩
    · exact ⟨decide_eq_true ⟨two, deep⟩, rfl⟩
  exact ⟨_, execSetConfig_legal legal, ⟨rfl, rfl, rfl, rfl⟩, ⟨rfl, rfl, rfl⟩, written, rfl,
    ⟨rfl, rfl, rfl, rfl, rfl⟩⟩

end Sys2Proof.Machine

/-! SUPPORT. Only a failed capture aborts the body of a calibration or of a synchronization pass (rules
R195, R228, R247). -/

namespace Sys2Proof.Machine

/-- The only error that can end the run early is a failed capture (rules R195, R240). -/
def Run.AbortsOnlyAtCapture (r : Run) : Prop := ∀ e i t, r = .abort e i t → e = .captureFailed

namespace Run.AbortsOnlyAtCapture

theorem done (s : State) : (Run.done s).AbortsOnlyAtCapture := fun _ _ _ h => nomatch h

theorem andThen {r : Run} {k : State → Run} (hr : r.AbortsOnlyAtCapture)
    (hk : ∀ s, (k s).AbortsOnlyAtCapture) : (r.andThen k).AbortsOnlyAtCapture := by
  intro e i t h
  rcases Run.andThen_eq_abort.mp h with first | ⟨s, -, second⟩
  · exact hr e i t first
  · exact hk s e i t second

theorem captureOrAbort {c : ChipId} {n : Nat} {s : State} {k : Samples → State → Run}
    (hk : ∀ S, (k S (s.takeCapture c n)).AbortsOnlyAtCapture) :
    (captureOrAbort c n s k).AbortsOnlyAtCapture := by
  rcases captureOrAbort_cases c n s k with ⟨-, failed⟩ | ⟨S, -, taken⟩
  · rw [failed]
    rintro _ _ _ ⟨⟩
    rfl
  · rw [taken]
    exact hk S

theorem tapCalBody (c : ChipId) (s : State) : (tapCalBody c s).AbortsOnlyAtCapture := by
  intro e i t h
  obtain ⟨-, failed, -⟩ := tapCalBody_stopped h
  exact failed

theorem tapCalEach (cs : List ChipId) (s : State) : (tapCalEach cs s).AbortsOnlyAtCapture := by
  induction cs generalizing s with
  | nil => exact done s
  | cons c cs ih => exact (tapCalBody c s).andThen ih

theorem syncRounds (c : ChipId) (k : Nat) (s : State) : (syncRounds c k s).AbortsOnlyAtCapture := by
  induction k generalizing s with
  | zero =>
    unfold Machine.syncRounds syncRecheck
    exact captureOrAbort fun _ => done _
  | succ k ih =>
    unfold Machine.syncRounds
    refine captureOrAbort fun S => ?_
    split
    · exact done _
    · exact ih _

theorem syncEach (cs : List ChipId) (s : State) : (syncEach cs s).AbortsOnlyAtCapture := by
  induction cs generalizing s with
  | nil => exact done s
  | cons c cs ih => exact (syncRounds c _ _).andThen ih

theorem syncVerifyBody (mask : Byte) (s : State) : (syncVerifyBody mask s).AbortsOnlyAtCapture :=
  syncEach _ _

theorem calibrateBody (mask : Byte) (w0 : Word) (s : State) :
    (calibrateBody mask w0 s).AbortsOnlyAtCapture := by
  refine (tapCalEach _ _).andThen fun u => ?_
  split
  · exact syncVerifyBody _ u
  · exact done u

end Run.AbortsOnlyAtCapture

end Sys2Proof.Machine

/-! SUPPORT. How every command reports its end (rules R38, R280, R289). -/

namespace Sys2Proof.Machine

/-- How command `i`, started in `s`, reports its end: by a completion, by an abort with a code other than
0, or, a READ_STATUS that succeeds, by the response alone (rules R260, R280, R289). -/
inductive ReportedEnd (s : State) : Instr → State → Prop where
  | complete {i : Instr} {d : ResponseData} {u : State} (h : ∀ sel idx, i ≠ .readStatus sel idx) :
      ReportedEnd s i (u.complete d)
  | raise {i : Instr} {e : ErrCode} {info : Word} {u : State} (h : e ≠ .ok) :
      ReportedEnd s i (u.raise e info)
  | read {sel idx : Byte} {d : Word} {u : State} (hf : u.fsm = s.fsm) (hs : u.status = s.status) :
      ReportedEnd s (.readStatus sel idx) (u.respond (readResponse d))

namespace ReportedEnd

variable {s t u : State} {i : Instr}

/-- A check of a command chooses between two ends. -/
theorem ite {p : Prop} [Decidable p] (ht : ReportedEnd s i t) (hu : ReportedEnd s i u) :
    ReportedEnd s i (if p then t else u) := by
  split
  · exact ht
  · exact hu

/-- The end of a command that is a run (rule R280). -/
theorem finish {r : Run} {d : State → ResponseData} (hr : r.AbortsOnlyAtCapture)
    (hi : ∀ sel idx, i ≠ .readStatus sel idx) : ReportedEnd s i (r.finish d) := by
  rcases finish_cases r d with ⟨v, -, e⟩ | ⟨err, info, v, aborted, e⟩
  · rw [e]
    exact .complete hi
  · rw [e, hr err info v aborted]
    exact .raise nofun

end ReportedEnd

/-- Every command answers a next state, in which it has reported its end (rules R280, R289). -/
theorem exec_reportedEnd (i : Instr) (s : State) : ∃ t, exec i s = .next t ∧ ReportedEnd s i t := by
  cases i <;> refine ⟨_, rfl, ?_⟩
  case illegal => exact .raise nofun
  case writeReg => exact .complete nofun
  case setCsMask => exact .ite (.complete nofun) (.raise nofun)
  case setDelayTap => exact .ite (.complete nofun) (.raise nofun)
  case bitslip => exact .ite (.complete nofun) (.raise nofun)
  case chipReset => exact .complete nofun
  case powerCycle => exact .complete nofun
  case selectPattern =>
    split
    · exact .raise nofun
    · exact .complete nofun
  case setCustomPattern => exact .ite (.complete nofun) (.raise nofun)
  case initializeChips => exact .ite (.complete nofun) (.raise nofun)
  case capture =>
    refine .ite (.ite ?_ (.raise nofun)) (.raise nofun)
    split
    · exact .raise nofun
    · exact .complete nofun
  case tapCal => exact .ite (.finish (.tapCalBody _ s) nofun) (.raise nofun)
  case syncVerify => exact .ite (.finish (.syncVerifyBody _ s) nofun) (.raise nofun)
  case calibrate =>
    exact .ite (.ite (.ite (.finish (.calibrateBody _ _ _) nofun) (.raise nofun)) (.raise nofun))
      (.raise nofun)
  case readStatus => exact .ite (.ite (.read rfl rfl) (.read rfl rfl)) (.raise nofun)
  case setConfig => exact .ite (.complete nofun) (.raise nofun)

/-- Settles O14: a completion and an abort write the phase, the response, LAST_ERR and ERR_INFO; a
READ_STATUS that succeeds writes the response alone, so its phase is the idle one it started in. -/
theorem everyCommandReportsItsEnd : Obligations.EveryCommandReportsItsEnd := by
  intro i s idle
  obtain ⟨t, he, reported⟩ := exec_reportedEnd i s
  refine ⟨t, ?_⟩
  cases reported with
  | complete other =>
    refine ⟨_, he, rfl, rfl, fun code => absurd rfl code, fun _ => rfl, ?_⟩
    rw [if_neg fun ⟨⟨sel, idx, read⟩, _⟩ => other sel idx read]
    exact ⟨rfl, rfl⟩
  | raise failed =>
    refine ⟨_, he, rfl, rfl, fun _ => rfl, fun code => absurd code failed, ?_⟩
    rw [if_neg fun ⟨_, code⟩ => failed code]
    exact ⟨rfl, rfl⟩
  | @read sel idx _ _ hf hs =>
    refine ⟨_, he, hf.trans idle, rfl, fun code => absurd rfl code, fun _ => rfl, ?_⟩
    rw [if_pos ⟨⟨sel, idx, rfl⟩, rfl⟩]
    exact hs

end Sys2Proof.Machine

/-! SUPPORT. Steps and runs of an idle block (rules R290, R292, R300). -/

namespace Sys2Proof.Machine

/-- Settles O6: the command that the port decodes to is the next one, and the idle block runs it. -/
theorem stepRunsTheDecodedCommand : Obligations.StepRunsTheDecodedCommand := by
  intro s i rest hI idle decoded
  exact (step_of_command hI (nextCommand_ok decoded)).trans (if_pos idle)

/-- A run whose first step answers a next state is the run from that state. -/
theorem run_succ {M : Host.Core} {s t : M.State} (h : M.step s = .next t) (k : Nat) :
    M.run (k + 1) s = M.run k t := by
  rw [Host.Core.run, h]

/-- Settles O13, by induction on the number of steps: an idle block whose parameters pass the checks
is never refused a step, and the step keeps the invariant and the parameters. -/
theorem runsNeverStop : Obligations.RunsNeverStop := by
  intro s hI inv k
  induction k generalizing s with
  | zero => exact ⟨s, rfl⟩
  | succ k ih =>
    obtain ⟨-, -, goesOn⟩ := stepRefusesOnlyWhatTheSpecDoesNotRun s
    obtain ⟨t, stepped⟩ := goesOn hI inv.idle
    obtain ⟨inv', sameInst⟩ := everyStepKeepsTheInvariant s t inv stepped
    rw [run_succ (M := core) stepped]
    exact ih t (sameInst ▸ hI) inv'

end Sys2Proof.Machine

/-! SUPPORT. The registers after reset, whatever the parameters of the board (rules R311, R312). -/

namespace Sys2Proof.Machine

open Sys2Proof.Safety

theorem everyChip_getElem {α : Type} (a : α) (c : ChipId) : (everyChip a)[c] = a :=
  Vector.getElem_replicate c.isLt

theorem reset_calResult (c : ChipId) (li : LaneId) : Tables.reset.calResult[c][li] = .none := by
  rw [Tables.reset, everyChip_getElem, everyLane_getElem]

theorem reset_goodMap (c : ChipId) (li : LaneId) : Tables.reset.goodMap[c][li] = 0 := by
  rw [Tables.reset, everyChip_getElem, everyLane_getElem]

theorem reset_errCount (t : Fin 32) (li : LaneId) : Tables.reset.errCount[t][li] = 0 :=
  (congrArg (·[li]) (Vector.getElem_replicate t.isLt)).trans (everyLane_getElem 0 li)

section

variable {I : Instance} (hI : InstanceOk I)
include hI

/-- CS_MASK names every chip of the board: the mask of the board's chips fits the register
(rules R23, R311). -/
theorem reset_csMask_toNat : (Control.reset I).csMask.toNat = 2 ^ I.nchips - 1 := by
  have fits : 2 ^ I.nchips ≤ 2 ^ 8 := Nat.pow_le_pow_right (by decide) (nchips_le I hI).2
  rw [Control.reset, onesMask, BitVec.toNat_ofNat]
  exact Nat.mod_eq_of_lt (by omega)

/-- CFG_SNAPLEN is the depth of the sampler, which fits the register (rules R6, R311). -/
theorem reset_cfgSnapLen_toNat : (Control.reset I).cfgSnapLen.toNat = I.snapDepth := by
  obtain ⟨-, fits⟩ := snapDepthOk_of I hI
  rw [Control.reset, BitVec.toNat_ofNat]
  exact Nat.mod_eq_of_lt (by omega)

end

/-- Settles O10. -/
theorem resetLeavesTheStatedValues : Obligations.ResetLeavesTheStatedValues := by
  intro I hI
  refine ⟨rfl, rfl, reset_csMask_toNat hI, rfl, rfl, rfl, reset_cfgSnapLen_toNat hI, ?status, rfl,
    syncStatusWord_notAttempted, ?chips, fun t li => reset_errCount t li, ?lastSweep, rfl, rfl⟩
  case status => exact (by decide : statusWord Status.reset .idle = 0)
  case chips =>
    intro c li
    exact ⟨congrArg CalResult.byte (reset_calResult c li), reset_goodMap c li⟩
  case lastSweep => exact (by decide : Tables.reset.lastSweep.byte = 0)

theorem reset_controlLegal {I : Instance} (hI : InstanceOk I) : ControlLegal (State.resetOf I) := by
  obtain ⟨two, -⟩ := snapDepthOk_of I hI
  have depth : (State.resetOf I).ctl.cfgSnapLen.toNat = I.snapDepth := reset_cfgSnapLen_toNat hI
  refine ⟨?csMask, (by decide : (1 : Half) ≠ 0), ?cfgSnapLen⟩
  case csMask => exact BitVec.and_not_self _
  case cfgSnapLen =>
    rw [depth]
    exact ⟨two, le_rfl⟩

theorem reset_tablesLegal {I : Instance} (hI : InstanceOk I) : TablesLegal (State.resetOf I) where
  results c li := .inl (reset_calResult c li)
  absentSync c _ := everyChip_getElem _ c
  absentResults c li _ := ⟨reset_calResult c li, reset_goodMap c li⟩
  heurSlip := BitVec.zero_and
  lastSweep := Nat.lt_of_lt_of_le (by decide : 0 < 4) (nchips_le I hI).1

/-- Settles O11: the registers are legal, and the block has written no word yet, so that nothing is
asked of the words and the receivers. -/
theorem resetMeetsTheInvariant : Obligations.ResetMeetsTheInvariant := by
  intro I hI
  have unwritten (w : Nat) : (State.resetOf I).board.rwi.read w = none := rfl
  exact
    { idle := rfl
      memory := List.Pairwise.nil
      control := reset_controlLegal hI
      tables := reset_tablesLegal hI
      quiet := ⟨fun w _ _ written => (nomatch (unwritten w).symm.trans written),
        fun _ _ _ written => (nomatch (unwritten 1).symm.trans written)⟩
      atRest := fun written => absurd (unwritten 0) written }

end Sys2Proof.Machine
